-- ==== Sys2Proof/Word.lean ====
section
/-! DEFINITION. The names of tubes, zones, lines and links, the words of the frames, and the fixed-size tables
indexed by those names. Nothing here depends on a rule's arithmetic. -/

namespace Sys2Proof

/-- One byte of a frame (R169). -/
abbrev Byte := BitVec 8

/-- A value of the 32-bit stack seconds counter, or a difference of two of them (R132). -/
abbrev Stamp := BitVec 32

/-- The four tubes (scope 4.5). -/
inductive TubeId where
  | t0 | t1 | t2 | t3
  deriving DecidableEq, Repr

/-- The five heater zones of a tube, load end first (scope 2). -/
inductive ZoneId where
  | z0 | z1 | z2 | z3 | z4
  deriving DecidableEq, Repr

/-- The four gas lines of a tube, in the order of their codes (R174). -/
inductive LineId where
  | purge | carrier | oxy | dopant
  deriving DecidableEq, Repr

/-- The five request links: one per tube controller, and C of the cell supervisor. -/
inductive LinkId where
  | tube (t : TubeId)
  | c
  deriving DecidableEq, Repr

/-- One value per tube. -/
structure PerTube (α : Type) where
  t0 : α
  t1 : α
  t2 : α
  t3 : α
  deriving DecidableEq, Repr

/-- One value per zone of a tube. -/
structure PerZone (α : Type) where
  z0 : α
  z1 : α
  z2 : α
  z3 : α
  z4 : α
  deriving DecidableEq, Repr

/-- One value per gas line of a tube. -/
structure PerLine (α : Type) where
  purge : α
  carrier : α
  oxy : α
  dopant : α
  deriving DecidableEq, Repr

/-- One value per request link. -/
structure PerLink (α : Type) where
  tube : PerTube α
  c : α
  deriving DecidableEq, Repr

/-- The tubes in the order of their numbers. -/
def TubeId.all : List TubeId := [.t0, .t1, .t2, .t3]

/-- The zones in the order of their numbers. -/
def ZoneId.all : List ZoneId := [.z0, .z1, .z2, .z3, .z4]

/-- The lines in the order of their codes. -/
def LineId.all : List LineId := [.purge, .carrier, .oxy, .dopant]

/-- The links, T0 to T3 and then C. -/
def LinkId.all : List LinkId := [.tube .t0, .tube .t1, .tube .t2, .tube .t3, .c]

/-- The number of a tube, which is also the byte that names it (R173). -/
def TubeId.toNat : TubeId → Nat
  | .t0 => 0
  | .t1 => 1
  | .t2 => 2
  | .t3 => 3

/-- The tube a number names, if it names one. -/
def TubeId.ofNat? : Nat → Option TubeId
  | 0 => some .t0
  | 1 => some .t1
  | 2 => some .t2
  | 3 => some .t3
  | _ => none

/-- The number of a zone. -/
def ZoneId.toNat : ZoneId → Nat
  | .z0 => 0
  | .z1 => 1
  | .z2 => 2
  | .z3 => 3
  | .z4 => 4

/-- The zone a number names, if it names one. -/
def ZoneId.ofNat? : Nat → Option ZoneId
  | 0 => some .z0
  | 1 => some .z1
  | 2 => some .z2
  | 3 => some .z3
  | 4 => some .z4
  | _ => none

/-- The code of a line. -/
def LineId.toNat : LineId → Nat
  | .purge => 0
  | .carrier => 1
  | .oxy => 2
  | .dopant => 3

/-- The line a code names, if it names one. -/
def LineId.ofNat? : Nat → Option LineId
  | 0 => some .purge
  | 1 => some .carrier
  | 2 => some .oxy
  | 3 => some .dopant
  | _ => none

/-- The link a number names in WRITE-RIGHTS: 0 to 3 for T0 to T3, 4 for C (R180). -/
def LinkId.ofNat? : Nat → Option LinkId
  | 0 => some (.tube .t0)
  | 1 => some (.tube .t1)
  | 2 => some (.tube .t2)
  | 3 => some (.tube .t3)
  | 4 => some .c
  | _ => none

section Tables
variable {α β : Type}

/-- The value of one tube. -/
def PerTube.get (v : PerTube α) : TubeId → α
  | .t0 => v.t0
  | .t1 => v.t1
  | .t2 => v.t2
  | .t3 => v.t3

/-- The table with one tube's value replaced. -/
def PerTube.set (v : PerTube α) (t : TubeId) (x : α) : PerTube α :=
  match t with
  | .t0 => { v with t0 := x }
  | .t1 => { v with t1 := x }
  | .t2 => { v with t2 := x }
  | .t3 => { v with t3 := x }

/-- The table of a function of the tube. -/
def PerTube.of (f : TubeId → α) : PerTube α := ⟨f .t0, f .t1, f .t2, f .t3⟩

/-- The value of one zone. -/
def PerZone.get (v : PerZone α) : ZoneId → α
  | .z0 => v.z0
  | .z1 => v.z1
  | .z2 => v.z2
  | .z3 => v.z3
  | .z4 => v.z4

/-- The table with one zone's value replaced. -/
def PerZone.set (v : PerZone α) (z : ZoneId) (x : α) : PerZone α :=
  match z with
  | .z0 => { v with z0 := x }
  | .z1 => { v with z1 := x }
  | .z2 => { v with z2 := x }
  | .z3 => { v with z3 := x }
  | .z4 => { v with z4 := x }

/-- The table of a function of the zone. -/
def PerZone.of (f : ZoneId → α) : PerZone α := ⟨f .z0, f .z1, f .z2, f .z3, f .z4⟩

/-- The table with every zone's value changed by a function of the zone and the value. -/
def PerZone.map (f : ZoneId → α → β) (v : PerZone α) : PerZone β :=
  ⟨f .z0 v.z0, f .z1 v.z1, f .z2 v.z2, f .z3 v.z3, f .z4 v.z4⟩

/-- The values, Z0 first. -/
def PerZone.toList (v : PerZone α) : List α := [v.z0, v.z1, v.z2, v.z3, v.z4]

/-- The sum of five figures. -/
def PerZone.sum (v : PerZone Nat) : Nat := v.z0 + v.z1 + v.z2 + v.z3 + v.z4

/-- The greatest of five figures. -/
def PerZone.max (v : PerZone Nat) : Nat := Nat.max v.z0 (Nat.max v.z1 (Nat.max v.z2 (Nat.max v.z3 v.z4)))

/-- Five zeros. -/
def PerZone.zero : PerZone Nat := ⟨0, 0, 0, 0, 0⟩

/-- The value of one line. -/
def PerLine.get (v : PerLine α) : LineId → α
  | .purge => v.purge
  | .carrier => v.carrier
  | .oxy => v.oxy
  | .dopant => v.dopant

/-- The table with one line's value replaced. -/
def PerLine.set (v : PerLine α) (l : LineId) (x : α) : PerLine α :=
  match l with
  | .purge => { v with purge := x }
  | .carrier => { v with carrier := x }
  | .oxy => { v with oxy := x }
  | .dopant => { v with dopant := x }

/-- The value of one link. -/
def PerLink.get (v : PerLink α) : LinkId → α
  | .tube t => v.tube.get t
  | .c => v.c

/-- The table with one link's value replaced. -/
def PerLink.set (v : PerLink α) (l : LinkId) (x : α) : PerLink α :=
  match l with
  | .tube t => { v with tube := v.tube.set t x }
  | .c => { v with c := x }

/-- The table of a function of the link. -/
def PerLink.of (f : LinkId → α) : PerLink α := ⟨PerTube.of fun t => f (.tube t), f .c⟩

end Tables

end Sys2Proof
end

