-- ==== Sys2Proof/Config.lean ====
section
/-! DEFINITION. The fixed numbers of the part, and the one value the manual leaves open, as an uninterpreted
constant. -/

namespace Sys2Proof.Config

/-- The direction a motion is given when the loader's position is none and the target lies below the mouth:
`true` for MOVING-IN. R120 says only that a position of none counts as below the mouth, which decides the
direction for a target at the mouth or above it alone; the n-th such motion takes the n-th value (log entry 3). -/
opaque freeDirection : Nat → Bool

/-- The most records a step queue holds (R4). -/
def queueCapacity : Nat := 16

/-- The most records a completion ring holds (R26). -/
def ringCapacity : Nat := 8

/-- The largest overwrite count (R26). -/
def maxOverwrites : Nat := 255

/-- The longest step duration, extension and counter, in seconds (R133). -/
def maxDuration : Nat := 1048575

/-- The largest setpoint number S (R30). -/
def maxS : Nat := 800000

/-- The reading at which a zone is over temperature at once, and the largest reading held (R44, R48). -/
def maxReading : Nat := 13000

/-- The longest frame body (R169, R171). -/
def maxBody : Nat := 240

/-- The step counter's reload worth, in seconds (R133). -/
def reloadSeconds : Nat := 4096

/-- How many starts, evaluations and passes one event may make before the rest is left due. No chain of the
rules is longer: a start takes a record of the at most 64 queued, a grant takes a claim of the at most 12
waiting (log entry 8). -/
def settleFuel : Nat := 600

end Sys2Proof.Config
end

