-- ==== Sys2Proof/Syntax.lean ====
section
/-! DEFINITION. The commands of the part: one constructor of `Instr` per row of spec/opcode_table.json. -/

namespace Sys2Proof

/-- The four dwell counters of a tube (R135). -/
inductive CounterKind where
  | step | recovery | holdback | admission
  deriving DecidableEq, Repr

/-- What is taken at a seconds boundary, each as an event of its own (R134, R107, R43, R128, R162, R80). -/
inductive BoundaryItem where
  | gas (t : TubeId)
  | holdbackSecond (t : TubeId)
  | counter (t : TubeId) (k : CounterKind)
  | stall (t : TubeId)
  | curtailFilter
  | exhaustFilter
  | pacing
  deriving DecidableEq, Repr

/-- What is taken at the end of a zone trajectory update interval, each as an event of its own (R31, R44). -/
inductive UpdateItem where
  | missed (t : TubeId) (z : ZoneId)
  | tube (t : TubeId)
  deriving DecidableEq, Repr

/-- The commands. A request carries the link it arrives on and the tag and body bytes of its frame (R169, R173):
its kind byte is the row's own. `order` and `later` of the two clock rows say in which order the events of the
moment are taken and which are left to be taken by their own rows (log entry 4). -/
inductive Instr where
  | powerOn (eStop : Bool)
  | appendStep (link : LinkId) (tag : Byte) (body : List Byte)
  | withdrawStep (link : LinkId) (tag : Byte) (body : List Byte)
  | flushQueue (link : LinkId) (tag : Byte) (body : List Byte)
  | resumeQueue (link : LinkId) (tag : Byte) (body : List Byte)
  | abortStep (link : LinkId) (tag : Byte) (body : List Byte)
  | suspendTube (link : LinkId) (tag : Byte) (body : List Byte)
  | resumeTube (link : LinkId) (tag : Byte) (body : List Byte)
  | extendStep (link : LinkId) (tag : Byte) (body : List Byte)
  | clearFault (link : LinkId) (tag : Byte) (body : List Byte)
  | readTube (link : LinkId) (tag : Byte) (body : List Byte)
  | readQueue (link : LinkId) (tag : Byte) (body : List Byte)
  | readCompletions (link : LinkId) (tag : Byte) (body : List Byte)
  | readGas (link : LinkId) (tag : Byte) (body : List Byte)
  | readEnvelope (link : LinkId) (tag : Byte) (body : List Byte)
  | readClaims (link : LinkId) (tag : Byte) (body : List Byte)
  | readStack (link : LinkId) (tag : Byte) (body : List Byte)
  | readAttention (link : LinkId) (tag : Byte) (body : List Byte)
  | armAttention (link : LinkId) (tag : Byte) (body : List Byte)
  | setMask (link : LinkId) (tag : Byte) (body : List Byte)
  | setLimits (link : LinkId) (tag : Byte) (body : List Byte)
  | writeCal (link : LinkId) (tag : Byte) (body : List Byte)
  | writeTube (link : LinkId) (tag : Byte) (body : List Byte)
  | writeRights (link : LinkId) (tag : Byte) (body : List Byte)
  | promoteClaim (link : LinkId) (tag : Byte) (body : List Byte)
  | openStack (link : LinkId) (tag : Byte) (body : List Byte)
  | closeStack (link : LinkId) (tag : Byte) (body : List Byte)
  | stackReset (link : LinkId) (tag : Byte) (body : List Byte)
  | clearStop (link : LinkId) (tag : Byte) (body : List Byte)
  | enterService (link : LinkId) (tag : Byte) (body : List Byte)
  | leaveService (link : LinkId) (tag : Byte) (body : List Byte)
  | serviceJog (link : LinkId) (tag : Byte) (body : List Byte)
  | serviceValve (link : LinkId) (tag : Byte) (body : List Byte)
  | serviceSetpoint (link : LinkId) (tag : Byte) (body : List Byte)
  | unknownKind (link : LinkId) (kind tag : Byte) (body : List Byte)
  | crcMismatch (link : LinkId) (bytes : List Byte)
  | frameLengthReject (link : LinkId) (length : Byte)
  | collectGapTimeout (link : LinkId)
  | answerSent (link : LinkId)
  | eStopAssert
  | eStopRelease
  | secondsBoundary (curtail exhaust : Bool) (order later : List BoundaryItem)
  | curtailAsserted
  | curtailReleased
  | exhaustLost
  | exhaustRestored
  | soakCounterExpiry (t : TubeId)
  | purgeCounterExpiry (t : TubeId)
  | recoveryCounterExpiry (t : TubeId)
  | holdbackCounterExpiry (t : TubeId)
  | admissionWaitExpiry (t : TubeId)
  | pacingTimeReached
  | motionStall (t : TubeId)
  | flowLow (t : TubeId) (line : LineId)
  | zoneUpdate (order later : List UpdateItem)
  | overTempArises (t : TubeId)
  | rampComplete (t : TubeId)
  | serviceRampComplete (t : TubeId)
  | zoneReading (t : TubeId) (z : ZoneId) (value : Nat) (isOpen : Bool)
  | zoneReadingMissed (t : TubeId) (z : ZoneId)
  | flowReport (t : TubeId) (line : LineId) (flow : Nat)
  | positionReport (t : TubeId) (position : Nat)
  | loaderArrival (t : TubeId) (position : Nat)
  | serviceJogArrival (t : TubeId) (position : Nat)
  | autoPurgeEnd (t : TubeId)
  | stepStart (t : TubeId)
  | claimGrant
  | headerClaimGrant
  | scrubberClaimGrant
  | frameStart (link : LinkId) (more : List Byte)
  deriving DecidableEq, Repr

end Sys2Proof
end

