-- ==== Sys2Proof/Decode.lean ====
section
/-! DEFINITION. The commands that words spell. The opcode table gives no row any bits, so no word spells a command: a request
reaches the part as the bytes of a frame on a link, and an event as a change in the part or its plant. -/

namespace Sys2Proof

/-- The command a word of so many bits spells: none, since no row of the table has bits. -/
def decodeTableWord (_nbits _w : Nat) : Option Instr := none

end Sys2Proof
end

