-- ==== Sys2Proof/Machine/State.lean ====
section
/-! DEFINITION. The state of the part as plain data, its reset value, and the reasons a step can stop. -/

namespace Sys2Proof.Machine

/-- The reasons a step can stop with a fault. There are none: every event of this part has an effect in the
spec, so nothing raises a fault (safe). -/
inductive Fault where
  deriving DecidableEq, Repr

/-- The reasons a step can be refused. -/
inductive Refusal where
  /-- Raised by exec's arm of a row that has no meaning yet; safe, since nothing is claimed of it. -/
  | notModelled (mnemonic : String)
  deriving DecidableEq, Repr

/-! ### The step record (R1) -/

/-- The notes of a step (R1). -/
structure Notes where
  levelClamped : Bool := false
  rateClamped : Bool := false
  speedClamped : Bool := false
  surchargeCapped : Bool := false
  auto : Bool := false
  deriving DecidableEq, Repr

/-- The seven step kinds (R1). -/
inductive StepKind where
  | ramp | soak | purge | gasSet | pushIn | pullOut | mark
  deriving DecidableEq, Repr

/-- A step's kind with its kind fields (R1). `none` is an absent optional field. -/
inductive StepBody where
  | ramp (rate : Nat) (band : Option Nat) (zones : List (ZoneId × Nat))
  | soak (duration : Nat) (band : Option Nat)
  | purge (flow duration : Nat)
  | gasSet (entries : List (LineId × Nat))
  | pushIn (target hotSpeed : Option Nat)
  | pullOut (target hotSpeed : Option Nat)
  | mark
  deriving DecidableEq, Repr

/-- A step record as the queue holds it, with its stored level and notes (R1). -/
structure StepRecord where
  id : Nat
  level : Nat
  calSet : Option (Fin 4)
  quiet : Bool
  notes : Notes
  body : StepBody
  deriving DecidableEq, Repr

/-! ### The tube sequencer (Chapter 1) -/

/-- The ten tube states (R7). -/
inductive TubeState where
  | off | idle | admitting | ramping | soaking | purging | moving | suspended | faultHold | service
  deriving DecidableEq, Repr

/-- Where a PULL-OUT stands against its automatic purge (R13, R17): it has none or it is over, its header claim
waits, or its PURGE line is open. -/
inductive AutoPurge where
  | none | waiting | running
  deriving DecidableEq, Repr

/-- The current step: its record, its start stamp (R10), its admission wait once known (R15), the band in force for it
(R40), and its automatic purge. -/
structure CurrentStep where
  step : StepRecord
  start : Stamp
  wait : Option Stamp
  band : Nat
  auto : AutoPurge
  deriving DecidableEq, Repr

/-- The outcomes of a step (R18). -/
inductive StepOutcome where
  | done | aborted | failed | faulted | stopped
  deriving DecidableEq, Repr

/-- The causes of a FAILED step (R27); `none` for the other outcomes. -/
inductive FailCause where
  | none | calInvalid | range | unsealed | exhaust | dopantOpen | admitTimeout
  deriving DecidableEq, Repr

/-- The six fault causes (R141). -/
inductive FaultCause where
  | tcOpen | overTemp | exhaustLost | holdbackTimeout | flowLow | motionStall
  deriving DecidableEq, Repr

/-- A set of fault causes, one mark per cause. -/
structure CauseSet where
  tcOpen : Bool := false
  overTemp : Bool := false
  exhaustLost : Bool := false
  holdbackTimeout : Bool := false
  flowLow : Bool := false
  motionStall : Bool := false
  deriving DecidableEq, Repr

/-- A completion record (R27). -/
structure CompletionRecord where
  id : Nat
  kind : StepKind
  outcome : StepOutcome
  failCause : FailCause
  faults : CauseSet
  start : Stamp
  run : Stamp
  wait : Stamp
  holdbackSeconds : Nat
  maxLag : Nat
  notes : Notes
  deriving DecidableEq, Repr

/-- The tube record (R28). -/
structure TubeRecord where
  zmax : PerZone Nat
  base : Nat
  mouth : Nat
  limit : Nat
  coldSpeed : Nat
  hotCap : Nat
  hotThreshold : Nat
  stallTime : Nat
  cdown : Nat
  band : Nat
  holdbackLimit : Nat
  overTempBand : Nat
  admissionLimit : Nat
  purgeVolume : Nat
  autoFlow : Nat
  deriving DecidableEq, Repr

/-! ### Zones, holdback and counters (Chapters 2, 3, 7) -/

/-- The direction of a listed zone (R32). -/
inductive Direction where
  | up | down | level
  deriving DecidableEq, Repr

/-- What the trajectory generator loads for a listed zone (R32), with the zone's start value. -/
structure ZoneRamp where
  target : Nat
  direction : Direction
  rate : Nat
  landed : Bool
  start : Nat
  deriving DecidableEq, Repr

/-- Which term of R65 decided a ceiling (R68). -/
inductive CeilingTerm where
  | admitted | zmax | openZone | zero
  deriving DecidableEq, Repr

/-- A zone channel: the trajectory state (R30, R32), the sensing state (R44, R48), the composed ceiling (R65), and
the values last sent on the zone drive link (R30, R67). `reported` tells whether a reading has arrived in the present
update interval (R44). -/
structure Zone where
  s : Nat
  f : Nat
  ramp : Option ZoneRamp
  pv : Nat
  isOpen : Bool
  reported : Bool
  missed : Nat
  excess : Nat
  ceiling : Nat
  term : CeilingTerm
  sentSetpoint : Nat
  sentCeiling : Nat
  deriving DecidableEq, Repr

/-- A loaded dwell counter (R133), whether the most recent boundary paused it (R139), and whether it was loaded since
the last boundary began, so that its first decrement is yet to come (R133). -/
structure DwellCounter where
  count : Nat
  reloads : Nat
  paused : Bool
  fresh : Bool
  deriving DecidableEq, Repr

/-- The holdback state of a tube (Chapter 2). -/
structure Holdback where
  asserted : Bool
  counter : Option DwellCounter
  seconds : Nat
  maxLag : Nat
  deriving DecidableEq, Repr

/-- A calibration set (R52). -/
structure CalSet where
  hold : PerZone Nat
  mass : PerZone Nat
  surcharge : Nat
  recovery : Nat
  valid : Bool
  deriving DecidableEq, Repr

/-! ### The envelope arbiter (Chapter 4) -/

/-- The stack second of a tube's most recent grant and its place among all grants (R70). -/
structure GrantMark where
  stamp : Stamp
  place : Nat
  deriving DecidableEq, Repr

/-- A grant record (R70): the zone shares and the surcharge parts; their sums are computed. -/
structure Grant where
  step : PerZone Nat
  surcharge : PerZone Nat
  mark : Option GrantMark
  deriving DecidableEq, Repr

/-- The kinds of claim in the Claim List (R75). -/
inductive ClaimKind where
  | step | resume | surcharge | service
  deriving DecidableEq, Repr

/-- How the most recent walk or evaluation treated a claim (R93, R113). -/
inductive Treatment where
  | masked | suspended | noFit | blocking | candidate | notReached
  deriving DecidableEq, Repr

/-- A claim in the Claim List (R75), with its place in joining order (R76, R86). -/
structure Claim where
  tube : TubeId
  kind : ClaimKind
  level : Nat
  values : PerZone Nat
  amount : Nat
  created : Stamp
  joined : Nat
  bypass : Nat
  counter : Option DwellCounter
  treatment : Treatment
  deriving DecidableEq, Repr

/-- An entry of the raise history (R81). -/
structure Raise where
  stamp : Stamp
  tube : TubeId
  deriving DecidableEq, Repr

/-- The stack-wide state of the envelope arbiter (Chapter 4). `joins` and `grants` number the claims in joining order and
the grants in the order taken. -/
structure Arbiter where
  limitE : Nat
  limitEc : Nat
  mask : Nat
  stagger : Nat
  window : Nat
  windowCount : Nat
  claims : List Claim
  history : List Raise
  pacing : Option Stamp
  shedding : Bool
  joins : Nat
  grants : Nat
  deriving DecidableEq, Repr

/-! ### The gas block (Chapter 5) -/

/-- A line record (R95); the open flag is computed. -/
structure Line where
  commanded : Nat
  measured : Nat
  flowLow : Bool
  lowCount : Nat
  deriving DecidableEq, Repr

/-- What a header claim is for (R104). -/
inductive Purpose where
  | step | auto
  deriving DecidableEq, Repr

/-- A header claim (R104). -/
structure HeaderClaim where
  tube : TubeId
  purpose : Purpose
  flow : Nat
  created : Stamp
  treatment : Treatment
  deriving DecidableEq, Repr

/-- A scrubber claim (R100). -/
structure ScrubberClaim where
  tube : TubeId
  created : Stamp
  treatment : Treatment
  deriving DecidableEq, Repr

/-- The stack-wide state of the gas block; the header allocation and the slots in use are computed. -/
structure GasBlock where
  capacity : Nat
  slots : Nat
  header : List HeaderClaim
  scrubber : List ScrubberClaim
  deriving DecidableEq, Repr

/-! ### The loader (Chapter 6) -/

/-- The loader states (R115). -/
inductive LoaderState where
  | stopped | movingIn | movingOut
  deriving DecidableEq, Repr

/-- The recovery states (R126). -/
inductive Recovery where
  | none | held | running
  deriving DecidableEq, Repr

/-- The travel copy (R119). -/
structure TravelCopy where
  base : Nat
  mouth : Nat
  limit : Nat
  coldSpeed : Nat
  hotCap : Nat
  hotThreshold : Nat
  stallTime : Nat
  deriving DecidableEq, Repr

/-- The loader controller of a tube (R115, R128). `stallFresh` tells that the stall count was loaded since the last
boundary began. -/
structure Loader where
  state : LoaderState
  position : Option Nat
  target : Option Nat
  segmentEnd : Option Nat
  speed : Option Nat
  travel : Option TravelCopy
  hotSpeed : Option Nat
  isSealed : Bool
  recovery : Recovery
  recoveryCounter : Option DwellCounter
  keptRecovery : Nat
  stallCount : Option Nat
  stallRef : Option Nat
  stallFresh : Bool
  deriving DecidableEq, Repr

/-! ### Faults and service (Chapters 8, 9) -/

/-- The fault monitor of a tube (R141): the cause set, the condition states (true for holding) and the entry stamp. -/
structure FaultMonitor where
  causes : CauseSet
  tcOpen : Bool
  overTemp : Bool
  exhaustLost : Bool
  entry : Option Stamp
  deriving DecidableEq, Repr

/-- The service ramp of a tube (Chapter 9); WAITING keeps the rate and the zone list to be loaded at the grant. -/
inductive ServiceRamp where
  | none
  | waiting (rate : Nat) (zones : List (ZoneId × Nat))
  | running
  deriving DecidableEq, Repr

/-- The service state of a tube (section 9.5): the ramp, the jog with its target, and the in-service marks. -/
structure Service where
  ramp : ServiceRamp
  jog : Option Nat
  carrier : Bool
  oxy : Bool
  deriving DecidableEq, Repr

/-- Everything the part holds for one tube. -/
structure Tube where
  state : TubeState
  remembered : Option TubeState
  shedPaused : Bool
  halted : Bool
  pointer : Fin 4
  queue : List StepRecord
  current : Option CurrentStep
  ring : List CompletionRecord
  overwrites : Nat
  record : TubeRecord
  recordValid : Bool
  zones : PerZone Zone
  holdback : Holdback
  stepCounter : Option DwellCounter
  cal1 : CalSet
  cal2 : CalSet
  cal3 : CalSet
  grant : Grant
  lines : PerLine Line
  owed : Bool
  credit : Nat
  remainder : Nat
  loader : Loader
  fault : FaultMonitor
  service : Service
  deriving DecidableEq, Repr

/-! ### The request links and attention (Chapter 10) -/

/-- The receiver states (R169). -/
inductive RxState where
  | hunt | collect | answer
  deriving DecidableEq, Repr

/-- The answer codes (R171). -/
inductive AnswerCode where
  | ok | denied | mode | service | full | duplicate | range | format | unknownId | notCurrent | started
  | state | persists | pending | unknownKind
  deriving DecidableEq, Repr

/-- The answer being sent on a link (R171); its start, length and CRC bytes follow from it. -/
structure Answer where
  kind : Byte
  tag : Byte
  code : AnswerCode
  body : List Byte
  deriving DecidableEq, Repr

/-- The five tube kinds of attention (R182). -/
inductive TubeKind where
  | stepDone | halted | fault | granted | shed
  deriving DecidableEq, Repr

/-- The attention flags of one tube on one link (R182). -/
structure TubeFlags where
  stepDone : Bool := false
  halted : Bool := false
  fault : Bool := false
  granted : Bool := false
  shed : Bool := false
  deriving DecidableEq, Repr

/-- The seven attention enables of a link (R183). -/
structure Enables where
  stepDone : Bool := false
  halted : Bool := false
  fault : Bool := false
  granted : Bool := false
  shed : Bool := false
  mode : Bool := false
  curtail : Bool := false
  deriving DecidableEq, Repr

/-- A request link (R169, R182, R183). The attention line is computed from the flags and enables. -/
structure Link where
  rx : RxState
  buffer : List Byte
  answer : Option Answer
  flags : PerTube TubeFlags
  modeFlag : Bool
  curtailFlag : Bool
  enables : Enables
  deriving DecidableEq, Repr

/-- An entry of the rights table (R179). -/
structure Rights where
  queue : Bool
  control : Bool
  observe : Bool
  floor : Nat
  deriving DecidableEq, Repr

/-! ### The stack -/

/-- The stack modes (R154). -/
inductive StackMode where
  | commission | run | stopped
  deriving DecidableEq, Repr

/-- A facility input filter: its filtered state and disagreement count (R162). -/
structure Filter where
  asserted : Bool
  count : Nat
  deriving DecidableEq, Repr

/-- What an event has made due and the end of the event discharges: evaluations of the three lists (R78, R105, R100)
and a shed pass (R87). -/
structure Due where
  claims : Bool
  header : Bool
  scrubber : Bool
  shed : Bool
  deriving DecidableEq, Repr

/-- What the most recent event sent on the field links (R30, R67, R95, R116). -/
inductive Sent where
  | drive (t : TubeId) (z : ZoneId) (setpoint ceiling : Nat)
  | ceiling (t : TubeId) (z : ZoneId) (ceiling : Nat)
  | gas (t : TubeId) (line : LineId) (flow : Nat)
  | move (t : TubeId) (segmentEnd speed : Nat)
  | stop (t : TubeId)
  deriving DecidableEq, Repr

/-- The state of the part, and the queue of commands that wait, first in, first out. -/
structure State where
  pending : List Instr
  mode : StackMode
  eStop : Bool
  curtailInput : Bool
  exhaustInput : Bool
  curtail : Filter
  exhaust : Filter
  seconds : Stamp
  tubes : PerTube Tube
  cal0 : CalSet
  arbiter : Arbiter
  gas : GasBlock
  links : PerLink Link
  rights : PerLink (PerTube Rights)
  due : Due
  boundaryDue : List BoundaryItem
  updateDue : List UpdateItem
  outbox : List Sent
  freeIndex : Nat
  deriving DecidableEq, Repr

/-! ### Reset -/

/-- A calibration set after power-on (R53). -/
def CalSet.reset : CalSet := ⟨.zero, .zero, 0, 0, false⟩

/-- A tube record with all fields 0 (R28). -/
def TubeRecord.reset : TubeRecord := ⟨.zero, 0, 0, 0, 0, 0, 0, 0, 0, 0, 0, 0, 0, 0, 0⟩

/-- A zone channel after power-on (R50, R69). -/
def Zone.reset : Zone := ⟨0, 0, none, 0, true, false, 0, 0, 0, .zero, 0, 0⟩

/-- No holdback (R50). -/
def Holdback.reset : Holdback := ⟨false, none, 0, 0⟩

/-- A closed line with no report yet (R114). -/
def Line.reset : Line := ⟨0, 0, false, 0⟩

/-- A loader after power-on (R131). -/
def Loader.reset : Loader :=
  ⟨.stopped, none, none, none, none, none, none, false, .none, none, 0, none, none, false⟩

/-- A fault monitor after power-on (R153). TC-OPEN holds, since every zone is open (R47, R50). -/
def FaultMonitor.reset : FaultMonitor := ⟨{}, true, false, false, none⟩

/-- The service state outside SERVICE (R168). -/
def Service.reset : Service := ⟨.none, none, false, false⟩

/-- A tube after power-on (R29, R50, R94, R114, R131, R140, R153, R168). -/
def Tube.reset : Tube :=
  { state := .off
    remembered := none
    shedPaused := false
    halted := false
    pointer := 0
    queue := []
    current := none
    ring := []
    overwrites := 0
    record := .reset
    recordValid := false
    zones := ⟨.reset, .reset, .reset, .reset, .reset⟩
    holdback := .reset
    stepCounter := none
    cal1 := .reset
    cal2 := .reset
    cal3 := .reset
    grant := ⟨.zero, .zero, none⟩
    lines := ⟨.reset, .reset, .reset, .reset⟩
    owed := true
    credit := 0
    remainder := 0
    loader := .reset
    fault := .reset
    service := .reset }

/-- The arbiter after power-on (R94). -/
def Arbiter.reset : Arbiter := ⟨0, 0, 0, 5, 60, 2, [], [], none, false, 0, 0⟩

/-- The gas block after power-on (R114). -/
def GasBlock.reset : GasBlock := ⟨0, 1, [], []⟩

/-- A link after power-on (R186). -/
def Link.reset : Link := ⟨.hunt, [], none, ⟨{}, {}, {}, {}⟩, false, false, {}⟩

/-- The default entry of link Tk for tube j (R179). -/
def Rights.ofTubeLink (k j : TubeId) : Rights :=
  if k = j then ⟨true, true, true, 2⟩ else ⟨false, false, true, 7⟩

/-- The rights table after power-on (R179). -/
def Rights.defaults : PerLink (PerTube Rights) :=
  PerLink.of fun l => PerTube.of fun j =>
    match l with
    | .tube k => Rights.ofTubeLink k j
    | .c => ⟨false, true, true, 0⟩

/-- Nothing due. -/
def Due.none : Due := ⟨false, false, false, false⟩

/-- The part right after power-on with E-STOP released (R155). -/
def State.reset : State :=
  { pending := []
    mode := .commission
    eStop := false
    curtailInput := false
    exhaustInput := false
    curtail := ⟨false, 0⟩
    exhaust := ⟨false, 0⟩
    seconds := 0
    tubes := ⟨.reset, .reset, .reset, .reset⟩
    cal0 := .reset
    arbiter := .reset
    gas := .reset
    links := ⟨⟨.reset, .reset, .reset, .reset⟩, .reset⟩
    rights := Rights.defaults
    due := Due.none
    boundaryDue := []
    updateDue := []
    outbox := []
    freeIndex := 0 }

end Sys2Proof.Machine
end

