-- ==== Sys2Proof/Machine/Counters.lean ====
section
/-! DEFINITION. The dwell counter (R133 to R137) and the stamps of the stack seconds counter (R132). -/

namespace Sys2Proof.Machine

/-- The remaining time of a loaded counter (R133). -/
def remaining (c : DwellCounter) : Nat := c.count + Config.reloadSeconds * c.reloads

/-- The count of a counter loaded with `d` (R133). -/
def splitCount (d : Nat) : Nat :=
  if d % Config.reloadSeconds = 0 then Config.reloadSeconds else d % Config.reloadSeconds

/-- The reloads of a counter loaded with `d` (R133). -/
def splitReloads (d : Nat) : Nat :=
  if d % Config.reloadSeconds = 0 then d / Config.reloadSeconds - 1 else d / Config.reloadSeconds

/-- A counter loaded with `d`, whose first decrement is at the next boundary (R133). -/
def loadCounter (d : Nat) : DwellCounter := ⟨splitCount d, splitReloads d, false, true⟩

/-- A counter loaded with a limit or time, or none where that is 0 (R15, R42, R126). -/
def loadUnlessZero (d : Nat) : Option DwellCounter := if d = 0 then none else some (loadCounter d)

/-- A counter with `e` seconds more, split again, its pause state as it was (R137). -/
def extendCounter (e : Nat) (c : DwellCounter) : DwellCounter :=
  { loadCounter (remaining c + e) with paused := c.paused, fresh := c.fresh }

/-- Whether a boundary that finds the counter so expires it (R134, R138). -/
def expires (isPaused : Bool) (c : DwellCounter) : Bool :=
  !c.fresh && !isPaused && c.count ≤ 1 && c.reloads == 0

/-- The counter after a boundary that does not expire it: left alone if loaded within this boundary (R133), paused,
decremented, or reloaded (R134). -/
def tick (isPaused : Bool) (c : DwellCounter) : DwellCounter :=
  if c.fresh then c
  else if isPaused then { c with paused := true }
  else if c.count ≤ 1 then { c with count := Config.reloadSeconds, reloads := c.reloads - 1, paused := false }
  else { c with count := c.count - 1, paused := false }

/-- The counter as a boundary begins: a loading before it takes its first decrement now (R133). -/
def settleFresh (c : DwellCounter) : DwellCounter := { c with fresh := false }

/-- The seconds from one stamp to a later one, modulo 2^32 (R132). -/
def elapsed (since now : Stamp) : Nat := (now - since).toNat

/-- A stamp and a number of seconds, modulo 2^32 (R132). -/
def later (since : Stamp) (seconds : Nat) : Stamp := since + BitVec.ofNat 32 seconds

end Sys2Proof.Machine
end

