-- ==== Sys2Proof/Machine/Ops.lean ====
section
/-! DEFINITION. Reading and changing the parts of the state, and the small figures computed from them. -/

namespace Sys2Proof.Machine

/-! ### Parts of the state -/

/-- One tube. -/
def State.tube (s : State) (t : TubeId) : Tube := s.tubes.get t

/-- The state with one tube changed. -/
def State.onTube (s : State) (t : TubeId) (f : Tube → Tube) : State :=
  { s with tubes := s.tubes.set t (f (s.tubes.get t)) }

/-- The state with every tube changed. -/
def State.onTubes (s : State) (f : Tube → Tube) : State :=
  { s with tubes := PerTube.of fun t => f (s.tubes.get t) }

/-- The state with one zone changed. -/
def State.onZone (s : State) (t : TubeId) (z : ZoneId) (f : Zone → Zone) : State :=
  s.onTube t fun u => { u with zones := u.zones.set z (f (u.zones.get z)) }

/-- The state with one tube's loader changed. -/
def State.onLoader (s : State) (t : TubeId) (f : Loader → Loader) : State :=
  s.onTube t fun u => { u with loader := f u.loader }

/-- The state with one tube's fault monitor changed. -/
def State.onFault (s : State) (t : TubeId) (f : FaultMonitor → FaultMonitor) : State :=
  s.onTube t fun u => { u with fault := f u.fault }

/-- The state with one line changed. -/
def State.onLine (s : State) (t : TubeId) (l : LineId) (f : Line → Line) : State :=
  s.onTube t fun u => { u with lines := u.lines.set l (f (u.lines.get l)) }

/-- The state with the current step of a tube changed, if there is one. -/
def State.onCurrent (s : State) (t : TubeId) (f : CurrentStep → CurrentStep) : State :=
  s.onTube t fun u => { u with current := u.current.map f }

/-- The state with the arbiter changed. -/
def State.onArbiter (s : State) (f : Arbiter → Arbiter) : State := { s with arbiter := f s.arbiter }

/-- The state with the gas block changed. -/
def State.onGas (s : State) (f : GasBlock → GasBlock) : State := { s with gas := f s.gas }

/-- One link. -/
def State.link (s : State) (l : LinkId) : Link := s.links.get l

/-- The state with one link changed. -/
def State.onLink (s : State) (l : LinkId) (f : Link → Link) : State :=
  { s with links := s.links.set l (f (s.links.get l)) }

/-- The state with every link changed. -/
def State.onLinks (s : State) (f : LinkId → Link → Link) : State :=
  { s with links := PerLink.of fun l => f l (s.links.get l) }

/-- The state with some evaluations made due. -/
def State.onDue (s : State) (f : Due → Due) : State := { s with due := f s.due }

/-- The state with one more message sent on a field link. -/
def State.send (s : State) (m : Sent) : State := { s with outbox := s.outbox ++ [m] }

/-- Make an evaluation of the Claim List due (R78). -/
def dueClaims (s : State) : State := s.onDue fun d => { d with claims := true }

/-- Make an evaluation of the header claim FIFO due (R105). -/
def dueHeader (s : State) : State := s.onDue fun d => { d with header := true }

/-- Make an evaluation of the scrubber claim FIFO due (R100). -/
def dueScrubber (s : State) : State := s.onDue fun d => { d with scrubber := true }

/-- Make a shed pass due (R87). -/
def dueShed (s : State) : State := s.onDue fun d => { d with shed := true }

/-- Make a shed pass due while the SHEDDING flag is set (R87). -/
def dueShedWhileShedding (s : State) : State :=
  s.onDue fun d => { d with shed := d.shed || s.arbiter.shedding }

/-! ### Figures of one tube -/

/-- The step total of a tube (R70). -/
def Tube.stepTotal (u : Tube) : Nat := u.grant.step.sum

/-- The surcharge total of a tube (R70). -/
def Tube.surchargeTotal (u : Tube) : Nat := u.grant.surcharge.sum

/-- The grant total of a tube (R70). -/
def Tube.grantTotal (u : Tube) : Nat := u.stepTotal + u.surchargeTotal

/-- The open flag of a line (R95). -/
def Line.isOpen (l : Line) : Bool := 0 < l.commanded

/-- The reported setpoint of a zone, in tenths (R30). -/
def Zone.reportedSetpoint (z : Zone) : Nat := z.s / 64

/-- The reported setpoints of a tube. -/
def Tube.setpoints (u : Tube) : PerZone Nat := u.zones.map fun _ z => z.reportedSetpoint

/-- The number of a tube's zones whose open flag is set (R47). -/
def Tube.openCount (u : Tube) : Nat := (u.zones.toList.filter fun z => z.isOpen).length

/-- The state a tube is in, or remembers while SUSPENDED (R20, R144). -/
def Tube.effective (u : Tube) : TubeState :=
  match u.state with
  | .suspended => u.remembered.getD .suspended
  | x => x

/-- Whether the tube is SUSPENDED. -/
def Tube.isSuspended (u : Tube) : Bool := u.state == .suspended

/-- Whether the loader is commanded to move (R115). -/
def Loader.isMoving (l : Loader) : Bool := l.state != .stopped

/-- Whether the current step is a PULL-OUT whose automatic purge waits or runs (R13, R17). -/
def CurrentStep.autoPending (c : CurrentStep) : Bool := c.auto != .none

/-! ### Figures of the stack -/

/-- The limit in force (R72). -/
def limitInForce (s : State) : Nat :=
  if s.curtail.asserted then s.arbiter.limitEc else s.arbiter.limitE

/-- The sum of the four grant totals (R72). -/
def grantSum (s : State) : Nat :=
  (s.tube .t0).grantTotal + (s.tube .t1).grantTotal + (s.tube .t2).grantTotal + (s.tube .t3).grantTotal

/-- The sum of the other three tubes' grant totals (R79). -/
def othersSum (s : State) (t : TubeId) : Nat := grantSum s - (s.tube t).grantTotal

/-- The header allocation: the sum of the commanded flows of the PURGE lines (R103). -/
def headerAllocation (s : State) : Nat :=
  (s.tube .t0).lines.purge.commanded + (s.tube .t1).lines.purge.commanded +
    (s.tube .t2).lines.purge.commanded + (s.tube .t3).lines.purge.commanded

/-- The slots in use: the number of tubes whose DOPANT line is open (Chapter 5). -/
def slotsInUse (s : State) : Nat :=
  (TubeId.all.filter fun t => (s.tube t).lines.dopant.isOpen).length

/-- The calibration set with a number, for a tube (R52). -/
def calSetOf (s : State) (t : TubeId) (n : Fin 4) : CalSet :=
  match n with
  | 0 => s.cal0
  | 1 => (s.tube t).cal1
  | 2 => (s.tube t).cal2
  | 3 => (s.tube t).cal3

/-- The calibration set in force for a tube (R55). -/
def calInForce (s : State) (t : TubeId) : CalSet := calSetOf s t (s.tube t).pointer

/-- The kind of a step body. -/
def StepBody.kind : StepBody → StepKind
  | .ramp .. => .ramp
  | .soak .. => .soak
  | .purge .. => .purge
  | .gasSet .. => .gasSet
  | .pushIn .. => .pushIn
  | .pullOut .. => .pullOut
  | .mark => .mark

/-- Whether a cause is in a set. -/
def CauseSet.has (c : CauseSet) : FaultCause → Bool
  | .tcOpen => c.tcOpen
  | .overTemp => c.overTemp
  | .exhaustLost => c.exhaustLost
  | .holdbackTimeout => c.holdbackTimeout
  | .flowLow => c.flowLow
  | .motionStall => c.motionStall

/-- The set with a cause added (R142). -/
def CauseSet.insert (c : CauseSet) : FaultCause → CauseSet
  | .tcOpen => { c with tcOpen := true }
  | .overTemp => { c with overTemp := true }
  | .exhaustLost => { c with exhaustLost := true }
  | .holdbackTimeout => { c with holdbackTimeout := true }
  | .flowLow => { c with flowLow := true }
  | .motionStall => { c with motionStall := true }

/-- Whether a set holds no cause. -/
def CauseSet.isEmpty (c : CauseSet) : Bool :=
  !c.tcOpen && !c.overTemp && !c.exhaustLost && !c.holdbackTimeout && !c.flowLow && !c.motionStall

end Sys2Proof.Machine
end

