-- ==== Sys2Proof/Machine/Flags.lean ====
section
/-! DEFINITION. Attention: raising flags, the enables, the attention line (section 10.5). -/

namespace Sys2Proof.Machine

/-- The flags with one kind's flag set. -/
def TubeFlags.raise (f : TubeFlags) : TubeKind → TubeFlags
  | .stepDone => { f with stepDone := true }
  | .halted => { f with halted := true }
  | .fault => { f with fault := true }
  | .granted => { f with granted := true }
  | .shed => { f with shed := true }

/-- Whether one kind's flag is set. -/
def TubeFlags.has (f : TubeFlags) : TubeKind → Bool
  | .stepDone => f.stepDone
  | .halted => f.halted
  | .fault => f.fault
  | .granted => f.granted
  | .shed => f.shed

/-- Whether any flag of the tube is set. -/
def TubeFlags.any (f : TubeFlags) : Bool := f.stepDone || f.halted || f.fault || f.granted || f.shed

/-- Raise a tube kind for a tube: its flag is set on every link whose rights entry for the tube, as it stands, holds QUEUE
or CONTROL (R182). -/
def raiseTube (k : TubeKind) (t : TubeId) (s : State) : State :=
  s.onLinks fun l link =>
    let r := (s.rights.get l).get t
    if r.queue || r.control then { link with flags := link.flags.set t ((link.flags.get t).raise k) } else link

/-- Raise MODE on all five links (R182, R154). -/
def raiseMode (s : State) : State := s.onLinks fun _ link => { link with modeFlag := true }

/-- Raise CURTAIL on all five links (R182, R162). -/
def raiseCurtail (s : State) : State := s.onLinks fun _ link => { link with curtailFlag := true }

/-- Whether a kind has at least one pending tube flag on a link. -/
def Link.pendingKind (link : Link) (k : TubeKind) : Bool :=
  (link.flags.t0.has k) || (link.flags.t1.has k) || (link.flags.t2.has k) || (link.flags.t3.has k)

/-- Whether any flag is pending on a link (R185). -/
def Link.pendingAny (link : Link) : Bool :=
  link.flags.t0.any || link.flags.t1.any || link.flags.t2.any || link.flags.t3.any || link.modeFlag || link.curtailFlag

/-- The attention line: asserted while a flag is set whose kind's enable is set (R183). -/
def Link.attentionLine (link : Link) : Bool :=
  (link.enables.stepDone && link.pendingKind .stepDone) || (link.enables.halted && link.pendingKind .halted) ||
    (link.enables.fault && link.pendingKind .fault) || (link.enables.granted && link.pendingKind .granted) ||
    (link.enables.shed && link.pendingKind .shed) || (link.enables.mode && link.modeFlag) ||
    (link.enables.curtail && link.curtailFlag)

/-- No tube flag set. -/
def noFlags : PerTube TubeFlags := ⟨{}, {}, {}, {}⟩

/-- The link after READ-ATTENTION: every flag cleared, and the enable of every kind that had a pending flag (R184). -/
def Link.readAttention (link : Link) : Link :=
  { link with
    flags := noFlags
    modeFlag := false
    curtailFlag := false
    enables :=
      { stepDone := link.enables.stepDone && !link.pendingKind .stepDone
        halted := link.enables.halted && !link.pendingKind .halted
        fault := link.enables.fault && !link.pendingKind .fault
        granted := link.enables.granted && !link.pendingKind .granted
        shed := link.enables.shed && !link.pendingKind .shed
        mode := link.enables.mode && !link.modeFlag
        curtail := link.enables.curtail && !link.curtailFlag } }

/-- The enables with those of a kind mask set (R183). -/
def Enables.arm (e : Enables) (mask : Byte) : Enables :=
  { stepDone := e.stepDone || mask.getLsbD 0
    halted := e.halted || mask.getLsbD 1
    fault := e.fault || mask.getLsbD 2
    granted := e.granted || mask.getLsbD 3
    shed := e.shed || mask.getLsbD 4
    mode := e.mode || mask.getLsbD 5
    curtail := e.curtail || mask.getLsbD 6 }

/-- A link with every flag and enable cleared (R161). -/
def Link.clearAttention (link : Link) : Link :=
  { link with flags := noFlags, modeFlag := false, curtailFlag := false, enables := {} }

/-- Whether any flag is pending on any of the five links (R157, R185). -/
def anyPending (s : State) : Bool := LinkId.all.any fun l => (s.link l).pendingAny

end Sys2Proof.Machine
end

