-- ==== Sys2Proof/Machine/Demand.lean ====
section
/-! DEFINITION. The demand arithmetic, the push surcharge, and the composition of zone ceilings (Chapter 3). -/

namespace Sys2Proof.Machine

/-! ### Demand (section 3.2) -/

/-- A quotient rounded up. -/
def ceilDiv (a b : Nat) : Nat := (a + b - 1) / b

/-- The hold demand at a temperature, from the hold coefficient (R56). -/
def holdDemand (coefficient temperature : Nat) : Nat := ceilDiv (coefficient * (temperature - 250)) 1000

/-- The hold share: the hold demand within the zone's rating (R56). -/
def holdShare (coefficient zmax temperature : Nat) : Nat := min (holdDemand coefficient temperature) zmax

/-- The ramp demand at a rate, from the mass coefficient (R57). -/
def rampDemand (coefficient rate : Nat) : Nat := ceilDiv (coefficient * rate) 10

/-- The zone share: hold and ramp demand together, within the zone's rating (R58). -/
def zoneShare (cal : CalSet) (zmax : PerZone Nat) (z : ZoneId) (temperature ramp : Nat) : Nat :=
  min (holdDemand (cal.hold.get z) temperature + ramp) (zmax.get z)

/-- The target a zone list gives a zone, if it lists it. -/
def targetIn (zones : List (ZoneId × Nat)) (z : ZoneId) : Option Nat :=
  (zones.find? fun e => e.1 == z).map Prod.snd

/-- The hold shares of a tube at its reported setpoints, with the set in force (R56, R59). -/
def holdShares (s : State) (t : TubeId) : PerZone Nat :=
  let u := s.tube t
  PerZone.of fun z =>
    holdShare ((calInForce s t).hold.get z) (u.record.zmax.get z) (u.zones.get z).reportedSetpoint

/-- The demand of a ramp before it is loaded: listed zones at their targets, with ramp demand where the target is above
the reported setpoint; other zones at their reported setpoints (R57, R58, R59). -/
def rampStepDemand (s : State) (t : TubeId) (rate : Nat) (zones : List (ZoneId × Nat)) : PerZone Nat :=
  let u := s.tube t
  let cal := calInForce s t
  PerZone.of fun z =>
    let sp := (u.zones.get z).reportedSetpoint
    match targetIn zones z with
    | some target =>
      zoneShare cal u.record.zmax z target (if sp < target then rampDemand (cal.mass.get z) rate else 0)
    | none => zoneShare cal u.record.zmax z sp 0

/-- The demand of a RESUME claim: listed zones at their targets, with ramp demand for UP zones that have not landed; other
zones at their reported setpoints (R57, R59). -/
def resumeDemand (s : State) (t : TubeId) : PerZone Nat :=
  let u := s.tube t
  let cal := calInForce s t
  PerZone.of fun z =>
    match (u.zones.get z).ramp with
    | some r =>
      zoneShare cal u.record.zmax z r.target
        (if r.direction = .up ∧ r.landed = false then rampDemand (cal.mass.get z) r.rate else 0)
    | none => zoneShare cal u.record.zmax z (u.zones.get z).reportedSetpoint 0

/-- Zone by zone the smaller of the tube's step share and its hold share (R18, R71, R88). -/
def loweredShare (s : State) (t : TubeId) : PerZone Nat :=
  let hold := holdShares s t
  PerZone.of fun z => min ((s.tube t).grant.step.get z) (hold.get z)

/-! ### Push surcharge (section 3.3) -/

/-- The headroom of each zone: its rating less its step share and the surcharge part it holds (R61). -/
def headrooms (s : State) (t : TubeId) : PerZone Nat :=
  let u := s.tube t
  PerZone.of fun z => u.record.zmax.get z - (u.grant.step.get z + u.grant.surcharge.get z)

/-- The admitted surcharge of a push (R62). -/
def admittedSurcharge (s : State) (t : TubeId) : Nat := min (calInForce s t).surcharge (headrooms s t).sum

/-- An amount laid out over the zones from Z0 upward, each taking what its headroom allows (R63). -/
def layOut (amount : Nat) (room : PerZone Nat) : PerZone Nat :=
  let p0 := min amount room.z0
  let p1 := min (amount - p0) room.z1
  let p2 := min (amount - p0 - p1) room.z2
  let p3 := min (amount - p0 - p1 - p2) room.z3
  let p4 := min (amount - p0 - p1 - p2 - p3) room.z4
  ⟨p0, p1, p2, p3, p4⟩

/-! ### Ceilings (section 3.4) -/

/-- The ceiling of a zone and the term that decided it (R65, R68). -/
def composedCeiling (s : State) (t : TubeId) (z : ZoneId) : Nat × CeilingTerm :=
  let u := s.tube t
  let zone := u.zones.get z
  let share := u.grant.step.get z + u.grant.surcharge.get z
  let zmax := u.record.zmax.get z
  let base := min share zmax
  let hold := holdShare ((calInForce s t).hold.get z) zmax zone.reportedSetpoint
  if u.fault.causes.overTemp || u.state == .off then (0, .zero)
  else if zone.isOpen && decide (hold < base) then (hold, .openZone)
  else if zmax < share then (zmax, .zmax)
  else (share, .admitted)

/-- A zone with a newly composed ceiling; a lowered one is sent at once, and a raised one goes out at the next update (R66,
R67). -/
def Zone.withCeiling (zone : Zone) (c : Nat × CeilingTerm) : Zone :=
  { zone with
    ceiling := c.1
    term := c.2
    sentCeiling := if c.1 < zone.ceiling then c.1 else zone.sentCeiling }

/-- Compose the ceiling of one zone again, and send one that falls (R66, R67). -/
def recomposeZone (t : TubeId) (s : State) (z : ZoneId) : State :=
  let c := composedCeiling s t z
  let s1 := s.onZone t z fun zone => zone.withCeiling c
  if c.1 < ((s.tube t).zones.get z).ceiling then s1.send (.ceiling t z c.1) else s1

/-- Compose the ceilings of a tube again (R66). DESIGN CHOICE (log entry 42): several that fall are sent in the order Z0 to Z4. -/
def recompose (t : TubeId) (s : State) : State := ZoneId.all.foldl (recomposeZone t) s

/-- Compose every ceiling of the stack again (R66). DESIGN CHOICE (log entry 42): several that fall are sent in the order T0 to
T3. -/
def recomposeAll (s : State) : State := TubeId.all.foldl (fun s t => recompose t s) s

end Sys2Proof.Machine
end

