-- ==== Sys2Proof/Machine/Envelope.lean ====
section
/-! DEFINITION. The grant record's writes, the Claim List's order, the walk and its pacing tests, and the choice of the
tube to shed (Chapter 4). -/

namespace Sys2Proof.Machine

/-! ### Writing the grant record (R70, R71) -/

/-- Write a tube's step share and surcharge share: the ceilings are recomposed, and a lowered grant total makes an
evaluation of the Claim List and, while SHEDDING is set, a shed pass due (R70). -/
def writeGrant (t : TubeId) (step surcharge : PerZone Nat) (s : State) : State :=
  let s1 := recompose t (s.onTube t fun u => { u with grant := { u.grant with step := step, surcharge := surcharge } })
  if step.sum + surcharge.sum < (s.tube t).grantTotal then dueShedWhileShedding (dueClaims s1) else s1

/-- Write a tube's step share and leave its surcharge share. -/
def writeStepShare (t : TubeId) (step : PerZone Nat) (s : State) : State :=
  writeGrant t step (s.tube t).grant.surcharge s

/-- The step-end lowering: each zone's share becomes the smaller of it and the hold share (R18, R71). -/
def lowerShare (t : TubeId) (s : State) : State := writeStepShare t (loweredShare s t) s

/-- Release a tube's surcharge share as a whole, the recovery state becoming NONE and any recovery counter being discarded
(R64, R126). -/
def releaseSurcharge (t : TubeId) (s : State) : State :=
  writeGrant t (s.tube t).grant.step .zero
    (s.onLoader t fun l => { l with recovery := .none, recoveryCounter := none })

/-- Set a tube's grant to 0, the recovery state becoming NONE and any recovery counter being discarded (R71, R126). -/
def zeroGrant (t : TubeId) (s : State) : State :=
  writeGrant t .zero .zero (s.onLoader t fun l => { l with recovery := .none, recoveryCounter := none })

/-- Send the ceiling of a zone as it stands. -/
def sendCeiling (t : TubeId) (s : State) (z : ZoneId) : State :=
  let c := ((s.tube t).zones.get z).ceiling
  (s.onZone t z fun zone => { zone with sentCeiling := c }).send (.ceiling t z c)

/-- The grant write for OVER-TEMP: the grant is set to 0, and every ceiling of the tube is 0 and is sent within the event, those
that fall by the write and those that stood at 0 (R146, R148). DESIGN CHOICE (log entry 39): in this order, each once. -/
def overTempGrant (t : TubeId) (s : State) : State :=
  (ZoneId.all.filter fun z => ((s.tube t).zones.get z).ceiling == 0).foldl (sendCeiling t) (zeroGrant t s)

/-- What becomes of a surcharge in HELD when its push is stopped: above the mouth the recovery counter is loaded with the
kept recovery time, and otherwise, or with a kept time of 0, the surcharge is released (R125, R126, R129). -/
def resolveHeld (t : TubeId) (s : State) : State :=
  let l := (s.tube t).loader
  if l.recovery = .held then
    let inside := match l.position with
      | some p => decide ((s.tube t).record.mouth < p)
      | none => false
    if inside && l.keptRecovery != 0 then
      s.onLoader t fun l => { l with recovery := .running, recoveryCounter := some (loadCounter l.keptRecovery) }
    else releaseSurcharge t s
  else s

/-! ### The Claim List (section 4.2) -/

/-- Whether one claim stands ahead of another: level ascending, then created ascending, then joining order (R76). -/
def Claim.ahead (a b : Claim) : Bool :=
  a.level < b.level ||
    (a.level == b.level &&
      (a.created.toNat < b.created.toNat || (a.created == b.created && a.joined < b.joined)))

/-- The list with a claim placed behind every claim ahead of it (R76). -/
def insertClaim (c : Claim) : List Claim → List Claim
  | [] => [c]
  | d :: ds => if d.ahead c then d :: insertClaim c ds else c :: d :: ds

/-- Place a claim in the Claim List: created now, no bypass, and its counter if it has one (R76, R85). -/
def placeClaim (t : TubeId) (kind : ClaimKind) (level : Nat) (values : PerZone Nat) (amount : Nat)
    (counter : Option DwellCounter) (s : State) : State :=
  dueClaims <| s.onArbiter fun a =>
    { a with
      claims := insertClaim ⟨t, kind, level, values, amount, s.seconds, a.joins, 0, counter, .notReached⟩ a.claims
      joins := a.joins + 1 }

/-- The claim a tube has waiting in the Claim List. -/
def claimOf (s : State) (t : TubeId) : Option Claim := s.arbiter.claims.find? fun c => c.tube == t

/-- Remove a tube's claim from the Claim List, its admission-wait counter going with it; a departure makes an evaluation due
(R77). -/
def removeClaim (t : TubeId) (s : State) : State :=
  if s.arbiter.claims.any fun c => c.tube == t then
    dueClaims (s.onArbiter fun a => { a with claims := a.claims.filter fun c => c.tube != t })
  else s

/-- Change a tube's claim where it stands. -/
def onClaim (t : TubeId) (f : Claim → Claim) (s : State) : State :=
  s.onArbiter fun a => { a with claims := a.claims.map fun c => if c.tube = t then f c else c }

/-! ### The walk (section 4.3) -/

/-- The new total a claim asks for, from the grant record as it stands (R79). -/
def newTotal (s : State) (c : Claim) : Nat :=
  match c.kind with
  | .surcharge => (s.tube c.tube).grantTotal + c.amount
  | _ => c.values.sum + (s.tube c.tube).surchargeTotal

/-- Whether a claim fits within the limit in force (R79). -/
def fits (s : State) (c : Claim) : Bool := othersSum s c.tube + newTotal s c ≤ limitInForce s

/-- A walk's outcome: the claims before the one it ended at, each as treated; the candidate, if one was found; the claims
behind the claim it ended at. -/
structure Walk where
  before : List Claim
  candidate : Option Claim
  behind : List Claim
  deriving DecidableEq, Repr

/-- The walk with one more claim passed over at its head. -/
def Walk.pass (w : Walk) (c : Claim) (tr : Treatment) : Walk := { w with before := { c with treatment := tr } :: w.before }

/-- The claims behind the one a walk ended at. -/
def unreached (cs : List Claim) : List Claim := cs.map fun c => { c with treatment := .notReached }

/-- The walk of the Claim List from the head (R79). -/
def walk (s : State) : List Claim → Walk
  | [] => ⟨[], none, []⟩
  | c :: cs =>
    if s.arbiter.mask ≤ c.level then (walk s cs).pass c .masked
    else if (s.tube c.tube).isSuspended then (walk s cs).pass c .suspended
    else if fits s c then ⟨[], some c, unreached cs⟩
    else if c.bypass < 3 then (walk s cs).pass c .noFit
    else ⟨[{ c with treatment := .blocking }], none, unreached cs⟩

/-- The n-th newest raise of the history, the newest being the first. -/
def nthNewest (history : List Raise) (n : Nat) : Option Raise := history.reverse[n - 1]?

/-- The stagger test: the history is empty, or the newest raise is at least ts old (R80). -/
def staggerPasses (s : State) : Bool :=
  match nthNewest s.arbiter.history 1 with
  | none => true
  | some r => s.arbiter.stagger ≤ elapsed r.stamp s.seconds

/-- The window test: fewer than Nw raises lie within the last Tw seconds (R80). -/
def windowPasses (s : State) : Bool :=
  (s.arbiter.history.filter fun r => elapsed r.stamp s.seconds < s.arbiter.window).length < s.arbiter.windowCount

/-- The seconds from now until a raise is as old as a span, 0 if it is so already. -/
def secondsShort (now : Stamp) (span : Nat) (r : Raise) : Nat := span - elapsed r.stamp now

/-- The first stack second at which both pacing tests would pass, none with an empty history: the later of the newest raise's stamp
plus ts and the Nw-th newest's plus Tw, worked out from the ages of the raises, as R132 has the tests worked out (R80). -/
def pacingTime (s : State) : Option Stamp :=
  (nthNewest s.arbiter.history 1).map fun newest =>
    let byStagger := secondsShort s.seconds s.arbiter.stagger newest
    let byWindow := (nthNewest s.arbiter.history s.arbiter.windowCount).elim 0 (secondsShort s.seconds s.arbiter.window)
    later s.seconds (max byStagger byWindow)

/-- The raise history with one more raise, the oldest dropped when four are held (R81). -/
def appendRaise (history : List Raise) (r : Raise) : List Raise :=
  if 4 ≤ history.length then history.tail ++ [r] else history ++ [r]

/-- The claims a grant passed over ahead of it, each bypass count raised that was eligible and did not fit (R82). -/
def bypassed (before : List Claim) : List Claim :=
  before.map fun c => if c.treatment = .noFit then { c with bypass := c.bypass + 1 } else c

/-! ### Shedding (section 4.5) -/

/-- Whether a tube is a shed candidate (R88). -/
def isShedCandidate (s : State) (t : TubeId) : Bool :=
  let u := s.tube t
  let floor := (loweredShare s t).sum
  u.state == .ramping && !u.shedPaused && decide (floor < u.stepTotal) && decide (floor < (resumeDemand s t).sum)

/-- The stored level of a tube's current step. -/
def currentLevel (s : State) (t : TubeId) : Nat :=
  match (s.tube t).current with
  | some c => c.step.level
  | none => 0

/-- The place of a tube's last grant among all grants, later ones greater; none is the least recent (R89). -/
def grantPlace (s : State) (t : TubeId) : Nat :=
  match (s.tube t).grant.mark with
  | some m => m.place + 1
  | none => 0

/-- Whether one candidate is shed before another: the higher level number, then the more recent grant (R89). -/
def shedsBefore (s : State) (a b : TubeId) : Bool :=
  currentLevel s b < currentLevel s a ||
    (currentLevel s a == currentLevel s b && grantPlace s b < grantPlace s a)

/-- The candidate a pass sheds next (R89). -/
def shedChoice (s : State) : Option TubeId :=
  (TubeId.all.filter (isShedCandidate s)).foldl
    (fun best t => match best with
      | none => some t
      | some b => if shedsBefore s t b then some t else some b) none

/-- Shed one tube: its sub-flag is set, its step share becomes the shed floor, a RESUME claim is placed at the RAMP's stored
level, and SHED is raised (R90). -/
def shedTube (t : TubeId) (s : State) : State :=
  let floor := loweredShare s t
  let demand := resumeDemand s t
  let s1 := s.onTube t fun u => { u with shedPaused := true }
  let s2 := writeStepShare t floor s1
  let s3 := placeClaim t .resume (currentLevel s t) demand (demand.sum - floor.sum) none s2
  raiseTube .shed t s3

/-- Shed candidates one at a time until the sum is within the limit or none remains (R87). -/
def shedLoop : Nat → State → State
  | 0, s => s
  | n + 1, s =>
    if grantSum s ≤ limitInForce s then s
    else match shedChoice s with
      | none => s
      | some t => shedLoop n (shedTube t s)

/-- Clear the SHEDDING flag, which makes an evaluation due (R87, R78). -/
def clearShedding (s : State) : State := dueClaims (s.onArbiter fun a => { a with shedding := false })

/-- A shed pass (R87). -/
def shedPass (s : State) : State :=
  let s0 := s.onDue fun d => { d with shed := false }
  if limitInForce s0 < grantSum s0 then
    let s1 := shedLoop 4 (s0.onArbiter fun a => { a with shedding := true })
    let s2 := s1.onDue fun d => { d with shed := false }
    if grantSum s2 ≤ limitInForce s2 then clearShedding s2 else s2
  else if s0.arbiter.shedding then clearShedding s0
  else s0

end Sys2Proof.Machine
end

