-- ==== Sys2Proof/Machine/Gas.lean ====
section
/-! DEFINITION. Gas lines, the purge header, scrubber slots and the purge account (Chapter 5). -/

namespace Sys2Proof.Machine

/-- A line with a new command: its low count becomes 0, and a closing clears its flow-low flag (R95). -/
def Line.command (l : Line) (flow : Nat) : Line :=
  { l with commanded := flow, lowCount := 0, flowLow := if flow = 0 then false else l.flowLow }

/-- Command a line; the command is sent within the event (R95). -/
def commandLine (t : TubeId) (l : LineId) (flow : Nat) (s : State) : State :=
  (s.onLine t l fun line => line.command flow).send (.gas t l flow)

/-- Close a tube's DOPANT line if it is open: the slot is released, the tube is owed, and its purge account goes to 0; the
scrubber FIFO is evaluated (R98). -/
def closeDopant (t : TubeId) (s : State) : State :=
  if (s.tube t).lines.dopant.isOpen then
    dueScrubber ((commandLine t .dopant 0 s).onTube t fun u => { u with owed := true, credit := 0, remainder := 0 })
  else s

/-- Close a tube's PURGE line if it is open; the allocation falls, so the header FIFO is evaluated (R103). -/
def closePurge (t : TubeId) (s : State) : State :=
  if (s.tube t).lines.purge.isOpen then dueHeader (commandLine t .purge 0 s) else s

/-- Take one entry of a GAS-SET's line list (R97). DESIGN CHOICE (log entry 35): a flow of 0 for a line already closed sends
nothing. -/
def applySetting (t : TubeId) (s : State) (e : LineId × Nat) : State :=
  if e.2 = 0 then
    if e.1 = .dopant then closeDopant t s
    else if ((s.tube t).lines.get e.1).isOpen then commandLine t e.1 0 s else s
  else commandLine t e.1 e.2 s

/-- Take the entries of a GAS-SET's line list in turn (R97, R99). -/
def applySettings (t : TubeId) (entries : List (LineId × Nat)) (s : State) : State := entries.foldl (applySetting t) s

/-- Whether a line list opens a DOPANT line that is closed (R10, R99). -/
def opensDopant (u : Tube) (entries : List (LineId × Nat)) : Bool :=
  !u.lines.dopant.isOpen && entries.any fun e => e.1 == .dopant && decide (0 < e.2)

/-- Place a header claim at the tail of the FIFO (R104). -/
def placeHeaderClaim (t : TubeId) (purpose : Purpose) (flow : Nat) (s : State) : State :=
  dueHeader <| s.onGas fun g => { g with header := g.header ++ [⟨t, purpose, flow, s.seconds, .notReached⟩] }

/-- Place a scrubber claim at the tail of the FIFO (R99, R100). -/
def placeScrubberClaim (t : TubeId) (s : State) : State :=
  dueScrubber <| s.onGas fun g => { g with scrubber := g.scrubber ++ [⟨t, s.seconds, .notReached⟩] }

/-- Remove a tube's header claim; a departure makes an evaluation due (R105). -/
def removeHeaderClaim (t : TubeId) (s : State) : State :=
  if s.gas.header.any fun c => c.tube == t then
    dueHeader (s.onGas fun g => { g with header := g.header.filter fun c => c.tube != t })
  else s

/-- Remove a tube's scrubber claim; a departure makes an evaluation due (R100). -/
def removeScrubberClaim (t : TubeId) (s : State) : State :=
  if s.gas.scrubber.any fun c => c.tube == t then
    dueScrubber (s.onGas fun g => { g with scrubber := g.scrubber.filter fun c => c.tube != t })
  else s

/-- Remove whatever claim a tube has waiting in the Claim List or a FIFO (R20, R144). -/
def removeClaims (t : TubeId) (s : State) : State := removeScrubberClaim t (removeHeaderClaim t (removeClaim t s))

/-! ### The purge account (section 5.5) -/

/-- The flow credited at a boundary: the lesser of the PURGE line's measured and commanded flow (R107). -/
def creditedFlow (u : Tube) : Nat := min u.lines.purge.measured u.lines.purge.commanded

/-- A tube credited for one boundary, if its PURGE line is open (R107). -/
def Tube.creditPurge (u : Tube) : Tube :=
  if u.lines.purge.isOpen then
    { u with
      credit := min (u.credit + (u.remainder + creditedFlow u) / 60) 65535
      remainder := (u.remainder + creditedFlow u) % 60 }
  else u

/-- The owed test: a set owed flag clears when the credit has reached the purge volume of a valid record (R108). -/
def Tube.testOwed (u : Tube) : Tube :=
  if u.owed && u.recordValid && decide (u.record.purgeVolume ≤ u.credit) then { u with owed := false } else u

/-- Whether a line is low: twice its measured flow is less than its command (R110). -/
def Line.isLow (l : Line) : Bool := 2 * l.measured < l.commanded

/-- A line after the flow-low test of a boundary; the flag of a line whose count reaches 10 is set (R110, R111). -/
def Line.testFlow (l : Line) : Line :=
  if l.isOpen then
    if l.isLow then
      { l with lowCount := min (l.lowCount + 1) 10, flowLow := l.flowLow || decide (9 ≤ l.lowCount) }
    else { l with lowCount := 0, flowLow := false }
  else l

/-- Whether the flow-low test of this boundary brings a line's low count to 10 (R111). -/
def Line.lowReached (l : Line) : Bool := l.isOpen && l.isLow && l.lowCount == 9

end Sys2Proof.Machine
end

