-- ==== Sys2Proof/Machine/Loader.lean ====
section
/-! DEFINITION. Segments, speeds and commands of the boat loaders (sections 6.1 to 6.3, 6.5). A motion's arrival is in
Sequencer.lean, since it ends a step. -/

namespace Sys2Proof.Machine

/-- The tube record values a motion copies when it begins (R119). -/
def travelCopy (r : TubeRecord) : TravelCopy :=
  ⟨r.base, r.mouth, r.limit, r.coldSpeed, r.hotCap, r.hotThreshold, r.stallTime⟩

/-- Whether a tube is sealed: its record is valid and its position equals the window limit (R118). -/
def sealedNow (u : Tube) : Bool := u.recordValid && u.loader.position == some u.record.limit

/-- Recompute the sealed condition; on its loss an open DOPANT line closes (R118, R102). -/
def recomputeSeal (t : TubeId) (s : State) : State :=
  let now := sealedNow (s.tube t)
  let lost := (s.tube t).loader.isSealed && !now
  let s1 := s.onLoader t fun l => { l with isSealed := now }
  if lost then closeDopant t s1 else s1

/-- The end of the first segment of a motion: the mouth if it lies between position and target, else the target; a position
of none counts as below the mouth (R120). -/
def firstSegmentEnd (position : Option Nat) (target mouth : Nat) : Nat :=
  match position with
  | none => if mouth < target then mouth else target
  | some p => if (p < mouth ∧ mouth < target) ∨ (mouth < p ∧ target < mouth) then mouth else target

/-- Whether a segment lies in the hot part (R121). -/
def segmentIsHot (position : Option Nat) (segmentEnd mouth : Nat) : Bool :=
  match position with
  | none => mouth < segmentEnd
  | some p => mouth < p || mouth < segmentEnd

/-- The hottest reported setpoint of a tube (R121). -/
def hottest (u : Tube) : Nat := u.setpoints.max

/-- The speed of a segment, and whether the hot cap cut it (R121). -/
def segmentSpeed (u : Tube) (travel : TravelCopy) (isHot : Bool) : Nat × Bool :=
  if isHot then
    let hot := u.loader.hotSpeed.getD travel.coldSpeed
    if travel.hotThreshold ≤ hottest u ∧ travel.hotCap < hot then (travel.hotCap, true) else (hot, false)
  else (travel.coldSpeed, false)

/-- Load the stall watch: the count with the stall time and the reference with the position (R128). -/
def Loader.loadStall (l : Loader) : Loader :=
  { l with stallCount := l.travel.map TravelCopy.stallTime, stallRef := l.position, stallFresh := true }

/-- Send a MOVE: the segment end and speed come into force and the stall watch is loaded (R116, R120, R128). -/
def sendMove (t : TubeId) (inward : Bool) (segmentEnd speed : Nat) (s : State) : State :=
  (s.onLoader t fun l =>
    { l with
      state := if inward then .movingIn else .movingOut
      segmentEnd := some segmentEnd
      speed := some speed }.loadStall).send (.move t segmentEnd speed)

/-- Begin a segment of a step's motion: choose its speed, set the "speed clamped" note if the hot cap cut it, and send the MOVE
(R121, R122). -/
def beginSegment (t : TubeId) (inward : Bool) (segmentEnd : Nat) (travel : TravelCopy) (s : State) : State :=
  let u := s.tube t
  let v := segmentSpeed u travel (segmentIsHot u.loader.position segmentEnd travel.mouth)
  let s1 := if v.2 then
      s.onCurrent t fun c => { c with step := { c.step with notes := { c.step.notes with speedClamped := true } } }
    else s
  sendMove t inward segmentEnd v.1 s1

/-- The direction of a segment, inward or not, for a position that is known. -/
def isInward (position segmentEnd : Nat) : Bool := position < segmentEnd

/-- Clear the motion: the loader STOPPED, the target, segment end, speed, travel copy and stall watch none (R123, R125,
R129). -/
def Loader.clearMotion (l : Loader) : Loader :=
  { l with
    state := .stopped
    target := none
    segmentEnd := none
    speed := none
    travel := none
    stallCount := none
    stallRef := none
    stallFresh := false }

/-- Stop a motion short for good: a STOP is sent if the loader is moving, and the motion is cleared (R116, R125, R129). -/
def stopLoader (t : TubeId) (s : State) : State :=
  let s1 := if (s.tube t).loader.isMoving then s.send (.stop t) else s
  s1.onLoader t Loader.clearMotion

/-- Stop a motion for a suspension: a STOP is sent, and the target and the travel copy are kept (R124). -/
def holdLoader (t : TubeId) (s : State) : State :=
  let s1 := if (s.tube t).loader.isMoving then s.send (.stop t) else s
  s1.onLoader t fun l =>
    { l with
      state := .stopped
      segmentEnd := none
      speed := none
      stallCount := none
      stallRef := none
      stallFresh := false }

/-- Whether a position lies at or beyond a place in the direction of the present segment (R122, R123). -/
def Loader.atOrBeyond (l : Loader) (position place : Nat) : Bool :=
  match l.state with
  | .movingIn => place ≤ position
  | .movingOut => position ≤ place
  | .stopped => false

/-- A position report against the stall reference: a change reloads the count and the reference (R128). -/
def Loader.watch (l : Loader) : Loader := if l.position = l.stallRef then l else l.loadStall

end Sys2Proof.Machine
end

