-- ==== Sys2Proof/Machine/Sequencer.lean ====
section
/-! DEFINITION. The tube sequencer: completion records, the end of a step, the beginning of each kind's work, and the
start of the queue head (Chapter 1), with the motions of PUSH-IN and PULL-OUT (Chapter 6) and the loading of ramps
(Chapter 2). -/

namespace Sys2Proof.Machine

/-! ### Completion records (section 1.7) -/

/-- A ring with one more record: the oldest goes when the ring is full (R26). -/
def pushRing (ring : List CompletionRecord) (r : CompletionRecord) : List CompletionRecord :=
  if Config.ringCapacity ≤ ring.length then ring.tail ++ [r] else ring ++ [r]

/-- Push a completion record; a push that overwrites raises the overwrite count, up to 255 (R26). -/
def Tube.push (u : Tube) (r : CompletionRecord) : Tube :=
  { u with
    ring := pushRing u.ring r
    overwrites := if Config.ringCapacity ≤ u.ring.length then min (u.overwrites + 1) Config.maxOverwrites else u.overwrites }

/-- How a step ends (R18). -/
inductive StepEnd where
  | done
  | aborted
  | failed (cause : FailCause)
  | faulted
  | stopped
  deriving DecidableEq, Repr

/-- The outcome of an end. -/
def StepEnd.outcome : StepEnd → StepOutcome
  | .done => .done
  | .aborted => .aborted
  | .failed _ => .failed
  | .faulted => .faulted
  | .stopped => .stopped

/-- The failure cause an end records (R27). -/
def StepEnd.failCause : StepEnd → FailCause
  | .failed c => c
  | _ => .none

/-- The fault causes an end records: for FAULTED, the set as it stands (R27, R143). -/
def StepEnd.faults (e : StepEnd) (u : Tube) : CauseSet := if e = .faulted then u.fault.causes else {}

/-- The admission wait of a step that ends: as taken at its grant, or from its start to its end if it ends while ADMITTING, or
0 (R15, R27). DEDUCED (log entry 41): a step that ends while SUSPENDED from ADMITTING ends while ADMITTING. -/
def admissionWait (now : Stamp) (u : Tube) (c : CurrentStep) : Stamp :=
  match c.wait with
  | some w => w
  | none => if u.effective = .admitting then now - c.start else 0

/-- Whether a step carries holdback figures (R27, R43). -/
def StepBody.hasHoldback : StepBody → Bool
  | .ramp .. => true
  | .soak .. => true
  | _ => false

/-- The completion record of a step's end (R27). -/
def mainRecord (now : Stamp) (u : Tube) (c : CurrentStep) (e : StepEnd) : CompletionRecord :=
  { id := c.step.id
    kind := c.step.body.kind
    outcome := e.outcome
    failCause := e.failCause
    faults := e.faults u
    start := c.start
    run := now - c.start
    wait := admissionWait now u c
    holdbackSeconds := if c.step.body.hasHoldback then u.holdback.seconds else 0
    maxLag := if c.step.body.hasHoldback then u.holdback.maxLag else 0
    notes := c.step.notes }

/-- The record of an automatic purge: kind PURGE, with the "auto" note (R17). -/
def autoRecord (now : Stamp) (u : Tube) (c : CurrentStep) (e : StepEnd) : CompletionRecord :=
  { mainRecord now u c e with kind := .purge, notes := { c.step.notes with auto := true } }

/-- The record of a PULL-OUT that ends before its pull: start stamp equal to its end, run time and admission wait 0 (R17). -/
def unpulledRecord (now : Stamp) (u : Tube) (c : CurrentStep) (e : StepEnd) : CompletionRecord :=
  { mainRecord now u c e with start := now, run := 0, wait := 0 }

/-- The tube with the records of a step's end pushed: two for a PULL-OUT whose automatic purge waits or runs (R17, R18). -/
def Tube.pushEnd (now : Stamp) (u : Tube) (c : CurrentStep) (e : StepEnd) : Tube :=
  if c.autoPending then (u.push (autoRecord now u c e)).push (unpulledRecord now u c e)
  else u.push (mainRecord now u c e)

/-! ### The end of a step (R18) -/

/-- Raise STEP-DONE for a tube unless the step is quiet. -/
def raiseStepDone (t : TubeId) (quiet : Bool) (s : State) : State := if quiet then s else raiseTube .stepDone t s

/-- The attention an end raises (R18). -/
def endAttention (t : TubeId) (quiet : Bool) : StepEnd → State → State
  | .done, s => raiseStepDone t quiet s
  | .aborted, s => raiseStepDone t quiet s
  | .failed _, s => raiseTube .halted t (raiseStepDone t quiet s)
  | .faulted, s => s
  | .stopped, s => s

/-- A zone whose ramp state is discarded (R35). -/
def Zone.dropRamp (z : Zone) : Zone :=
  match z.ramp with
  | some _ => { z with ramp := none, f := 0 }
  | none => z

/-- A tube whose ramp state is discarded (R35). -/
def Tube.dropRamps (u : Tube) : Tube := { u with zones := u.zones.map fun _ z => z.dropRamp }

/-- The tube left by an end: no current step, nothing of the step kept, and the state and halted flag R18 gives (a FAULTED or
STOPPED end leaves them to Chapters 8 and 9). -/
def Tube.leave (u : Tube) (e : StepEnd) : Tube :=
  let v := { u.dropRamps with
    current := none
    stepCounter := none
    shedPaused := false
    holdback := .reset
    loader := { u.loader with keptRecovery := 0, hotSpeed := none } }
  match e with
  | .done => { v with state := .idle, remembered := none }
  | .aborted => if u.isSuspended then { v with remembered := some .idle } else { v with state := .idle }
  | .failed _ => { v with state := .idle, remembered := none, halted := true }
  | .faulted => v
  | .stopped => v

/-- Whether an end makes the step-end lowering itself (R18). -/
def StepEnd.lowers : StepEnd → Bool
  | .done => true
  | .aborted => true
  | .failed _ => true
  | .faulted => false
  | .stopped => false

/-- The end of a tube's current step, its work having stopped (R18). The start of a following step is left to the end of the
event. -/
def endStep (t : TubeId) (e : StepEnd) (s : State) : State :=
  match (s.tube t).current with
  | none => s
  | some c =>
    let s1 := s.onTube t fun u => { u with holdback := { u.holdback with asserted := false, counter := none } }
    let s2 := if e.lowers then lowerShare t s1 else s1
    let s3 := s2.onTube t fun u => u.pushEnd s.seconds c e
    let s4 := endAttention t c.step.quiet e s3
    s4.onTube t fun u => u.leave e

/-! ### Ramps and soaks (Chapter 2) -/

/-- The direction of a listed zone (R32). -/
def directionTo (target : Nat) (z : Zone) : Direction :=
  if z.s < 64 * target then .up else if 64 * target < z.s then .down else .level

/-- The rate of a listed zone: a DOWN zone takes no more than the natural cooling rate (R32). -/
def zoneRate (rate cdown : Nat) : Direction → Nat
  | .down => min rate cdown
  | _ => rate

/-- A zone loaded for a ramp, if the zone list lists it (R32). -/
def Zone.load (rate cdown : Nat) (zones : List (ZoneId × Nat)) (z : ZoneId) (zone : Zone) : Zone :=
  match targetIn zones z with
  | none => zone
  | some target =>
    let d := directionTo target zone
    { zone with f := 0, ramp := some ⟨target, d, zoneRate rate cdown d, false, zone.s⟩ }

/-- A tube whose listed zones are loaded (R32). -/
def Tube.loadZones (u : Tube) (rate : Nat) (zones : List (ZoneId × Nat)) : Tube :=
  { u with zones := u.zones.map fun z zone => zone.load rate u.record.cdown zones z }

/-- Whether a listed zone takes the natural cooling rate because it is less than the step rate (R32). -/
def rateIsClamped (u : Tube) (rate : Nat) (zones : List (ZoneId × Nat)) : Bool :=
  decide (u.record.cdown < rate) &&
    ZoneId.all.any fun z =>
      match targetIn zones z with
      | none => false
      | some target => directionTo target (u.zones.get z) == .down

/-- The tube becomes RAMPING for its current RAMP: its zones are loaded, and holdback begins clear (R32, R40, R43). -/
def becomeRamping (t : TubeId) (rate : Nat) (zones : List (ZoneId × Nat)) (s : State) : State :=
  let clamped := rateIsClamped (s.tube t) rate zones
  let s1 := if clamped then
      s.onCurrent t fun c => { c with step := { c.step with notes := { c.step.notes with rateClamped := true } } }
    else s
  dueShedWhileShedding <| s1.onTube t fun u =>
    { u.loadZones rate zones with state := .ramping, shedPaused := false, holdback := .reset }

/-- The tube becomes SOAKING and its step counter is loaded with the duration (R11, R40, R43). -/
def becomeSoaking (t : TubeId) (duration : Nat) (s : State) : State :=
  s.onTube t fun u => { u with state := .soaking, holdback := .reset, stepCounter := some (loadCounter duration) }

/-- Set the admission wait of the current step: the seconds from its start stamp to now (R15). -/
def takeWait (t : TubeId) (s : State) : State :=
  s.onCurrent t fun c => { c with wait := some (s.seconds - c.start) }

/-! ### Motions (sections 6.2 and 6.3) -/

/-- A motion arrives: the loader stops, a push's recovery starts, a jog becomes NONE, and a step ends DONE (R123, R126,
R164). -/
def arrive (t : TubeId) (s : State) : State :=
  let s1 := s.onLoader t Loader.clearMotion
  if (s.tube t).state = .service then s1.onTube t fun u => { u with service := { u.service with jog := none } }
  else
    match (s.tube t).current with
    | none => s1
    | some c =>
      let l := (s.tube t).loader
      let s2 :=
        if c.step.body.kind = .pushIn ∧ l.recovery = .held then
          if l.keptRecovery = 0 then releaseSurcharge t s1
          else s1.onLoader t fun l => { l with recovery := .running, recoveryCounter := some (loadCounter l.keptRecovery) }
        else s1
      endStep t .done s2

/-- Run a motion from the present position towards its target with the travel copy held: it arrives at once if it stands there,
and otherwise begins its first segment (R120, R124). A position of none counts as below the mouth; the direction from it to a
target below the mouth is the free value of log entry 3. -/
def moveTowards (t : TubeId) (target : Nat) (s : State) : State :=
  let l := (s.tube t).loader
  match l.travel with
  | none => s
  | some travel =>
    if l.position = some target then arrive t s
    else
      let e := firstSegmentEnd l.position target travel.mouth
      match l.position with
      | some p => beginSegment t (isInward p e) e travel s
      | none =>
        if travel.mouth ≤ target then beginSegment t true e travel s
        else beginSegment t (Config.freeDirection s.freeIndex) e travel { s with freeIndex := s.freeIndex + 1 }

/-- Begin the motion of a PUSH-IN or PULL-OUT: the travel copy is taken and the target set (R119, R120). -/
def beginMotion (t : TubeId) (target : Nat) (s : State) : State :=
  moveTowards t target <| s.onTube t fun u =>
    { u with
      state := .moving
      loader := { u.loader with travel := some (travelCopy u.record), target := some target } }

/-- The target of the current PUSH-IN or PULL-OUT, resolved from the tube record (R1). -/
def StepBody.target (b : StepBody) (r : TubeRecord) : Nat :=
  match b with
  | .pushIn target _ => target.getD r.limit
  | .pullOut target _ => target.getD r.base
  | _ => r.base

/-- Begin the motion of the current step towards its target. -/
def beginStepMotion (t : TubeId) (s : State) : State :=
  match (s.tube t).current with
  | none => s
  | some c => beginMotion t (c.step.body.target (s.tube t).record) s

/-! ### The automatic purge (R17) -/

/-- The end of an automatic purge: the line closes, its record is pushed, STEP-DONE is raised unless the PULL-OUT is quiet, and the
pull begins with a start stamp of its own (R17). -/
def endAutoPurge (t : TubeId) (s : State) : State :=
  match (s.tube t).current with
  | none => s
  | some c =>
    let s1 := closePurge t s
    let s2 := s1.onTube t fun u => u.push (autoRecord s.seconds u c .done)
    let s3 := raiseStepDone t c.step.quiet s2
    let s4 := s3.onCurrent t fun c => { c with start := s.seconds, wait := some 0, auto := .none }
    beginStepMotion t s4

/-- Whether the moment of R17 has come: the tube is PURGING for an automatic purge and its owed flag is clear. -/
def autoPurgeOver (u : Tube) : Bool :=
  u.state == .purging && !u.owed && (match u.current with
    | some c => c.auto == .running
    | none => false)

/-- End the automatic purge if its moment has come (R17). -/
def checkAutoPurge (t : TubeId) (s : State) : State := if autoPurgeOver (s.tube t) then endAutoPurge t s else s

/-! ### Starting a step (section 1.4) -/

/-- Whether the head of a tube's queue becomes current (R9). -/
def canStart (u : Tube) : Bool := u.state == .idle && !u.halted && !u.queue.isEmpty

/-- The band in force for a step: its own, or the default of the tube record in force at its start (R1, R40). -/
def StepBody.band (b : StepBody) (r : TubeRecord) : Nat :=
  match b with
  | .ramp _ band _ => band.getD r.band
  | .soak _ band => band.getD r.band
  | _ => r.band

/-- The hot speed a PUSH-IN or PULL-OUT gives, if it gives one (R1). -/
def StepBody.hotSpeed : StepBody → Option Nat
  | .pushIn _ h => h
  | .pullOut _ h => h
  | _ => none

/-- Whether a step moves the boat. -/
def StepBody.isMotion : StepBody → Bool
  | .pushIn .. => true
  | .pullOut .. => true
  | _ => false

/-- Whether a given hot speed lies above the cold speed (R10). -/
def hotSpeedExceeds (hot : Option Nat) (cold : Nat) : Bool :=
  match hot with
  | some h => cold < h
  | none => false

/-- The start checks 2 to 4, the first check being passed (R10). -/
def startCheck (s : State) (u : Tube) (b : StepBody) : Option FailCause :=
  match b with
  | .gasSet entries =>
    if opensDopant u entries then
      if !u.loader.isSealed then some .unsealed else if !s.exhaust.asserted then some .exhaust else none
    else none
  | _ =>
    if b.isMotion then
      let target := b.target u.record
      if target < u.record.base ∨ u.record.limit < target ∨ hotSpeedExceeds b.hotSpeed u.record.coldSpeed then some .range
      else if u.lines.dopant.isOpen then some .dopantOpen
      else none
    else none

/-- The tube becomes ADMITTING. -/
def becomeAdmitting (t : TubeId) (s : State) : State := s.onTube t fun u => { u with state := .admitting }

/-- A step that passed its checks and asks for heater power: without a claim when the demand total is no more than the step
total, and otherwise with a STEP claim (R11). -/
def admitDemand (t : TubeId) (level : Nat) (demand : PerZone Nat) (proceed : State → State) (s : State) : State :=
  let total := (s.tube t).stepTotal
  if demand.sum ≤ total then proceed (takeWait t (writeStepShare t demand s))
  else
    becomeAdmitting t
      (placeClaim t .step level demand (demand.sum - total) (loadUnlessZero (s.tube t).record.admissionLimit) s)

/-- The start of a PUSH-IN: its surcharge is worked out, and it moves at once or claims (R13, R62). -/
def startPush (t : TubeId) (level : Nat) (hot : Option Nat) (s : State) : State :=
  let u := s.tube t
  let cal := calInForce s t
  let amount := admittedSurcharge s t
  let parts := layOut amount (headrooms s t)
  let s1 := s.onLoader t fun l =>
    { l with keptRecovery := cal.recovery, hotSpeed := some (hot.getD u.record.coldSpeed) }
  let s2 := if amount < cal.surcharge then
      s1.onCurrent t fun c => { c with step := { c.step with notes := { c.step.notes with surchargeCapped := true } } }
    else s1
  if amount = 0 then beginStepMotion t (takeWait t s2)
  else becomeAdmitting t (placeClaim t .surcharge level parts amount (loadUnlessZero u.record.admissionLimit) s2)

/-- The start of a PULL-OUT: it moves at once, or first runs an automatic purge while the tube is owed (R13). -/
def startPull (t : TubeId) (hot : Option Nat) (s : State) : State :=
  let u := s.tube t
  let s1 := s.onLoader t fun l => { l with hotSpeed := some (hot.getD u.record.coldSpeed) }
  if u.owed then
    becomeAdmitting t
      (placeHeaderClaim t .auto u.record.autoFlow (s1.onCurrent t fun c => { c with auto := .waiting }))
  else beginStepMotion t (takeWait t s1)

/-- A step that has passed its start checks proceeds as its kind requires (R11 to R14). -/
def proceedByKind (t : TubeId) (step : StepRecord) (s : State) : State :=
  match step.body with
  | .ramp rate _ zones =>
    admitDemand t step.level (rampStepDemand s t rate zones) (becomeRamping t rate zones) s
  | .soak duration _ => admitDemand t step.level (holdShares s t) (becomeSoaking t duration) s
  | .purge flow _ => becomeAdmitting t (placeHeaderClaim t .step flow s)
  | .gasSet entries =>
    if opensDopant (s.tube t) entries then becomeAdmitting t (placeScrubberClaim t s)
    else endStep t .done (applySettings t entries s)
  | .pushIn _ hot => startPush t step.level hot s
  | .pullOut _ hot => startPull t hot s
  | .mark => endStep t .done s

/-- The calibration check of a step's start: the cause if its set is not valid, and otherwise the state with the pointer moved to
the set it names (R10, R55, R66). -/
def startCalibration (t : TubeId) (step : StepRecord) (s : State) : Option State :=
  match step.calSet with
  | none => some s
  | some n =>
    if (calSetOf s t n).valid then some (recompose t (s.onTube t fun u => { u with pointer := n })) else none

/-- The head of a tube's queue becomes the current step, passes its start checks or ends FAILED, and proceeds (R9, R10). -/
def startStep (t : TubeId) (s : State) : State :=
  match (s.tube t).queue with
  | [] => s
  | step :: rest =>
    let s1 := s.onTube t fun u =>
      { u with queue := rest, current := some ⟨step, s.seconds, none, step.body.band u.record, .none⟩ }
    match startCalibration t step s1 with
    | none => endStep t (.failed .calInvalid) s1
    | some s2 =>
      match startCheck s2 (s2.tube t) step.body with
      | some cause => endStep t (.failed cause) s2
      | none => proceedByKind t step s2

end Sys2Proof.Machine
end

