-- ==== Sys2Proof/Machine/Evaluate.lean ====
section
/-! DEFINITION. Grants, the evaluations of the three lists, and the end of an event, where everything the event made due
is taken (sections 4.2, 4.3, 5.3, 5.4; R9). -/

namespace Sys2Proof.Machine

/-! ### Grants from the Claim List (R83) -/

/-- The tube proceeds after the grant of its claim (R83, stage 6). -/
def proceedGranted (c : Claim) (s : State) : State :=
  let t := c.tube
  match c.kind with
  | .step =>
    match (s.tube t).current with
    | none => s
    | some cur =>
      match cur.step.body with
      | .ramp rate _ zones => becomeRamping t rate zones (takeWait t s)
      | .soak duration _ => becomeSoaking t duration (takeWait t s)
      | _ => s
  | .surcharge =>
    beginStepMotion t (takeWait t (s.onLoader t fun l => { l with recovery := .held, recoveryCounter := none }))
  | .resume => dueShedWhileShedding (s.onTube t fun u => { u with shedPaused := false })
  | .service =>
    match (s.tube t).service.ramp with
    | .waiting rate zones =>
      s.onTube t fun u => { u.loadZones rate zones with service := { u.service with ramp := .running } }
    | _ => s

/-- The grant record as a claim's grant writes it (R71). -/
def writeGranted (c : Claim) (s : State) : State :=
  let g := (s.tube c.tube).grant
  match c.kind with
  | .surcharge =>
    writeGrant c.tube g.step (PerZone.of fun z => g.surcharge.get z + c.values.get z) s
  | _ => writeStepShare c.tube c.values s

/-- The grant of the candidate a walk found (R83, stages 1 to 6): the grant record and the last grant mark are written, the raise
is entered, bypass counts rise, the claim leaves, GRANTED is raised, and the tube proceeds. A departure makes the next
evaluation due (R78). -/
def grantClaim (w : Walk) (c : Claim) (s : State) : State :=
  let s1 := writeGranted c s
  let s2 := s1.onTube c.tube fun u =>
    { u with grant := { u.grant with mark := some ⟨s.seconds, s.arbiter.grants⟩ } }
  let s3 := s2.onArbiter fun a =>
    { a with
      grants := a.grants + 1
      history := appendRaise a.history ⟨s.seconds, c.tube⟩
      claims := bypassed w.before ++ w.behind }
  dueClaims (proceedGranted c (raiseTube .granted c.tube s3))

/-- One evaluation of a Claim List that holds a claim: the pacing time is discarded, the list is walked, and the candidate is granted
if the pacing tests pass (R79, R80). -/
def evaluateWaiting (s : State) : State :=
  let s0 := s.onArbiter fun a => { a with pacing := none }
  let w := walk s0 s0.arbiter.claims
  match w.candidate with
  | none => s0.onArbiter fun a => { a with claims := w.before ++ w.behind }
  | some c =>
    if s0.arbiter.shedding then
      s0.onArbiter fun a => { a with claims := w.before ++ { c with treatment := .candidate } :: w.behind }
    else if staggerPasses s0 && windowPasses s0 then grantClaim w c s0
    else
      s0.onArbiter fun a =>
        { a with
          claims := w.before ++ { c with treatment := .candidate } :: w.behind
          pacing := pacingTime s0 }

/-- One evaluation of the Claim List. With an empty list it does nothing (R78), so a pacing time stands. DEDUCED (log entry 9): R79's
discarding of the pacing time belongs to an evaluation of a list that holds a claim. -/
def evaluateClaims (s : State) : State :=
  let s0 := s.onDue fun d => { d with claims := false }
  if s0.arbiter.claims.isEmpty then s0 else evaluateWaiting s0

/-! ### The header claim FIFO (R105) -/

/-- A FIFO as an evaluation takes it: the claims of suspended tubes at its front, and the claim taken with those behind
it. -/
def splitHeader (s : State) : List HeaderClaim → List HeaderClaim × Option (HeaderClaim × List HeaderClaim)
  | [] => ([], none)
  | c :: cs =>
    if (s.tube c.tube).isSuspended then
      let r := splitHeader s cs
      ({ c with treatment := .suspended } :: r.1, r.2)
    else ([], some (c, cs))

/-- The claims of a header FIFO behind the claim at which an evaluation ended. -/
def unreachedHeader (cs : List HeaderClaim) : List HeaderClaim := cs.map fun c => { c with treatment := .notReached }

/-- The grant of a header claim: the PURGE line opens, GRANTED is raised, and the tube becomes PURGING, with its step counter
loaded for a PURGE step (R105, R12, R13). An automatic purge whose owed flag has cleared ends at once (R17). -/
def grantHeader (c : HeaderClaim) (s : State) : State :=
  let t := c.tube
  let s1 := raiseTube .granted t (commandLine t .purge c.flow s)
  let s2 := takeWait t s1
  let s3 := s2.onTube t fun u => { u with state := .purging }
  match c.purpose with
  | .step =>
    match (s.tube t).current with
    | none => s3
    | some cur =>
      match cur.step.body with
      | .purge _ duration => s3.onTube t fun u => { u with stepCounter := some (loadCounter duration) }
      | _ => s3
  | .auto => checkAutoPurge t (s3.onCurrent t fun c => { c with auto := .running })

/-- One evaluation of the header claim FIFO, up to its first grant, after which it is due again (R105). -/
def evaluateHeader (s : State) : State :=
  let s0 := s.onDue fun d => { d with header := false }
  let r := splitHeader s0 s0.gas.header
  match r.2 with
  | none => s0.onGas fun g => { g with header := r.1 }
  | some (c, cs) =>
    if headerAllocation s0 + c.flow ≤ s0.gas.capacity then
      dueHeader (grantHeader c (s0.onGas fun g => { g with header := r.1 ++ cs }))
    else s0.onGas fun g => { g with header := r.1 ++ { c with treatment := .noFit } :: unreachedHeader cs }

/-! ### The scrubber claim FIFO (R100) -/

/-- As `splitHeader`, for the scrubber FIFO. -/
def splitScrubber (s : State) : List ScrubberClaim → List ScrubberClaim × Option (ScrubberClaim × List ScrubberClaim)
  | [] => ([], none)
  | c :: cs =>
    if (s.tube c.tube).isSuspended then
      let r := splitScrubber s cs
      ({ c with treatment := .suspended } :: r.1, r.2)
    else ([], some (c, cs))

/-- The claims of a scrubber FIFO behind the claim at which an evaluation ended. -/
def unreachedScrubber (cs : List ScrubberClaim) : List ScrubberClaim :=
  cs.map fun c => { c with treatment := .notReached }

/-- The grant of a scrubber claim: every setting of its GAS-SET is taken, GRANTED is raised, and the step ends DONE (R99,
R100, R12). -/
def grantScrubber (c : ScrubberClaim) (s : State) : State :=
  let t := c.tube
  match (s.tube t).current with
  | none => raiseTube .granted t s
  | some cur =>
    match cur.step.body with
    | .gasSet entries => endStep t .done (raiseTube .granted t (applySettings t entries (takeWait t s)))
    | _ => raiseTube .granted t s

/-- One evaluation of the scrubber claim FIFO, up to its first grant or removal, after which it is due again (R100). -/
def evaluateScrubber (s : State) : State :=
  let s0 := s.onDue fun d => { d with scrubber := false }
  let r := splitScrubber s0 s0.gas.scrubber
  match r.2 with
  | none => s0.onGas fun g => { g with scrubber := r.1 }
  | some (c, cs) =>
    if !(s0.tube c.tube).loader.isSealed then
      dueScrubber (endStep c.tube (.failed .unsealed) (s0.onGas fun g => { g with scrubber := r.1 ++ cs }))
    else if decide (slotsInUse s0 < s0.gas.slots) && s0.exhaust.asserted then
      dueScrubber (grantScrubber c (s0.onGas fun g => { g with scrubber := r.1 ++ cs }))
    else s0.onGas fun g => { g with scrubber := r.1 ++ { c with treatment := .noFit } :: unreachedScrubber cs }

/-! ### The end of an event -/

/-- The first tube whose queue head can become current (R9). -/
def startable (s : State) : Option TubeId := TubeId.all.find? fun t => canStart (s.tube t)

/-- Whether nothing is left to be taken within the event. -/
def isSettled (s : State) : Bool :=
  (startable s).isNone && !s.due.scrubber && !s.due.header && !s.due.shed && !s.due.claims

/-- One thing taken within the event: a step start, an evaluation or a shed pass. A step's following start comes before the
evaluations its end made due (R18, R78); the order of the lists among themselves is the choice of log entry 7. -/
def settleOnce (s : State) : State :=
  match startable s with
  | some t => startStep t s
  | none =>
    if s.due.scrubber then evaluateScrubber s
    else if s.due.header then evaluateHeader s
    else if s.due.shed then shedPass s
    else if s.due.claims then evaluateClaims s
    else s

/-- Take what is due, one thing at a time, at most so many (log entry 8). -/
def settleLoop : Nat → State → State
  | 0, s => s
  | n + 1, s => if isSettled s then s else settleLoop n (settleOnce s)

/-- Take everything an event made due within the event (R9, R78, R87, R100, R105). -/
def settle (s : State) : State := settleLoop Config.settleFuel s

end Sys2Proof.Machine
end

