-- ==== Sys2Proof/Machine/Faults.lean ====
section
/-! DEFINITION. Stopping a tube's work, entry into FAULT-HOLD, fault reports (Chapter 8), and the stop clean-up (R158). -/

namespace Sys2Proof.Machine

/-- The work of a tube's step stops, according to the state the tube is in or remembers (R20, R144). A moving loader is sent its
STOP, and then a surcharge in HELD is treated by position (R125; R129, steps 1 and 2). DESIGN CHOICE (log entry 44): the STOP
stands in `outbox` before the ceilings that a release lowers; the rules give no order between messages on different links. -/
def stopWork (t : TubeId) (s : State) : State :=
  match (s.tube t).effective with
  | .admitting => removeClaims t s
  | .ramping => removeClaim t s
  | .purging => closePurge t s
  | .moving => resolveHeld t (stopLoader t s)
  | _ => s

/-- A cause joins a tube's set (R141, R142). -/
def joinCause (t : TubeId) (c : FaultCause) (s : State) : State :=
  s.onFault t fun f => { f with causes := f.causes.insert c }

/-- Entry into FAULT-HOLD, up to the evaluations (R143, stages 1 to 6). DESIGN CHOICE (log entry 43): an open DOPANT line is sent
its 0 before a PURGE line that the stopped work has left open. -/
def enterFaultHold (t : TubeId) (c : FaultCause) (s : State) : State :=
  let s1 := (joinCause t c s).onFault t fun f => { f with entry := some s.seconds }
  let s2 := stopWork t s1
  let s3 := closePurge t (closeDopant t s2)
  let s4 := if (s3.tube t).fault.causes.overTemp then overTempGrant t s3 else lowerShare t s3
  let s5 := endStep t .faulted s4
  let s6 := s5.onTube t fun u =>
    { u with state := .faultHold, halted := true, remembered := none, shedPaused := false }
  raiseTube .fault t s6

/-- Entry into FAULT-HOLD (R143). -/
def faultEntry (t : TubeId) (c : FaultCause) (s : State) : State := settle (enterFaultHold t c s)

/-- The service work of a tube stops at the joining of a cause (R163). -/
def stopServiceWork (t : TubeId) (c : FaultCause) (s : State) : State :=
  let s1 := match (s.tube t).service.jog with
    | some _ => (stopLoader t s).onTube t fun u => { u with service := { u.service with jog := none } }
    | none => s
  match (s.tube t).service.ramp with
  | .none => s1
  | .waiting _ _ => (removeClaim t s1).onTube t fun u => { u with service := { u.service with ramp := .none } }
  | .running =>
    let s2 := s1.onTube t fun u => { u.dropRamps with service := { u.service with ramp := .none } }
    if c = .overTemp then s2 else lowerShare t s2

/-- A cause that was not in the set arises for a tube in SERVICE (R149, R163). -/
def serviceFault (t : TubeId) (c : FaultCause) (s : State) : State :=
  let wasEmpty := (s.tube t).fault.causes.isEmpty
  let s1 := joinCause t c s
  let s2 := if wasEmpty then raiseTube .fault t (s1.onFault t fun f => { f with entry := some s.seconds }) else s1
  let s3 := stopServiceWork t c s2
  settle (if c = .overTemp then overTempGrant t s3 else s3)

/-- A cause that was not in the set arises for a tube in FAULT-HOLD (R148). -/
def faultHoldFault (t : TubeId) (c : FaultCause) (s : State) : State :=
  let s1 := joinCause t c s
  settle (if c = .overTemp then overTempGrant t s1 else s1)

/-- The condition state behind a cause, set (R141). -/
def setCondition (t : TubeId) (c : FaultCause) (holding : Bool) (s : State) : State :=
  s.onFault t fun f =>
    match c with
    | .tcOpen => { f with tcOpen := holding }
    | .overTemp => { f with overTemp := holding }
    | .exhaustLost => { f with exhaustLost := holding }
    | _ => f

/-- A report of an arising cause (R142). -/
def reportCause (t : TubeId) (c : FaultCause) (s : State) : State :=
  let s1 := setCondition t c true s
  match (s.tube t).state with
  | .off => s1
  | .faultHold => if (s.tube t).fault.causes.has c then s1 else faultHoldFault t c s1
  | .service => if (s.tube t).fault.causes.has c then s1 else serviceFault t c s1
  | _ => faultEntry t c s1

/-- Whether a condition cause in the set has its condition holding (R150). -/
def persists (f : FaultMonitor) : Bool :=
  (f.causes.tcOpen && f.tcOpen) || (f.causes.overTemp && f.overTemp) || (f.causes.exhaustLost && f.exhaustLost)

/-! ### The stop clean-up (R158) -/

/-- Stage 1 for one tube: the work of its current step stops and the step ends STOPPED. A loader SUSPENDED from MOVING is sent a
STOP too (R129). DEDUCED (log entry 45): a surcharge in HELD is treated by position here, as R144 and R129 give for fault entry,
so one that is released sends the ceilings it lowers before stage 5 sends every ceiling as 0. -/
def stopStep (s : State) (t : TubeId) : State :=
  let u := s.tube t
  match u.current with
  | none => s
  | some _ =>
    let s1 := if u.isSuspended && u.remembered == some .moving then s.send (.stop t) else s
    endStep t .stopped (stopWork t s1)

/-- Stage 2: every step queue and list is emptied. -/
def emptyLists (s : State) : State :=
  ((s.onTubes fun u => { u with queue := [] }).onArbiter fun a => { a with claims := [] }).onGas fun g =>
    { g with header := [], scrubber := [] }

/-- Stage 3 for one tube: every line is commanded to 0, an open DOPANT line with the effects of R98, and the in-service marks are
cleared. DESIGN CHOICE (log entry 43): the commands of 0 go out for DOPANT, PURGE, CARRIER and OXY in this order. -/
def closeLines (s : State) (t : TubeId) : State :=
  let s1 := if (s.tube t).lines.dopant.isOpen then closeDopant t s else commandLine t .dopant 0 s
  let s2 := commandLine t .oxy 0 (commandLine t .carrier 0 (commandLine t .purge 0 s1))
  s2.onTube t fun u => { u with service := { u.service with carrier := false, oxy := false } }

/-- Stage 4 for one tube: its loader stops, and a service jog with it. -/
def stopMotion (s : State) (t : TubeId) : State :=
  (stopLoader t s).onTube t fun u => { u with service := { u.service with jog := none } }

/-- A zone whose setpoint and ceiling go to 0 and are sent. -/
def Zone.dark (z : Zone) : Zone := { z with s := 0, f := 0, ceiling := 0, term := .zero, sentSetpoint := 0, sentCeiling := 0 }

/-- The setpoint and ceiling of a zone, 0 and 0, sent on the zone drive link. -/
def sendDark (t : TubeId) (s : State) (z : ZoneId) : State := s.send (.drive t z 0 0)

/-- Every setpoint and ceiling of a tube goes to 0 and is sent within the event (R157, R158). DESIGN CHOICE (log entry 42): in
the order Z0 to Z4. -/
def darken (t : TubeId) (s : State) : State :=
  ZoneId.all.foldl (sendDark t) (s.onTube t fun u => { u with zones := u.zones.map fun _ z => z.dark })

/-- Stage 5 for one tube: its grant, setpoints and ceilings go to 0. DESIGN CHOICE (log entry 42): the ceilings that the grant
write lowers are sent by that write (R67), and then every zone's setpoint and ceiling of 0. -/
def cutPower (s : State) (t : TubeId) : State := darken t (zeroGrant t s)

/-- Stage 6 for one tube: it becomes OFF with its cause set empty. -/
def Tube.switchOff (u : Tube) : Tube :=
  { u.dropRamps with
    state := .off
    remembered := none
    shedPaused := false
    holdback := .reset
    stepCounter := none
    zones := u.dropRamps.zones.map fun _ z => { z with excess := 0 }
    fault := { u.fault with causes := {}, entry := none, overTemp := false, exhaustLost := false }
    service := .reset }

/-- The stop clean-up (R158). DESIGN CHOICE (log entries 42, 43, 44): each stage takes the tubes from T0 to T3. No
list is evaluated: all are empty, and the pacing time and the SHEDDING flag go. -/
def stopCleanUp (s : State) : State :=
  let s1 := TubeId.all.foldl stopStep s
  let s2 := TubeId.all.foldl closeLines (emptyLists s1)
  let s3 := TubeId.all.foldl stopMotion s2
  let s4 := (TubeId.all.foldl cutPower s3).onArbiter fun a => { a with pacing := none, shedding := false }
  (s4.onTubes Tube.switchOff).onDue fun _ => Due.none

end Sys2Proof.Machine
end

