-- ==== Sys2Proof/Machine/Operands.lean ====
section
/-! DEFINITION. The bytes of frames: the CRC, the fields of request bodies, step records, and the encodings of answers
(sections 10.1 to 10.3). -/

namespace Sys2Proof.Machine

/-! ### Numbers (R174) -/

/-- Two bytes, most significant first. -/
def num2 (a b : Byte) : Nat := 256 * a.toNat + b.toNat

/-- Four bytes, most significant first. -/
def num4 (a b c d : Byte) : Nat := 16777216 * a.toNat + 65536 * b.toNat + 256 * c.toNat + d.toNat

/-- A number in one byte. -/
def enc1 (n : Nat) : List Byte := [BitVec.ofNat 8 n]

/-- A number in two bytes, most significant first. -/
def enc2 (n : Nat) : List Byte := [BitVec.ofNat 8 (n / 256), BitVec.ofNat 8 n]

/-- A number in four bytes, most significant first. -/
def enc4 (n : Nat) : List Byte :=
  [BitVec.ofNat 8 (n / 16777216), BitVec.ofNat 8 (n / 65536), BitVec.ofNat 8 (n / 256), BitVec.ofNat 8 n]

/-- A stamp in four bytes. -/
def encStamp (x : Stamp) : List Byte := enc4 x.toNat

/-- A value that may be none: a presence byte, then the value's bytes, 0 when it is none. -/
def encOption {α : Type} (size : Nat) (f : α → List Byte) : Option α → List Byte
  | none => 0 :: List.replicate size 0
  | some x => 1 :: f x

/-- One bit of a flag byte. -/
def flagBit (b : Bool) (n : Nat) : Nat := if b then 2 ^ n else 0

/-! ### Frames (R169, R170) -/

/-- The start byte of a request frame. -/
def startByte : Byte := 0xC3

/-- One bit shifted out of the CRC register, with the generator x^16 + x^12 + x^5 + 1 (R170). -/
def crcShift (r : BitVec 16) : BitVec 16 := if r.msb then (r <<< 1) ^^^ 0x1021#16 else r <<< 1

/-- One byte taken into the CRC register, most significant bit first (R170). -/
def crcByte (r : BitVec 16) (b : Byte) : BitVec 16 :=
  let x := r ^^^ (b.setWidth 16 <<< 8)
  crcShift (crcShift (crcShift (crcShift (crcShift (crcShift (crcShift (crcShift x)))))))

/-- The CRC of bytes, the register started at 0xFFFF and not inverted at the end (R170). -/
def crc (bytes : List Byte) : BitVec 16 := bytes.foldl crcByte 0xFFFF#16

/-- A CRC as sent: most significant byte first (R170). -/
def crcBytes (x : BitVec 16) : List Byte := [x.extractLsb' 8 8, x.extractLsb' 0 8]

/-- The bytes of a request frame (R169, R170). -/
def requestFrame (kind tag : Byte) (body : List Byte) : List Byte :=
  let inner := BitVec.ofNat 8 body.length :: kind :: tag :: body
  startByte :: inner ++ crcBytes (crc inner)

/-- The code byte of an answer (R171). -/
def AnswerCode.toNat : AnswerCode → Nat
  | .ok => 0
  | .denied => 1
  | .mode => 2
  | .service => 3
  | .full => 4
  | .duplicate => 5
  | .range => 6
  | .format => 7
  | .unknownId => 8
  | .notCurrent => 9
  | .started => 10
  | .state => 11
  | .persists => 12
  | .pending => 13
  | .unknownKind => 14

/-- The bytes of an answer frame (R171). -/
def answerFrame (a : Answer) : List Byte :=
  let inner := BitVec.ofNat 8 a.body.length :: a.kind :: a.tag :: BitVec.ofNat 8 a.code.toNat :: a.body
  0x3C#8 :: inner ++ crcBytes (crc inner)

/-- Whether bytes are the beginning of a frame that is not yet complete (R169). -/
def isPartialFrame (bytes : List Byte) : Bool :=
  match bytes with
  | [] => false
  | [b] => b == startByte
  | b :: n :: _ => b == startByte && n.toNat ≤ Config.maxBody && bytes.length < 6 + n.toNat

/-- Whether the bytes after a start byte complete a frame (R169). -/
def completesFrame (bytes : List Byte) : Bool :=
  match bytes with
  | [] => false
  | n :: _ => n.toNat ≤ Config.maxBody && bytes.length == 5 + n.toNat

/-- Whether the CRC of the bytes after a start byte matches (R170). -/
def crcMatches (bytes : List Byte) : Bool :=
  bytes.drop (bytes.length - 2) == crcBytes (crc (bytes.take (bytes.length - 2)))

/-- The kind codes of the requests (R173). -/
def requestKinds : List Byte :=
  [0x11, 0x12, 0x13, 0x14, 0x21, 0x22, 0x23, 0x24, 0x25, 0x31, 0x32, 0x33, 0x34, 0x41, 0x42, 0x43, 0x44, 0x45,
    0x51, 0x52, 0x53, 0x54, 0x55, 0x56, 0x57, 0x58, 0x59, 0x5A, 0x5B, 0x5C, 0x5D, 0x5E, 0x5F]

/-! ### Step records (R1, R2, R175) -/

/-- A step record's kind fields as a frame gives them, before the range checks of R3: zones as numbers. -/
inductive RawBody where
  | ramp (rate : Nat) (band : Option Nat) (zones : List (Nat × Nat))
  | soak (duration : Nat) (band : Option Nat)
  | purge (flow duration : Nat)
  | gasSet (entries : List (LineId × Nat))
  | pushIn (target hotSpeed : Option Nat)
  | pullOut (target hotSpeed : Option Nat)
  | mark
  deriving DecidableEq, Repr

/-- A well-formed step record as a frame gives it, before the range checks of R3. -/
structure RawStep where
  tube : Byte
  id : Nat
  level : Nat
  calSet : Option Nat
  quiet : Bool
  body : RawBody
  deriving DecidableEq, Repr

/-- An optional two-byte field: absent fields have their bytes 0 (R175); `none` is a malformed one. -/
def optionalField (present : Bool) (value : Nat) : Option (Option Nat) :=
  if present then some (some value) else if value = 0 then some none else none

/-- Entries of one byte and a two-byte number each. -/
def entriesOf : List Byte → Option (List (Nat × Nat))
  | [] => some []
  | a :: b :: c :: rest => (entriesOf rest).map fun es => (a.toNat, num2 b c) :: es
  | _ => none

/-- Whether a number stands twice in a list. -/
def hasTwice : List Nat → Bool
  | [] => false
  | x :: xs => xs.contains x || hasTwice xs

/-- A counted list of entries: the count within its bounds and matched by the bytes, and no first part twice (R2, R166). -/
def countedEntries (most : Nat) (count : Byte) (bytes : List Byte) : Option (List (Nat × Nat)) :=
  match entriesOf bytes with
  | none => none
  | some es =>
    if 1 ≤ count.toNat ∧ count.toNat ≤ most ∧ es.length = count.toNat ∧ hasTwice (es.map Prod.fst) = false then some es
    else none

/-- The lines of a GAS-SET list, each CARRIER, OXY or DOPANT (R2, R174). -/
def gasEntries : List (Nat × Nat) → Option (List (LineId × Nat))
  | [] => some []
  | (n, flow) :: es =>
    match LineId.ofNat? n with
    | none => none
    | some .purge => none
    | some l => (gasEntries es).map fun r => (l, flow) :: r

/-- The step kind of a kind code. -/
def StepKind.ofNat? : Nat → Option StepKind
  | 1 => some .ramp
  | 2 => some .soak
  | 3 => some .purge
  | 4 => some .gasSet
  | 5 => some .pushIn
  | 6 => some .pullOut
  | 7 => some .mark
  | _ => none

/-- The kind fields of a RAMP: its rate, its band, and its zone list. -/
def rampFields (band : Bool) (bytes : List Byte) : Option RawBody :=
  match bytes with
  | r1 :: r0 :: b1 :: b0 :: n :: es =>
    (optionalField band (num2 b1 b0)).bind fun bd => (countedEntries 5 n es).map fun zs => .ramp (num2 r1 r0) bd zs
  | _ => none

/-- The kind fields of a SOAK: its duration and its band. -/
def soakFields (band : Bool) (bytes : List Byte) : Option RawBody :=
  match bytes with
  | [d3, d2, d1, d0, b1, b0] => (optionalField band (num2 b1 b0)).map fun bd => .soak (num4 d3 d2 d1 d0) bd
  | _ => none

/-- The kind fields of a PURGE: its flow and its duration. -/
def purgeFields (bytes : List Byte) : Option RawBody :=
  match bytes with
  | [f1, f0, d3, d2, d1, d0] => some (.purge (num2 f1 f0) (num4 d3 d2 d1 d0))
  | _ => none

/-- The kind fields of a GAS-SET: its line list. -/
def gasFields (bytes : List Byte) : Option RawBody :=
  match bytes with
  | n :: es => (countedEntries 3 n es).bind fun ls => (gasEntries ls).map RawBody.gasSet
  | [] => none

/-- The kind fields of a PUSH-IN or PULL-OUT: its target and its hot speed. -/
def motionFields (make : Option Nat → Option Nat → RawBody) (target hot : Bool) (bytes : List Byte) : Option RawBody :=
  match bytes with
  | [t1, t0, h1, h0] =>
    (optionalField target (num2 t1 t0)).bind fun tg => (optionalField hot (num2 h1 h0)).map fun hs => make tg hs
  | _ => none

/-- The kind fields of a step record from byte 7 (R175); `none` is a malformed record (R2). The presence bits of fields the kind
does not have must be clear. -/
def kindFields (kind : Byte) (band target hot : Bool) (bytes : List Byte) : Option RawBody :=
  match StepKind.ofNat? kind.toNat with
  | none => none
  | some .ramp => if target || hot then none else rampFields band bytes
  | some .soak => if target || hot then none else soakFields band bytes
  | some .purge => if band || target || hot then none else purgeFields bytes
  | some .gasSet => if band || target || hot then none else gasFields bytes
  | some .pushIn => if band then none else motionFields RawBody.pushIn target hot bytes
  | some .pullOut => if band then none else motionFields RawBody.pullOut target hot bytes
  | some .mark => if band || target || hot || !bytes.isEmpty then none else some .mark

/-- The step record of an APPEND-STEP body (R175); `none` is a malformed one (R2). -/
def parseStep (body : List Byte) : Option RawStep :=
  match body with
  | tube :: i1 :: i0 :: kind :: level :: flags :: cal :: rest =>
    if 32 ≤ flags.toNat then none
    else if flags.getLsbD 1 = false ∧ cal ≠ 0 then none
    else
      (kindFields kind (flags.getLsbD 2) (flags.getLsbD 3) (flags.getLsbD 4) rest).map fun b =>
        ⟨tube, num2 i1 i0, level.toNat, if flags.getLsbD 1 then some cal.toNat else none, flags.getLsbD 0, b⟩
  | _ => none

/-- Whether a number lies within bounds. -/
def within (low high n : Nat) : Bool := low ≤ n && n ≤ high

/-- Whether an optional number, if present, lies within bounds. -/
def optionWithin (low high : Nat) : Option Nat → Bool
  | none => true
  | some n => within low high n

/-- The zones of a zone list, if every number names one. -/
def zoneEntries : List (Nat × Nat) → Option (List (ZoneId × Nat))
  | [] => some []
  | (n, x) :: es =>
    match ZoneId.ofNat? n with
    | none => none
    | some z => (zoneEntries es).map fun r => (z, x) :: r

/-- A zone list whose zones exist and whose targets lie in range (R1, R166). -/
def rangedZones (es : List (Nat × Nat)) : Option (List (ZoneId × Nat)) :=
  if es.all fun e => within 2000 12500 e.2 then zoneEntries es else none

/-- The range check of R3 on the kind fields, against the tube record in force; `none` is out of range. -/
def rangedBody (r : TubeRecord) : RawBody → Option StepBody
  | .ramp rate band zones =>
    if within 1 300 rate && optionWithin 1 500 band then (rangedZones zones).map fun zs => .ramp rate band zs else none
  | .soak duration band =>
    if within 1 Config.maxDuration duration && optionWithin 1 500 band then some (.soak duration band) else none
  | .purge flow duration =>
    if within 1 2000 flow && within 1 Config.maxDuration duration then some (.purge flow duration) else none
  | .gasSet entries => if entries.all fun e => decide (e.2 ≤ 2000) then some (.gasSet entries) else none
  | .pushIn target hot =>
    if optionWithin r.base r.limit target && optionWithin 1 r.coldSpeed hot then some (.pushIn target hot) else none
  | .pullOut target hot =>
    if optionWithin r.base r.limit target && optionWithin 1 r.coldSpeed hot then some (.pullOut target hot) else none
  | .mark => some .mark

/-- The cal set field in range (R3): `none` is out of range. -/
def rangedCal : Option Nat → Option (Option (Fin 4))
  | none => some none
  | some n => if h : n < 4 then some (some ⟨n, h⟩) else none

/-- The range check of R3 on a whole record, with the level byte of R175; the level is not yet raised to the floor. -/
def rangedStep (r : TubeRecord) (raw : RawStep) : Option StepRecord :=
  if 7 < raw.level then none
  else match rangedCal raw.calSet, rangedBody r raw.body with
    | some cal, some body => some ⟨raw.id, raw.level, cal, raw.quiet, {}, body⟩
    | _, _ => none

/-! ### Encodings of enumerated values (R174) -/

/-- Step kind codes. -/
def StepKind.toNat : StepKind → Nat
  | .ramp => 1
  | .soak => 2
  | .purge => 3
  | .gasSet => 4
  | .pushIn => 5
  | .pullOut => 6
  | .mark => 7

/-- Tube state codes. -/
def TubeState.toNat : TubeState → Nat
  | .off => 0
  | .idle => 1
  | .admitting => 2
  | .ramping => 3
  | .soaking => 4
  | .purging => 5
  | .moving => 6
  | .suspended => 7
  | .faultHold => 8
  | .service => 9

/-- Outcome codes. -/
def StepOutcome.toNat : StepOutcome → Nat
  | .done => 1
  | .aborted => 2
  | .failed => 3
  | .faulted => 4
  | .stopped => 5

/-- Failure cause codes. -/
def FailCause.toNat : FailCause → Nat
  | .none => 0
  | .calInvalid => 1
  | .range => 2
  | .unsealed => 3
  | .exhaust => 4
  | .dopantOpen => 5
  | .admitTimeout => 6

/-- A cause set byte. -/
def CauseSet.toNat (c : CauseSet) : Nat :=
  flagBit c.tcOpen 0 + flagBit c.overTemp 1 + flagBit c.exhaustLost 2 + flagBit c.holdbackTimeout 3 +
    flagBit c.flowLow 4 + flagBit c.motionStall 5

/-- A notes byte. -/
def Notes.toNat (n : Notes) : Nat :=
  flagBit n.levelClamped 0 + flagBit n.rateClamped 1 + flagBit n.speedClamped 2 + flagBit n.surchargeCapped 3 +
    flagBit n.auto 4

/-- Ceiling term codes. -/
def CeilingTerm.toNat : CeilingTerm → Nat
  | .admitted => 0
  | .zmax => 1
  | .openZone => 2
  | .zero => 3

/-- Claim kind codes. -/
def ClaimKind.toNat : ClaimKind → Nat
  | .step => 1
  | .resume => 2
  | .surcharge => 3
  | .service => 4

/-- Treatment codes. -/
def Treatment.toNat : Treatment → Nat
  | .masked => 1
  | .suspended => 2
  | .noFit => 3
  | .blocking => 4
  | .candidate => 5
  | .notReached => 6

/-- Header claim purpose codes. -/
def Purpose.toNat : Purpose → Nat
  | .step => 1
  | .auto => 2

/-- Stack mode codes. -/
def StackMode.toNat : StackMode → Nat
  | .commission => 0
  | .run => 1
  | .stopped => 2

/-- Direction codes of READ-TUBE; 0 for none (R177). -/
def Direction.toNat : Direction → Nat
  | .up => 1
  | .down => 2
  | .level => 3

/-- Loader state codes (R177). -/
def LoaderState.toNat : LoaderState → Nat
  | .stopped => 0
  | .movingIn => 1
  | .movingOut => 2

/-- Recovery state codes (R177). -/
def Recovery.toNat : Recovery → Nat
  | .none => 0
  | .held => 1
  | .running => 2

/-- Service ramp codes (R177). -/
def ServiceRamp.toNat : ServiceRamp → Nat
  | .none => 0
  | .waiting _ _ => 1
  | .running => 2

/-! ### Step records as READ-QUEUE sends them (R173, R175) -/

/-- The presence of an optional field. -/
def present (o : Option Nat) : Bool := o.isSome

/-- The kind, the presence bits of band, target and hot speed, and the kind fields of a step body. -/
def encBody : StepBody → Nat × Nat × List Byte
  | .ramp rate band zones =>
    (1, flagBit (present band) 2,
      enc2 rate ++ enc2 (band.getD 0) ++ enc1 zones.length ++ zones.flatMap fun e => enc1 e.1.toNat ++ enc2 e.2)
  | .soak duration band => (2, flagBit (present band) 2, enc4 duration ++ enc2 (band.getD 0))
  | .purge flow duration => (3, 0, enc2 flow ++ enc4 duration)
  | .gasSet entries => (4, 0, enc1 entries.length ++ entries.flatMap fun e => enc1 e.1.toNat ++ enc2 e.2)
  | .pushIn target hot =>
    (5, flagBit (present target) 3 + flagBit (present hot) 4, enc2 (target.getD 0) ++ enc2 (hot.getD 0))
  | .pullOut target hot =>
    (6, flagBit (present target) 3 + flagBit (present hot) 4, enc2 (target.getD 0) ++ enc2 (hot.getD 0))
  | .mark => (7, 0, [])

/-- A step record as laid out by R175. -/
def encStep (t : TubeId) (r : StepRecord) : List Byte :=
  let b := encBody r.body
  let cal := r.calSet.map Fin.val
  enc1 t.toNat ++ enc2 r.id ++ enc1 b.1 ++ enc1 r.level ++
    enc1 (flagBit r.quiet 0 + flagBit (present cal) 1 + b.2.1) ++ enc1 (cal.getD 0) ++ b.2.2

end Sys2Proof.Machine
end

