-- ==== Sys2Proof/Machine/Requests.lean ====
section
/-! DEFINITION. The link layer of a request: its arrival as a frame, the checks of R172, and its answer (sections 10.1 and
10.2). -/

namespace Sys2Proof.Machine

/-- The outcome of an event. -/
abbrev Result := Host.Outcome State Fault Refusal

/-- The code and body of an answer. -/
structure Reply where
  code : AnswerCode
  body : List Byte
  deriving DecidableEq, Repr

/-- The state as an event begins: nothing sent on the field links yet. -/
def openEvent (s : State) : State := { s with outbox := [] }

/-- Whether a link's receiver takes these bytes as a frame: it hunts, or it has collected the frame's first bytes; bytes that
arrive while an answer is being sent are lost (R169). -/
def takesFrame (k : Link) (bytes : List Byte) : Bool :=
  match k.rx with
  | .hunt => true
  | .collect => k.buffer.isPrefixOf bytes && k.buffer.length < bytes.length
  | .answer => false

/-- The link after an answer has begun (R169, R171). -/
def Link.answering (k : Link) (a : Answer) : Link := { k with rx := .answer, buffer := [], answer := some a }

/-- A well-formed frame's request, taken as one event within the arrival of its last byte, and answered after all its effects
(R170, R171). -/
def takeRequest (kind : Byte) (l : LinkId) (tag : Byte) (body : List Byte) (h : State → State × Reply) (s : State) :
    Result :=
  if decide (body.length ≤ Config.maxBody) && takesFrame (s.link l) (requestFrame kind tag body) then
    let r := h (openEvent s)
    .next (r.1.onLink l fun k => k.answering ⟨kind, tag, r.2.code, r.2.body⟩)
  else .next s

/-- An OK answer with a body. -/
def okWith (body : List Byte) (s : State) : State × Reply := (s, ⟨.ok, body⟩)

/-- An OK answer with no body. -/
def ok (s : State) : State × Reply := okWith [] s

/-- A refusal: the answer code, and no change. -/
def refuse (code : AnswerCode) (s : State) : State × Reply := (s, ⟨code, []⟩)

/-- Check 3 of R172: the tube exists. -/
def withTube (b : Byte) (s : State) (k : TubeId → State × Reply) : State × Reply :=
  match TubeId.ofNat? b.toNat with
  | none => refuse .range s
  | some t => k t

/-- Check 4 of R172 for a QUEUE, CONTROL or OBSERVE request. -/
def withRight (right : Rights → Bool) (l : LinkId) (t : TubeId) (s : State) (k : State × Reply) : State × Reply :=
  if right ((s.rights.get l).get t) then k else refuse .denied s

/-- Check 4 of R172 for a SUPERVISE request. -/
def supervise (l : LinkId) (s : State) (k : State × Reply) : State × Reply :=
  if l = .c then k else refuse .denied s

/-- A request that names a tube and nothing else, and needs a right on it (R172, R173). -/
def tubeRequest (right : Rights → Bool) (l : LinkId) (body : List Byte) (h : TubeId → State → State × Reply) (s : State) :
    State × Reply :=
  match body with
  | [b] => withTube b s fun t => withRight right l t s (h t s)
  | _ => refuse .format s

/-- A request that names a tube and a step id, and needs a right on the tube (R172, R173). -/
def stepRequest (right : Rights → Bool) (l : LinkId) (body : List Byte) (h : TubeId → Nat → State → State × Reply)
    (s : State) : State × Reply :=
  match body with
  | [b, i1, i0] => withTube b s fun t => withRight right l t s (h t (num2 i1 i0) s)
  | _ => refuse .format s

/-- A SUPERVISE request with no body. -/
def stackRequest (l : LinkId) (body : List Byte) (h : State → State × Reply) (s : State) : State × Reply :=
  match body with
  | [] => supervise l s (h s)
  | _ => refuse .format s

/-- A request every link may send, with no body. -/
def openRequest (body : List Byte) (h : State → State × Reply) (s : State) : State × Reply :=
  match body with
  | [] => h s
  | _ => refuse .format s

end Sys2Proof.Machine
end

