-- ==== Sys2Proof/Machine/QueueRequests.lean ====
section
/-! DEFINITION. The QUEUE requests: APPEND-STEP, WITHDRAW-STEP, FLUSH-QUEUE, RESUME-QUEUE (Chapter 1). -/

namespace Sys2Proof.Machine

/-- The answers R19 gives a queue request, an ABORT-STEP or an EXTEND-STEP in OFF and SERVICE; none where it is taken. -/
def stepGate (u : Tube) : Option AnswerCode :=
  match u.state with
  | .off => some .mode
  | .service => some .service
  | _ => none

/-- Whether an id is the current step's. -/
def isCurrentId (u : Tube) (id : Nat) : Bool :=
  match u.current with
  | some c => c.step.id == id
  | none => false

/-- Whether an id is in a tube's queue. -/
def isQueuedId (u : Tube) (id : Nat) : Bool := u.queue.any fun r => r.id == id

/-- The record as it is queued: its level raised to the floor, with the "level clamped" note if it was lower (R3, R181). -/
def StepRecord.clamped (r : StepRecord) (floor : Nat) : StepRecord :=
  { r with level := max r.level floor, notes := { r.notes with levelClamped := decide (r.level < floor) } }

/-- APPEND-STEP once the frame's checks have passed (R3, R19, R181). -/
def appendTo (l : LinkId) (t : TubeId) (raw : RawStep) (s : State) : State × Reply :=
  let u := s.tube t
  match stepGate u with
  | some code => refuse code s
  | none =>
    match rangedStep u.record raw with
    | none => refuse .range s
    | some r =>
      if isQueuedId u r.id || isCurrentId u r.id then refuse .duplicate s
      else if Config.queueCapacity ≤ u.queue.length then refuse .full s
      else
        let floor := ((s.rights.get l).get t).floor
        okWith (enc1 (if r.level < floor then 1 else 0))
          (settle (s.onTube t fun u => { u with queue := u.queue ++ [r.clamped floor] }))

/-- The checks and effect of an APPEND-STEP (R2, R3, R172). -/
def appendRequest (l : LinkId) (body : List Byte) (s : State) : State × Reply :=
  match parseStep body with
  | none => refuse .format s
  | some raw => withTube raw.tube s fun t => withRight Rights.queue l t s (appendTo l t raw s)

/-- APPEND-STEP (R3). -/
def execAppendStep (l : LinkId) (tag : Byte) (body : List Byte) (s : State) : Result :=
  takeRequest 0x11 l tag body (appendRequest l body) s

/-- WITHDRAW-STEP once the frame's checks have passed (R5). -/
def withdrawFrom (t : TubeId) (id : Nat) (s : State) : State × Reply :=
  let u := s.tube t
  match stepGate u with
  | some code => refuse code s
  | none =>
    if isCurrentId u id then refuse .started s
    else if isQueuedId u id then ok (s.onTube t fun u => { u with queue := u.queue.filter fun r => r.id != id })
    else refuse .unknownId s

/-- WITHDRAW-STEP (R5). -/
def execWithdrawStep (l : LinkId) (tag : Byte) (body : List Byte) (s : State) : Result :=
  takeRequest 0x12 l tag body (stepRequest Rights.queue l body withdrawFrom) s

/-- FLUSH-QUEUE once the frame's checks have passed (R6). -/
def flush (t : TubeId) (s : State) : State × Reply :=
  let u := s.tube t
  match stepGate u with
  | some code => refuse code s
  | none => okWith (enc1 u.queue.length) (s.onTube t fun u => { u with queue := [] })

/-- FLUSH-QUEUE (R6). -/
def execFlushQueue (l : LinkId) (tag : Byte) (body : List Byte) (s : State) : Result :=
  takeRequest 0x13 l tag body (tubeRequest Rights.queue l body flush) s

/-- RESUME-QUEUE once the frame's checks have passed (R24, R19). -/
def resumeQueue (t : TubeId) (s : State) : State × Reply :=
  match (s.tube t).state with
  | .off => refuse .mode s
  | .service => refuse .service s
  | .faultHold => refuse .state s
  | _ => ok (settle (s.onTube t fun u => { u with halted := false }))

/-- RESUME-QUEUE (R24). -/
def execResumeQueue (l : LinkId) (tag : Byte) (body : List Byte) (s : State) : Result :=
  takeRequest 0x14 l tag body (tubeRequest Rights.queue l body resumeQueue) s

end Sys2Proof.Machine
end

