-- ==== Sys2Proof/Machine/ControlRequests.lean ====
section
/-! DEFINITION. The CONTROL requests: ABORT-STEP, SUSPEND-TUBE, RESUME-TUBE, EXTEND-STEP, CLEAR-FAULT. -/

namespace Sys2Proof.Machine

/-- ABORT-STEP once the frame's checks have passed (R20). -/
def abort (t : TubeId) (id : Nat) (s : State) : State × Reply :=
  let u := s.tube t
  match stepGate u with
  | some code => refuse code s
  | none =>
    if isCurrentId u id then ok (settle (endStep t .aborted (stopWork t s)))
    else if isQueuedId u id then refuse .notCurrent s
    else refuse .unknownId s

/-- ABORT-STEP (R20). -/
def execAbortStep (l : LinkId) (tag : Byte) (body : List Byte) (s : State) : Result :=
  takeRequest 0x21 l tag body (stepRequest Rights.control l body abort) s

/-- The tube becomes SUSPENDED and remembers the state it came from; a moving loader stops where it stands (R21, R124). -/
def suspendFrom (t : TubeId) (s : State) : State :=
  let s1 := if (s.tube t).state = .moving then holdLoader t s else s
  s1.onTube t fun u => { u with state := .suspended, remembered := some u.state }

/-- SUSPEND-TUBE once the frame's checks have passed (R21). -/
def suspend (t : TubeId) (s : State) : State × Reply :=
  match (s.tube t).state with
  | .off => refuse .mode s
  | .service => refuse .service s
  | .faultHold => refuse .state s
  | .suspended => ok s
  | _ => ok (suspendFrom t s)

/-- SUSPEND-TUBE (R21). -/
def execSuspendTube (l : LinkId) (tag : Byte) (body : List Byte) (s : State) : Result :=
  takeRequest 0x22 l tag body (tubeRequest Rights.control l body suspend) s

/-- Whether a tube has a scrubber claim waiting. -/
def hasScrubberClaim (s : State) (t : TubeId) : Bool := s.gas.scrubber.any fun c => c.tube == t

/-- Whether a tube has a header claim waiting. -/
def hasHeaderClaim (s : State) (t : TubeId) : Bool := s.gas.header.any fun c => c.tube == t

/-- What a return to the remembered state makes follow, the tube being in that state again (R23): a scrubber claim under released
exhaust is removed (R101), a ramp not shed-paused may be shed (R87), an automatic purge whose owed flag has cleared ends
(R17), and a motion continues (R124). -/
def resumeWork (t : TubeId) (s : State) : State :=
  match (s.tube t).state with
  | .admitting =>
    if hasScrubberClaim s t && !s.exhaust.asserted then endStep t (.failed .exhaust) (removeScrubberClaim t s) else s
  | .ramping => if (s.tube t).shedPaused then s else dueShedWhileShedding s
  | .purging => checkAutoPurge t s
  | .moving =>
    match (s.tube t).loader.target with
    | some target => moveTowards t target s
    | none => s
  | _ => s

/-- RESUME-TUBE of a SUSPENDED tube: the remembered state returns, and the lists are evaluated (R23). -/
def resumeSuspended (t : TubeId) (s : State) : State :=
  let s1 := s.onTube t fun u => { u with state := u.remembered.getD .idle, remembered := none }
  settle (dueScrubber (dueHeader (dueClaims (resumeWork t s1))))

/-- RESUME-TUBE once the frame's checks have passed (R23, R19). -/
def resume (t : TubeId) (s : State) : State × Reply :=
  match (s.tube t).state with
  | .off => refuse .mode s
  | .service => refuse .service s
  | .suspended => ok (resumeSuspended t s)
  | _ => refuse .state s

/-- RESUME-TUBE (R23). -/
def execResumeTube (l : LinkId) (tag : Byte) (body : List Byte) (s : State) : Result :=
  takeRequest 0x23 l tag body (tubeRequest Rights.control l body resume) s

/-- The duration of a SOAK or PURGE, which an extension may lengthen. -/
def StepBody.duration? : StepBody → Option Nat
  | .soak d _ => some d
  | .purge _ d => some d
  | _ => none

/-- A SOAK or PURGE with its duration replaced. -/
def StepBody.withDuration (b : StepBody) (d : Nat) : StepBody :=
  match b with
  | .soak _ band => .soak d band
  | .purge flow _ => .purge flow d
  | x => x

/-- EXTEND-STEP of the current SOAK or PURGE: its counter if it is loaded, and otherwise the duration in its record (R25,
R137). -/
def extendCurrent (t : TubeId) (e duration : Nat) (s : State) : State × Reply :=
  match (s.tube t).stepCounter with
  | some c =>
    if Config.maxDuration < remaining c + e then refuse .range s
    else ok (s.onTube t fun u => { u with stepCounter := some (extendCounter e c) })
  | none =>
    if Config.maxDuration < duration + e then refuse .range s
    else ok (s.onCurrent t fun c => { c with step := { c.step with body := c.step.body.withDuration (duration + e) } })

/-- EXTEND-STEP once the frame's checks have passed (R25). -/
def extend (t : TubeId) (id e : Nat) (s : State) : State × Reply :=
  let u := s.tube t
  match stepGate u with
  | some code => refuse code s
  | none =>
    if Config.maxDuration < e then refuse .range s
    else if isCurrentId u id then
      match u.current.bind fun c => c.step.body.duration? with
      | some d => extendCurrent t e d s
      | none => refuse .state s
    else if isQueuedId u id then refuse .notCurrent s
    else refuse .unknownId s

/-- The form, tube and right checks of an EXTEND-STEP (R172, R173). -/
def extendRequest (l : LinkId) (body : List Byte) (s : State) : State × Reply :=
  match body with
  | [b, i1, i0, e3, e2, e1, e0] =>
    withTube b s fun t => withRight Rights.control l t s (extend t (num2 i1 i0) (num4 e3 e2 e1 e0) s)
  | _ => refuse .format s

/-- EXTEND-STEP (R25). -/
def execExtendStep (l : LinkId) (tag : Byte) (body : List Byte) (s : State) : Result :=
  takeRequest 0x24 l tag body (extendRequest l body) s

/-- A tube cleared of its causes: IDLE, its halted flag still set, and its ceilings composed again where OVER-TEMP has left the set
(R150). -/
def clearCauses (t : TubeId) (s : State) : State :=
  let cleared := s.onTube t fun u => { u with state := .idle, fault := { u.fault with causes := {}, entry := none } }
  if (s.tube t).fault.causes.overTemp then recompose t cleared else cleared

/-- CLEAR-FAULT once the frame's checks have passed (R150, R19). -/
def clearFault (t : TubeId) (s : State) : State × Reply :=
  match (s.tube t).state with
  | .off => refuse .mode s
  | .service => refuse .service s
  | .faultHold => if persists (s.tube t).fault then refuse .persists s else ok (clearCauses t s)
  | _ => refuse .state s

/-- CLEAR-FAULT (R150). -/
def execClearFault (l : LinkId) (tag : Byte) (body : List Byte) (s : State) : Result :=
  takeRequest 0x25 l tag body (tubeRequest Rights.control l body clearFault) s

end Sys2Proof.Machine
end

