-- ==== Sys2Proof/Machine/ReadRequests.lean ====
section
/-! DEFINITION. The requests that read, and the two attention requests (sections 10.2, 10.3, 10.5). -/

namespace Sys2Proof.Machine

/-! ### READ-TUBE (R177) -/

/-- A counter as reported: presence, remaining time, count, reloads, and whether the most recent boundary paused it (R139,
R177). -/
def encCounter (c : Option DwellCounter) : List Byte :=
  encOption 8 (fun c => enc4 (remaining c) ++ enc2 c.count ++ enc1 c.reloads ++ enc1 (flagBit c.paused 0)) c

/-- The current step group. -/
def encCurrent (c : Option CurrentStep) : List Byte :=
  encOption 5 (fun c => enc2 c.step.id ++ enc1 c.step.body.kind.toNat ++ enc1 c.step.level ++ enc1 c.step.notes.toNat) c

/-- One zone's 11 bytes (R49). -/
def encZone (z : Zone) : List Byte :=
  enc2 z.reportedSetpoint ++ enc2 (match z.ramp with | some r => r.target | none => 0) ++
    enc1 (match z.ramp with | some r => r.direction.toNat | none => 0) ++
    enc2 (match z.ramp with | some r => r.rate | none => 0) ++
    enc1 (flagBit (match z.ramp with | some r => r.landed | none => false) 0 + flagBit z.isOpen 1) ++
    enc2 z.pv ++ enc1 z.excess

/-- The loader group (R130). -/
def encLoader (l : Loader) : List Byte :=
  enc1 l.state.toNat ++ encOption 2 enc2 l.position ++ encOption 2 enc2 l.target ++ encOption 2 enc2 l.segmentEnd ++
    encOption 2 enc2 l.speed ++ enc1 l.recovery.toNat ++ encOption 1 enc1 l.stallCount ++
    encOption 13 (fun c => enc2 c.base ++ enc2 c.mouth ++ enc2 c.limit ++ enc2 c.coldSpeed ++ enc2 c.hotCap ++
      enc2 c.hotThreshold ++ enc1 c.stallTime) l.travel

/-- The fault monitor group (R152). -/
def encFault (f : FaultMonitor) : List Byte :=
  enc1 f.causes.toNat ++ enc1 (flagBit f.tcOpen 0 + flagBit f.overTemp 1 + flagBit f.exhaustLost 2) ++
    encOption 4 encStamp f.entry

/-- The service group (R168). DESIGN CHOICE (log entry 40): the two bytes of the jog target are 0 while no jog runs. -/
def encService (v : Service) : List Byte :=
  enc1 v.ramp.toNat ++ enc1 (flagBit v.jog.isSome 0) ++ enc2 (v.jog.getD 0) ++ enc1 (flagBit v.carrier 0 + flagBit v.oxy 1)

/-- The tube group (R7). -/
def encTubeGroup (u : Tube) : List Byte :=
  enc1 u.state.toNat ++ enc1 (match u.remembered with | some x => x.toNat | none => 0) ++
    enc1 (flagBit u.shedPaused 0 + flagBit u.halted 1 + flagBit u.recordValid 2 + flagBit u.holdback.asserted 3 +
      flagBit u.loader.isSealed 4) ++
    enc1 u.pointer.val ++ enc1 u.queue.length

/-- The body of a READ-TUBE answer (R177). -/
def tubeStatus (u : Tube) : List Byte :=
  encTubeGroup u ++ encCurrent u.current ++ u.zones.toList.flatMap encZone ++ encCounter u.stepCounter ++
    encCounter u.holdback.counter ++ encCounter u.loader.recoveryCounter ++
    enc2 u.holdback.seconds ++ enc2 u.holdback.maxLag ++ encLoader u.loader ++ encFault u.fault ++ encService u.service

/-- READ-TUBE (R7, R49, R130, R152, R168, R177). -/
def execReadTube (l : LinkId) (tag : Byte) (body : List Byte) (s : State) : Result :=
  takeRequest 0x31 l tag body
    (tubeRequest Rights.observe l body fun t s => okWith (tubeStatus (s.tube t)) s) s

/-! ### READ-QUEUE (R4, R173) -/

/-- As many whole records as fit in so many bytes, each followed by its notes byte. -/
def packRecords (t : TubeId) : Nat → List StepRecord → List Byte
  | _, [] => []
  | room, r :: rs =>
    let b := encStep t r ++ enc1 r.notes.toNat
    if b.length ≤ room then b ++ packRecords t (room - b.length) rs else []

/-- READ-QUEUE once the frame's checks have passed. -/
def queueReply (t : TubeId) (position : Nat) (s : State) : State × Reply :=
  if 15 < position then refuse .range s
  else
    okWith (enc1 (s.tube t).queue.length ++ enc1 position ++
      packRecords t (Config.maxBody - 2) ((s.tube t).queue.drop position)) s

/-- The form, tube and right checks of a READ-QUEUE. -/
def readQueueRequest (l : LinkId) (body : List Byte) (s : State) : State × Reply :=
  match body with
  | [b, p] => withTube b s fun t => withRight Rights.observe l t s (queueReply t p.toNat s)
  | _ => refuse .format s

/-- READ-QUEUE (R4, R173). -/
def execReadQueue (l : LinkId) (tag : Byte) (body : List Byte) (s : State) : Result :=
  takeRequest 0x32 l tag body (readQueueRequest l body) s

/-! ### READ-COMPLETIONS (R26, R176) -/

/-- A completion record's 23 bytes. -/
def encCompletion (r : CompletionRecord) : List Byte :=
  enc2 r.id ++ enc1 r.kind.toNat ++ enc1 r.outcome.toNat ++ enc1 r.failCause.toNat ++ enc1 r.faults.toNat ++
    encStamp r.start ++ encStamp r.run ++ encStamp r.wait ++ enc2 r.holdbackSeconds ++ enc2 r.maxLag ++ enc1 r.notes.toNat

/-- The body of a READ-COMPLETIONS answer. -/
def completionsBody (u : Tube) : List Byte :=
  enc1 u.ring.length ++ enc1 u.overwrites ++ u.ring.flatMap encCompletion

/-- READ-COMPLETIONS (R26, R176). -/
def execReadCompletions (l : LinkId) (tag : Byte) (body : List Byte) (s : State) : Result :=
  takeRequest 0x33 l tag body
    (tubeRequest Rights.observe l body fun t s => okWith (completionsBody (s.tube t)) s) s

/-! ### READ-GAS (R113, R178) -/

/-- One line's 6 bytes. -/
def encLine (l : Line) : List Byte :=
  enc2 l.commanded ++ enc2 l.measured ++ enc1 (flagBit l.isOpen 0 + flagBit l.flowLow 1) ++ enc1 l.lowCount

/-- The gas claim a tube has waiting: none 0, header 1, scrubber 2. -/
def waitingGasClaim (s : State) (t : TubeId) : Nat :=
  if hasHeaderClaim s t then 1 else if hasScrubberClaim s t then 2 else 0

/-- The body of a READ-GAS answer. -/
def gasBody (s : State) (t : TubeId) : List Byte :=
  let u := s.tube t
  encLine u.lines.purge ++ encLine u.lines.carrier ++ encLine u.lines.oxy ++ encLine u.lines.dopant ++
    enc1 (flagBit u.owed 0 + flagBit u.lines.dopant.isOpen 1) ++ enc2 u.credit ++ enc1 u.remainder ++
    enc2 u.record.purgeVolume ++ enc2 u.record.autoFlow ++ enc1 (waitingGasClaim s t) ++
    enc2 s.gas.capacity ++ enc2 (headerAllocation s) ++ enc1 s.gas.slots ++ enc1 (slotsInUse s) ++
    enc1 (flagBit s.exhaust.asserted 0)

/-- READ-GAS (R113, R178). -/
def execReadGas (l : LinkId) (tag : Byte) (body : List Byte) (s : State) : Result :=
  takeRequest 0x34 l tag body
    (tubeRequest Rights.observe l body fun t s => okWith (gasBody s t) s) s

/-! ### READ-ENVELOPE (R68, R92, R178) -/

/-- One zone's 7 bytes. -/
def encEnvelopeZone (u : Tube) (z : ZoneId) : List Byte :=
  enc2 (u.zones.get z).ceiling ++ enc2 (u.grant.step.get z) ++ enc2 (u.grant.surcharge.get z) ++
    enc1 (u.zones.get z).term.toNat

/-- One tube's 11 bytes. -/
def encEnvelopeTube (u : Tube) : List Byte :=
  enc2 u.stepTotal ++ enc2 u.surchargeTotal ++ enc2 u.grantTotal ++ encOption 4 encStamp (u.grant.mark.map GrantMark.stamp)

/-- The stack group. -/
def encEnvelopeStack (s : State) : List Byte :=
  enc2 s.arbiter.limitE ++ enc2 s.arbiter.limitEc ++
    enc1 (flagBit s.curtail.asserted 0 + flagBit s.arbiter.shedding 1) ++
    enc2 (limitInForce s) ++ enc2 (grantSum s) ++ enc2 (limitInForce s - grantSum s) ++ enc1 s.arbiter.mask ++
    enc1 s.arbiter.stagger ++ enc2 s.arbiter.window ++ enc1 s.arbiter.windowCount

/-- The body of a READ-ENVELOPE answer. -/
def envelopeBody (s : State) : List Byte :=
  (TubeId.all.flatMap fun t => ZoneId.all.flatMap fun z => encEnvelopeZone (s.tube t) z) ++
    (TubeId.all.flatMap fun t => encEnvelopeTube (s.tube t)) ++ encEnvelopeStack s ++
    enc1 s.arbiter.history.length ++ (s.arbiter.history.flatMap fun r => encStamp r.stamp ++ enc1 r.tube.toNat) ++
    encOption 4 encStamp s.arbiter.pacing

/-- READ-ENVELOPE (R68, R92, R178). -/
def execReadEnvelope (l : LinkId) (tag : Byte) (body : List Byte) (s : State) : Result :=
  takeRequest 0x41 l tag body (openRequest body fun s => okWith (envelopeBody s) s) s

/-! ### READ-CLAIMS (R93, R113, R178) -/

/-- A claim's 30 bytes. -/
def encClaim (c : Claim) : List Byte :=
  enc1 c.tube.toNat ++ enc1 c.kind.toNat ++ enc1 c.level ++ c.values.toList.flatMap enc2 ++ enc2 c.amount ++
    encStamp c.created ++ enc1 c.bypass ++ encCounter c.counter ++ enc1 c.treatment.toNat

/-- A header claim's 9 bytes. -/
def encHeaderClaim (c : HeaderClaim) : List Byte :=
  enc1 c.tube.toNat ++ enc1 c.purpose.toNat ++ enc2 c.flow ++ encStamp c.created ++ enc1 c.treatment.toNat

/-- A scrubber claim's 6 bytes. -/
def encScrubberClaim (c : ScrubberClaim) : List Byte :=
  enc1 c.tube.toNat ++ encStamp c.created ++ enc1 c.treatment.toNat

/-- The body of a READ-CLAIMS answer. -/
def claimsBody (s : State) : List Byte :=
  enc1 s.arbiter.claims.length ++ s.arbiter.claims.flatMap encClaim ++
    enc1 s.gas.header.length ++ s.gas.header.flatMap encHeaderClaim ++
    enc1 s.gas.scrubber.length ++ s.gas.scrubber.flatMap encScrubberClaim

/-- READ-CLAIMS (R93, R113, R178). -/
def execReadClaims (l : LinkId) (tag : Byte) (body : List Byte) (s : State) : Result :=
  takeRequest 0x42 l tag body (openRequest body fun s => okWith (claimsBody s) s) s

/-! ### READ-STACK (R154, R178) -/

/-- A facility input filter's two bytes. -/
def encFilter (f : Filter) : List Byte := enc1 (flagBit f.asserted 0) ++ enc1 f.count

/-- The validity bits of a tube's own sets, from a bit position on. -/
def calBits (u : Tube) (n : Nat) : Nat :=
  flagBit u.cal1.valid n + flagBit u.cal2.valid (n + 1) + flagBit u.cal3.valid (n + 2)

/-- The validity of the thirteen calibration sets (R53, R178). -/
def calValidity (s : State) : Nat :=
  flagBit s.cal0.valid 0 + calBits (s.tube .t0) 1 + calBits (s.tube .t1) 4 + calBits (s.tube .t2) 7 + calBits (s.tube .t3) 10

/-- The validity of the four tube records. -/
def recordValidity (s : State) : Nat :=
  flagBit (s.tube .t0).recordValid 0 + flagBit (s.tube .t1).recordValid 1 + flagBit (s.tube .t2).recordValid 2 +
    flagBit (s.tube .t3).recordValid 3

/-- The body of a READ-STACK answer. -/
def stackBody (s : State) : List Byte :=
  enc1 s.mode.toNat ++ enc1 (flagBit s.eStop 0) ++ encFilter s.curtail ++ encFilter s.exhaust ++ encStamp s.seconds ++
    enc2 (calValidity s) ++ enc1 (recordValidity s)

/-- READ-STACK (R53, R132, R154, R178). -/
def execReadStack (l : LinkId) (tag : Byte) (body : List Byte) (s : State) : Result :=
  takeRequest 0x43 l tag body (openRequest body fun s => okWith (stackBody s) s) s

/-! ### Attention (R183, R184) -/

/-- The five flags of a tube as a number. -/
def TubeFlags.toNat (f : TubeFlags) : Nat :=
  flagBit f.stepDone 0 + flagBit f.halted 1 + flagBit f.fault 2 + flagBit f.granted 3 + flagBit f.shed 4

/-- The pending flags of a link in four bytes (R184). -/
def encFlags (k : Link) : List Byte :=
  let n := k.flags.t0.toNat + 32 * k.flags.t1.toNat + 1024 * k.flags.t2.toNat + 32768 * k.flags.t3.toNat
  enc1 (flagBit k.modeFlag 0 + flagBit k.curtailFlag 1) ++ enc1 (n / 65536) ++ enc2 n

/-- READ-ATTENTION (R184). -/
def execReadAttention (l : LinkId) (tag : Byte) (body : List Byte) (s : State) : Result :=
  takeRequest 0x44 l tag body
    (openRequest body fun s => okWith (encFlags (s.link l)) (s.onLink l Link.readAttention)) s

/-- The form check and effect of an ARM-ATTENTION; bit 7 of the mask is reserved (R183). -/
def armRequest (l : LinkId) (body : List Byte) (s : State) : State × Reply :=
  match body with
  | [mask] =>
    if mask.getLsbD 7 then refuse .format s
    else ok (s.onLink l fun k => { k with enables := k.enables.arm mask })
  | _ => refuse .format s

/-- ARM-ATTENTION (R183). -/
def execArmAttention (l : LinkId) (tag : Byte) (body : List Byte) (s : State) : Result :=
  takeRequest 0x45 l tag body (armRequest l body) s

end Sys2Proof.Machine
end

