-- ==== Sys2Proof/Machine/SuperviseRequests.lean ====
section
/-! DEFINITION. The SUPERVISE requests that set limits, records and rights, and those that change the stack mode
(Chapters 1, 3, 4, 5, 9, 10). -/

namespace Sys2Proof.Machine

/-- The numbers of a body whose fields have these sizes, most significant byte first (R174); none if its length differs. -/
def takeFields : List Nat → List Byte → Option (List Nat)
  | [], [] => some []
  | 1 :: ns, a :: bs => (takeFields ns bs).map fun r => a.toNat :: r
  | 2 :: ns, a :: b :: bs => (takeFields ns bs).map fun r => num2 a b :: r
  | _, _ => none

/-! ### SET-MASK (R74) -/

/-- SET-MASK once the frame's checks have passed (R74). -/
def setMask (m : Nat) (s : State) : State × Reply :=
  if 8 < m then refuse .range s else ok (settle (dueClaims (s.onArbiter fun a => { a with mask := m })))

/-- The form and right checks of a SET-MASK (R172). -/
def setMaskRequest (l : LinkId) (body : List Byte) (s : State) : State × Reply :=
  match body with
  | [m] => supervise l s (setMask m.toNat s)
  | _ => refuse .format s

/-- SET-MASK (R74). -/
def execSetMask (l : LinkId) (tag : Byte) (body : List Byte) (s : State) : Result :=
  takeRequest 0x51 l tag body (setMaskRequest l body) s

/-! ### SET-LIMITS (R73, R112) -/

/-- The seven values of a SET-LIMITS. -/
structure Limits where
  limitE : Nat
  limitEc : Nat
  stagger : Nat
  window : Nat
  windowCount : Nat
  capacity : Nat
  slots : Nat
  deriving DecidableEq, Repr

/-- Whether the seven values lie in their ranges, with Ec no greater than E (R73, steps 1 and 2). -/
def Limits.inRange (v : Limits) : Bool :=
  decide (v.limitE ≤ 30000) && decide (v.limitEc ≤ 30000) && decide (v.stagger ≤ 60) && within 10 600 v.window &&
    within 1 4 v.windowCount && decide (v.capacity ≤ 5000) && within 1 4 v.slots && decide (v.limitEc ≤ v.limitE)

/-- The state with the seven values replaced and the pacing time discarded. -/
def writeLimits (v : Limits) (s : State) : State :=
  (s.onArbiter fun a =>
    { a with
      limitE := v.limitE
      limitEc := v.limitEc
      stagger := v.stagger
      window := v.window
      windowCount := v.windowCount
      pacing := none }).onGas fun g => { g with capacity := v.capacity, slots := v.slots }

/-- What a change of the limit in force makes due (R73, R87). -/
def dueLimitChange (before after : Nat) (s : State) : State :=
  if after < before then dueShed s else if before < after then dueShedWhileShedding s else s

/-- What a rise of Q or K makes due (R112). -/
def dueGasRise (g : GasBlock) (v : Limits) (s : State) : State :=
  let s1 := if g.capacity < v.capacity then dueHeader s else s
  if g.slots < v.slots then dueScrubber s1 else s1

/-- SET-LIMITS once the frame's checks have passed (R73, R112). -/
def setLimits (v : Limits) (s : State) : State × Reply :=
  if !v.inRange then refuse .range s
  else if v.capacity < headerAllocation s ∨ v.slots < slotsInUse s then refuse .state s
  else
    let s1 := writeLimits v s
    ok (settle (dueGasRise s.gas v (dueClaims (dueLimitChange (limitInForce s) (limitInForce s1) s1))))

/-- The form and right checks of a SET-LIMITS (R172, R173). -/
def setLimitsRequest (l : LinkId) (body : List Byte) (s : State) : State × Reply :=
  match takeFields [2, 2, 1, 2, 1, 2, 1] body with
  | some [e, ec, ts, tw, nw, q, k] => supervise l s (setLimits ⟨e, ec, ts, tw, nw, q, k⟩ s)
  | _ => refuse .format s

/-- SET-LIMITS (R73). -/
def execSetLimits (l : LinkId) (tag : Byte) (body : List Byte) (s : State) : Result :=
  takeRequest 0x52 l tag body (setLimitsRequest l body) s

/-! ### WRITE-CAL (R54) -/

/-- The calibration set a WRITE-CAL gives, if every field lies in its range (R52). -/
def calFields : List Nat → Option CalSet
  | [l0, l1, l2, l3, l4, c0, c1, c2, c3, c4, pb, tr] =>
    let hold : PerZone Nat := ⟨l0, l1, l2, l3, l4⟩
    let mass : PerZone Nat := ⟨c0, c1, c2, c3, c4⟩
    if hold.max ≤ 400 ∧ mass.max ≤ 1000 ∧ pb ≤ 5000 ∧ tr ≤ 1800 then some ⟨hold, mass, pb, tr, true⟩ else none
  | _ => none

/-- The state with a calibration set of a number written, of a tube for sets 1 to 3. -/
def writeCalSet (n : Nat) (t : TubeId) (c : CalSet) (s : State) : State :=
  match n with
  | 0 => { s with cal0 := c }
  | 1 => s.onTube t fun u => { u with cal1 := c }
  | 2 => s.onTube t fun u => { u with cal2 := c }
  | _ => s.onTube t fun u => { u with cal3 := c }

/-- WRITE-CAL once the frame's checks have passed (R54): the ceilings of open zones follow the new set (R66). -/
def writeCal (n : Nat) (t : TubeId) (fields : List Nat) (s : State) : State × Reply :=
  if 3 < n then refuse .range s
  else match calFields fields with
    | none => refuse .range s
    | some c => ok (recomposeAll (writeCalSet n t c s))

/-- The form, tube and right checks of a WRITE-CAL (R172, R173): the tube byte is reserved with set 0, and names a tube with sets
1 to 3 (log entry 15). DEDUCED (log entry 38): the body has no byte for the field "valid" of R52, and is 26 bytes long. -/
def writeCalRequest (l : LinkId) (body : List Byte) (s : State) : State × Reply :=
  match body with
  | n :: b :: bs =>
    match takeFields [2, 2, 2, 2, 2, 2, 2, 2, 2, 2, 2, 2] bs with
    | none => refuse .format s
    | some fields =>
      if n = 0 ∧ b ≠ 0 then refuse .format s
      else if 1 ≤ n.toNat ∧ n.toNat ≤ 3 then withTube b s fun t => supervise l s (writeCal n.toNat t fields s)
      else supervise l s (writeCal n.toNat .t0 fields s)
  | _ => refuse .format s

/-- WRITE-CAL (R54). -/
def execWriteCal (l : LinkId) (tag : Byte) (body : List Byte) (s : State) : Result :=
  takeRequest 0x53 l tag body (writeCalRequest l body) s

/-! ### WRITE-TUBE (R28) -/

/-- Whether every field of a tube record lies in its range (R28). -/
def TubeRecord.inRange (r : TubeRecord) : Bool :=
  (r.zmax.toList.all fun z => within 1 4000 z) && decide (r.base < r.mouth) && decide (r.mouth < r.limit) &&
    decide (r.limit ≤ 3000) && within 1 6000 r.coldSpeed && within 1 r.coldSpeed r.hotCap &&
    within 2000 12500 r.hotThreshold && within 1 60 r.stallTime && within 1 300 r.cdown && within 1 500 r.band &&
    decide (r.holdbackLimit ≤ 7200) && within 1 1000 r.overTempBand && decide (r.admissionLimit ≤ 7200) &&
    within 1 60000 r.purgeVolume && within 1 2000 r.autoFlow

/-- The tube record of a WRITE-TUBE's fields, in the order of R28. -/
def recordOf : List Nat → Option TubeRecord
  | [z0, z1, z2, z3, z4, base, mouth, limit, cold, cap, threshold, stall, cdown, band, hb, ot, adm, vp, fa] =>
    some ⟨⟨z0, z1, z2, z3, z4⟩, base, mouth, limit, cold, cap, threshold, stall, cdown, band, hb, ot, adm, vp, fa⟩
  | _ => none

/-- The answer the tube state gives a WRITE-TUBE; none where it is taken (R19, R154). -/
def writeTubeGate (mode : StackMode) (state : TubeState) : Option AnswerCode :=
  match state with
  | .off => if mode = .commission then none else some .state
  | .idle => none
  | .service => none
  | _ => some .state

/-- The tube with a new record, which is marked valid. -/
def Tube.withRecord (u : Tube) (r : TubeRecord) : Tube := { u with record := r, recordValid := true }

/-- WRITE-TUBE once the frame's checks have passed: the record is replaced, the ceilings recomposed (R66) and the seal recomputed
(R118). -/
def writeTube (t : TubeId) (r : TubeRecord) (s : State) : State × Reply :=
  match writeTubeGate s.mode (s.tube t).state with
  | some code => refuse code s
  | none =>
    if !r.inRange then refuse .range s
    else ok (settle (recomputeSeal t (recompose t (s.onTube t fun u => u.withRecord r))))

/-- The sizes of a tube record's fields (R28, R174). -/
def recordSizes : List Nat := [2, 2, 2, 2, 2, 2, 2, 2, 2, 2, 2, 1, 2, 2, 2, 2, 2, 2, 2]

/-- The form, tube and right checks of a WRITE-TUBE (R172, R173). -/
def writeTubeRequest (l : LinkId) (body : List Byte) (s : State) : State × Reply :=
  match body with
  | b :: bs =>
    match (takeFields recordSizes bs).bind recordOf with
    | none => refuse .format s
    | some r => withTube b s fun t => supervise l s (writeTube t r s)
  | _ => refuse .format s

/-- WRITE-TUBE (R28). -/
def execWriteTube (l : LinkId) (tag : Byte) (body : List Byte) (s : State) : Result :=
  takeRequest 0x54 l tag body (writeTubeRequest l body) s

/-! ### WRITE-RIGHTS (R180) -/

/-- The rights a rights byte and a floor spell (R180). -/
def rightsOf (r : Byte) (floor : Nat) : Rights := ⟨r.getLsbD 0, r.getLsbD 1, r.getLsbD 2, floor⟩

/-- WRITE-RIGHTS once the frame's checks have passed (R180). -/
def writeRights (n : Nat) (t : TubeId) (entry : Rights) (s : State) : State × Reply :=
  match LinkId.ofNat? n with
  | none => refuse .range s
  | some k =>
    if 7 < entry.floor then refuse .range s
    else ok { s with rights := s.rights.set k ((s.rights.get k).set t entry) }

/-- The form, tube and right checks of a WRITE-RIGHTS; the upper bits of the rights byte are reserved (R172, R180). -/
def writeRightsRequest (l : LinkId) (body : List Byte) (s : State) : State × Reply :=
  match body with
  | [n, b, r, f] =>
    if 8 ≤ r.toNat then refuse .format s
    else withTube b s fun t => supervise l s (writeRights n.toNat t (rightsOf r f.toNat) s)
  | _ => refuse .format s

/-- WRITE-RIGHTS (R180). -/
def execWriteRights (l : LinkId) (tag : Byte) (body : List Byte) (s : State) : Result :=
  takeRequest 0x55 l tag body (writeRightsRequest l body) s

/-! ### PROMOTE-CLAIM (R86) -/

/-- A tube's claim with a new level, moved to its place (R86). -/
def promoted (c : Claim) (level : Nat) (s : State) : State :=
  s.onArbiter fun a =>
    { a with claims := insertClaim { c with level := level } (a.claims.filter fun d => d.tube != c.tube) }

/-- PROMOTE-CLAIM once the frame's checks have passed (R86). -/
def promote (t : TubeId) (level : Nat) (s : State) : State × Reply :=
  if 7 < level then refuse .range s
  else match claimOf s t with
    | none => refuse .unknownId s
    | some c => ok (settle (dueClaims (promoted c level s)))

/-- The form, tube and right checks of a PROMOTE-CLAIM (R172). -/
def promoteRequest (l : LinkId) (body : List Byte) (s : State) : State × Reply :=
  match body with
  | [b, level] => withTube b s fun t => supervise l s (promote t level.toNat s)
  | _ => refuse .format s

/-- PROMOTE-CLAIM (R86). -/
def execPromoteClaim (l : LinkId) (tag : Byte) (body : List Byte) (s : State) : Result :=
  takeRequest 0x56 l tag body (promoteRequest l body) s

/-! ### OPEN-STACK (R156) -/

/-- The checks of OPEN-STACK (R156). -/
def canOpen (s : State) : Bool :=
  s.cal0.valid && (TubeId.all.all fun t => (s.tube t).recordValid) && decide (0 < s.arbiter.limitE) &&
    decide (0 < s.gas.capacity)

/-- A tube as OPEN-STACK leaves it: IDLE, its halted flag clear and its pointer 0, with its TC-OPEN condition as its zones stand
(R8, R156, R47). -/
def Tube.opened (u : Tube) : Tube :=
  { u with
    state := .idle
    halted := false
    pointer := 0
    fault := { u.fault with tcOpen := decide (2 ≤ u.openCount) } }

/-- Report TC-OPEN for a tube whose condition stands (R156, stage 3). -/
def reportOpen (s : State) (t : TubeId) : State :=
  if (s.tube t).fault.tcOpen then reportCause t .tcOpen s else s

/-- OPEN-STACK once the frame's checks have passed (R154, R156). -/
def openStack (s : State) : State × Reply :=
  if s.mode ≠ .commission then refuse .mode s
  else if !canOpen s then refuse .state s
  else ok (raiseMode (TubeId.all.foldl reportOpen (recomposeAll ({ s with mode := .run }.onTubes Tube.opened))))

/-- OPEN-STACK (R156). -/
def execOpenStack (l : LinkId) (tag : Byte) (body : List Byte) (s : State) : Result :=
  takeRequest 0x57 l tag body (stackRequest l body openStack) s

/-! ### CLOSE-STACK (R157) -/

/-- The first failing check of CLOSE-STACK (R157). -/
def closeRefusal (s : State) : Option AnswerCode :=
  if !(TubeId.all.all fun t => (s.tube t).state == .idle && (s.tube t).queue.isEmpty) then some .state
  else if TubeId.all.any fun t => (s.tube t).lines.dopant.isOpen then some .state
  else if anyPending s then some .pending
  else none

/-- The stack as CLOSE-STACK leaves it (R157): grants to 0, tubes OFF with their setpoints and ceilings at 0, COMMISSION, and MODE
raised. No list holds a claim, so none is evaluated. -/
def closed (s : State) : State :=
  let s1 := (TubeId.all.foldl cutPower s).onTubes Tube.switchOff
  let s2 := s1.onArbiter fun a => { a with pacing := none, shedding := false }
  raiseMode { (s2.onDue fun _ => Due.none) with mode := .commission }

/-- CLOSE-STACK once the frame's checks have passed (R154, R157). -/
def closeStack (s : State) : State × Reply :=
  if s.mode ≠ .run then refuse .mode s
  else match closeRefusal s with
    | some code => refuse code s
    | none => ok (closed s)

/-- CLOSE-STACK (R157). -/
def execCloseStack (l : LinkId) (tag : Byte) (body : List Byte) (s : State) : Result :=
  takeRequest 0x58 l tag body (stackRequest l body closeStack) s

/-! ### STACK-RESET (R161) and CLEAR-STOP (R160) -/

/-- STACK-RESET once the frame's checks have passed (R161). -/
def resetStack (s : State) : State :=
  let s1 := (stopCleanUp s).onLinks fun _ k => k.clearAttention
  let s2 := s1.onArbiter fun a => { a with mask := 0 }
  raiseMode { s2 with mode := if s.eStop then .stopped else .commission }

/-- STACK-RESET (R161). -/
def execStackReset (l : LinkId) (tag : Byte) (body : List Byte) (s : State) : Result :=
  takeRequest 0x59 l tag body (stackRequest l body fun s => ok (resetStack s)) s

/-- CLEAR-STOP once the frame's checks have passed (R154, R160). -/
def clearStop (s : State) : State × Reply :=
  if s.mode ≠ .stopped then refuse .mode s
  else if s.eStop then refuse .state s
  else ok (raiseMode { s with mode := .commission })

/-- CLEAR-STOP (R160). -/
def execClearStop (l : LinkId) (tag : Byte) (body : List Byte) (s : State) : Result :=
  takeRequest 0x5A l tag body (stackRequest l body clearStop) s

end Sys2Proof.Machine
end

