-- ==== Sys2Proof/Machine/ServiceRequests.lean ====
section
/-! DEFINITION. The service requests: ENTER-SERVICE, LEAVE-SERVICE, SERVICE-JOG, SERVICE-VALVE, SERVICE-SETPOINT
(section 9.5). -/

namespace Sys2Proof.Machine

/-- A service request on a tube, which the stack mode must allow (R154). -/
def inRun (s : State) (k : State × Reply) : State × Reply := if s.mode = .run then k else refuse .mode s

/-- A service operation, which is answered STATE outside SERVICE (R164, R165, R166, R167). -/
def inService (t : TubeId) (s : State) (k : State × Reply) : State × Reply :=
  inRun s (if (s.tube t).state = .service then k else refuse .state s)

/-- A service request that names a tube and nothing else (R172). -/
def serviceTubeRequest (l : LinkId) (body : List Byte) (h : TubeId → State → State × Reply) (s : State) : State × Reply :=
  match body with
  | [b] => withTube b s fun t => supervise l s (h t s)
  | _ => refuse .format s

/-- The tube with its service state changed. -/
def State.onService (s : State) (t : TubeId) (f : Service → Service) : State :=
  s.onTube t fun u => { u with service := f u.service }

/-! ### ENTER-SERVICE (R163) -/

/-- ENTER-SERVICE once the frame's checks have passed (R163). -/
def enterService (t : TubeId) (s : State) : State × Reply :=
  inRun s <|
    match (s.tube t).state with
    | .idle => ok (s.onTube t fun u => { u with state := .service, service := .reset })
    | .faultHold => ok (s.onTube t fun u => { u with state := .service, service := .reset })
    | _ => refuse .state s

/-- ENTER-SERVICE (R163). -/
def execEnterService (l : LinkId) (tag : Byte) (body : List Byte) (s : State) : Result :=
  takeRequest 0x5B l tag body (serviceTubeRequest l body enterService) s

/-! ### LEAVE-SERVICE (R167) -/

/-- A running jog stops and becomes NONE (R163, R167). -/
def stopJog (t : TubeId) (s : State) : State :=
  match (s.tube t).service.jog with
  | some _ => (stopLoader t s).onService t fun v => { v with jog := none }
  | none => s

/-- A running service ramp stops with its setpoints frozen; a waiting one has its claim removed (R166, R167). -/
def stopServiceRamp (t : TubeId) (s : State) : State :=
  match (s.tube t).service.ramp with
  | .none => s
  | .waiting _ _ => (removeClaim t s).onService t fun v => { v with ramp := .none }
  | .running => (s.onTube t Tube.dropRamps).onService t fun v => { v with ramp := .none }

/-- Close the lines set in service, and the PURGE line (R167, stage 3). DESIGN CHOICE (log entry 43): in the order PURGE, CARRIER,
OXY, DOPANT. -/
def closeServiceLines (t : TubeId) (s : State) : State :=
  let v := (s.tube t).service
  let s1 := closePurge t s
  let s2 := if v.carrier then commandLine t .carrier 0 s1 else s1
  let s3 := if v.oxy then commandLine t .oxy 0 s2 else s2
  let s4 := s3.onService t fun v => { v with carrier := false, oxy := false }
  if (s.tube t).fault.causes.isEmpty then s4 else closeDopant t s4

/-- LEAVE-SERVICE of a tube in SERVICE (R167). -/
def leave (t : TubeId) (s : State) : State :=
  let s1 := closeServiceLines t (stopServiceRamp t (stopJog t s))
  let s2 := if (s.tube t).fault.causes.overTemp then overTempGrant t s1 else lowerShare t s1
  settle <| s2.onTube t fun u =>
    { u with halted := true, state := if u.fault.causes.isEmpty then .idle else .faultHold }

/-- LEAVE-SERVICE (R167). -/
def execLeaveService (l : LinkId) (tag : Byte) (body : List Byte) (s : State) : Result :=
  takeRequest 0x5C l tag body
    (serviceTubeRequest l body fun t s => inService t s (ok (leave t s))) s

/-! ### SERVICE-JOG (R164) -/

/-- The speed of a jog (R164). -/
def jogSpeed (r : TubeRecord) : Nat := min r.coldSpeed 60

/-- A jog to a target in the window: a new motion from the present position as a single segment, which arrives at once where the
boat already stands; a running jog so stopped short has its loader sent a STOP (R116, R119, R164; log entry 26). The direction
from a position of none, which counts as below the mouth (R120), to a target below the mouth is the free value of log
entry 3. -/
def jog (t : TubeId) (target : Nat) (s : State) : State :=
  let u := s.tube t
  let s1 := (s.onLoader t fun l => { l with travel := some (travelCopy u.record), target := some target }).onService t
    fun v => { v with jog := some target }
  match u.loader.position with
  | some p =>
    if p = target then arrive t (if u.loader.isMoving then s1.send (.stop t) else s1)
    else sendMove t (isInward p target) target (jogSpeed u.record) s1
  | none =>
    if u.record.mouth ≤ target then sendMove t true target (jogSpeed u.record) s1
    else
      sendMove t (Config.freeDirection s.freeIndex) target (jogSpeed u.record) { s1 with freeIndex := s.freeIndex + 1 }

/-- SERVICE-JOG once the frame's checks have passed (R164). -/
def serviceJog (t : TubeId) (target : Nat) (s : State) : State × Reply :=
  inService t s <|
    if (s.tube t).lines.dopant.isOpen then refuse .state s
    else if within (s.tube t).record.base (s.tube t).record.limit target then ok (jog t target s)
    else refuse .range s

/-- The form, tube and right checks of a SERVICE-JOG (R172). -/
def jogRequest (l : LinkId) (body : List Byte) (s : State) : State × Reply :=
  match body with
  | [b, p1, p0] => withTube b s fun t => supervise l s (serviceJog t (num2 p1 p0) s)
  | _ => refuse .format s

/-- SERVICE-JOG (R164). -/
def execServiceJog (l : LinkId) (tag : Byte) (body : List Byte) (s : State) : Result :=
  takeRequest 0x5D l tag body (jogRequest l body) s

/-! ### SERVICE-VALVE (R165) -/

/-- A PURGE setting in service that fits: the line is commanded, and a fall of the allocation evaluates the header FIFO (R103,
R165). A flow equal to the present command is sent again (log entry 36). -/
def servicePurge (t : TubeId) (flow : Nat) (s : State) : State :=
  let s1 := commandLine t .purge flow s
  settle (if flow < (s.tube t).lines.purge.commanded then dueHeader s1 else s1)

/-- SERVICE-VALVE once the frame's checks have passed (R165). DESIGN CHOICE (log entry 36): a flow equal to the line's present
command is sent again and sets the low count to 0, for PURGE as for CARRIER and OXY. -/
def serviceValve (t : TubeId) (line : LineId) (flow : Nat) (s : State) : State × Reply :=
  inService t s <|
    if 2000 < flow then refuse .range s
    else match line with
      | .dopant => refuse .range s
      | .carrier => ok ((commandLine t .carrier flow s).onService t fun v => { v with carrier := decide (0 < flow) })
      | .oxy => ok ((commandLine t .oxy flow s).onService t fun v => { v with oxy := decide (0 < flow) })
      | .purge =>
        if headerAllocation s - (s.tube t).lines.purge.commanded + flow ≤ s.gas.capacity then ok (servicePurge t flow s)
        else refuse .state s

/-- The form, tube and right checks of a SERVICE-VALVE; a line code above 3 is FORMAT (R172, R174). -/
def valveRequest (l : LinkId) (body : List Byte) (s : State) : State × Reply :=
  match body with
  | [b, n, f1, f0] =>
    match LineId.ofNat? n.toNat with
    | none => refuse .format s
    | some line => withTube b s fun t => supervise l s (serviceValve t line (num2 f1 f0) s)
  | _ => refuse .format s

/-- SERVICE-VALVE (R165). -/
def execServiceValve (l : LinkId) (tag : Byte) (body : List Byte) (s : State) : Result :=
  takeRequest 0x5E l tag body (valveRequest l body) s

/-! ### SERVICE-SETPOINT (R166) -/

/-- The zones of a service ramp begin to move (R166, R83). -/
def runServiceRamp (t : TubeId) (rate : Nat) (zones : List (ZoneId × Nat)) (s : State) : State :=
  s.onTube t fun u => { u.loadZones rate zones with service := { u.service with ramp := .running } }

/-- A service ramp that has passed its checks, its predecessor stopped: it runs on a share set to its demand, or waits on a SERVICE
claim (R166). -/
def beginServiceRamp (t : TubeId) (rate : Nat) (zones : List (ZoneId × Nat)) (s : State) : State :=
  let demand := rampStepDemand s t rate zones
  let total := (s.tube t).stepTotal
  if demand.sum ≤ total then runServiceRamp t rate zones (writeStepShare t demand s)
  else
    (placeClaim t .service 0 demand (demand.sum - total) none s).onService t fun v =>
      { v with ramp := .waiting rate zones }

/-- SERVICE-SETPOINT once the frame's checks have passed (R166). -/
def serviceSetpoint (t : TubeId) (rate : Nat) (entries : List (Nat × Nat)) (s : State) : State × Reply :=
  inService t s <|
    match rangedZones entries with
    | none => refuse .range s
    | some zones =>
      if !within 1 300 rate then refuse .range s
      else if (s.tube t).fault.causes.overTemp then refuse .state s
      else ok (settle (beginServiceRamp t rate zones (stopServiceRamp t s)))

/-- The form, tube and right checks of a SERVICE-SETPOINT (R172). -/
def setpointRequest (l : LinkId) (body : List Byte) (s : State) : State × Reply :=
  match body with
  | b :: r1 :: r0 :: n :: es =>
    match countedEntries 5 n es with
    | none => refuse .format s
    | some entries => withTube b s fun t => supervise l s (serviceSetpoint t (num2 r1 r0) entries s)
  | _ => refuse .format s

/-- SERVICE-SETPOINT (R166). -/
def execServiceSetpoint (l : LinkId) (tag : Byte) (body : List Byte) (s : State) : Result :=
  takeRequest 0x5F l tag body (setpointRequest l body) s

end Sys2Proof.Machine
end

