-- ==== Sys2Proof/Machine/Frames.lean ====
section
/-! DEFINITION. The events of a link's receiver that take no request, and a frame of an unknown kind (sections 10.1 and
10.2). -/

namespace Sys2Proof.Machine

/-- A link back in HUNT with nothing collected. -/
def Link.hunting (k : Link) : Link := { k with rx := .hunt, buffer := [] }

/-- UNKNOWN_KIND: a well-formed frame whose kind byte is not in the table of R173 (R172). -/
def execUnknownKind (l : LinkId) (kind tag : Byte) (body : List Byte) (s : State) : Result :=
  if requestKinds.contains kind then .next s
  else takeRequest kind l tag body (refuse .unknownKind) s

/-- CRC_MISMATCH: the bytes after a start byte complete a frame whose CRC does not match, and the frame is discarded (R170). -/
def execCrcMismatch (l : LinkId) (bytes : List Byte) (s : State) : Result :=
  if completesFrame bytes && !crcMatches bytes && takesFrame (s.link l) (startByte :: bytes) then
    .next ((openEvent s).onLink l Link.hunting)
  else .next s

/-- FRAME_LENGTH_REJECT: the length byte, second of the frame, is above 240 (R169). -/
def execFrameLengthReject (l : LinkId) (length : Byte) (s : State) : Result :=
  if decide (Config.maxBody < length.toNat) && (s.link l).rx == .collect && (s.link l).buffer == [startByte] then
    .next ((openEvent s).onLink l Link.hunting)
  else .next s

/-- COLLECT_GAP_TIMEOUT: a gap of more than 5 ms while in COLLECT (R169). -/
def execCollectGapTimeout (l : LinkId) (s : State) : Result :=
  if (s.link l).rx = .collect then .next ((openEvent s).onLink l Link.hunting) else .next s

/-- ANSWER_SENT: the last byte of the answer has been sent (R169). -/
def execAnswerSent (l : LinkId) (s : State) : Result :=
  if (s.link l).rx = .answer then
    .next ((openEvent s).onLink l fun k => { k.hunting with answer := none })
  else .next s

/-- FRAME_START: a start byte in HUNT begins a frame, and the bytes that follow join it while it is not complete (R169). In
COLLECT a 0xC3 is a byte of the frame like any other, and in ANSWER every byte is lost. -/
def execFrameStart (l : LinkId) (more : List Byte) (s : State) : Result :=
  let bytes := startByte :: more
  match (s.link l).rx with
  | .hunt =>
    if isPartialFrame bytes then .next ((openEvent s).onLink l fun k => { k with rx := .collect, buffer := bytes })
    else .next s
  | .collect =>
    if isPartialFrame ((s.link l).buffer ++ bytes) then
      .next ((openEvent s).onLink l fun k => { k with buffer := k.buffer ++ bytes })
    else .next s
  | .answer => .next s

end Sys2Proof.Machine
end

