-- ==== Sys2Proof/Machine/Boundary.lean ====
section
/-! DEFINITION. The seconds boundary: the events it is made of, each taken as an event of its own, and the rows that take one
of them when it was left for later (R132, R134, R107 to R111, R128, R162, R80; log entry 4). -/

namespace Sys2Proof.Machine

/-! ### The gas block at a boundary (R107 to R111) -/

/-- The credit and the owed test of one tube, and the end of its automatic purge when the owed flag has cleared (R107, R108,
R109). -/
def creditTube (t : TubeId) (s : State) : State :=
  settle (checkAutoPurge t (s.onTube t fun u => u.creditPurge.testOwed))

/-- Close the PURGE or DOPANT line of a tube whose low count has reached 10 (R111). DESIGN CHOICE (log entry 43): PURGE first. -/
def closeLowLines (t : TubeId) (before : PerLine Line) (s : State) : State :=
  let s1 := if before.purge.lowReached then closePurge t s else s
  if before.dopant.lowReached then closeDopant t s1 else s1

/-- The flow-low test of a tube's lines, with one report of FLOW-LOW where PURGE or DOPANT reaches a count of 10 (R110, R111,
R142). -/
def testLines (t : TubeId) (s : State) : State :=
  let lines := (s.tube t).lines
  let s1 := s.onTube t fun u =>
    { u with lines := ⟨lines.purge.testFlow, lines.carrier.testFlow, lines.oxy.testFlow, lines.dopant.testFlow⟩ }
  if lines.purge.lowReached || lines.dopant.lowReached then reportCause t .flowLow (closeLowLines t lines s1) else s1

/-- One tube's gas at a boundary, in the order R107 gives. -/
def gasSecond (t : TubeId) (s : State) : State := settle (testLines t (creditTube t s))

/-! ### Counters at a boundary (R134 to R136) -/

/-- Whether a step counter is paused at a boundary (R135). -/
def stepPaused (u : Tube) : Bool :=
  u.isSuspended ||
    (u.holdback.asserted && (match u.current with
      | some c => c.step.body.kind == .soak
      | none => false))

/-- The expiry of a step counter: a PURGE's line closes, and the step ends DONE (R16, R106, R136). -/
def expireStep (t : TubeId) (s : State) : State :=
  let s1 := s.onTube t fun u => { u with stepCounter := none }
  match (s.tube t).current with
  | none => s1
  | some c => settle (endStep t .done (if c.step.body.kind = .purge then closePurge t s1 else s1))

/-- One tube's step counter at a boundary. -/
def stepSecond (t : TubeId) (s : State) : State :=
  let u := s.tube t
  match u.stepCounter with
  | none => s
  | some c =>
    if expires (stepPaused u) c then expireStep t s
    else s.onTube t fun u => { u with stepCounter := some (tick (stepPaused u) c) }

/-- One tube's recovery counter at a boundary: never paused, it releases the surcharge share at its expiry (R126, R135). -/
def recoverySecond (t : TubeId) (s : State) : State :=
  match (s.tube t).loader.recoveryCounter with
  | none => s
  | some c =>
    if expires false c then settle (releaseSurcharge t s)
    else s.onLoader t fun l => { l with recoveryCounter := some (tick false c) }

/-- One tube's holdback counter at a boundary; its expiry is reported as HOLDBACK-TIMEOUT (R42). -/
def holdbackSecond (t : TubeId) (s : State) : State :=
  let u := s.tube t
  match u.holdback.counter with
  | none => s
  | some c =>
    if expires u.isSuspended c then
      reportCause t .holdbackTimeout (s.onTube t fun u => { u with holdback := { u.holdback with counter := none } })
    else s.onTube t fun v => { v with holdback := { v.holdback with counter := some (tick u.isSuspended c) } }

/-- The admission-wait counter of the claim a tube has waiting. -/
def admissionCounter (s : State) (t : TubeId) : Option DwellCounter := (claimOf s t).bind Claim.counter

/-- One tube's admission-wait counter at a boundary; at its expiry the claim leaves and the step ends FAILED with ADMIT-TIMEOUT
(R85). -/
def admissionSecond (t : TubeId) (s : State) : State :=
  match admissionCounter s t with
  | none => s
  | some c =>
    let isPaused := (s.tube t).isSuspended
    if expires isPaused c then settle (endStep t (.failed .admitTimeout) (removeClaim t s))
    else onClaim t (fun d => { d with counter := some (tick isPaused c) }) s

/-- One counter of one tube at a boundary (R134). -/
def counterSecond (t : TubeId) (k : CounterKind) (s : State) : State :=
  match k with
  | .step => stepSecond t s
  | .recovery => recoverySecond t s
  | .holdback => holdbackSecond t s
  | .admission => admissionSecond t s

/-- The step holdback seconds of one tube at a boundary (R43). -/
def Tube.countHoldback (u : Tube) : Tube :=
  if u.holdback.asserted && !u.isSuspended then
    { u with holdback := { u.holdback with seconds := min (u.holdback.seconds + 1) 65535 } }
  else u

/-! ### The stall watch at a boundary (R128) -/

/-- Whether a boundary brings a loader's stall count to 0. -/
def Loader.stalls (l : Loader) : Bool :=
  l.isMoving && !l.stallFresh && (match l.stallCount with
    | some n => decide (n ≤ 1)
    | none => false)

/-- A loader whose stall count is decreased by a boundary, if the loader moves and the count was loaded before it (R128; log
entry 10). -/
def Loader.countDown (l : Loader) : Loader :=
  if l.isMoving && !l.stallFresh then { l with stallCount := l.stallCount.map fun n => n - 1 } else l

/-- One tube's stall watch at a boundary: a stall is reported, and in SERVICE the jog ends whether or not the cause was in the set
already (R128, R163; log entry 19). -/
def stallSecond (t : TubeId) (s : State) : State :=
  let s1 := s.onLoader t Loader.countDown
  if (s.tube t).loader.stalls then
    let s2 := reportCause t .motionStall s1
    if (s.tube t).state = .service then stopJog t s2 else s2
  else s1

/-! ### The facility input filters (R162) -/

/-- Whether a boundary with this input changes a filter's state. -/
def Filter.flips (f : Filter) (input : Bool) : Bool := f.asserted != input && decide (2 ≤ f.count)

/-- A filter after a boundary with this input (R162). -/
def Filter.sample (f : Filter) (input : Bool) : Filter :=
  if f.asserted = input then { f with count := 0 }
  else if 2 ≤ f.count then ⟨input, 0⟩
  else { f with count := f.count + 1 }

/-- What a change of the curtail state causes (R72, R162). -/
def curtailChanged (asserted : Bool) (s : State) : State :=
  raiseCurtail (settle (if asserted then dueShed s else dueClaims (dueShedWhileShedding s)))

/-- The CURTAIL filter at a boundary. -/
def curtailSecond (s : State) : State :=
  let s1 := { s with curtail := s.curtail.sample s.curtailInput }
  if s.curtail.flips s.curtailInput then curtailChanged s.curtailInput s1 else s1

/-- The closing of every open DOPANT line, and a report of EXHAUST-LOST for each tube whose line was open (R101, stages 1 and
2). DESIGN CHOICE (log entries 37, 43): the tubes are taken from T0 to T3, the evaluations of each entry before the next report. -/
def closeForExhaust (s : State) : State :=
  let open_ := TubeId.all.filter fun t => (s.tube t).lines.dopant.isOpen
  open_.foldl (fun s t => reportCause t .exhaustLost s) (settle (open_.foldl (fun s t => closeDopant t s) s))

/-- The removal of one scrubber claim on exhaust loss: its GAS-SET ends FAILED with EXHAUST (R101, stage 3). -/
def failScrubberClaim (s : State) (c : ScrubberClaim) : State :=
  endStep c.tube (.failed .exhaust) (removeScrubberClaim c.tube s)

/-- The removal of every scrubber claim whose tube is not SUSPENDED, oldest first (R101, stage 3). -/
def failScrubberClaims (s : State) : State :=
  settle ((s.gas.scrubber.filter fun c => !(s.tube c.tube).isSuspended).foldl failScrubberClaim s)

/-- What a change of the filtered EXHAUST-OK state causes (R101, R162). -/
def exhaustChanged (asserted : Bool) (s : State) : State :=
  if asserted then
    settle (dueScrubber (s.onTubes fun u => { u with fault := { u.fault with exhaustLost := false } }))
  else failScrubberClaims (closeForExhaust s)

/-- The EXHAUST-OK filter at a boundary. -/
def exhaustSecond (s : State) : State :=
  let s1 := { s with exhaust := s.exhaust.sample s.exhaustInput }
  if s.exhaust.flips s.exhaustInput then exhaustChanged s.exhaustInput s1 else s1

/-! ### The pacing time (R80) -/

/-- Whether the stack seconds counter stands at the pacing time. -/
def pacingReached (s : State) : Bool := s.arbiter.pacing == some s.seconds

/-- The pacing time at a boundary: when it is reached, the Claim List is evaluated (R78, R80). -/
def pacingSecond (s : State) : State := if pacingReached s then settle (dueClaims s) else s

/-! ### The events of a boundary -/

/-- One event of a boundary. -/
def runBoundary (i : BoundaryItem) (s : State) : State :=
  match i with
  | .gas t => gasSecond t s
  | .holdbackSecond t => s.onTube t Tube.countHoldback
  | .counter t k => counterSecond t k s
  | .stall t => stallSecond t s
  | .curtailFilter => curtailSecond s
  | .exhaustFilter => exhaustSecond s
  | .pacing => pacingSecond s

/-- The state with one of the boundary's events no longer to be taken. -/
def dropBoundary (s : State) (i : BoundaryItem) : State :=
  { s with boundaryDue := s.boundaryDue.filter fun j => j != i }

/-- Take one of the boundary's events, if it is still to be taken. -/
def takeBoundary (s : State) (i : BoundaryItem) : State :=
  if s.boundaryDue.contains i then runBoundary i (dropBoundary s i) else s

/-- The events of one tube at a boundary, in the order taken where the command gives none. -/
def tubeItems (t : TubeId) : List BoundaryItem :=
  [.gas t, .holdbackSecond t, .counter t .recovery, .counter t .holdback, .counter t .step, .counter t .admission, .stall t]

/-- The events of a boundary, in the order taken where the command gives none (log entry 4). -/
def boundaryItems : List BoundaryItem := TubeId.all.flatMap tubeItems ++ [.curtailFilter, .exhaustFilter, .pacing]

/-- A claim as a boundary begins (R133). -/
def Claim.settleFresh (c : Claim) : Claim := { c with counter := c.counter.map Machine.settleFresh }

/-- A tube as a boundary begins: every counter loaded before it takes its decrement now (R133). -/
def Tube.settleFresh (u : Tube) : Tube :=
  { u with
    stepCounter := u.stepCounter.map Machine.settleFresh
    holdback := { u.holdback with counter := u.holdback.counter.map Machine.settleFresh }
    loader :=
      { u.loader with
        recoveryCounter := u.loader.recoveryCounter.map Machine.settleFresh
        stallFresh := false } }

/-- A boundary begins: the stack seconds counter advances modulo 2^32, and the inputs stand as the command gives (R132, R162). -/
def beginBoundary (curtail exhaust : Bool) (s : State) : State :=
  let s1 := (s.onTubes Tube.settleFresh).onArbiter fun a => { a with claims := a.claims.map Claim.settleFresh }
  { s1 with
    seconds := s.seconds + 1
    curtailInput := curtail
    exhaustInput := exhaust
    boundaryDue := boundaryItems }

/-- Every event of the last boundary that is still to be taken. -/
def finishBoundary (s : State) : State := s.boundaryDue.foldl takeBoundary s

/-- SECONDS_BOUNDARY (R132): the stack seconds counter advances and the boundary's events are taken, first those of `order`, then
the others but those of `later`, which stay to be taken by their own rows. What an earlier boundary left is taken first. -/
def execSecondsBoundary (curtail exhaust : Bool) (order later : List BoundaryItem) (s : State) : Result :=
  let s1 := beginBoundary curtail exhaust (finishBoundary (openEvent s))
  .next ((order ++ boundaryItems.filter fun i => !later.contains i).foldl takeBoundary s1)

/-! ### The rows that take one event of a boundary -/

/-- Take an event left by a boundary, if it is to be taken and would be the event its row names; otherwise that event has not
occurred, and nothing changes (log entry 5). -/
def takeRow (i : BoundaryItem) (occurs : State → Bool) (s : State) : Result :=
  let s1 := dropBoundary (openEvent s) i
  if s.boundaryDue.contains i && occurs s1 then .next (runBoundary i s1) else .next s

/-- Whether the step counter of a tube's current step of a kind expires at the boundary. -/
def stepExpires (s : State) (t : TubeId) (k : StepKind) : Bool :=
  match (s.tube t).stepCounter, (s.tube t).current with
  | some c, some cur => expires (stepPaused (s.tube t)) c && cur.step.body.kind == k
  | _, _ => false

/-- SOAK_COUNTER_EXPIRY (R16, R136). -/
def execSoakCounterExpiry (t : TubeId) (s : State) : Result :=
  takeRow (.counter t .step) (fun s => stepExpires s t .soak) s

/-- PURGE_COUNTER_EXPIRY (R16, R106, R136). -/
def execPurgeCounterExpiry (t : TubeId) (s : State) : Result :=
  takeRow (.counter t .step) (fun s => stepExpires s t .purge) s

/-- Whether a counter, if loaded, expires at the boundary. -/
def counterExpires (isPaused : Bool) (c : Option DwellCounter) : Bool :=
  match c with
  | some c => expires isPaused c
  | none => false

/-- RECOVERY_COUNTER_EXPIRY (R126). -/
def execRecoveryCounterExpiry (t : TubeId) (s : State) : Result :=
  takeRow (.counter t .recovery) (fun s => counterExpires false (s.tube t).loader.recoveryCounter) s

/-- HOLDBACK_COUNTER_EXPIRY (R42). -/
def execHoldbackCounterExpiry (t : TubeId) (s : State) : Result :=
  takeRow (.counter t .holdback) (fun s => counterExpires (s.tube t).isSuspended (s.tube t).holdback.counter) s

/-- ADMISSION_WAIT_EXPIRY (R85). -/
def execAdmissionWaitExpiry (t : TubeId) (s : State) : Result :=
  takeRow (.counter t .admission) (fun s => counterExpires (s.tube t).isSuspended (admissionCounter s t)) s

/-- CURTAIL_ASSERTED (R72, R162). -/
def execCurtailAsserted (s : State) : Result :=
  takeRow .curtailFilter (fun s => s.curtailInput && s.curtail.flips s.curtailInput) s

/-- CURTAIL_RELEASED (R72, R162). -/
def execCurtailReleased (s : State) : Result :=
  takeRow .curtailFilter (fun s => !s.curtailInput && s.curtail.flips s.curtailInput) s

/-- EXHAUST_LOST (R101, R162). -/
def execExhaustLost (s : State) : Result :=
  takeRow .exhaustFilter (fun s => !s.exhaustInput && s.exhaust.flips s.exhaustInput) s

/-- EXHAUST_RESTORED (R101, R162). -/
def execExhaustRestored (s : State) : Result :=
  takeRow .exhaustFilter (fun s => s.exhaustInput && s.exhaust.flips s.exhaustInput) s

/-- PACING_TIME_REACHED (R80). -/
def execPacingTimeReached (s : State) : Result := takeRow .pacing pacingReached s

/-- MOTION_STALL (R128). -/
def execMotionStall (t : TubeId) (s : State) : Result := takeRow (.stall t) (fun s => (s.tube t).loader.stalls) s

/-- FLOW_LOW: a line's low count reaches 10 at the boundary, after the credit and the owed test (R107, R111). -/
def execFlowLow (t : TubeId) (line : LineId) (s : State) : Result :=
  takeRow (.gas t) (fun s => (((creditTube t s).tube t).lines.get line).lowReached) s

/-- AUTO_PURGE_END: the boundary's credit clears the owed flag of a tube PURGING for an automatic purge (R17, R109). -/
def execAutoPurgeEnd (t : TubeId) (s : State) : Result :=
  takeRow (.gas t) (fun s => autoPurgeOver (s.tube t).creditPurge.testOwed) s

end Sys2Proof.Machine
end

