-- ==== Sys2Proof/Machine/Update.lean ====
section
/-! DEFINITION. Zone sensing and the zone trajectory update: readings, the over-temperature test, holdback, the setpoint
arithmetic, tracking, and what is sent on the zone drive link (Chapter 2). -/

namespace Sys2Proof.Machine

/-! ### Readings (section 2.5) -/

/-- The report of a change of the number of open zones of a tube (R47): TC-OPEN arises as a second zone opens, and goes as fewer
than two are left open. -/
def reportOpenCount (t : TubeId) (before : Nat) (s : State) : State :=
  let now := (s.tube t).openCount
  if before < 2 ∧ 2 ≤ now then reportCause t .tcOpen s
  else if 2 ≤ before ∧ now < 2 then setCondition t .tcOpen false s
  else s

/-- A zone changed by zone sensing: its ceiling is composed again, and a change of the number of open zones is reported (R44 to
R47, R66). -/
def senseZone (t : TubeId) (z : ZoneId) (f : Zone → Zone) (s : State) : State :=
  reportOpenCount t (s.tube t).openCount (recomposeZone t (s.onZone t z f) z)

/-- A zone after a reading (R44, R45). -/
def Zone.read (value : Nat) (isOpen : Bool) (zone : Zone) : Zone :=
  if isOpen then { zone with isOpen := true, reported := true }
  else { zone with pv := min value Config.maxReading, missed := 0, isOpen := false, reported := true }

/-- ZONE_READING (R44, R45, R47). -/
def execZoneReading (t : TubeId) (z : ZoneId) (value : Nat) (isOpen : Bool) (s : State) : Result :=
  .next (settle (senseZone t z (Zone.read value isOpen) (openEvent s)))

/-- A zone after an update interval in which no reading arrived for it (R44). -/
def Zone.miss (zone : Zone) : Zone :=
  { zone with missed := min (zone.missed + 1) 4, isOpen := zone.isOpen || decide (3 ≤ zone.missed) }

/-- The end of an update interval without a reading for a zone (R44). -/
def missZone (t : TubeId) (z : ZoneId) (s : State) : State := settle (senseZone t z Zone.miss s)

/-! ### The over-temperature test (R48) -/

/-- Whether a zone reads above its setpoint and the over-temperature band. -/
def Zone.isHot (band : Nat) (zone : Zone) : Bool := decide (zone.reportedSetpoint + band < zone.pv)

/-- A zone after the over-temperature test of one update; an open zone is left out and its excess count is 0 (R46, R48).
DESIGN CHOICE (log entry 34): the count of a zone that opens becomes 0 at its next update's test, not at the opening. -/
def Zone.testExcess (band : Nat) (zone : Zone) : Zone :=
  if zone.isOpen then { zone with excess := 0 }
  else if zone.isHot band then { zone with excess := min (zone.excess + 1) 20 }
  else { zone with excess := 0 }

/-- A tube after the excess counts of one update. -/
def Tube.testExcess (u : Tube) : Tube := { u with zones := u.zones.map fun _ z => z.testExcess u.record.overTempBand }

/-- Whether OVER-TEMP arises from the zones as tested: an excess count has reached 20, or a zone that is not open reads 13000 or
more (R48; log entry 23). -/
def Tube.overTempFound (u : Tube) : Bool :=
  u.zones.toList.any fun z => !z.isOpen && (z.excess == 20 || decide (Config.maxReading ≤ z.pv))

/-- Whether every zone that is not open is back within its band and below 13000 (R48). -/
def Tube.overTempGone (u : Tube) : Bool :=
  u.zones.toList.all fun z => z.isOpen || (!z.isHot u.record.overTempBand && decide (z.pv < Config.maxReading))

/-- Whether the over-temperature test of an update raises OVER-TEMP for a tube (R48). -/
def Tube.overTempArises (u : Tube) : Bool :=
  u.state != .off && !u.fault.overTemp && u.testExcess.overTempFound

/-- The condition of a tube goes, and its excess counts with it (R48). -/
def endOverTemp (t : TubeId) (s : State) : State :=
  (setCondition t .overTemp false s).onTube t fun u => { u with zones := u.zones.map fun _ z => { z with excess := 0 } }

/-- Stage 2 of an update: the over-temperature test, against the setpoints as they stood before it (R31, R48). -/
def updateTest (t : TubeId) (s : State) : State :=
  let u := s.tube t
  if u.state = .off then s
  else
    let s1 := s.onTube t Tube.testExcess
    if u.overTempArises then reportCause t .overTemp s1
    else if u.fault.overTemp && u.overTempGone then endOverTemp t s1
    else s1

/-! ### Holdback (section 2.4) -/

/-- The difference of two temperatures, whichever is greater. -/
def absDiff (a b : Nat) : Nat := (a - b) + (b - a)

/-- The lag of a zone; an open zone has none (R39). -/
def Zone.lag (zone : Zone) : Option Nat :=
  if zone.isOpen then none
  else
    match zone.ramp with
    | none => some (absDiff zone.pv zone.reportedSetpoint)
    | some r =>
      match r.direction with
      | .up => some (zone.reportedSetpoint - zone.pv)
      | .down => some (zone.pv - zone.reportedSetpoint)
      | .level => some (absDiff zone.pv zone.reportedSetpoint)

/-- The lags of a tube's zones that have one. -/
def Tube.lags (u : Tube) : List Nat := u.zones.toList.filterMap Zone.lag

/-- The largest lag of a tube. -/
def Tube.maxLag (u : Tube) : Nat := u.lags.foldl max 0

/-- The holdback state after an evaluation, for the band in force and the tube record's limit (R40, R42, R43). -/
def Holdback.evaluate (h : Holdback) (lag band limit : Nat) : Holdback :=
  let asserted := decide (band < lag)
  { h with
    asserted := asserted
    counter := if asserted then (if h.asserted then h.counter else loadUnlessZero limit) else none
    maxLag := max h.maxLag lag }

/-- Stage 3 of an update: holdback, for a tube that is RAMPING or SOAKING (R31, R40). -/
def Tube.updateHoldback (u : Tube) : Tube :=
  if u.state = .ramping ∨ u.state = .soaking then
    match u.current with
    | none => u
    | some c => { u with holdback := u.holdback.evaluate u.maxLag c.band u.record.holdbackLimit }
  else u

/-! ### Setpoints (sections 2.2 and 2.3) -/

/-- The remaining distance of a listed zone (R33). -/
def remainingDistance (r : ZoneRamp) (zone : Zone) : Nat := absDiff (64 * r.target) zone.s

/-- The step of a listed zone, from its accumulator and rate (R33). -/
def zoneStep (r : ZoneRamp) (zone : Zone) : Nat := (zone.f + 4 * r.rate) / 15

/-- Whether a listed zone that has not landed lands at this advance (R34). -/
def Zone.lands (zone : Zone) : Bool :=
  match zone.ramp with
  | some r => !r.landed && decide (remainingDistance r zone ≤ zoneStep r zone)
  | none => false

/-- A zone after one advance: a listed zone that has not landed moves towards its target, or lands on it (R33, R34). -/
def Zone.advance (zone : Zone) : Zone :=
  match zone.ramp with
  | none => zone
  | some r =>
    if r.landed then zone
    else if remainingDistance r zone ≤ zoneStep r zone then
      { zone with s := 64 * r.target, f := 0, ramp := some { r with landed := true } }
    else
      { zone with
        s := if zone.s < 64 * r.target then zone.s + zoneStep r zone else zone.s - zoneStep r zone
        f := (zone.f + 4 * r.rate) % 15 }

/-- A zone that tracks its reading (R38). -/
def Zone.track (zone : Zone) : Zone :=
  if zone.isOpen then zone else { zone with s := min (64 * zone.pv) Config.maxS }

/-- Whether a tube's listed zones advance at an update (R31, R36). -/
def Tube.advances (u : Tube) : Bool :=
  match u.state with
  | .ramping => !u.holdback.asserted && !u.shedPaused
  | .service => u.service.ramp == .running
  | _ => false

/-- Whether a tube tracks its readings (R38). -/
def Tube.tracks (u : Tube) : Bool := u.state == .idle && u.grantTotal == 0

/-- A tube whose setpoints have been advanced, tracked or held (R31). -/
def Tube.moveSetpoints (u : Tube) : Tube :=
  if u.advances then { u with zones := u.zones.map fun _ z => z.advance }
  else if u.tracks then { u with zones := u.zones.map fun _ z => z.track }
  else if u.state = .off then { u with zones := u.zones.map fun _ z => { z with s := 0 } }
  else u

/-- Whether every listed zone of a tube has landed. -/
def Tube.allLanded (u : Tube) : Bool :=
  u.zones.toList.all fun z => match z.ramp with
    | some r => r.landed
    | none => true

/-- Whether an update lands the last of a tube's listed zones that had not yet landed (R35). -/
def Tube.landsLast (u : Tube) : Bool :=
  u.advances && (u.zones.toList.any Zone.lands) && u.moveSetpoints.allLanded

/-- The end of a service ramp whose last zone has landed (R166). -/
def endServiceRamp (t : TubeId) (s : State) : State :=
  settle (dueClaims (lowerShare t ((s.onTube t Tube.dropRamps).onService t fun v => { v with ramp := .none })))

/-- Stage 4 of an update: the setpoints move, the ceilings of open zones follow them (R66), and a ramp whose last zone has landed
ends (R35, R166). -/
def updateMove (t : TubeId) (s : State) : State :=
  let u := s.tube t
  let s1 := recompose t (s.onTube t Tube.moveSetpoints)
  if u.landsLast then
    if u.state = .service then endServiceRamp t s1 else settle (endStep t .done s1)
  else s1

/-- The setpoint sent for a zone: 0 for a tube that is OFF (R30). -/
def Tube.sentSetpoint (u : Tube) (zone : Zone) : Nat := if u.state = .off then 0 else zone.reportedSetpoint

/-- One zone's setpoint and ceiling sent on the zone drive link (R30, R67). -/
def sendZone (t : TubeId) (s : State) (z : ZoneId) : State :=
  let u := s.tube t
  let sp := u.sentSetpoint (u.zones.get z)
  let c := (u.zones.get z).ceiling
  (s.onZone t z fun zone => { zone with sentSetpoint := sp, sentCeiling := c }).send (.drive t z sp c)

/-- Stage 5 of an update (R31). DESIGN CHOICE (log entry 42): the zones are sent in the order Z0 to Z4. -/
def updateSend (t : TubeId) (s : State) : State := ZoneId.all.foldl (sendZone t) s

/-- Stages 2 and 3 of an update of one tube. -/
def updateEvaluate (t : TubeId) (s : State) : State := (updateTest t s).onTube t Tube.updateHoldback

/-- One update of one tube (R31). -/
def updateTube (t : TubeId) (s : State) : State := updateSend t (updateMove t (updateEvaluate t s))

/-! ### The events of an update interval -/

/-- One event of an update interval. -/
def runUpdate (i : UpdateItem) (s : State) : State :=
  match i with
  | .missed t z => missZone t z s
  | .tube t => updateTube t s

/-- The state with one of the interval's events no longer to be taken. -/
def dropUpdate (s : State) (i : UpdateItem) : State := { s with updateDue := s.updateDue.filter fun j => j != i }

/-- Take one of the interval's events, if it is still to be taken. -/
def takeUpdate (s : State) (i : UpdateItem) : State :=
  if s.updateDue.contains i then runUpdate i (dropUpdate s i) else s

/-- Every zone of every tube with no reading in the present interval, as an event of its end (R44). -/
def missedItems (s : State) : List UpdateItem :=
  TubeId.all.flatMap fun t =>
    (ZoneId.all.filter fun z => !((s.tube t).zones.get z).reported).map fun z => .missed t z

/-- The events of an update interval, in the order taken where the command gives none (log entry 4). -/
def updateItems (s : State) : List UpdateItem := missedItems s ++ TubeId.all.map UpdateItem.tube

/-- A tube as an interval ends: the readings of the next one are awaited. -/
def Tube.awaitReadings (u : Tube) : Tube := { u with zones := u.zones.map fun _ z => { z with reported := false } }

/-- An update interval ends. -/
def beginUpdate (s : State) : State := { s.onTubes Tube.awaitReadings with updateDue := updateItems s }

/-- Every event of the last interval that is still to be taken. -/
def finishUpdate (s : State) : State := s.updateDue.foldl takeUpdate s

/-- ZONE_UPDATE (R31): the interval's events are taken, first those of `order`, then the others but those of `later`, which stay to
be taken by their own rows. What an earlier interval left is taken first. -/
def execZoneUpdate (order later : List UpdateItem) (s : State) : Result :=
  let s1 := finishUpdate (openEvent s)
  let s2 := beginUpdate s1
  .next ((order ++ (updateItems s1).filter fun i => !later.contains i).foldl takeUpdate s2)

/-! ### The rows that take one event of an update interval -/

/-- Take an event left by an update interval, if it is to be taken and would be the event its row names; otherwise that event has
not occurred, and nothing changes (log entry 5). -/
def takeUpdateRow (i : UpdateItem) (occurs : State → Bool) (s : State) : Result :=
  let s1 := dropUpdate (openEvent s) i
  if s.updateDue.contains i && occurs s1 then .next (runUpdate i s1) else .next s

/-- OVER_TEMP_ARISES (R48). -/
def execOverTempArises (t : TubeId) (s : State) : Result := takeUpdateRow (.tube t) (fun s => (s.tube t).overTempArises) s

/-- Whether an update of a tube in a state, once tested and evaluated, lands the last of its listed zones. -/
def completesRamp (t : TubeId) (state : TubeState) (s : State) : Bool :=
  let u := (updateEvaluate t s).tube t
  u.state == state && u.landsLast

/-- RAMP_COMPLETE (R35). -/
def execRampComplete (t : TubeId) (s : State) : Result := takeUpdateRow (.tube t) (completesRamp t .ramping) s

/-- SERVICE_RAMP_COMPLETE (R166). -/
def execServiceRampComplete (t : TubeId) (s : State) : Result := takeUpdateRow (.tube t) (completesRamp t .service) s

/-- ZONE_READING_MISSED: the interval's end brings a zone's missed count to 4 (R44). -/
def execZoneReadingMissed (t : TubeId) (z : ZoneId) (s : State) : Result :=
  takeUpdateRow (.missed t z) (fun s => ((s.tube t).zones.get z).missed == 3) s

end Sys2Proof.Machine
end

