-- ==== Sys2Proof/Machine/Plant.lean ====
section
/-! DEFINITION. Power-on and E-STOP, the reports of the gas and loader links, and the events inside the part that a row of the
table names (R155, R159, R96, R117, R123, R9, R83, R100, R105). -/

namespace Sys2Proof.Machine

/-! ### Power-on and E-STOP -/

/-- An assertion of E-STOP: the stop clean-up is taken unless the stack is stopped already (R159). -/
def assertStop (s : State) : State :=
  if s.mode = .stopped then { s with eStop := true }
  else raiseMode { stopCleanUp { s with eStop := true } with mode := .stopped }

/-- POWER_ON: every block takes its power-on values, and E-STOP asserted at power-on is taken as an assertion (R155). The queue of
commands and the index of free values are the model's own and are kept. -/
def execPowerOn (eStop : Bool) (s : State) : Result :=
  let s1 := { State.reset with pending := s.pending, freeIndex := s.freeIndex }
  .next (if eStop then assertStop s1 else s1)

/-- E_STOP_ASSERT (R159). -/
def execEStopAssert (s : State) : Result := .next (assertStop (openEvent s))

/-- E_STOP_RELEASE: the stack mode does not change (R159). -/
def execEStopRelease (s : State) : Result := .next { openEvent s with eStop := false }

/-! ### The gas link -/

/-- FLOW_REPORT: the report replaces the line's measured flow, held at 2000 at most (R95, R96). -/
def execFlowReport (t : TubeId) (line : LineId) (flow : Nat) (s : State) : Result :=
  .next ((openEvent s).onLine t line fun l => { l with measured := min flow 2000 })

/-! ### The loader link -/

/-- Whether a report completes a tube's motion: it lies at or beyond the target in the direction of the present segment (R122,
R123). -/
def Loader.reaches (l : Loader) (position : Nat) : Bool :=
  match l.target with
  | some target => l.atOrBeyond position target
  | none => false

/-- Whether a report lies at or beyond the end of the present segment in its direction (R122). -/
def Loader.endsSegment (l : Loader) (position : Nat) : Bool :=
  match l.segmentEnd with
  | some e => l.atOrBeyond position e
  | none => false

/-- The second segment of a motion, from the mouth to the target (R122). -/
def secondSegment (t : TubeId) (s : State) : State :=
  let l := (s.tube t).loader
  match l.target, l.travel with
  | some target, some travel => beginSegment t (l.state == .movingIn) target travel s
  | _, _ => s

/-- A position report of a moving loader against its target, its segment end and the stall reference (R117, R122, R123, R128). -/
def testPosition (t : TubeId) (position : Nat) (s : State) : State :=
  let l := (s.tube t).loader
  if l.reaches position then arrive t s
  else if l.endsSegment position then secondSegment t s
  else s.onLoader t Loader.watch

/-- A position report: the position is replaced, held at 3000 at most, the sealed condition follows, and a moving loader is tested
(R117, R118). -/
def takePosition (t : TubeId) (position : Nat) (s : State) : State :=
  let p := min position 3000
  let s1 := recomputeSeal t (s.onLoader t fun l => { l with position := some p })
  settle (if (s1.tube t).loader.isMoving then testPosition t p s1 else s1)

/-- POSITION_REPORT (R117). -/
def execPositionReport (t : TubeId) (position : Nat) (s : State) : Result := .next (takePosition t position (openEvent s))

/-- LOADER_ARRIVAL: a report that completes the motion of a step (R123); any other is no arrival and changes nothing (log
entry 5). -/
def execLoaderArrival (t : TubeId) (position : Nat) (s : State) : Result :=
  if (s.tube t).loader.reaches (min position 3000) && (s.tube t).state != .service then
    .next (takePosition t position (openEvent s))
  else .next s

/-- SERVICE_JOG_ARRIVAL: a report that completes a service jog (R164); any other is no arrival and changes nothing (log entry 5). -/
def execServiceJogArrival (t : TubeId) (position : Nat) (s : State) : Result :=
  if (s.tube t).loader.reaches (min position 3000) && (s.tube t).state == .service then
    .next (takePosition t position (openEvent s))
  else .next s

/-! ### Starts and grants -/

/-- STEP_START: the queue head becomes current while R9's conditions hold, with what follows within the event. -/
def execStepStart (t : TubeId) (s : State) : Result :=
  if canStart (s.tube t) then .next (settle (startStep t (openEvent s))) else .next s

/-- Whether an evaluation of the Claim List taken now would grant a claim (R79, R80). -/
def wouldGrant (s : State) : Bool :=
  (walk s s.arbiter.claims).candidate.isSome && !s.arbiter.shedding && staggerPasses s && windowPasses s

/-- CLAIM_GRANT: an evaluation that is due, or that the pacing time left by the boundary makes due, grants its candidate (R78,
R83). -/
def execClaimGrant (s : State) : Result :=
  let byPacing := s.boundaryDue.contains .pacing && pacingReached s
  if (s.due.claims || byPacing) && wouldGrant s then
    .next (if byPacing then takeBoundary (openEvent s) .pacing else settle (evaluateClaims (openEvent s)))
  else .next s

/-- HEADER_CLAIM_GRANT: an evaluation of the header FIFO that is due grants the claim it takes (R105). -/
def execHeaderClaimGrant (s : State) : Result :=
  match (splitHeader s s.gas.header).2 with
  | some (c, _) =>
    if s.due.header && decide (headerAllocation s + c.flow ≤ s.gas.capacity) then
      .next (settle (evaluateHeader (openEvent s)))
    else .next s
  | none => .next s

/-- SCRUBBER_CLAIM_GRANT: an evaluation of the scrubber FIFO that is due grants the claim it takes (R100). -/
def execScrubberClaimGrant (s : State) : Result :=
  match (splitScrubber s s.gas.scrubber).2 with
  | some (c, _) =>
    if s.due.scrubber && (s.tube c.tube).loader.isSealed && decide (slotsInUse s < s.gas.slots) && s.exhaust.asserted then
      .next (settle (evaluateScrubber (openEvent s)))
    else .next s
  | none => .next s

end Sys2Proof.Machine
end

