-- ==== Sys2Proof/Machine/Dispatch.lean ====
section
/-! DEFINITION. The meaning of each command, one arm per row of spec/opcode_table.json. -/

namespace Sys2Proof.Machine

/-- The effect of a command on everything but the queue. -/
def exec (i : Instr) (s : State) : Host.Outcome State Fault Refusal :=
  match i with
  | .powerOn eStop => Sys2Proof.Machine.execPowerOn eStop s
  | .appendStep link tag body => Sys2Proof.Machine.execAppendStep link tag body s
  | .withdrawStep link tag body => Sys2Proof.Machine.execWithdrawStep link tag body s
  | .flushQueue link tag body => Sys2Proof.Machine.execFlushQueue link tag body s
  | .resumeQueue link tag body => Sys2Proof.Machine.execResumeQueue link tag body s
  | .abortStep link tag body => Sys2Proof.Machine.execAbortStep link tag body s
  | .suspendTube link tag body => Sys2Proof.Machine.execSuspendTube link tag body s
  | .resumeTube link tag body => Sys2Proof.Machine.execResumeTube link tag body s
  | .extendStep link tag body => Sys2Proof.Machine.execExtendStep link tag body s
  | .clearFault link tag body => Sys2Proof.Machine.execClearFault link tag body s
  | .readTube link tag body => Sys2Proof.Machine.execReadTube link tag body s
  | .readQueue link tag body => Sys2Proof.Machine.execReadQueue link tag body s
  | .readCompletions link tag body => Sys2Proof.Machine.execReadCompletions link tag body s
  | .readGas link tag body => Sys2Proof.Machine.execReadGas link tag body s
  | .readEnvelope link tag body => Sys2Proof.Machine.execReadEnvelope link tag body s
  | .readClaims link tag body => Sys2Proof.Machine.execReadClaims link tag body s
  | .readStack link tag body => Sys2Proof.Machine.execReadStack link tag body s
  | .readAttention link tag body => Sys2Proof.Machine.execReadAttention link tag body s
  | .armAttention link tag body => Sys2Proof.Machine.execArmAttention link tag body s
  | .setMask link tag body => Sys2Proof.Machine.execSetMask link tag body s
  | .setLimits link tag body => Sys2Proof.Machine.execSetLimits link tag body s
  | .writeCal link tag body => Sys2Proof.Machine.execWriteCal link tag body s
  | .writeTube link tag body => Sys2Proof.Machine.execWriteTube link tag body s
  | .writeRights link tag body => Sys2Proof.Machine.execWriteRights link tag body s
  | .promoteClaim link tag body => Sys2Proof.Machine.execPromoteClaim link tag body s
  | .openStack link tag body => Sys2Proof.Machine.execOpenStack link tag body s
  | .closeStack link tag body => Sys2Proof.Machine.execCloseStack link tag body s
  | .stackReset link tag body => Sys2Proof.Machine.execStackReset link tag body s
  | .clearStop link tag body => Sys2Proof.Machine.execClearStop link tag body s
  | .enterService link tag body => Sys2Proof.Machine.execEnterService link tag body s
  | .leaveService link tag body => Sys2Proof.Machine.execLeaveService link tag body s
  | .serviceJog link tag body => Sys2Proof.Machine.execServiceJog link tag body s
  | .serviceValve link tag body => Sys2Proof.Machine.execServiceValve link tag body s
  | .serviceSetpoint link tag body => Sys2Proof.Machine.execServiceSetpoint link tag body s
  | .unknownKind link kind tag body => Sys2Proof.Machine.execUnknownKind link kind tag body s
  | .crcMismatch link bytes => Sys2Proof.Machine.execCrcMismatch link bytes s
  | .frameLengthReject link length => Sys2Proof.Machine.execFrameLengthReject link length s
  | .collectGapTimeout link => Sys2Proof.Machine.execCollectGapTimeout link s
  | .answerSent link => Sys2Proof.Machine.execAnswerSent link s
  | .eStopAssert => Sys2Proof.Machine.execEStopAssert s
  | .eStopRelease => Sys2Proof.Machine.execEStopRelease s
  | .secondsBoundary curtail exhaust order later => Sys2Proof.Machine.execSecondsBoundary curtail exhaust order later s
  | .curtailAsserted => Sys2Proof.Machine.execCurtailAsserted s
  | .curtailReleased => Sys2Proof.Machine.execCurtailReleased s
  | .exhaustLost => Sys2Proof.Machine.execExhaustLost s
  | .exhaustRestored => Sys2Proof.Machine.execExhaustRestored s
  | .soakCounterExpiry t => Sys2Proof.Machine.execSoakCounterExpiry t s
  | .purgeCounterExpiry t => Sys2Proof.Machine.execPurgeCounterExpiry t s
  | .recoveryCounterExpiry t => Sys2Proof.Machine.execRecoveryCounterExpiry t s
  | .holdbackCounterExpiry t => Sys2Proof.Machine.execHoldbackCounterExpiry t s
  | .admissionWaitExpiry t => Sys2Proof.Machine.execAdmissionWaitExpiry t s
  | .pacingTimeReached => Sys2Proof.Machine.execPacingTimeReached s
  | .motionStall t => Sys2Proof.Machine.execMotionStall t s
  | .flowLow t line => Sys2Proof.Machine.execFlowLow t line s
  | .zoneUpdate order later => Sys2Proof.Machine.execZoneUpdate order later s
  | .overTempArises t => Sys2Proof.Machine.execOverTempArises t s
  | .rampComplete t => Sys2Proof.Machine.execRampComplete t s
  | .serviceRampComplete t => Sys2Proof.Machine.execServiceRampComplete t s
  | .zoneReading t z value isOpen => Sys2Proof.Machine.execZoneReading t z value isOpen s
  | .zoneReadingMissed t z => Sys2Proof.Machine.execZoneReadingMissed t z s
  | .flowReport t line flow => Sys2Proof.Machine.execFlowReport t line flow s
  | .positionReport t position => Sys2Proof.Machine.execPositionReport t position s
  | .loaderArrival t position => Sys2Proof.Machine.execLoaderArrival t position s
  | .serviceJogArrival t position => Sys2Proof.Machine.execServiceJogArrival t position s
  | .autoPurgeEnd t => Sys2Proof.Machine.execAutoPurgeEnd t s
  | .stepStart t => Sys2Proof.Machine.execStepStart t s
  | .claimGrant => Sys2Proof.Machine.execClaimGrant s
  | .headerClaimGrant => Sys2Proof.Machine.execHeaderClaimGrant s
  | .scrubberClaimGrant => Sys2Proof.Machine.execScrubberClaimGrant s
  | .frameStart link more => Sys2Proof.Machine.execFrameStart link more s

end Sys2Proof.Machine
end

