-- ==== Sys2Proof/Safety.lean ====
section
/-! DEFINITION. What the rules never allow to be otherwise, as properties of a state, and what counts as a safe run. -/

namespace Sys2Proof.Machine

/-! ### The ranges the tables of the chapters give -/

/-- A zone list whose targets are at most 12500 (R1, R166). -/
def zonesInRange (zones : List (ZoneId × Nat)) : Prop := ∀ e ∈ zones, e.2 ≤ 12500

/-- A step body whose targets, if it is a RAMP, are at most 12500, and whose lines, if it is a GAS-SET, are other than PURGE
and stand once each (R1, R2). -/
def StepBody.inRange : StepBody → Prop
  | .ramp _ _ zones => zonesInRange zones
  | .gasSet entries => (∀ e ∈ entries, e.1 ≠ .purge) ∧ (entries.map Prod.fst).Nodup
  | _ => True

/-- A zone channel within the ranges of Chapter 2. -/
def Zone.inRange (z : Zone) : Prop :=
  z.s ≤ Config.maxS ∧ z.f ≤ 14 ∧ z.pv ≤ Config.maxReading ∧ z.missed ≤ 4 ∧ z.excess ≤ 20 ∧
    ∀ r, z.ramp = some r → r.target ≤ 12500

/-- A line record within the ranges of R95. -/
def Line.inRange (l : Line) : Prop := l.measured ≤ 2000 ∧ l.lowCount ≤ 10

/-- A step queue and current step within R4 and R1, and a completion ring within R26. -/
def Tube.listsInRange (u : Tube) : Prop :=
  u.queue.length ≤ Config.queueCapacity ∧ (∀ r ∈ u.queue, r.body.inRange) ∧
    (∀ c, u.current = some c → c.step.body.inRange) ∧
    u.ring.length ≤ Config.ringCapacity ∧ u.overwrites ≤ Config.maxOverwrites

/-- A service ramp that waits has targets of at most 12500 (R166). -/
def ServiceRamp.inRange : ServiceRamp → Prop
  | .waiting _ zones => zonesInRange zones
  | _ => True

/-- Everything the part holds for a tube lies within the ranges the chapters' tables give it. -/
def Tube.inRange (u : Tube) : Prop :=
  u.listsInRange ∧ (∀ z, (u.zones.get z).inRange) ∧ (∀ l, (u.lines.get l).inRange) ∧ u.service.ramp.inRange ∧
    u.holdback.seconds ≤ 65535 ∧ u.credit ≤ 65535 ∧ u.remainder ≤ 59 ∧ ∀ p, u.loader.position = some p → p ≤ 3000

/-- Every tube, the raise history (R81), the filters' counts (R162) and the two limits (R73) lie within their ranges. -/
def State.inRange (s : State) : Prop :=
  (∀ t, (s.tube t).inRange) ∧ s.arbiter.history.length ≤ 4 ∧ s.curtail.count ≤ 2 ∧ s.exhaust.count ≤ 2 ∧
    s.arbiter.limitEc ≤ s.arbiter.limitE

/-! ### Ceilings -/

/-- No ceiling of a tube is above its zone's share or rating, and none was sent above the one last composed (R65, R67). -/
def Tube.ceilingsHold (u : Tube) : Prop :=
  ∀ z, (u.zones.get z).sentCeiling ≤ (u.zones.get z).ceiling ∧
    (u.zones.get z).ceiling ≤ u.grant.step.get z + u.grant.surcharge.get z ∧
    (u.zones.get z).ceiling ≤ u.record.zmax.get z

/-- The ceilings of every tube. -/
def State.ceilingsHold (s : State) : Prop := ∀ t, (s.tube t).ceilingsHold

/-! ### The envelope, the header, the scrubber and the claim order -/

/-- Every SURCHARGE claim asks for the sum of its parts (R63). -/
def State.surchargesAddUp (s : State) : Prop :=
  ∀ c ∈ s.arbiter.claims, c.kind = .surcharge → c.values.sum = c.amount

/-- The sum of the grant totals is within the limit in force, or the SHEDDING flag is set, or a shed pass is due (R72). -/
def State.withinEnvelope (s : State) : Prop :=
  s.due.shed = true ∨ s.arbiter.shedding = true ∨ grantSum s ≤ limitInForce s

/-- The header allocation is within the header capacity (R103). -/
def State.withinHeader (s : State) : Prop := headerAllocation s ≤ s.gas.capacity

/-- The tubes with DOPANT open are no more than the scrubber slots (R100). -/
def State.withinScrubber (s : State) : Prop := slotsInUse s ≤ s.gas.slots

/-- The sealed condition is as the record and the position make it (R118), and a DOPANT line is open only at the seal and under
asserted EXHAUST-OK (R102). -/
def State.dopantSealed (s : State) : Prop :=
  ∀ t, (s.tube t).loader.isSealed = sealedNow (s.tube t) ∧
    ((s.tube t).lines.dopant.isOpen = true → (s.tube t).loader.isSealed = true ∧ s.exhaust.asserted = true)

/-- No claim of a list stands behind one it goes ahead of (R76). -/
def ordered (claims : List Claim) : Prop := claims.Pairwise fun a b => b.ahead a = false

/-- The Claim List is in order (R76). -/
def State.claimsOrdered (s : State) : Prop := ordered s.arbiter.claims

/-! ### What ties a tube's state to its step, its motion, its claims and the stack mode -/

/-- The kind of the current step. -/
def Tube.currentKind (u : Tube) : Option StepKind := u.current.map fun c => c.step.body.kind

/-- The current step is one the tube's state, or the state it remembers, is for, with its automatic purge and its step counter as that
state has them; and the other states have no current step (R7, R11 to R14, R17, R135). -/
def Tube.stepFits (u : Tube) : Prop :=
  match u.effective, u.current with
  | .admitting, some c =>
    c.step.body.kind ≠ .mark ∧ c.auto = (if c.step.body.kind = .pullOut then .waiting else .none) ∧ u.stepCounter = none
  | .ramping, some c => c.step.body.kind = .ramp ∧ c.auto = .none ∧ u.stepCounter = none
  | .soaking, some c => c.step.body.kind = .soak ∧ c.auto = .none ∧ u.stepCounter.isSome = true
  | .purging, some c =>
    (c.step.body.kind = .purge ∧ c.auto = .none ∧ u.stepCounter.isSome = true) ∨
      (c.step.body.kind = .pullOut ∧ c.auto = .running ∧ u.stepCounter = none)
  | .moving, some c =>
    c.step.body.isMotion = true ∧ c.auto = .none ∧ u.stepCounter = none ∧ u.loader.target.isSome = true ∧
      u.loader.travel.isSome = true
  | .off, none => u.stepCounter = none
  | .idle, none => u.stepCounter = none
  | .faultHold, none => u.stepCounter = none
  | .service, none => u.stepCounter = none
  | _, _ => False

/-- What a tube's state says of the rest of the tube: a state is remembered while SUSPENDED alone, and is one a tube can be suspended in
(R21); the loader moves while MOVING and in a service jog alone (R115, R164); the service state is empty outside SERVICE (section
9.5); holdback is kept while RAMPING or SOAKING alone (R40, R43), ramp state while RAMPING or in a service ramp alone (R32, R35,
R166); a tube in FAULT-HOLD is halted, and causes are in the set in FAULT-HOLD and SERVICE alone (R143, R149, R150). -/
def Tube.stateFits (u : Tube) : Prop :=
  (u.remembered.isSome = true ↔ u.state = .suspended) ∧
    (∀ x, u.remembered = some x → x ≠ .off ∧ x ≠ .suspended ∧ x ≠ .faultHold ∧ x ≠ .service) ∧
    (u.loader.isMoving = true ↔ u.state = .moving ∨ (u.state = .service ∧ u.service.jog.isSome = true)) ∧
    (u.state ≠ .service → u.service = .reset) ∧
    (u.effective ≠ .ramping → u.effective ≠ .soaking → u.holdback = .reset) ∧
    (u.effective ≠ .ramping → u.service.ramp ≠ .running → ∀ z, (u.zones.get z).ramp = none) ∧
    (u.state = .faultHold → u.halted = true ∧ u.fault.causes.isEmpty = false) ∧
    (u.state ≠ .faultHold → u.state ≠ .service → u.fault.causes.isEmpty = true)

/-- No id stands twice among a tube's queued steps and its current step (R4). -/
def Tube.idsDiffer (u : Tube) : Prop :=
  ((u.current.map fun c => c.step.id).toList ++ u.queue.map StepRecord.id).Nodup

/-- Everything of a tube fits the state it is in (R7), and no id stands twice (R4). -/
def Tube.coherent (u : Tube) : Prop := u.stepFits ∧ u.stateFits ∧ u.idsDiffer

/-- The kind of the claim a tube has waiting in the Claim List, if it has one: for the admission of a RAMP, SOAK or PUSH-IN, for a ramp
that is shed-paused, or for a service ramp that waits (R11, R13, R90, R166). -/
def Tube.claimKind (u : Tube) : Option ClaimKind :=
  match u.effective with
  | .admitting =>
    match u.currentKind with
    | some .ramp => some .step
    | some .soak => some .step
    | some .pushIn => some .surcharge
    | _ => none
  | .ramping => if u.shedPaused then some .resume else none
  | .service =>
    match u.service.ramp with
    | .waiting _ _ => some .service
    | _ => none
  | _ => none

/-- The purpose of the header claim a tube has waiting, if it has one (R12, R13, R104). -/
def Tube.headerPurpose (u : Tube) : Option Purpose :=
  match u.effective, u.currentKind with
  | .admitting, some .purge => some .step
  | .admitting, some .pullOut => some .auto
  | _, _ => none

/-- Whether a tube waits for a scrubber slot (R99). -/
def Tube.waitsForSlot (u : Tube) : Bool := u.effective == .admitting && u.currentKind == some .gasSet

/-- Each list holds the one claim a tube's state says the tube has in it, and no other of the tube (R76, R100, R104); a SERVICE claim has
no counter (R166). -/
def State.claimsMatch (s : State) : Prop :=
  (∀ t, (s.arbiter.claims.filter fun c => c.tube == t).map Claim.kind = (s.tube t).claimKind.toList ∧
    (s.gas.header.filter fun c => c.tube == t).map HeaderClaim.purpose = (s.tube t).headerPurpose.toList ∧
    (s.gas.scrubber.filter fun c => c.tube == t).length = if (s.tube t).waitsForSlot then 1 else 0) ∧
    ∀ c ∈ s.arbiter.claims, c.kind = .service → c.counter = none

/-- Outside RUN every tube is OFF with its queue empty and no DOPANT line is open, and in RUN no tube is OFF (R8, R102). -/
def State.modeFits (s : State) : Prop :=
  ∀ t, ((s.tube t).state = .off ↔ s.mode ≠ .run) ∧
    (s.mode ≠ .run → (s.tube t).queue = [] ∧ (s.tube t).lines.dopant.isOpen = false)

/-- Tubes, lists and stack mode fit together. -/
def State.coherent (s : State) : Prop := (∀ t, (s.tube t).coherent) ∧ s.claimsMatch ∧ s.modeFits

/-- No queue holds more than 16 records and no list more than one claim per tube (R4, R76, R100, R104). -/
def State.listsBounded (s : State) : Prop :=
  (∀ t, (s.tube t).queue.length ≤ Config.queueCapacity) ∧ s.arbiter.claims.length ≤ 4 ∧ s.gas.header.length ≤ 4 ∧
    s.gas.scrubber.length ≤ 4

/-- What the rules never allow to be otherwise. -/
def State.safe (s : State) : Prop :=
  s.inRange ∧ s.ceilingsHold ∧ (s.surchargesAddUp ∧ s.withinEnvelope) ∧ s.withinHeader ∧ s.withinScrubber ∧
    s.dopantSealed ∧ s.claimsOrdered

/-- Whether every state of the first `n` steps from a state is safe. The part has no fault and no refusal, so a run never ends. -/
def safeRun : Nat → State → Prop
  | 0, s => s.safe
  | n + 1, s =>
    s.safe ∧ (match step s with
      | .next t => safeRun n t
      | .fault _ => False
      | .refused _ => False)

/-! ### What only the configuring commands change -/

/-- What no event of the part itself changes of a tube. -/
def Tube.fixed (u : Tube) : TubeRecord × Bool × CalSet × CalSet × CalSet := (u.record, u.recordValid, u.cal1, u.cal2, u.cal3)

/-- What no event of the part itself changes of a link. -/
def Link.fixed (k : Link) : RxState × List Byte × Option Answer × Enables := (k.rx, k.buffer, k.answer, k.enables)

/-- The values SET-MASK and SET-LIMITS write. -/
structure LimitView where
  limitE : Nat
  limitEc : Nat
  mask : Nat
  stagger : Nat
  window : Nat
  windowCount : Nat
  capacity : Nat
  slots : Nat

/-- The limits of a state. -/
def State.limits (s : State) : LimitView :=
  ⟨s.arbiter.limitE, s.arbiter.limitEc, s.arbiter.mask, s.arbiter.stagger, s.arbiter.window, s.arbiter.windowCount,
    s.gas.capacity, s.gas.slots⟩

/-- What no event of the part itself changes. -/
structure Fixed where
  pending : List Instr
  mode : StackMode
  inputs : Bool × Bool × Bool
  seconds : Stamp
  cal0 : CalSet
  limits : LimitView
  rights : PerLink (PerTube Rights)
  boundaryDue : List BoundaryItem
  updateDue : List UpdateItem
  links : LinkId → RxState × List Byte × Option Answer × Enables
  tubes : TubeId → TubeRecord × Bool × CalSet × CalSet × CalSet

/-- The part of a state that no event of the part itself changes. -/
def State.fixed (s : State) : Fixed :=
  ⟨s.pending, s.mode, (s.eStop, s.curtailInput, s.exhaustInput), s.seconds, s.cal0, s.limits, s.rights, s.boundaryDue,
    s.updateDue, fun l => (s.link l).fixed, fun t => (s.tube t).fixed⟩

/-! ### The terms the statements use -/

/-- A request as its frame gives it. -/
structure Request where
  link : LinkId
  kind : Byte
  tag : Byte
  body : List Byte
  deriving DecidableEq, Repr

/-- The request a command is, with the kind code of its row (R173). -/
def request : Instr → Option Request
  | .appendStep l t b => some ⟨l, 0x11, t, b⟩
  | .withdrawStep l t b => some ⟨l, 0x12, t, b⟩
  | .flushQueue l t b => some ⟨l, 0x13, t, b⟩
  | .resumeQueue l t b => some ⟨l, 0x14, t, b⟩
  | .abortStep l t b => some ⟨l, 0x21, t, b⟩
  | .suspendTube l t b => some ⟨l, 0x22, t, b⟩
  | .resumeTube l t b => some ⟨l, 0x23, t, b⟩
  | .extendStep l t b => some ⟨l, 0x24, t, b⟩
  | .clearFault l t b => some ⟨l, 0x25, t, b⟩
  | .readTube l t b => some ⟨l, 0x31, t, b⟩
  | .readQueue l t b => some ⟨l, 0x32, t, b⟩
  | .readCompletions l t b => some ⟨l, 0x33, t, b⟩
  | .readGas l t b => some ⟨l, 0x34, t, b⟩
  | .readEnvelope l t b => some ⟨l, 0x41, t, b⟩
  | .readClaims l t b => some ⟨l, 0x42, t, b⟩
  | .readStack l t b => some ⟨l, 0x43, t, b⟩
  | .readAttention l t b => some ⟨l, 0x44, t, b⟩
  | .armAttention l t b => some ⟨l, 0x45, t, b⟩
  | .setMask l t b => some ⟨l, 0x51, t, b⟩
  | .setLimits l t b => some ⟨l, 0x52, t, b⟩
  | .writeCal l t b => some ⟨l, 0x53, t, b⟩
  | .writeTube l t b => some ⟨l, 0x54, t, b⟩
  | .writeRights l t b => some ⟨l, 0x55, t, b⟩
  | .promoteClaim l t b => some ⟨l, 0x56, t, b⟩
  | .openStack l t b => some ⟨l, 0x57, t, b⟩
  | .closeStack l t b => some ⟨l, 0x58, t, b⟩
  | .stackReset l t b => some ⟨l, 0x59, t, b⟩
  | .clearStop l t b => some ⟨l, 0x5A, t, b⟩
  | .enterService l t b => some ⟨l, 0x5B, t, b⟩
  | .leaveService l t b => some ⟨l, 0x5C, t, b⟩
  | .serviceJog l t b => some ⟨l, 0x5D, t, b⟩
  | .serviceValve l t b => some ⟨l, 0x5E, t, b⟩
  | .serviceSetpoint l t b => some ⟨l, 0x5F, t, b⟩
  | _ => none

/-- The right a request of a kind code needs on the tube it names, if it needs one (R173). -/
def rightOfKind (kind : Byte) : Option (Rights → Bool) :=
  match kind.toNat / 16 with
  | 1 => some Rights.queue
  | 2 => some Rights.control
  | 3 => some Rights.observe
  | _ => none

/-- The link on which a command's bytes arrive, or on which its gap falls; none for a command that is no event of a receiver. -/
def bytesOn (c : Instr) : Option LinkId :=
  match c with
  | .unknownKind l _ _ _ => some l
  | .crcMismatch l _ => some l
  | .frameLengthReject l _ => some l
  | .collectGapTimeout l => some l
  | .frameStart l _ => some l
  | _ => (request c).map Request.link

/-- A request's frame is no longer than a frame may be, and the receiver of its link takes it (R169). -/
abbrev Framed (s : State) (l : LinkId) (kind tag : Byte) (body : List Byte) : Prop :=
  body.length ≤ Config.maxBody ∧ takesFrame (s.link l) (requestFrame kind tag body) = true

/-- The state as it answers a request: the receiver of the link in ANSWER, sending the code and body (R171). -/
def State.answered (s : State) (l : LinkId) (kind tag : Byte) (code : AnswerCode) (body : List Byte) : State :=
  s.onLink l fun k => k.answering ⟨kind, tag, code, body⟩

/-- The byte that names a tube (R173). -/
def tubeByte (t : TubeId) : Byte := BitVec.ofNat 8 t.toNat

/-- The rights of a link on a tube (R179). -/
def State.rightsOn (s : State) (l : LinkId) (t : TubeId) : Rights := (s.rights.get l).get t

/-- Whether a tube is in a state in which the queue requests, ABORT-STEP and EXTEND-STEP are taken (R19). -/
abbrev Tube.takesSteps (u : Tube) : Prop := u.state ≠ .off ∧ u.state ≠ .service

/-- Whether a kind's attention flag of a tube is set on a link. -/
def State.flag (s : State) (l : LinkId) (t : TubeId) (k : TubeKind) : Bool := ((s.link l).flags.get t).has k

/-- Whether a link hears of a tube (R182). -/
def State.hears (s : State) (l : LinkId) (t : TubeId) : Bool := (s.rightsOn l t).queue || (s.rightsOn l t).control

/-- Between two states a kind was raised for a tube: its flag is set on every link that hears of the tube, and no other flag has
changed (R182). -/
def raised (k : TubeKind) (t : TubeId) (before after : State) : Prop :=
  ∀ l j q, after.flag l j q = (before.flag l j q || (j == t && q == k && before.hears l t))

/-- No attention flag has changed. -/
def flagsKept (before after : State) : Prop :=
  ∀ l, (after.link l).flags = (before.link l).flags ∧ (after.link l).modeFlag = (before.link l).modeFlag ∧
    (after.link l).curtailFlag = (before.link l).curtailFlag

/-- An optional value lies within bounds. -/
abbrev optionIn (low high : Nat) (o : Option Nat) : Prop := ∀ n, o = some n → low ≤ n ∧ n ≤ high

/-- A step body within the ranges of R1, and of a tube record for a position and a hot speed (R3). -/
def StepBody.sendable (v : TubeRecord) : StepBody → Prop
  | .ramp rate band zones =>
    1 ≤ rate ∧ rate ≤ 300 ∧ optionIn 1 500 band ∧ zones ≠ [] ∧ (zones.map Prod.fst).Nodup ∧
      ∀ e ∈ zones, 2000 ≤ e.2 ∧ e.2 ≤ 12500
  | .soak duration band => 1 ≤ duration ∧ duration ≤ 1048575 ∧ optionIn 1 500 band
  | .purge flow duration => 1 ≤ flow ∧ flow ≤ 2000 ∧ 1 ≤ duration ∧ duration ≤ 1048575
  | .gasSet entries => entries ≠ [] ∧ (entries.map Prod.fst).Nodup ∧ ∀ e ∈ entries, e.1 ≠ .purge ∧ e.2 ≤ 2000
  | .pushIn target hot => optionIn v.base v.limit target ∧ optionIn 1 v.coldSpeed hot
  | .pullOut target hot => optionIn v.base v.limit target ∧ optionIn 1 v.coldSpeed hot
  | .mark => True

/-- The place of a tube kind among the kinds (R183, R184). -/
def TubeKind.index : TubeKind → Nat
  | .stepDone => 0
  | .halted => 1
  | .fault => 2
  | .granted => 3
  | .shed => 4

/-- The enable of a tube kind (R183). -/
def Enables.has (e : Enables) : TubeKind → Bool
  | .stepDone => e.stepDone
  | .halted => e.halted
  | .fault => e.fault
  | .granted => e.granted
  | .shed => e.shed

/-- Whether a number is the id of a queued step or of the current step (R3). -/
abbrev Tube.knows (u : Tube) (id : Nat) : Prop := (∃ r ∈ u.queue, r.id = id) ∨ ∃ c, u.current = some c ∧ c.step.id = id

/-- What the completion record of a current step's end holds, by the tube as it ends and how it ends (R27): the admission wait is the
one taken at the grant, or with none taken the time since the start in a step that ends while ADMITTING, and 0 otherwise (R15); one
that ends while SUSPENDED from ADMITTING counts as ADMITTING (log entry 41). -/
def recordHolds (now : Stamp) (u : Tube) (c : CurrentStep) (e : StepEnd) (r : CompletionRecord) : Prop :=
  r.id = c.step.id ∧ r.kind = c.step.body.kind ∧
    (match e with
      | .done => r.outcome = .done ∧ r.failCause = .none ∧ r.faults = {}
      | .aborted => r.outcome = .aborted ∧ r.failCause = .none ∧ r.faults = {}
      | .failed x => r.outcome = .failed ∧ r.failCause = x ∧ r.faults = {}
      | .faulted => r.outcome = .faulted ∧ r.failCause = .none ∧ r.faults = u.fault.causes
      | .stopped => r.outcome = .stopped ∧ r.failCause = .none ∧ r.faults = {}) ∧
    r.start = c.start ∧ r.run = now - c.start ∧ (∀ w, c.wait = some w → r.wait = w) ∧
    (c.wait = none → r.wait = if u.effective = .admitting then now - c.start else 0) ∧
    (c.step.body.kind = .ramp ∨ c.step.body.kind = .soak →
      r.holdbackSeconds = u.holdback.seconds ∧ r.maxLag = u.holdback.maxLag) ∧
    (c.step.body.kind ≠ .ramp → c.step.body.kind ≠ .soak → r.holdbackSeconds = 0 ∧ r.maxLag = 0) ∧ r.notes = c.step.notes

/-- A record has joined a tube's completion ring after the newest: into a ring of fewer than 8 as it stands, and into a full one with
the oldest dropped and the overwrite count raised by 1, to at most 255 (R26). -/
def recordJoined (r : CompletionRecord) (u v : Tube) : Prop :=
  (u.ring.length < 8 → v.ring = u.ring ++ [r] ∧ v.overwrites = u.overwrites) ∧
    (8 ≤ u.ring.length → v.ring = u.ring.tail ++ [r] ∧ v.overwrites = min (u.overwrites + 1) 255)

/-- The record of an automatic purge, from the record of its PULL-OUT: kind PURGE, with the "auto" note (R17; log entry 16). -/
def CompletionRecord.ofAutoPurge (r : CompletionRecord) : CompletionRecord :=
  { r with kind := .purge, notes := { r.notes with auto := true } }

/-- The records of a step's end have joined a tube's completion ring: one, or for a PULL-OUT whose automatic purge waits or runs two,
the purge's first and then the PULL-OUT's own with its end as start stamp and times of 0 (R17, R18, R26). -/
def recordsPushed (now : Stamp) (u : Tube) (c : CurrentStep) (e : StepEnd) (v : Tube) : Prop :=
  ∃ r, recordHolds now u c e r ∧ (c.auto = .none → recordJoined r u v) ∧
    (c.auto ≠ .none → ∃ w, recordJoined r.ofAutoPurge u w ∧ recordJoined { r with start := now, run := 0, wait := 0 } w v)

/-! ### What stands of a tube that an event is about -/

/-- What composing its ceiling again leaves of a zone: everything but the ceiling, its term and what was last sent of it (R66, R67). -/
def zoneKept (z w : Zone) : Prop := w = { z with ceiling := w.ceiling, term := w.term, sentCeiling := w.sentCeiling }

/-- What the end of a step leaves of a zone: everything but its ramp state and F (R35) and its ceiling. -/
def zoneStands (z w : Zone) : Prop :=
  w = { z with f := w.f, ramp := w.ramp, ceiling := w.ceiling, term := w.term, sentCeiling := w.sentCeiling }

/-- What neither the end of a step nor an entry into FAULT-HOLD changes of a tube: its queue, its pointer, its record and calibration sets,
its last grant mark and its service state. -/
def tubeStands (u v : Tube) : Prop :=
  v = { u with
    state := v.state
    remembered := v.remembered
    shedPaused := v.shedPaused
    halted := v.halted
    current := v.current
    ring := v.ring
    overwrites := v.overwrites
    stepCounter := v.stepCounter
    holdback := v.holdback
    grant := { u.grant with step := v.grant.step, surcharge := v.grant.surcharge }
    zones := v.zones
    lines := v.lines
    owed := v.owed
    credit := v.credit
    remainder := v.remainder
    loader := v.loader
    fault := v.fault }

/-- A tube's owed flag, purge credit and remainder stand. -/
def accountStands (u v : Tube) : Prop := v.owed = u.owed ∧ v.credit = u.credit ∧ v.remainder = u.remainder

/-- A tube's four lines and its purge account stand. -/
def gasStands (u v : Tube) : Prop := v.lines = u.lines ∧ accountStands u v

/-- A line as its closing leaves it: an open one has a command and a low count of 0 and its flow-low flag clear, its measured flow kept
(R95, R111). -/
def Line.shut (l : Line) : Line := if l.commanded = 0 then l else { l with commanded := 0, lowCount := 0, flowLow := false }

/-- A tube's PURGE line has closed and the rest of its gas stands, its purge account with it (R20, R106). -/
def purgeShut (u v : Tube) : Prop := v.lines = { u.lines with purge := u.lines.purge.shut } ∧ accountStands u v

/-- A tube's DOPANT line, if it was open, has closed, with the tube owed and its account at 0 (R98); nothing else of its gas has changed
but what `others` says of the other lines. -/
def dopantShut (others : PerLine Line → PerLine Line) (u v : Tube) : Prop :=
  v.lines = { others u.lines with dopant := u.lines.dopant.shut } ∧
    (u.lines.dopant.commanded = 0 → accountStands u v) ∧
    (0 < u.lines.dopant.commanded → v.owed = true ∧ v.credit = 0 ∧ v.remainder = 0)

/-- A tube's loader stands, but for what belongs to its step: the kept recovery time and the hot speed (R62, R121). -/
def loaderStands (u v : Tube) : Prop :=
  v.loader = { u.loader with keptRecovery := v.loader.keptRecovery, hotSpeed := v.loader.hotSpeed }

/-- A tube's loader stands, but for the recovery and what belongs to the step. -/
def motionStands (u v : Tube) : Prop :=
  v.loader = { u.loader with
    recovery := v.loader.recovery
    recoveryCounter := v.loader.recoveryCounter
    keptRecovery := v.loader.keptRecovery
    hotSpeed := v.loader.hotSpeed }

/-- A motion is over: the loader is STOPPED with target, segment end, speed, travel copy and stall watch gone (R123, R125, R129), and
position and seal stand. -/
def motionOver (u v : Tube) : Prop :=
  v.loader = { u.loader with
    state := .stopped
    target := none
    segmentEnd := none
    speed := none
    travel := none
    stallCount := none
    stallRef := none
    stallFresh := false
    recovery := v.loader.recovery
    recoveryCounter := v.loader.recoveryCounter
    keptRecovery := v.loader.keptRecovery
    hotSpeed := v.loader.hotSpeed }

/-- The current step of a tube has ended between two states, its record pushed and nothing of it kept (R18, R26, R27, R35, R40); what else
stands of the tube is what `tubeStands` and `zoneStands` say, with its fault monitor. -/
def stepEnded (t : TubeId) (c : CurrentStep) (e : StepEnd) (before after : State) : Prop :=
  (after.tube t).current = none ∧ (after.tube t).stepCounter = none ∧ (after.tube t).holdback = .reset ∧
    (after.tube t).shedPaused = false ∧ (∀ z, ((after.tube t).zones.get z).ramp = none) ∧
    recordsPushed before.seconds (before.tube t) c e (after.tube t) ∧ (after.tube t).queue = (before.tube t).queue ∧
    tubeStands (before.tube t) (after.tube t) ∧ (after.tube t).fault = (before.tube t).fault ∧
    ∀ z, zoneStands ((before.tube t).zones.get z) ((after.tube t).zones.get z) ∧
      ((after.tube t).zones.get z).f =
        if ((before.tube t).zones.get z).ramp = none then ((before.tube t).zones.get z).f else 0

/-- The step share of a tube was lowered zone by zone to the hold share where that is less (R18, R71). -/
def shareLowered (t : TubeId) (before after : State) : Prop :=
  ∀ z, (after.tube t).grant.step.get z =
    min ((before.tube t).grant.step.get z)
      (holdShare ((calInForce before t).hold.get z) ((before.tube t).record.zmax.get z)
        ((before.tube t).zones.get z).reportedSetpoint)

/-- The setpoints of a tube stand where they stood. -/
def setpointsKept (t : TubeId) (before after : State) : Prop :=
  ∀ z, ((after.tube t).zones.get z).s = ((before.tube t).zones.get z).s

/-- What the stop clean-up leaves of a tube (R158, and the tables of R29, R50, R94, R114, R131, R140, R153, R168). -/
def tubeStopped (u v : Tube) : Prop :=
  v.state = .off ∧ v.remembered = none ∧ v.shedPaused = false ∧ v.queue = [] ∧ v.current = none ∧
    v.halted = u.halted ∧ v.pointer = u.pointer ∧ v.record = u.record ∧ v.recordValid = u.recordValid ∧
    v.cal1 = u.cal1 ∧ v.cal2 = u.cal2 ∧ v.cal3 = u.cal3 ∧
    v.holdback = .reset ∧ v.stepCounter = none ∧ v.service = .reset ∧
    v.grant.step = .zero ∧ v.grant.surcharge = .zero ∧ v.grant.mark = u.grant.mark ∧
    (∀ z, (v.zones.get z).s = 0 ∧ (v.zones.get z).f = 0 ∧ (v.zones.get z).ramp = none ∧ (v.zones.get z).ceiling = 0 ∧
      (v.zones.get z).sentSetpoint = 0 ∧ (v.zones.get z).sentCeiling = 0 ∧ (v.zones.get z).excess = 0 ∧
      (v.zones.get z).pv = (u.zones.get z).pv ∧ (v.zones.get z).isOpen = (u.zones.get z).isOpen ∧
      (v.zones.get z).missed = (u.zones.get z).missed) ∧
    (∀ l, (v.lines.get l).commanded = 0 ∧ (v.lines.get l).flowLow = false ∧ (v.lines.get l).lowCount = 0 ∧
      (v.lines.get l).measured = (u.lines.get l).measured) ∧
    v.owed = (u.owed || u.lines.dopant.isOpen) ∧ v.credit = (if u.lines.dopant.isOpen then 0 else u.credit) ∧
    v.remainder = (if u.lines.dopant.isOpen then 0 else u.remainder) ∧
    v.loader.state = .stopped ∧ v.loader.target = none ∧ v.loader.segmentEnd = none ∧ v.loader.speed = none ∧
    v.loader.travel = none ∧ v.loader.stallCount = none ∧ v.loader.recovery = .none ∧ v.loader.recoveryCounter = none ∧
    v.loader.position = u.loader.position ∧ v.loader.isSealed = u.loader.isSealed ∧
    v.fault.causes.isEmpty = true ∧ v.fault.entry = none ∧ v.fault.overTemp = false ∧ v.fault.exhaustLost = false ∧
    v.fault.tcOpen = u.fault.tcOpen

/-- What the stop clean-up leaves of the stack: every tube stopped, every list emptied, and the settings kept (R158, R94). -/
def stackStopped (before after : State) : Prop :=
  (∀ t, tubeStopped (before.tube t) (after.tube t)) ∧
    (∀ t, ((before.tube t).current = none →
        (after.tube t).ring = (before.tube t).ring ∧ (after.tube t).overwrites = (before.tube t).overwrites) ∧
      ∀ c, (before.tube t).current = some c → recordsPushed before.seconds (before.tube t) c .stopped (after.tube t)) ∧
    after.arbiter.claims = [] ∧ after.arbiter.pacing = none ∧ after.arbiter.shedding = false ∧
    after.arbiter.history = before.arbiter.history ∧ after.gas.header = [] ∧ after.gas.scrubber = [] ∧
    after.curtail = before.curtail ∧ after.exhaust = before.exhaust ∧ after.cal0 = before.cal0 ∧
    after.rights = before.rights ∧ after.seconds = before.seconds

/-- What an event about one tube leaves as it was: every other tube, the settings, the inputs and filters, and the receivers. -/
def elsewhereKept (t : TubeId) (before after : State) : Prop :=
  (∀ j, j ≠ t → after.tube j = before.tube j) ∧ after.fixed = before.fixed ∧ after.curtail = before.curtail ∧
    after.exhaust = before.exhaust

/-- Between two states some kinds were raised for a tube, and no other flag has changed (R182). -/
def raisedAll (ks : List TubeKind) (t : TubeId) (before after : State) : Prop :=
  (∀ l j q, after.flag l j q = (before.flag l j q || (j == t && ks.contains q && before.hears l t))) ∧
    ∀ l, (after.link l).modeFlag = (before.link l).modeFlag ∧ (after.link l).curtailFlag = (before.link l).curtailFlag

/-- A tube's claim has left a list between two states: it stood there before and stands there no more. -/
def claimLeft {α : Type} (tube : α → TubeId) (t : TubeId) (before after : List α) : Prop :=
  (∃ d ∈ before, tube d = t) ∧ ∀ d ∈ after, tube d ≠ t

/-- What an event about one tube that places no claim has made due between two states, and nothing else: an evaluation of the Claim List
by the departure of the tube's claim or a fall of its grant total (R77, R78), a shed pass by such a fall while SHEDDING (R87), an
evaluation of the header FIFO by the departure of its header claim or a fall of its PURGE command (R105), and of the scrubber FIFO by
the departure of its scrubber claim or the closing of its DOPANT line (R100). -/
def madeDue (t : TubeId) (before after : State) : Prop :=
  let u := before.tube t
  let v := after.tube t
  let fell := v.stepTotal + v.surchargeTotal < u.stepTotal + u.surchargeTotal
  (after.due.claims = true ↔
    before.due.claims = true ∨ fell ∨ claimLeft Claim.tube t before.arbiter.claims after.arbiter.claims) ∧
  (after.due.shed = true ↔ before.due.shed = true ∨ (fell ∧ before.arbiter.shedding = true)) ∧
  (after.due.header = true ↔ before.due.header = true ∨ v.lines.purge.commanded < u.lines.purge.commanded ∨
    claimLeft HeaderClaim.tube t before.gas.header after.gas.header) ∧
  (after.due.scrubber = true ↔
    before.due.scrubber = true ∨ (0 < u.lines.dopant.commanded ∧ v.lines.dopant.commanded = 0) ∨
      claimLeft ScrubberClaim.tube t before.gas.scrubber after.gas.scrubber)

/-- A tube's ceilings are all 0 and were sent so within the event (R146). -/
def ceilingsCut (t : TubeId) (after : State) : Prop :=
  ∀ z, ((after.tube t).zones.get z).ceiling = 0 ∧ ((after.tube t).zones.get z).sentCeiling = 0 ∧
    Sent.ceiling t z 0 ∈ after.outbox

/-- Every ceiling of a tube that is lower than it was has been sent within the event (R67, R146). -/
def loweredSent (t : TubeId) (before after : State) : Prop :=
  ∀ z, ((after.tube t).zones.get z).ceiling < ((before.tube t).zones.get z).ceiling →
    ((after.tube t).zones.get z).sentCeiling = ((after.tube t).zones.get z).ceiling ∧
      Sent.ceiling t z ((after.tube t).zones.get z).ceiling ∈ after.outbox

/-- Whether a tube is in one of the states in which a cause that arises enters FAULT-HOLD (R142). -/
abbrev Tube.works (u : Tube) : Prop := u.state ≠ .off ∧ u.state ≠ .service ∧ u.state ≠ .faultHold

/-- A tube's cause set with one cause more. -/
def Tube.withCause (u : Tube) (c : FaultCause) : Tube :=
  { u with fault := { u.fault with causes := u.fault.causes.insert c } }

/-- What becomes between two states of a surcharge in HELD when the push that holds it is stopped short: above the mouth the recovery
counter is loaded with the kept time, and at or below it, without a position, or with a kept time of 0 the surcharge is
released (R125, R126, R129). -/
def heldResolved (t : TubeId) (before after : State) : Prop :=
  let l := (before.tube t).loader
  let v := after.tube t
  let inside := ∃ p, l.position = some p ∧ (before.tube t).record.mouth < p
  (l.recovery = .held → inside → l.keptRecovery ≠ 0 →
    v.loader.recovery = .running ∧ v.loader.recoveryCounter = some (loadCounter l.keptRecovery) ∧
      v.grant.surcharge = (before.tube t).grant.surcharge) ∧
    (l.recovery = .held → ¬inside ∨ l.keptRecovery = 0 →
      v.loader.recovery = .none ∧ v.loader.recoveryCounter = none ∧ v.grant.surcharge = .zero) ∧
    (l.recovery ≠ .held → v.loader.recovery = l.recovery ∧ v.loader.recoveryCounter = l.recoveryCounter ∧
      v.grant.surcharge = (before.tube t).grant.surcharge)

/-- A tube's surcharge share and its recovery stand as they stood. -/
def surchargeKept (t : TubeId) (before after : State) : Prop :=
  (after.tube t).grant.surcharge = (before.tube t).grant.surcharge ∧
    (after.tube t).loader.recovery = (before.tube t).loader.recovery ∧
    (after.tube t).loader.recoveryCounter = (before.tube t).loader.recoveryCounter

/-- A tube has entered FAULT-HOLD for a cause between two states (R143): what is set, what stops and closes, what becomes of its grant
and its ceilings (R146), of a surcharge in HELD (R129) and of its step, FAULT raised alone, and what the entry makes due. -/
def faultEntered (t : TubeId) (c : FaultCause) (before after : State) : Prop :=
  let u := before.tube t
  let v := after.tube t
  v.state = .faultHold ∧ v.halted = true ∧ v.remembered = none ∧ v.shedPaused = false ∧
    v.fault.causes = u.fault.causes.insert c ∧ v.fault.entry = some before.seconds ∧
    v.lines.purge.commanded = 0 ∧ v.lines.dopant.commanded = 0 ∧
    v.lines.carrier.commanded = u.lines.carrier.commanded ∧ v.lines.oxy.commanded = u.lines.oxy.commanded ∧
    (u.lines.dopant.isOpen = true → v.owed = true ∧ v.credit = 0 ∧ v.remainder = 0) ∧
    (u.effective = .moving → v.loader.state = .stopped ∧ v.loader.target = none) ∧
    (u.effective = .admitting → (∀ d ∈ after.arbiter.claims, d.tube ≠ t) ∧ (∀ d ∈ after.gas.header, d.tube ≠ t) ∧
      ∀ d ∈ after.gas.scrubber, d.tube ≠ t) ∧
    (u.effective = .ramping → ∀ d ∈ after.arbiter.claims, d.tube ≠ t) ∧
    ((u.withCause c).fault.causes.overTemp = true → v.grant.step = .zero ∧ v.grant.surcharge = .zero ∧
      v.loader.recovery = .none ∧ v.loader.recoveryCounter = none ∧ ceilingsCut t after) ∧
    ((u.withCause c).fault.causes.overTemp = false → shareLowered t before after ∧ loweredSent t before after ∧
      (u.effective = .moving → heldResolved t before after) ∧ (u.effective ≠ .moving → surchargeKept t before after)) ∧
    setpointsKept t before after ∧ v.queue = u.queue ∧
    (u.current = none → v.ring = u.ring ∧ v.overwrites = u.overwrites ∧ v.current = none) ∧
    (∀ k, u.current = some k → v.current = none ∧ v.stepCounter = none ∧ v.holdback = .reset ∧
      (∀ z, (v.zones.get z).ramp = none) ∧ recordsPushed before.seconds (u.withCause c) k .faulted v) ∧
    raisedAll [.fault] t before after ∧ madeDue t before after

/-- A cause has been reported between two states for a tube in which it enters no FAULT-HOLD (R142): an OFF tube and a set that holds the
cause already are left as they were; in FAULT-HOLD the cause joins the set and no more (R148), and in SERVICE the service work
stops with FAULT raised where the set was empty (R149, R163); in both OVER-TEMP takes the grant to 0 and its ceilings, all sent,
with it (R148). -/
def causeHeard (t : TubeId) (c : FaultCause) (before after : State) : Prop :=
  let u := before.tube t
  let v := after.tube t
  v.state = u.state ∧ v.ring = u.ring ∧ v.queue = u.queue ∧ v.halted = u.halted ∧ madeDue t before after ∧
    (u.state = .off ∨ u.fault.causes.has c = true → v.fault.causes = u.fault.causes ∧ v.fault.entry = u.fault.entry ∧
      v.grant = u.grant ∧ v.service = u.service ∧ flagsKept before after) ∧
    (u.state ≠ .off → u.fault.causes.has c = false →
      v.fault.causes = u.fault.causes.insert c ∧
      (c = .overTemp → v.grant.step = .zero ∧ v.grant.surcharge = .zero ∧ v.loader.recovery = .none ∧
        v.loader.recoveryCounter = none ∧ ceilingsCut t after) ∧
      (c ≠ .overTemp → surchargeKept t before after)) ∧
    (u.state = .faultHold → u.fault.causes.has c = false →
      v.fault.entry = u.fault.entry ∧ v.service = u.service ∧ flagsKept before after ∧
        (c ≠ .overTemp → v.grant = u.grant)) ∧
    (u.state = .service → u.fault.causes.has c = false →
      v.fault.entry = (if u.fault.causes.isEmpty then some before.seconds else u.fault.entry) ∧
        raisedAll (if u.fault.causes.isEmpty then [.fault] else []) t before after ∧
        v.service = { u.service with ramp := .none, jog := none } ∧
        (u.service.jog ≠ none → v.loader.state = .stopped ∧ v.loader.target = none) ∧
        ((∃ rate zones, u.service.ramp = .waiting rate zones) → ∀ d ∈ after.arbiter.claims, d.tube ≠ t) ∧
        (u.service.ramp = .running → (∀ z, (v.zones.get z).ramp = none) ∧ setpointsKept t before after ∧
          (c ≠ .overTemp → shareLowered t before after)) ∧
        (u.service.ramp ≠ .running → c ≠ .overTemp → v.grant = u.grant))

/-- The conditions behind the causes other than one stand (R141, R142). -/
def conditionsStand (c : FaultCause) (f g : FaultMonitor) : Prop :=
  (c ≠ .tcOpen → g.tcOpen = f.tcOpen) ∧ (c ≠ .overTemp → g.overTemp = f.overTemp) ∧
    (c ≠ .exhaustLost → g.exhaustLost = f.exhaustLost)

/-- What an entry into FAULT-HOLD for a cause leaves of a tube beside what `faultEntered` says (R143 to R145): CARRIER and OXY stand as they
are, PURGE and DOPANT are closed, and short of a motion that it stops the loader stands but for the recovery. -/
def faultStands (t : TubeId) (c : FaultCause) (before after : State) : Prop :=
  let u := before.tube t
  let v := after.tube t
  tubeStands u v ∧ conditionsStand c u.fault v.fault ∧ dopantShut (fun l => { l with purge := l.purge.shut }) u v ∧
    (u.effective = .moving → motionOver u v) ∧ (u.effective ≠ .moving → motionStands u v)

/-- What a cause that enters no FAULT-HOLD leaves of a tube beside what `causeHeard` says (R142, R148, R149): everything but the fault
monitor, the service state, the grant with the recovery, the zones, and the loader of a jog that it stops. -/
def causeStands (t : TubeId) (c : FaultCause) (before after : State) : Prop :=
  let u := before.tube t
  let v := after.tube t
  let stopsJog := u.state = .service ∧ u.fault.causes.has c = false ∧ u.service.jog ≠ none
  v = { u with
    grant := { u.grant with step := v.grant.step, surcharge := v.grant.surcharge }
    zones := v.zones
    loader := v.loader
    fault := v.fault
    service := v.service } ∧
    conditionsStand c u.fault v.fault ∧ (stopsJog → motionOver u v) ∧ (¬stopsJog → motionStands u v)

/-! ### Step records, calibration sets and tube records by their figures -/

/-- The kind fields of a step record lie within the ranges of R1, and a position and a hot speed within those the tube record gives
(R3); a zone number above 4 is out of range (log entry 14). -/
def RawBody.ranged (v : TubeRecord) : RawBody → Prop
  | .ramp rate band zones =>
    1 ≤ rate ∧ rate ≤ 300 ∧ optionIn 1 500 band ∧ ∀ e ∈ zones, e.1 ≤ 4 ∧ 2000 ≤ e.2 ∧ e.2 ≤ 12500
  | .soak duration band => 1 ≤ duration ∧ duration ≤ 1048575 ∧ optionIn 1 500 band
  | .purge flow duration => 1 ≤ flow ∧ flow ≤ 2000 ∧ 1 ≤ duration ∧ duration ≤ 1048575
  | .gasSet entries => ∀ e ∈ entries, e.2 ≤ 2000
  | .pushIn target hot => optionIn v.base v.limit target ∧ optionIn 1 v.coldSpeed hot
  | .pullOut target hot => optionIn v.base v.limit target ∧ optionIn 1 v.coldSpeed hot
  | .mark => True

/-- A step record lies within the ranges of R3; a level above 7 is out of range (log entry 14). -/
def RawStep.ranged (v : TubeRecord) (raw : RawStep) : Prop :=
  raw.level ≤ 7 ∧ optionIn 0 3 raw.calSet ∧ raw.body.ranged v

/-- A step body holds the kind fields of a frame. -/
def RawBody.gives : RawBody → StepBody → Prop
  | .ramp rate band zones, b => ∃ zs, b = .ramp rate band zs ∧ zs.map (fun e => (e.1.toNat, e.2)) = zones
  | .soak duration band, b => b = .soak duration band
  | .purge flow duration, b => b = .purge flow duration
  | .gasSet entries, b => b = .gasSet entries
  | .pushIn target hot, b => b = .pushIn target hot
  | .pullOut target hot, b => b = .pullOut target hot
  | .mark, b => b = .mark

/-- A step record holds what a frame gives, with its notes empty (R1). -/
def RawStep.gives (raw : RawStep) (r : StepRecord) : Prop :=
  r.id = raw.id ∧ r.level = raw.level ∧ r.calSet.map Fin.val = raw.calSet ∧ r.quiet = raw.quiet ∧ r.notes = {} ∧
    raw.body.gives r.body

/-- A number stands at a byte of a body, in so many bytes, most significant first (R174). -/
def numberAt (body : List Byte) (place size n : Nat) : Prop :=
  n < 256 ^ size ∧ ∀ k, k < size → body[place + k]? = some (BitVec.ofNat 8 (n / 256 ^ (size - 1 - k)))

/-- The bytes that follow the set number and the tube of a WRITE-CAL give a set: L and C of Z0 to Z4, Pb and tr, two bytes each (R52,
R173). -/
def CalSet.givenBy (fields : List Byte) (c : CalSet) : Prop :=
  fields.length = 24 ∧ (∀ z : ZoneId, numberAt fields (2 * z.toNat) 2 (c.hold.get z) ∧
    numberAt fields (10 + 2 * z.toNat) 2 (c.mass.get z)) ∧ numberAt fields 20 2 c.surcharge ∧
    numberAt fields 22 2 c.recovery ∧ c.valid = true

/-- A calibration set lies within the ranges of R52. -/
def CalSet.sound (c : CalSet) : Prop :=
  (∀ z, c.hold.get z ≤ 400 ∧ c.mass.get z ≤ 1000) ∧ c.surcharge ≤ 5000 ∧ c.recovery ≤ 1800

/-- The bytes that follow the tube of a WRITE-TUBE give a record: the fields in the order of R28, two bytes each but for the stall
time (R173). -/
def TubeRecord.givenBy (fields : List Byte) (r : TubeRecord) : Prop :=
  fields.length = 37 ∧ (∀ z : ZoneId, numberAt fields (2 * z.toNat) 2 (r.zmax.get z)) ∧ numberAt fields 10 2 r.base ∧
    numberAt fields 12 2 r.mouth ∧ numberAt fields 14 2 r.limit ∧ numberAt fields 16 2 r.coldSpeed ∧
    numberAt fields 18 2 r.hotCap ∧ numberAt fields 20 2 r.hotThreshold ∧ numberAt fields 22 1 r.stallTime ∧
    numberAt fields 23 2 r.cdown ∧ numberAt fields 25 2 r.band ∧ numberAt fields 27 2 r.holdbackLimit ∧
    numberAt fields 29 2 r.overTempBand ∧ numberAt fields 31 2 r.admissionLimit ∧ numberAt fields 33 2 r.purgeVolume ∧
    numberAt fields 35 2 r.autoFlow

/-- A tube record lies within the ranges of R28. -/
def TubeRecord.sound (r : TubeRecord) : Prop :=
  (∀ z, 1 ≤ r.zmax.get z ∧ r.zmax.get z ≤ 4000) ∧ r.base < r.mouth ∧ r.mouth < r.limit ∧ r.limit ≤ 3000 ∧
    (1 ≤ r.coldSpeed ∧ r.coldSpeed ≤ 6000) ∧ (1 ≤ r.hotCap ∧ r.hotCap ≤ r.coldSpeed) ∧
    (2000 ≤ r.hotThreshold ∧ r.hotThreshold ≤ 12500) ∧ (1 ≤ r.stallTime ∧ r.stallTime ≤ 60) ∧
    (1 ≤ r.cdown ∧ r.cdown ≤ 300) ∧ (1 ≤ r.band ∧ r.band ≤ 500) ∧ r.holdbackLimit ≤ 7200 ∧
    (1 ≤ r.overTempBand ∧ r.overTempBand ≤ 1000) ∧ r.admissionLimit ≤ 7200 ∧
    (1 ≤ r.purgeVolume ∧ r.purgeVolume ≤ 60000) ∧ 1 ≤ r.autoFlow ∧ r.autoFlow ≤ 2000

/-! ### The form of a request -/

/-- The length of the body of a request whose length is fixed by its row (R173). -/
def bodyLength (kind : Byte) : Nat :=
  match kind.toNat with
  | 0x12 => 3
  | 0x21 => 3
  | 0x24 => 7
  | 0x32 => 2
  | 0x41 => 0
  | 0x42 => 0
  | 0x43 => 0
  | 0x44 => 0
  | 0x52 => 11
  | 0x53 => 26
  | 0x54 => 38
  | 0x55 => 4
  | 0x56 => 2
  | 0x57 => 0
  | 0x58 => 0
  | 0x59 => 0
  | 0x5A => 0
  | 0x5D => 3
  | 0x5E => 4
  | _ => 1

/-- The reserved fields of a body of the right length are clear: bit 7 of ARM-ATTENTION's mask (R183), the tube byte of a WRITE-CAL of
set 0 (section 10.2), the upper bits of WRITE-RIGHTS' rights byte (R180); and SERVICE-VALVE's line code is one of R174. -/
def reservedClear (kind : Byte) (body : List Byte) : Bool :=
  match kind.toNat with
  | 0x45 => !(body.getD 0 0).getLsbD 7
  | 0x53 => body.getD 0 0 != 0 || body.getD 1 0 == 0
  | 0x55 => decide ((body.getD 2 0).toNat < 8)
  | 0x5E => decide ((body.getD 1 0).toNat < 4)
  | _ => true

/-- Whether the body of a request passes check 2 of R172. -/
def formPasses (kind : Byte) (body : List Byte) : Bool :=
  if kind = 0x11 then (parseStep body).isSome
  else if kind = 0x5F then
    match body with
    | _ :: _ :: _ :: count :: entries => (countedEntries 5 count entries).isSome
    | _ => false
  else body.length == bodyLength kind && reservedClear kind body

/-- The byte of a request's body that names a tube, if the request names one (R172, check 3). -/
def tubeNamed (kind : Byte) (body : List Byte) : Option Byte :=
  match kind.toNat / 16, kind.toNat with
  | 1, _ => body.head?
  | 2, _ => body.head?
  | 3, _ => body.head?
  | 5, 0x53 => if 1 ≤ (body.getD 0 0).toNat ∧ (body.getD 0 0).toNat ≤ 3 then body[1]? else none
  | 5, 0x55 => body[1]?
  | 5, 0x54 => body.head?
  | 5, 0x56 => body.head?
  | 5, n => if 0x5B ≤ n then body.head? else none
  | _, _ => none

/-! ### Motions -/

/-- A segment to a place lies in the hot part: it ends above the mouth or begins there (section 6.2). -/
def hotSegment (mouth : Nat) (position : Option Nat) (segmentEnd : Nat) : Prop :=
  mouth < segmentEnd ∨ ∃ p, position = some p ∧ mouth < p

/-- The hot cap cuts the speed of a segment (R121). -/
def hotCapCuts (u : Tube) (travel : TravelCopy) (hot segmentEnd : Nat) : Prop :=
  hotSegment travel.mouth u.loader.position segmentEnd ∧
    (∃ z, travel.hotThreshold ≤ (u.zones.get z).reportedSetpoint) ∧ travel.hotCap < hot

/-- A step with the "speed clamped" note (R121). -/
def CurrentStep.withSpeedClamped (k : CurrentStep) : CurrentStep :=
  { k with step := { k.step with notes := { k.step.notes with speedClamped := true } } }

/-- A segment of the current step's motion has begun between two states, at a travel copy and a hot speed (R116, R120, R121, R128): its
direction, its end, its speed and its MOVE, the stall watch loaded, and the note where the hot cap cuts the speed. -/
def segmentBegun (t : TubeId) (k : CurrentStep) (travel : TravelCopy) (hot : Nat) (inward : Bool) (segmentEnd : Nat)
    (before after : State) : Prop :=
  let u := before.tube t
  let v := after.tube t
  v.loader.state = (if inward then .movingIn else .movingOut) ∧ v.loader.position = u.loader.position ∧
    v.loader.segmentEnd = some segmentEnd ∧ v.loader.travel = some travel ∧
    v.loader.stallCount = some travel.stallTime ∧ v.loader.stallRef = u.loader.position ∧
    (∃ speed, v.loader.speed = some speed ∧ after.outbox.getLast? = some (.move t segmentEnd speed) ∧
      (¬hotSegment travel.mouth u.loader.position segmentEnd → speed = travel.coldSpeed) ∧
      (hotSegment travel.mouth u.loader.position segmentEnd → ¬hotCapCuts u travel hot segmentEnd → speed = hot) ∧
      (hotCapCuts u travel hot segmentEnd → speed = travel.hotCap)) ∧
    (¬hotCapCuts u travel hot segmentEnd → v.current = some k) ∧
    (hotCapCuts u travel hot segmentEnd → v.current = some k.withSpeedClamped)

/-- What the beginning of a motion changes of its tube: the state, the current step, and of the loader the motion and the recovery; the
ceilings may have been composed again. -/
def motionAlone (u v : Tube) : Prop :=
  v = { u with
    state := v.state
    current := v.current
    zones := v.zones
    loader :=
      { u.loader with
        state := v.loader.state
        target := v.loader.target
        segmentEnd := v.loader.segmentEnd
        speed := v.loader.speed
        travel := v.loader.travel
        stallCount := v.loader.stallCount
        stallRef := v.loader.stallRef
        stallFresh := v.loader.stallFresh
        recovery := v.loader.recovery
        recoveryCounter := v.loader.recoveryCounter } } ∧
    ∀ z, zoneKept (u.zones.get z) (v.zones.get z)

/-- The current step's motion to a target away from the boat's position has begun between two states, with its first segment (R120).
From a position of none to a target below the mouth the direction is the free value of log entry 3. -/
def motionBegun (t : TubeId) (k : CurrentStep) (travel : TravelCopy) (hot target : Nat) (before after : State) : Prop :=
  (after.tube t).state = .moving ∧ (after.tube t).loader.target = some target ∧
    motionAlone (before.tube t) (after.tube t) ∧
    (∀ p, (before.tube t).loader.position = some p →
      segmentBegun t k travel hot (decide (p < target))
        (if (p < travel.mouth ∧ travel.mouth < target) ∨ (travel.mouth < p ∧ target < travel.mouth) then travel.mouth
          else target) before after) ∧
    ((before.tube t).loader.position = none →
      segmentBegun t k travel hot (if travel.mouth ≤ target then true else Config.freeDirection before.freeIndex)
        (if travel.mouth < target then travel.mouth else target) before after)

/-- The current step's motion has arrived at its target between two states (R123): the step ends DONE with the share lowered, the loader
is STOPPED and the motion's values are gone; a push that holds a surcharge starts the recovery counter with the kept time, or
releases the surcharge where that is 0 (R126). -/
def motionArrived (t : TubeId) (c : CurrentStep) (before after : State) : Prop :=
  let l := (before.tube t).loader
  let v := after.tube t
  stepEnded t c .done before after ∧ shareLowered t before after ∧ v.state = .idle ∧
    v.loader.state = .stopped ∧ v.loader.target = none ∧ v.loader.segmentEnd = none ∧ v.loader.speed = none ∧
    v.loader.travel = none ∧ v.loader.stallCount = none ∧
    (c.step.body.kind = .pushIn → l.recovery = .held → l.keptRecovery = 0 →
      v.loader.recovery = .none ∧ v.grant.surcharge = .zero) ∧
    (c.step.body.kind = .pushIn → l.recovery = .held → l.keptRecovery ≠ 0 →
      v.loader.recovery = .running ∧ v.loader.recoveryCounter = some (loadCounter l.keptRecovery) ∧
        v.grant.surcharge = (before.tube t).grant.surcharge) ∧
    (c.step.body.kind ≠ .pushIn ∨ l.recovery ≠ .held → v.loader.recovery = l.recovery ∧
      v.grant.surcharge = (before.tube t).grant.surcharge) ∧
    raisedAll (if c.step.quiet then [] else [.stepDone]) t before after ∧ madeDue t before after

/-- The pull or push of a tube's current step has begun between two states, towards a target: it moves, or arrives at once where the
boat stands at the target (R119, R120, R123). -/
def motionStarted (t : TubeId) (k : CurrentStep) (hot target : Nat) (before after : State) : Prop :=
  ((before.tube t).loader.position ≠ some target →
      motionBegun t k (travelCopy (before.tube t).record) hot target before after ∧ surchargeKept t before after) ∧
    ((before.tube t).loader.position = some target → motionArrived t k before after ∧
      motionOver (before.tube t) (after.tube t) ∧ gasStands (before.tube t) (after.tube t)) ∧ elsewhereKept t before after

/-- The automatic purge of a tube's current PULL-OUT has ended between two states (R17): its line is closed, its record is in the ring
(notes: log entry 16), STEP-DONE is raised unless the step is quiet, and the PULL-OUT stays current with a start stamp of its own; beside
these only the purge account, which the boundary that ends it credits, has changed. -/
def autoPurgeEnded (t : TubeId) (k : CurrentStep) (before after : State) : Prop :=
  let u := before.tube t
  let v := after.tube t
  elsewhereKept t before after ∧ v.lines.purge.commanded = 0 ∧ v.lines = { u.lines with purge := u.lines.purge.shut } ∧
    v = { u with
      current := v.current
      ring := v.ring
      overwrites := v.overwrites
      lines := v.lines
      owed := v.owed
      credit := v.credit
      remainder := v.remainder } ∧
    v.current = some { k with start := before.seconds, wait := some 0, auto := .none } ∧
    (∃ r, recordHolds before.seconds u k .done r ∧ recordJoined r.ofAutoPurge u v) ∧ v.grant = u.grant ∧ v.loader = u.loader ∧
    v.queue = u.queue ∧ raisedAll (if k.step.quiet then [] else [.stepDone]) t before after ∧ madeDue t before after

/-- The pull has begun between two states after the end of the automatic purge of a PULL-OUT (R17, R120, R123). -/
def pullBegun (t : TubeId) (k : CurrentStep) (before after : State) : Prop :=
  let u := before.tube t
  motionStarted t { k with start := before.seconds, wait := some 0, auto := .none } (u.loader.hotSpeed.getD u.record.coldSpeed)
    (k.step.body.target u.record) before after

/-! ### Ramps -/

/-- The listed zones of a tube were loaded for a ramp (R32): each with its target, direction, rate, start value and an accumulator of 0,
its landed flag clear and its setpoint where it stood; no other zone. -/
def zonesLoaded (rate : Nat) (zones : List (ZoneId × Nat)) (u v : Tube) : Prop :=
  (zones.map Prod.fst).Nodup → ∀ z,
    let zone := u.zones.get z
    let loaded := v.zones.get z
    loaded.s = zone.s ∧ zoneStands zone loaded ∧
      ((∀ g, (z, g) ∉ zones) → loaded.f = zone.f ∧ loaded.ramp = zone.ramp) ∧
      ∀ g, (z, g) ∈ zones → loaded.f = 0 ∧
        (zone.s < 64 * g → loaded.ramp = some ⟨g, .up, rate, false, zone.s⟩) ∧
        (64 * g < zone.s → loaded.ramp = some ⟨g, .down, min rate u.record.cdown, false, zone.s⟩) ∧
        (64 * g = zone.s → loaded.ramp = some ⟨g, .level, rate, false, zone.s⟩)

/-- A listed zone goes down at the natural cooling rate because that is less than the step rate (R32). -/
def coolingCuts (rate : Nat) (zones : List (ZoneId × Nat)) (u : Tube) : Prop :=
  u.record.cdown < rate ∧ ∃ e ∈ zones, 64 * e.2 < (u.zones.get e.1).s

/-- The current RAMP of a tube was loaded: it is RAMPING, with its zones loaded and the "rate clamped" note where the natural cooling
rate cuts the rate, and holdback begins clear (R32, R40, R43). -/
def rampBegun (k : CurrentStep) (rate : Nat) (zones : List (ZoneId × Nat)) (u v : Tube) : Prop :=
  v.state = .ramping ∧ v.shedPaused = false ∧ v.holdback = ⟨false, none, 0, 0⟩ ∧ zonesLoaded rate zones u v ∧
    gasStands u v ∧ v.loader = u.loader ∧
    ((zones.map Prod.fst).Nodup → (coolingCuts rate zones u → v.current =
        some { k with step := { k.step with notes := { k.step.notes with rateClamped := true } } }) ∧
      (¬coolingCuts rate zones u → v.current = some k))

/-- A tube's listed zones advance at an update (R31, R36): it is RAMPING without holdback and not shed-paused, or in SERVICE with its
ramp running. -/
abbrev Tube.rampMoves (u : Tube) : Prop :=
  (u.state = .ramping ∧ u.holdback.asserted = false ∧ u.shedPaused = false) ∨
    (u.state = .service ∧ u.service.ramp = .running)

/-- A listed zone that has not landed lands at its next advance: its distance from the target is no more than its step (R33, R34). -/
def Zone.landsNext (zone : Zone) : Prop :=
  ∃ r, zone.ramp = some r ∧ r.landed = false ∧
    (64 * r.target - zone.s) + (zone.s - 64 * r.target) ≤ (zone.f + 4 * r.rate) / 15

/-- An advance lands the last of a tube's listed zones: one that had not landed lands, and every other has landed or lands too
(R35). -/
def Tube.rampFinishes (u : Tube) : Prop :=
  (∃ z, (u.zones.get z).landsNext) ∧
    ∀ z r, (u.zones.get z).ramp = some r → r.landed = true ∨ (u.zones.get z).landsNext

/-- OVER-TEMP arises at an update of a tube (R48; log entry 23): its condition does not hold, and a zone that is not open reads 13000 or
more, or has been above its band at the 19 updates before and is so at this one. -/
def Tube.overTempDue (u : Tube) : Prop :=
  u.state ≠ .off ∧ u.fault.overTemp = false ∧ ∃ z, (u.zones.get z).isOpen = false ∧
    (13000 ≤ (u.zones.get z).pv ∨
      (19 ≤ (u.zones.get z).excess ∧ (u.zones.get z).reportedSetpoint + u.record.overTempBand < (u.zones.get z).pv))

/-- The ceiling of a zone stands as its share, its rating, its open flag and its hold share make it, with the term that decided it, in a
tube that is not OFF and has no OVER-TEMP in its set (R65, R68). -/
def ceilingStands (s : State) (t : TubeId) (z : ZoneId) : Prop :=
  let u := s.tube t
  let zone := u.zones.get z
  let zmax := u.record.zmax.get z
  let share := u.grant.step.get z + u.grant.surcharge.get z
  let base := min share zmax
  let hold := holdShare ((calInForce s t).hold.get z) zmax zone.reportedSetpoint
  (zone.isOpen = true → hold < base → zone.ceiling = hold ∧ zone.term = .openZone) ∧
    (zone.isOpen = false ∨ base ≤ hold → zone.ceiling = base ∧ zone.term = if zmax < share then .zmax else .admitted)

/-- The ceiling of a zone and its term are as R65 and R68 compose them: 0 and ZERO with OVER-TEMP in the tube's set or the tube OFF, and
otherwise as `ceilingStands` says. -/
def ceilingComposed (s : State) (t : TubeId) (z : ZoneId) : Prop :=
  let u := s.tube t
  (u.fault.causes.overTemp = true ∨ u.state = .off → (u.zones.get z).ceiling = 0 ∧ (u.zones.get z).term = .zero) ∧
    (u.fault.causes.overTemp = false → u.state ≠ .off → ceilingStands s t z)

/-- Every ceiling stands as it would be composed: each has been composed again since its inputs last changed (R66). -/
def State.ceilingsComposed (s : State) : Prop := ∀ t z, ceilingComposed s t z

/-- A tube's ceilings have been composed again by an event, and those that it lowered were sent within it (R66, R67). -/
def ceilingsFollow (t : TubeId) (before after : State) : Prop :=
  (∀ z, ceilingComposed after t z) ∧ loweredSent t before after

/-! ### The walk of the Claim List, its pacing, and shedding -/

/-- A claim is eligible: its level is below M and its tube is not SUSPENDED (R74, R79). -/
abbrev eligible (s : State) (c : Claim) : Prop := c.level < s.arbiter.mask ∧ (s.tube c.tube).state ≠ .suspended

/-- A claim fits: the grant totals of the other three tubes and its new total, which a SURCHARGE claim makes from the tube's grant total
and another claim from its zone values and the tube's surcharge total, are within the limit in force (R72, R79). -/
def claimFits (s : State) (c : Claim) : Prop :=
  ((TubeId.all.filter fun j => j ≠ c.tube).map fun j => (s.tube j).grantTotal).sum +
      (if c.kind = .surcharge then (s.tube c.tube).grantTotal + c.amount
        else c.values.sum + (s.tube c.tube).surchargeTotal) ≤
    if s.curtail.asserted then s.arbiter.limitEc else s.arbiter.limitE

/-- A walk goes past a claim: it is not eligible, or it does not fit and has a bypass count below 3 (R79). -/
def walkPasses (s : State) (c : Claim) : Prop := ¬eligible s c ∨ (¬claimFits s c ∧ c.bypass < 3)

/-- A claim as a walk that goes past it leaves it: MASKED, SUSPENDED or NO-FIT (R93). -/
def walkedPast (s : State) (c : Claim) : Claim :=
  { c with
    treatment :=
      if s.arbiter.mask ≤ c.level then .masked else if (s.tube c.tube).state = .suspended then .suspended else .noFit }

/-- A claim as a grant behind it leaves it: its bypass count is one more if it was eligible, and as it was if not (R82). -/
def overtaken (s : State) (c : Claim) : Claim :=
  { walkedPast s c with bypass := if eligible s c then c.bypass + 1 else c.bypass }

/-- A claim behind the one a walk ended at (R93). -/
def Claim.unreached (c : Claim) : Claim := { c with treatment := .notReached }

/-- A walk of the Claim List comes to a claim: it stands behind claims the walk goes past, and is eligible (R79). -/
def walkReaches (s : State) (ahead : List Claim) (c : Claim) (behind : List Claim) : Prop :=
  s.arbiter.claims = ahead ++ c :: behind ∧ (∀ d ∈ ahead, walkPasses s d) ∧ eligible s c

/-- The stagger test passes: the newest raise, if there is one, is at least ts old (R80). -/
def staggerOpen (s : State) : Prop :=
  ∀ r, s.arbiter.history.getLast? = some r → s.arbiter.stagger ≤ (s.seconds - r.stamp).toNat

/-- The window test passes: fewer than Nw raises are less than Tw old (R80). -/
def windowOpen (s : State) : Prop :=
  (s.arbiter.history.filter fun r => (s.seconds - r.stamp).toNat < s.arbiter.window).length < s.arbiter.windowCount

/-- The shed floor of a tube: zone by zone the smaller of its step share and its hold share (R88). -/
def shedFloor (s : State) (t : TubeId) : PerZone Nat :=
  PerZone.of fun z =>
    min ((s.tube t).grant.step.get z)
      (holdShare ((calInForce s t).hold.get z) ((s.tube t).record.zmax.get z) ((s.tube t).zones.get z).reportedSetpoint)

/-- A tube is a shed candidate (R88). -/
def shedCandidate (s : State) (t : TubeId) : Prop :=
  (s.tube t).state = .ramping ∧ (s.tube t).shedPaused = false ∧ (shedFloor s t).sum < (s.tube t).stepTotal ∧
    (shedFloor s t).sum < (resumeDemand s t).sum

/-- One candidate is shed before another: its RAMP has the higher stored level number, or the same and its grant is the later, none
being the least recent (R89). -/
def shedGoesFirst (s : State) (a b : TubeId) : Prop :=
  currentLevel s b < currentLevel s a ∨
    (currentLevel s a = currentLevel s b ∧ ∃ m, (s.tube a).grant.mark = some m ∧
      ∀ n, (s.tube b).grant.mark = some n → n.place < m.place)

/-! ### The two gas lists -/

/-- The header claims of SUSPENDED tubes as an evaluation passes over them (R105). -/
def HeaderClaim.passed (c : HeaderClaim) : HeaderClaim := { c with treatment := .suspended }

/-- A header claim behind the one at which an evaluation ended (R113). -/
def HeaderClaim.unreached (c : HeaderClaim) : HeaderClaim := { c with treatment := .notReached }

/-- The scrubber claims of SUSPENDED tubes as an evaluation passes over them (R100). -/
def ScrubberClaim.passed (c : ScrubberClaim) : ScrubberClaim := { c with treatment := .suspended }

/-- A scrubber claim behind the one at which an evaluation ended (R113). -/
def ScrubberClaim.unreached (c : ScrubberClaim) : ScrubberClaim := { c with treatment := .notReached }

/-- An evaluation of the header FIFO comes to a claim: it is the oldest whose tube is not SUSPENDED (R105). -/
def headerTakes (s : State) (ahead : List HeaderClaim) (c : HeaderClaim) (behind : List HeaderClaim) : Prop :=
  s.gas.header = ahead ++ c :: behind ∧ (∀ d ∈ ahead, (s.tube d.tube).state = .suspended) ∧
    (s.tube c.tube).state ≠ .suspended

/-- An evaluation of the scrubber FIFO comes to a claim: it is the oldest whose tube is not SUSPENDED (R100). -/
def scrubberTakes (s : State) (ahead : List ScrubberClaim) (c : ScrubberClaim) (behind : List ScrubberClaim) : Prop :=
  s.gas.scrubber = ahead ++ c :: behind ∧ (∀ d ∈ ahead, (s.tube d.tube).state = .suspended) ∧
    (s.tube c.tube).state ≠ .suspended

/-! ### Answer bodies -/

/-- A field of so many bytes stands at a byte of a body and carries a number, most significant byte first (R174); of a number too great
for its field the low bytes (log entry 22). -/
def fieldAt (body : List Byte) (place size n : Nat) : Prop :=
  ∀ k, k < size → body[place + k]? = some (BitVec.ofNat 8 (n / 256 ^ (size - 1 - k)))

/-- A value that may be none stands at a byte of a body: a presence byte, and then the value, 0 when it is none (R174). -/
def optionAt (body : List Byte) (place size : Nat) (o : Option Nat) : Prop :=
  fieldAt body place 1 (if o.isSome then 1 else 0) ∧ fieldAt body (place + 1) size (o.getD 0)

/-- A byte of flags stands at a byte of a body, the flags from bit 0 up and the other bits 0 (R174). -/
def flagsAt (body : List Byte) (place : Nat) (flags : List Bool) : Prop :=
  ∃ b, body[place]? = some b ∧ ∀ k, k < 8 → b.getLsbD k = flags.getD k false

/-- A counter stands at a byte of a body, in 9 bytes, each 0 where none is loaded (R177). -/
def counterAt (body : List Byte) (place : Nat) (c : Option DwellCounter) : Prop :=
  fieldAt body place 1 (if c.isSome then 1 else 0) ∧
    (c = none → fieldAt body (place + 1) 8 0) ∧
    ∀ k, c = some k → fieldAt body (place + 1) 4 (remaining k) ∧ fieldAt body (place + 5) 2 k.count ∧
      fieldAt body (place + 7) 1 k.reloads ∧ flagsAt body (place + 8) [k.paused]

/-- The flags of a cause set, from bit 0 (R174). -/
def CauseSet.flags (c : CauseSet) : List Bool :=
  [c.tcOpen, c.overTemp, c.exhaustLost, c.holdbackTimeout, c.flowLow, c.motionStall]

/-- The flags of a notes byte, from bit 0 (R174). -/
def Notes.flags (n : Notes) : List Bool := [n.levelClamped, n.rateClamped, n.speedClamped, n.surchargeCapped, n.auto]

/-- A completion record stands at a byte of a body, in 23 bytes (R176). -/
def completionAt (body : List Byte) (p : Nat) (r : CompletionRecord) : Prop :=
  fieldAt body p 2 r.id ∧ fieldAt body (p + 2) 1 r.kind.toNat ∧ fieldAt body (p + 3) 1 r.outcome.toNat ∧
    fieldAt body (p + 4) 1 r.failCause.toNat ∧ flagsAt body (p + 5) r.faults.flags ∧ fieldAt body (p + 6) 4 r.start.toNat ∧
    fieldAt body (p + 10) 4 r.run.toNat ∧ fieldAt body (p + 14) 4 r.wait.toNat ∧ fieldAt body (p + 18) 2 r.holdbackSeconds ∧
    fieldAt body (p + 20) 2 r.maxLag ∧ flagsAt body (p + 22) r.notes.flags

/-- A zone stands at a byte of a READ-TUBE body, in 11 bytes (R177). -/
def zoneAtByte (body : List Byte) (p : Nat) (z : Zone) : Prop :=
  fieldAt body p 2 z.reportedSetpoint ∧ fieldAt body (p + 2) 2 (z.ramp.elim 0 ZoneRamp.target) ∧
    fieldAt body (p + 4) 1 (z.ramp.elim 0 fun r => r.direction.toNat) ∧ fieldAt body (p + 5) 2 (z.ramp.elim 0 ZoneRamp.rate) ∧
    flagsAt body (p + 7) [z.ramp.elim false ZoneRamp.landed, z.isOpen] ∧ fieldAt body (p + 8) 2 z.pv ∧
    fieldAt body (p + 10) 1 z.excess

/-- The loader group of a READ-TUBE body, in bytes 97 to 126 (R177). -/
def loaderLaidOut (body : List Byte) (l : Loader) : Prop :=
  fieldAt body 97 1 l.state.toNat ∧ optionAt body 98 2 l.position ∧ optionAt body 101 2 l.target ∧
    optionAt body 104 2 l.segmentEnd ∧ optionAt body 107 2 l.speed ∧ fieldAt body 110 1 l.recovery.toNat ∧
    optionAt body 111 1 l.stallCount ∧ fieldAt body 113 1 (if l.travel.isSome then 1 else 0) ∧
    (l.travel = none → fieldAt body 114 13 0) ∧
    ∀ c, l.travel = some c → fieldAt body 114 2 c.base ∧ fieldAt body 116 2 c.mouth ∧ fieldAt body 118 2 c.limit ∧
      fieldAt body 120 2 c.coldSpeed ∧ fieldAt body 122 2 c.hotCap ∧ fieldAt body 124 2 c.hotThreshold ∧
      fieldAt body 126 1 c.stallTime

/-- A READ-TUBE body gives a tube (R177); the jog target without a jog is log entry 40. -/
def tubeLaidOut (body : List Byte) (u : Tube) : Prop :=
  body.length = 139 ∧ fieldAt body 0 1 u.state.toNat ∧ fieldAt body 1 1 (u.remembered.elim 0 TubeState.toNat) ∧
    flagsAt body 2 [u.shedPaused, u.halted, u.recordValid, u.holdback.asserted, u.loader.isSealed] ∧
    fieldAt body 3 1 u.pointer.val ∧ fieldAt body 4 1 u.queue.length ∧
    fieldAt body 5 1 (if u.current.isSome then 1 else 0) ∧ (u.current = none → fieldAt body 6 5 0) ∧
    (∀ c, u.current = some c → fieldAt body 6 2 c.step.id ∧ fieldAt body 8 1 c.step.body.kind.toNat ∧
      fieldAt body 9 1 c.step.level ∧ flagsAt body 10 c.step.notes.flags) ∧
    (∀ z : ZoneId, zoneAtByte body (11 + 11 * z.toNat) (u.zones.get z)) ∧ counterAt body 66 u.stepCounter ∧
    counterAt body 75 u.holdback.counter ∧ counterAt body 84 u.loader.recoveryCounter ∧
    fieldAt body 93 2 u.holdback.seconds ∧ fieldAt body 95 2 u.holdback.maxLag ∧ loaderLaidOut body u.loader ∧
    flagsAt body 127 u.fault.causes.flags ∧ flagsAt body 128 [u.fault.tcOpen, u.fault.overTemp, u.fault.exhaustLost] ∧
    optionAt body 129 4 (u.fault.entry.map BitVec.toNat) ∧ fieldAt body 134 1 u.service.ramp.toNat ∧
    optionAt body 135 2 u.service.jog ∧ flagsAt body 138 [u.service.carrier, u.service.oxy]

/-- A READ-COMPLETIONS body gives a tube's ring (R176). -/
def ringLaidOut (body : List Byte) (u : Tube) : Prop :=
  body.length = 2 + 23 * u.ring.length ∧ fieldAt body 0 1 u.ring.length ∧ fieldAt body 1 1 u.overwrites ∧
    ∀ i r, u.ring[i]? = some r → completionAt body (2 + 23 * i) r

/-- A line stands at a byte of a READ-GAS body, in 6 bytes (R178). -/
def lineAt (body : List Byte) (p : Nat) (l : Line) : Prop :=
  fieldAt body p 2 l.commanded ∧ fieldAt body (p + 2) 2 l.measured ∧
    flagsAt body (p + 4) [decide (0 < l.commanded), l.flowLow] ∧ fieldAt body (p + 5) 1 l.lowCount

/-- A READ-GAS body gives the gas figures of a tube and of the stack (R113, R178). -/
def gasLaidOut (body : List Byte) (s : State) (t : TubeId) : Prop :=
  let u := s.tube t
  body.length = 40 ∧ (∀ l : LineId, lineAt body (6 * l.toNat) (u.lines.get l)) ∧
    flagsAt body 24 [u.owed, decide (0 < u.lines.dopant.commanded)] ∧ fieldAt body 25 2 u.credit ∧
    fieldAt body 27 1 u.remainder ∧ fieldAt body 28 2 u.record.purgeVolume ∧ fieldAt body 30 2 u.record.autoFlow ∧
    fieldAt body 32 1 (if s.gas.header.any fun c => c.tube == t then 1
      else if s.gas.scrubber.any fun c => c.tube == t then 2 else 0) ∧
    fieldAt body 33 2 s.gas.capacity ∧ fieldAt body 35 2 (headerAllocation s) ∧ fieldAt body 37 1 s.gas.slots ∧
    fieldAt body 38 1 (slotsInUse s) ∧ fieldAt body 39 1 (if s.exhaust.asserted then 1 else 0)

/-- A READ-ENVELOPE body gives the arbiter's figures (R68, R92, R178). -/
def envelopeLaidOut (body : List Byte) (s : State) : Prop :=
  let a := s.arbiter
  let limit := if s.curtail.asserted then a.limitEc else a.limitE
  let n := a.history.length
  body.length = 206 + 5 * n ∧
    (∀ (t : TubeId) (z : ZoneId),
      let p := 35 * t.toNat + 7 * z.toNat
      fieldAt body p 2 ((s.tube t).zones.get z).ceiling ∧ fieldAt body (p + 2) 2 ((s.tube t).grant.step.get z) ∧
        fieldAt body (p + 4) 2 ((s.tube t).grant.surcharge.get z) ∧
        fieldAt body (p + 6) 1 ((s.tube t).zones.get z).term.toNat) ∧
    (∀ t : TubeId,
      let p := 140 + 11 * t.toNat
      fieldAt body p 2 (s.tube t).stepTotal ∧ fieldAt body (p + 2) 2 (s.tube t).surchargeTotal ∧
        fieldAt body (p + 4) 2 (s.tube t).grantTotal ∧
        optionAt body (p + 6) 4 ((s.tube t).grant.mark.map fun m => m.stamp.toNat)) ∧
    fieldAt body 184 2 a.limitE ∧ fieldAt body 186 2 a.limitEc ∧ flagsAt body 188 [s.curtail.asserted, a.shedding] ∧
    fieldAt body 189 2 limit ∧ fieldAt body 191 2 (grantSum s) ∧ fieldAt body 193 2 (limit - grantSum s) ∧
    fieldAt body 195 1 a.mask ∧ fieldAt body 196 1 a.stagger ∧ fieldAt body 197 2 a.window ∧
    fieldAt body 199 1 a.windowCount ∧ fieldAt body 200 1 n ∧
    (∀ i r, a.history[i]? = some r → fieldAt body (201 + 5 * i) 4 r.stamp.toNat ∧
      fieldAt body (205 + 5 * i) 1 r.tube.toNat) ∧
    optionAt body (201 + 5 * n) 4 (a.pacing.map BitVec.toNat)

/-- A READ-CLAIMS body gives the Claim List and the two gas lists (R93, R113, R178). -/
def claimsLaidOut (body : List Byte) (s : State) : Prop :=
  let n := s.arbiter.claims.length
  let m := s.gas.header.length
  let k := s.gas.scrubber.length
  body.length = 3 + 30 * n + 9 * m + 6 * k ∧ fieldAt body 0 1 n ∧ fieldAt body (1 + 30 * n) 1 m ∧
    fieldAt body (2 + 30 * n + 9 * m) 1 k ∧
    (∀ i c, s.arbiter.claims[i]? = some c →
      let p := 1 + 30 * i
      fieldAt body p 1 c.tube.toNat ∧ fieldAt body (p + 1) 1 c.kind.toNat ∧ fieldAt body (p + 2) 1 c.level ∧
        (∀ z : ZoneId, fieldAt body (p + 3 + 2 * z.toNat) 2 (c.values.get z)) ∧ fieldAt body (p + 13) 2 c.amount ∧
        fieldAt body (p + 15) 4 c.created.toNat ∧ fieldAt body (p + 19) 1 c.bypass ∧ counterAt body (p + 20) c.counter ∧
        fieldAt body (p + 29) 1 c.treatment.toNat) ∧
    (∀ i c, s.gas.header[i]? = some c →
      let p := 2 + 30 * n + 9 * i
      fieldAt body p 1 c.tube.toNat ∧ fieldAt body (p + 1) 1 c.purpose.toNat ∧ fieldAt body (p + 2) 2 c.flow ∧
        fieldAt body (p + 4) 4 c.created.toNat ∧ fieldAt body (p + 8) 1 c.treatment.toNat) ∧
    ∀ i c, s.gas.scrubber[i]? = some c →
      let p := 3 + 30 * n + 9 * m + 6 * i
      fieldAt body p 1 c.tube.toNat ∧ fieldAt body (p + 1) 4 c.created.toNat ∧ fieldAt body (p + 5) 1 c.treatment.toNat

/-- A READ-STACK body gives the stack mode, the inputs, the seconds and what is valid (R154, R178). -/
def stackLaidOut (body : List Byte) (s : State) : Prop :=
  let bit (b : Bool) := if b then 1 else 0
  body.length = 13 ∧ fieldAt body 0 1 s.mode.toNat ∧ fieldAt body 1 1 (bit s.eStop) ∧
    fieldAt body 2 1 (bit s.curtail.asserted) ∧ fieldAt body 3 1 s.curtail.count ∧
    fieldAt body 4 1 (bit s.exhaust.asserted) ∧ fieldAt body 5 1 s.exhaust.count ∧ fieldAt body 6 4 s.seconds.toNat ∧
    (let valid (t : TubeId) := [(s.tube t).cal1.valid, (s.tube t).cal2.valid, (s.tube t).cal3.valid]
     let sets := s.cal0.valid :: (valid .t0 ++ valid .t1 ++ valid .t2 ++ valid .t3)
     flagsAt body 11 (sets.take 8) ∧ flagsAt body 10 (sets.drop 8)) ∧
    flagsAt body 12 [(s.tube .t0).recordValid, (s.tube .t1).recordValid, (s.tube .t2).recordValid, (s.tube .t3).recordValid]

/-! ### A boundary at which nothing expires -/

/-- A counter that a boundary does not expire (R134): it is paused or stands above 1, or has a reload. -/
def counterLasts (isPaused : Prop) (c : Option DwellCounter) : Prop :=
  ∀ k, c = some k → isPaused ∨ 1 < k.count ∨ 0 < k.reloads

/-- What a boundary that does not expire it makes of a counter (R134, R139). -/
def counterTaken (isPaused : Prop) (before after : Option DwellCounter) : Prop :=
  (before = none → after = none) ∧
    ∀ k, before = some k → ∃ m, after = some m ∧ m.fresh = false ∧
      (isPaused → m.count = k.count ∧ m.reloads = k.reloads ∧ m.paused = true) ∧
      (¬isPaused → m.paused = false ∧ (1 < k.count → m.count = k.count - 1 ∧ m.reloads = k.reloads) ∧
        (k.count ≤ 1 → m.count = 4096 ∧ m.reloads + 1 = k.reloads))

/-- A step counter is paused: its tube is SUSPENDED, or holds a SOAK under holdback (R135). -/
def Tube.stepCounterPaused (u : Tube) : Prop :=
  u.state = .suspended ∨ (u.holdback.asserted = true ∧ u.currentKind = some .soak)

/-- A line reads low: twice its measured flow is less than its command (R110). -/
abbrev Line.readsLow (l : Line) : Prop := 0 < l.commanded ∧ 2 * l.measured < l.commanded

/-- The purge credit of a tube after a boundary (R107). -/
def Tube.creditAfter (u : Tube) : Nat :=
  if 0 < u.lines.purge.commanded then
    min (u.credit + (u.remainder + min u.lines.purge.measured u.lines.purge.commanded) / 60) 65535
  else u.credit

/-- The owed flag of a tube after a boundary (R108). -/
def Tube.owedAfter (u : Tube) : Bool := u.owed && !(u.recordValid && decide (u.record.purgeVolume ≤ u.creditAfter))

/-- A boundary finds nothing of a tube at its end: no counter expires, no automatic purge is over, no low count of PURGE or DOPANT comes
to 10, and no stall count to 0. -/
def Tube.secondUneventful (u : Tube) : Prop :=
  counterLasts u.stepCounterPaused u.stepCounter ∧ counterLasts False u.loader.recoveryCounter ∧
    counterLasts (u.state = .suspended) u.holdback.counter ∧
    (u.state = .purging → ∀ c, u.current = some c → c.auto = .running → u.owedAfter = true) ∧
    (∀ l, l = .purge ∨ l = .dopant → (u.lines.get l).readsLow → (u.lines.get l).lowCount ≠ 9) ∧
    (u.loader.state ≠ .stopped → ∀ n, u.loader.stallCount = some n → 1 < n)

/-- What a boundary at which nothing ends makes of a line (R110, R111). -/
def lineTaken (l m : Line) : Prop :=
  m.commanded = l.commanded ∧ m.measured = l.measured ∧
    (l.commanded = 0 → m = l) ∧
    (l.readsLow → m.lowCount = min (l.lowCount + 1) 10 ∧ m.flowLow = (l.flowLow || decide (9 ≤ l.lowCount))) ∧
    (0 < l.commanded → ¬l.readsLow → m.lowCount = 0 ∧ m.flowLow = false)

/-- What a boundary at which nothing ends makes of a tube: its three counters (R134), the step holdback seconds (R43), the purge credit and
remainder (R107), the owed flag (R108), its lines (R110) and its stall count (R128), and nothing else. -/
def secondTaken (u v : Tube) : Prop :=
  counterTaken u.stepCounterPaused u.stepCounter v.stepCounter ∧
    counterTaken False u.loader.recoveryCounter v.loader.recoveryCounter ∧
    counterTaken (u.state = .suspended) u.holdback.counter v.holdback.counter ∧
    v.holdback.seconds = (if u.holdback.asserted = true ∧ u.state ≠ .suspended then min (u.holdback.seconds + 1) 65535
      else u.holdback.seconds) ∧
    v.credit = u.creditAfter ∧
    v.remainder = (if 0 < u.lines.purge.commanded then
      (u.remainder + min u.lines.purge.measured u.lines.purge.commanded) % 60 else u.remainder) ∧
    v.owed = u.owedAfter ∧ (∀ l, lineTaken (u.lines.get l) (v.lines.get l)) ∧
    v.loader.stallCount = (if u.loader.state = .stopped then u.loader.stallCount else u.loader.stallCount.map (· - 1)) ∧
    v = { u with
      stepCounter := v.stepCounter
      holdback := { u.holdback with counter := v.holdback.counter, seconds := v.holdback.seconds }
      credit := v.credit
      remainder := v.remainder
      owed := v.owed
      lines := v.lines
      loader :=
        { u.loader with
          recoveryCounter := v.loader.recoveryCounter, stallCount := v.loader.stallCount, stallFresh := false } }

/-- What a boundary that does not change it makes of a filter (R162). -/
def filterTaken (f g : Filter) (input : Bool) : Prop :=
  g.asserted = f.asserted ∧ g.count = if f.asserted = input then 0 else f.count + 1

/-! ### Holdback -/

/-- The lag of a zone whose open flag is clear (R39). -/
def lagOf (zone : Zone) : Nat :=
  match zone.ramp.map ZoneRamp.direction with
  | some .up => zone.reportedSetpoint - zone.pv
  | some .down => zone.pv - zone.reportedSetpoint
  | _ => (zone.pv - zone.reportedSetpoint) + (zone.reportedSetpoint - zone.pv)

/-- A zone counts as hot for the over-temperature test (R48): it is not open and reads above its setpoint and the band. -/
abbrev Zone.aboveBand (zone : Zone) (band : Nat) : Prop := zone.isOpen = false ∧ zone.reportedSetpoint + band < zone.pv

/-- A queue head can become current (R9). -/
abbrev Tube.mayStart (u : Tube) : Prop := u.state = .idle ∧ u.halted = false ∧ u.queue ≠ []

/-- The scrubber claim of each tube that is not SUSPENDED has ended between two states, its GAS-SET FAILED with EXHAUST, and every other
stands (R101, stage 3). -/
def scrubberClaimsFailed (before after : State) : Prop :=
  (∀ d, d ∈ after.gas.scrubber ↔ d ∈ before.gas.scrubber ∧ (before.tube d.tube).state = .suspended) ∧
    (∀ t, (before.tube t).lines = (after.tube t).lines ∧
      ((∃ d ∈ before.gas.scrubber, d.tube = t) → (before.tube t).state ≠ .suspended → ∀ c, (before.tube t).current = some c →
        stepEnded t c (.failed .exhaust) before after ∧ shareLowered t before after ∧ (after.tube t).state = .idle ∧
          (after.tube t).halted = true ∧ ∀ l, before.hears l t = true → after.flag l t .halted = true) ∧
      ((∀ d ∈ before.gas.scrubber, d.tube ≠ t) ∨ (before.tube t).state = .suspended → after.tube t = before.tube t)) ∧
    after.fixed = before.fixed ∧ after.gas.header = before.gas.header ∧ after.arbiter.claims = before.arbiter.claims

/-- Nothing is left to be taken within an event: no evaluation or shed pass is due, and no queue head can become current. -/
abbrev State.quiet (s : State) : Prop := isSettled s = true

end Sys2Proof.Machine
end

