-- ==== Sys2Proof/Certificates/Slice0/Obligations.lean ====
section
/-! DEFINITION. The statements for the provers. Each says in its docstring which rule of the spec it rests on; what is the model's own
choice names its log entry. -/

open Sys2Proof Sys2Proof.Machine

/-! ### The queue of commands and the receivers -/

/-- Tier 1. A step takes the command at the front of the queue and runs it with the queue's rest; with no command waiting the
part idles, which is the choice of log entry 20. -/
def Obligations.StepTakesFront : Prop :=
  (∀ (s : State) (c : Instr), step { s with pending := c :: s.pending } = exec c s) ∧
    ∀ s : State, s.pending = [] → step s = .next s

/-- Tier 2. No command ever stops the part: each answers a next state. What the statement rests on is the model's choice in
four points: the queue of commands, which every command leaves as it was, power-on too, is the model's own (log entries 29 and
32); a row whose event has not occurred answers the state as it is (log entry 5); and so does an operand that no frame can
carry (log entry 6). The rules bear on it in this, that every well-formed request is answered (R171) and that every other event
is one the part takes in whatever state it finds. -/
def Obligations.EveryCommandAnswers : Prop :=
  ∀ (c : Instr) (s : State), ∃ t, exec c s = .next t ∧ t.pending = s.pending

/-- Tier 2. The receiver's own events (R169, R170, R172): bytes that arrive while a link's answer is being sent are lost
together with the request they belong to, a start byte and the bytes that follow it are collected, a length byte above 240, a
gap and a wrong CRC bring the receiver back to HUNT, the end of an answer frees it, and an unknown kind is answered
UNKNOWN-KIND. -/
def Obligations.ReceiverEvents : Prop :=
  (∀ (c : Instr) (s : State) (l : LinkId), bytesOn c = some l → (s.link l).rx = .answer → exec c s = .next s) ∧
  (∀ (s : State) (l : LinkId) (more : List Byte), (s.link l).rx = .hunt → isPartialFrame (startByte :: more) = true →
    exec (.frameStart l more) s =
      .next ((openEvent s).onLink l fun k => { k with rx := .collect, buffer := startByte :: more })) ∧
  (∀ (s : State) (l : LinkId) (more : List Byte), (s.link l).rx = .collect →
    isPartialFrame ((s.link l).buffer ++ startByte :: more) = true →
    exec (.frameStart l more) s =
      .next ((openEvent s).onLink l fun k => { k with buffer := k.buffer ++ startByte :: more })) ∧
  (∀ (s : State) (l : LinkId) (n : Byte), (s.link l).rx = .collect → (s.link l).buffer = [startByte] → 240 < n.toNat →
    exec (.frameLengthReject l n) s = .next ((openEvent s).onLink l fun k => { k with rx := .hunt, buffer := [] })) ∧
  (∀ (s : State) (l : LinkId), (s.link l).rx = .collect →
    exec (.collectGapTimeout l) s = .next ((openEvent s).onLink l fun k => { k with rx := .hunt, buffer := [] })) ∧
  (∀ (s : State) (l : LinkId) (bytes : List Byte), completesFrame bytes = true → crcMatches bytes = false →
    takesFrame (s.link l) (startByte :: bytes) = true →
    exec (.crcMismatch l bytes) s = .next ((openEvent s).onLink l fun k => { k with rx := .hunt, buffer := [] })) ∧
  (∀ (s : State) (l : LinkId), (s.link l).rx = .answer →
    exec (.answerSent l) s = .next ((openEvent s).onLink l fun k => { k with rx := .hunt, buffer := [], answer := none })) ∧
  (∀ (s : State) (l : LinkId) (kind tag : Byte) (body : List Byte), kind ∉ requestKinds → Framed s l kind tag body →
    exec (.unknownKind l kind tag body) s = .next ((openEvent s).answered l kind tag .unknownKind []))

/-- Tier 2. The frames of the requests and their CRC (R169, R170). A frame is the start byte 0xC3, the length, kind, tag and
body, and the CRC of these, most significant byte first; that of every request whose body fits completes, with a CRC that
matches, at its last byte and at none before it. The CRC is that of the generator x^16 + x^12 + x^5 + 1: its register starts at
0xFFFF, takes each byte most significant bit first, and is not inverted; and two bytes after others match exactly where they
are its register. -/
def Obligations.FramesComplete : Prop :=
  (∀ (kind tag : Byte) (body : List Byte), body.length ≤ 240 →
    completesFrame (requestFrame kind tag body).tail = true ∧ crcMatches (requestFrame kind tag body).tail = true ∧
      (∀ n, 0 < n → n < (requestFrame kind tag body).length →
        isPartialFrame ((requestFrame kind tag body).take n) = true) ∧
      ∃ high low : Byte, requestFrame kind tag body =
          0xC3#8 :: BitVec.ofNat 8 body.length :: kind :: tag :: (body ++ [high, low]) ∧
        256 * high.toNat + low.toNat = (crc (BitVec.ofNat 8 body.length :: kind :: tag :: body)).toNat) ∧
  (∀ (bytes : List Byte) (high low : Byte),
    crcMatches (bytes ++ [high, low]) = true ↔ 256 * high.toNat + low.toNat = (crc bytes).toNat) ∧
  crc [] = 0xFFFF#16 ∧
  ∀ (bytes : List Byte) (b : Byte),
    let taken (register : BitVec 16) (bit : Bool) :=
      if (register.msb ^^ bit) = true then (register <<< 1) ^^^ 0x1021#16 else register <<< 1
    crc (bytes ++ [b]) =
      [b.getLsbD 7, b.getLsbD 6, b.getLsbD 5, b.getLsbD 4, b.getLsbD 3, b.getLsbD 2, b.getLsbD 1, b.getLsbD 0].foldl taken
        (crc bytes)

/-- Tier 2. Checks 2 to 4 of R172, of every request, in their order: a body whose form is wrong is answered FORMAT; of a right
form, a tube number above 3 RANGE; and of a right form and tube, a QUEUE, CONTROL or OBSERVE request from a link whose entry
for the tube lacks the right DENIED, and a SUPERVISE request from a link other than C DENIED. None changes anything but the
link that answers. That nonzero bytes of an optional field that an APPEND-STEP's flags give as absent are answered FORMAT is
log entry 13, that a WRITE-CAL of a set number above 3 names no tube is log entry 15, and that its body is 26 bytes long is log
entry 38. -/
def Obligations.DeniedWithoutRight : Prop :=
  ∀ (c : Instr) (r : Request) (s : State), request c = some r → Framed s r.link r.kind r.tag r.body →
    let answers (code : AnswerCode) := exec c s = .next ((openEvent s).answered r.link r.kind r.tag code [])
    (formPasses r.kind r.body = false → answers .format) ∧
    (formPasses r.kind r.body = true →
      (∀ b, tubeNamed r.kind r.body = some b → 3 < b.toNat → answers .range) ∧
      (∀ (t : TubeId) (right : Rights → Bool), tubeNamed r.kind r.body = some (tubeByte t) →
        rightOfKind r.kind = some right → right (s.rightsOn r.link t) = false → answers .denied) ∧
      ((∀ b, tubeNamed r.kind r.body = some b → b.toNat ≤ 3) → r.kind.toNat / 16 = 5 → r.link ≠ .c → answers .denied))

/-! ### Step records -/

/-- Tier 2. Every step record within the ranges of R1 and of the tube record in force comes back from the bytes that R175 lays
it out in, as those bytes give it: with its notes empty. -/
def Obligations.StepRecordsRoundTrip : Prop :=
  ∀ (t : TubeId) (r : StepRecord) (v : TubeRecord), v.limit ≤ 3000 → v.coldSpeed ≤ 6000 → r.id ≤ 65535 → r.level ≤ 7 →
    r.body.sendable v →
    ∃ raw, parseStep (encStep t r) = some raw ∧ raw.tube = tubeByte t ∧ rangedStep v raw = some { r with notes := {} }

/-! ### What every step keeps -/

/-- Tier 3. Every step keeps within their ranges these figures: the targets of ramps and the lines of GAS-SETs (R1), the
lengths of queues and rings and the overwrite count (R4, R26), of each zone S, F, PV, the missed and the excess count (R30,
R33, R44, R48), of each line the measured flow and the low count (R95, R110), the step holdback seconds (R43), credit and
remainder (R107), the position (R117), the length of the raise history (R81), the filters' counts (R162), and Ec at most E
(R73). The ranges of the other settings are checked where they are written (LimitsReplaced, RecordsWritten, MaskAndPromote). -/
def Obligations.RangesKept : Prop := ∀ s t : State, s.inRange → step s = .next t → t.inRange

/-- Tier 3. Every step keeps every ceiling at most its zone's admitted power and rating, and every ceiling sent at most the one
last composed (R65, R67); and from a state whose parts fit together it keeps every ceiling, and the term that decided it, as
R65 and R68 compose them from the grant, the rating, the open flag, the hold share, the cause set and the tube's state as they
stand: whatever the step did to these, by a grant (R83), a step end (R18), a surcharge release, a zone that opens or closes
(R46) or any other event of R66, the ceilings have been composed again after it. -/
def Obligations.CeilingsKept : Prop :=
  ∀ s t : State, s.inRange → step s = .next t →
    (s.ceilingsHold → t.ceilingsHold) ∧ (s.coherent → s.ceilingsComposed → t.ceilingsComposed)

/-- Tier 3. Every step keeps the sum of the grant totals within the limit in force unless the SHEDDING flag is set or a shed
pass is due (R72), with every SURCHARGE claim asking for the sum of its parts (R63). -/
def Obligations.EnvelopeKept : Prop :=
  ∀ s t : State, s.inRange → s.surchargesAddUp → s.withinEnvelope → step s = .next t →
    t.surchargesAddUp ∧ t.withinEnvelope

/-- Tier 3. Every step keeps the header allocation within the header capacity (R103) and the number of tubes with DOPANT open
within the scrubber slot count (R100). -/
def Obligations.GasPoolsKept : Prop :=
  ∀ s t : State, s.inRange → step s = .next t →
    (s.withinHeader → t.withinHeader) ∧ (s.withinScrubber → t.withinScrubber)

/-- Tier 3. Every step keeps the sealed condition as the position and the record make it (R118), and DOPANT open only at the
seal and under asserted EXHAUST-OK (R102); and from a state whose parts fit together it keeps DOPANT open only in RUN, and
every tube OFF outside RUN and no other time (R102, R8). -/
def Obligations.DopantSealKept : Prop :=
  ∀ s t : State, s.inRange → step s = .next t →
    (s.dopantSealed → t.dopantSealed) ∧
    (s.coherent → ∀ j, ((t.tube j).lines.dopant.isOpen = true → t.mode = .run) ∧ ((t.tube j).state = .off ↔ t.mode ≠ .run))

/-- Tier 3. Every step keeps the Claim List in order of level, then created stamp, then joining order (R76; that stamps are
compared as numbers is log entry 17). -/
def Obligations.ClaimOrderKept : Prop :=
  ∀ s t : State, s.inRange → s.claimsOrdered → step s = .next t → t.claimsOrdered

/-- Tier 3. Every step keeps tubes, lists and stack mode fitting together: each tube's current step, counter, loader, holdback,
ramp state and causes as its state has them (R7), no id twice among a tube's queue and current step (R4), in each of the three
lists the one claim that a tube's state says it has there and no other of that tube (R76, R100, R104), and outside RUN every
tube OFF with its queue empty and DOPANT closed (R8, R102). -/
def Obligations.CoherenceKept : Prop := ∀ s t : State, s.inRange → s.coherent → step s = .next t → t.coherent

/-- Tier 3. Every step from a state whose parts fit together and that waits for nothing leaves a state that waits for nothing:
every start, evaluation and shed pass that an event makes due is taken within that event (R9, R78, R87, R100, R105; the bound
of log entry 8 is never reached). -/
def Obligations.QuietKept : Prop := ∀ s t : State, s.inRange → s.coherent → s.quiet → step s = .next t → t.quiet

/-- Tier 1. The state after reset has every property the statements of this section keep. -/
def Obligations.ResetSafe : Prop :=
  State.reset.safe ∧ State.reset.coherent ∧ State.reset.quiet ∧ State.reset.ceilingsComposed

/-! ### Power-on, the stack modes and what only the configuring commands write -/

/-- Tier 1. Power-on is taken in every state (R155), and leaves the values that the tables of R29, R50, R53, R69, R94, R114,
R131, R140, R153, R155, R168, R179 and R186 give, with E-STOP released and with E-STOP asserted. -/
def Obligations.PowerOnValues : Prop :=
  ∀ (s : State) (stop : Bool), ∃ q : State, exec (.powerOn stop) s = .next q ∧
    q.mode = (if stop then .stopped else .commission) ∧ q.eStop = stop ∧ q.seconds = 0 ∧
    q.curtail = ⟨false, 0⟩ ∧ q.exhaust = ⟨false, 0⟩ ∧
    q.limits = ⟨0, 0, 0, 5, 60, 2, 0, 1⟩ ∧ q.arbiter.claims = [] ∧ q.arbiter.history = [] ∧ q.arbiter.pacing = none ∧
    q.arbiter.shedding = false ∧ q.gas.header = [] ∧ q.gas.scrubber = [] ∧ headerAllocation q = 0 ∧ slotsInUse q = 0 ∧
    (∀ j k, q.rightsOn (.tube k) j = if j = k then ⟨true, true, true, 2⟩ else ⟨false, false, true, 7⟩) ∧
    (∀ j, q.rightsOn .c j = ⟨false, true, true, 0⟩) ∧
    (∀ l, (q.link l).rx = .hunt ∧ (q.link l).buffer = [] ∧ (∀ t k, q.flag l t k = false) ∧ (q.link l).modeFlag = stop ∧
      (q.link l).curtailFlag = false ∧ (q.link l).enables = ⟨false, false, false, false, false, false, false⟩ ∧
      (q.link l).attentionLine = false) ∧
    ∀ t,
      let u := q.tube t
      u.state = .off ∧ u.remembered = none ∧ u.shedPaused = false ∧ u.queue = [] ∧ u.current = none ∧ u.halted = false ∧
      u.pointer = 0 ∧ u.ring = [] ∧ u.overwrites = 0 ∧ u.recordValid = false ∧
      u.record = ⟨⟨0, 0, 0, 0, 0⟩, 0, 0, 0, 0, 0, 0, 0, 0, 0, 0, 0, 0, 0, 0⟩ ∧
      (∀ n, calSetOf q t n = ⟨⟨0, 0, 0, 0, 0⟩, ⟨0, 0, 0, 0, 0⟩, 0, 0, false⟩) ∧
      u.grant = ⟨⟨0, 0, 0, 0, 0⟩, ⟨0, 0, 0, 0, 0⟩, none⟩ ∧ u.stepTotal = 0 ∧ u.surchargeTotal = 0 ∧ u.grantTotal = 0 ∧
      u.owed = true ∧ u.credit = 0 ∧ u.remainder = 0 ∧
      u.loader.state = .stopped ∧ u.loader.position = none ∧ u.loader.target = none ∧ u.loader.segmentEnd = none ∧
      u.loader.speed = none ∧ u.loader.travel = none ∧ u.loader.isSealed = false ∧ u.loader.recovery = .none ∧
      u.loader.recoveryCounter = none ∧ u.loader.keptRecovery = 0 ∧ u.loader.hotSpeed = none ∧ u.loader.stallCount = none ∧
      u.stepCounter = none ∧ u.holdback = ⟨false, none, 0, 0⟩ ∧ admissionCounter q t = none ∧
      u.service = ⟨.none, none, false, false⟩ ∧
      u.fault.causes = ⟨false, false, false, false, false, false⟩ ∧ u.fault.overTemp = false ∧
      u.fault.exhaustLost = false ∧ u.fault.entry = none ∧
      (∀ z, (u.zones.get z).s = 0 ∧ (u.zones.get z).f = 0 ∧ (u.zones.get z).ramp = none ∧ (u.zones.get z).pv = 0 ∧
        (u.zones.get z).isOpen = true ∧ (u.zones.get z).missed = 0 ∧ (u.zones.get z).excess = 0 ∧
        (u.zones.get z).ceiling = 0) ∧
      ∀ l, u.lines.get l = ⟨0, 0, false, 0⟩

/-- Tier 2. What only certain commands change. The stack mode: power-on, OPEN-STACK, CLOSE-STACK, STACK-RESET, CLEAR-STOP and
the assertion of E-STOP alone, and every such change but a power-on leaves MODE pending on every link (R154, R182). Power-on
apart, the limits and M: SET-LIMITS, SET-MASK and STACK-RESET alone; the rights WRITE-RIGHTS, the tube records WRITE-TUBE, the
calibration sets WRITE-CAL and the stack seconds counter a seconds boundary (R73, R74, R161, R180, R28, R54, R132). -/
def Obligations.WrittenOnlyBy : Prop :=
  ∀ (c : Instr) (s t : State), exec c s = .next t →
    (t.mode ≠ s.mode → (∃ e, c = .powerOn e) ∨
      (((∃ l g b, c = .openStack l g b) ∨ (∃ l g b, c = .closeStack l g b) ∨ (∃ l g b, c = .stackReset l g b) ∨
          (∃ l g b, c = .clearStop l g b) ∨ c = .eStopAssert) ∧
        ∀ l, (t.link l).modeFlag = true)) ∧
    ((∀ e, c ≠ .powerOn e) →
      (t.limits = s.limits ∨ (∃ l g b, c = .setLimits l g b) ∨ (∃ l g b, c = .setMask l g b) ∨
        ∃ l g b, c = .stackReset l g b) ∧
      (t.rights = s.rights ∨ ∃ l g b, c = .writeRights l g b) ∧
      ((∀ j, (t.tube j).record = (s.tube j).record ∧ (t.tube j).recordValid = (s.tube j).recordValid) ∨
        ∃ l g b, c = .writeTube l g b) ∧
      ((∀ j n, calSetOf t j n = calSetOf s j n) ∨ ∃ l g b, c = .writeCal l g b) ∧
      (t.seconds = s.seconds ∨ ∃ u e o d, c = .secondsBoundary u e o d))

/-- Tier 2. OPEN-STACK from link C (R154, R156): MODE outside COMMISSION; STATE while set 0, a tube record, E or Q is wanting;
and otherwise the stack is in RUN with MODE pending on every link, every tube with fewer than two zones open IDLE, not halted
and with its pointer 0, and every other in FAULT-HOLD with TC-OPEN in its set, halted and with FAULT raised (R143). Everything
else of the tubes that neither names, the settings, filters, limits, rights, calibration sets and raise history, and every
other flag are kept (R29, R50, R94, R114, R131, R186). The last holds of a stack that waits for nothing. -/
def Obligations.OpenStackOpens : Prop :=
  ∀ (s : State) (tag : Byte), Framed s .c 0x57 tag [] →
    (s.mode ≠ .commission → exec (.openStack .c tag []) s = .next ((openEvent s).answered .c 0x57 tag .mode [])) ∧
    (s.mode = .commission →
      (s.cal0.valid = false ∨ (∃ t, (s.tube t).recordValid = false) ∨ s.arbiter.limitE = 0 ∨ s.gas.capacity = 0) →
      exec (.openStack .c tag []) s = .next ((openEvent s).answered .c 0x57 tag .state [])) ∧
    (s.mode = .commission → s.cal0.valid = true → (∀ t, (s.tube t).recordValid = true) → 0 < s.arbiter.limitE →
      0 < s.gas.capacity → s.due = Due.none → s.arbiter.claims = [] → s.gas.header = [] → s.gas.scrubber = [] →
      (∀ t, (s.tube t).queue = [] ∧ (s.tube t).current = none ∧ (s.tube t).fault.causes.isEmpty = true) →
      ∃ q : State, exec (.openStack .c tag []) s = .next (q.answered .c 0x57 tag .ok []) ∧ q.mode = .run ∧
        q.fixed = { s.fixed with mode := .run } ∧ q.curtail = s.curtail ∧ q.exhaust = s.exhaust ∧
        q.arbiter.history = s.arbiter.history ∧ q.arbiter.claims = [] ∧ q.gas = s.gas ∧
        (∀ l, (q.link l).modeFlag = true ∧ (q.link l).curtailFlag = (s.link l).curtailFlag) ∧
        (∀ l t k, q.flag l t k = (s.flag l t k || (k == .fault && s.hears l t && decide (2 ≤ (s.tube t).openCount)))) ∧
        ∀ t,
          let u := s.tube t
          let v := q.tube t
          (∀ z, (v.zones.get z).s = (u.zones.get z).s ∧ (v.zones.get z).f = (u.zones.get z).f ∧
            (v.zones.get z).ramp = (u.zones.get z).ramp ∧ (v.zones.get z).pv = (u.zones.get z).pv ∧
            (v.zones.get z).isOpen = (u.zones.get z).isOpen ∧ (v.zones.get z).missed = (u.zones.get z).missed ∧
            (v.zones.get z).excess = (u.zones.get z).excess) ∧
          (u.openCount < 2 → v = { u with
            state := .idle
            halted := false
            pointer := 0
            fault := { u.fault with tcOpen := false }
            zones := v.zones }) ∧
          (2 ≤ u.openCount → shareLowered t { s with tubes := s.tubes.set t { u with pointer := 0 } } q ∧
            v.lines.purge.commanded = 0 ∧ v.lines.dopant.commanded = 0 ∧ v.lines.carrier = u.lines.carrier ∧
            v.lines.oxy = u.lines.oxy ∧ v.owed = (u.owed || u.lines.dopant.isOpen) ∧
            v = { u with
              state := .faultHold
              remembered := none
              shedPaused := false
              halted := true
              pointer := 0
              fault := { u.fault with causes := { tcOpen := true }, tcOpen := true, entry := some s.seconds }
              grant := { u.grant with step := v.grant.step }
              lines := v.lines
              owed := v.owed
              credit := if u.lines.dopant.isOpen then 0 else u.credit
              remainder := if u.lines.dopant.isOpen then 0 else u.remainder
              zones := v.zones }))

/-- Tier 2. CLOSE-STACK from link C (R154, R157): MODE outside RUN, STATE while a tube is not IDLE with an empty queue or has
DOPANT open, PENDING while a flag is pending on any link, in this order; and otherwise every tube is OFF with its grant,
setpoints and ceilings at 0, the stack is in COMMISSION with MODE pending on every link, and lines, rings and M are kept. That
the setpoints of 0 are sent within the event, as the ceilings are, is log entry 18. -/
def Obligations.CloseStackCloses : Prop :=
  ∀ (s : State) (tag : Byte), Framed s .c 0x58 tag [] →
    (s.mode ≠ .run → exec (.closeStack .c tag []) s = .next ((openEvent s).answered .c 0x58 tag .mode [])) ∧
    (s.mode = .run → (∃ t, (s.tube t).state ≠ .idle ∨ (s.tube t).queue ≠ [] ∨ (s.tube t).lines.dopant.isOpen = true) →
      exec (.closeStack .c tag []) s = .next ((openEvent s).answered .c 0x58 tag .state [])) ∧
    (s.mode = .run → (∀ t, (s.tube t).state = .idle ∧ (s.tube t).queue = [] ∧ (s.tube t).lines.dopant.isOpen = false) →
      (∃ l, (s.link l).pendingAny = true) →
      exec (.closeStack .c tag []) s = .next ((openEvent s).answered .c 0x58 tag .pending [])) ∧
    (s.mode = .run → (∀ t, (s.tube t).state = .idle ∧ (s.tube t).queue = [] ∧ (s.tube t).lines.dopant.isOpen = false) →
      (∀ l, (s.link l).pendingAny = false) →
      ∃ q : State, exec (.closeStack .c tag []) s = .next (q.answered .c 0x58 tag .ok []) ∧ q.mode = .commission ∧
        (∀ l, (q.link l).modeFlag = true) ∧ q.limits = s.limits ∧ q.arbiter.history = s.arbiter.history ∧
        ∀ t, (q.tube t).state = .off ∧ (q.tube t).grant.step = .zero ∧ (q.tube t).grant.surcharge = .zero ∧
          (q.tube t).loader.recovery = .none ∧ (q.tube t).loader.recoveryCounter = none ∧
          (∀ z, ((q.tube t).zones.get z).s = 0 ∧ ((q.tube t).zones.get z).ceiling = 0 ∧
            ((q.tube t).zones.get z).sentSetpoint = 0 ∧ ((q.tube t).zones.get z).sentCeiling = 0) ∧
          (q.tube t).lines = (s.tube t).lines ∧ (q.tube t).ring = (s.tube t).ring ∧
          (q.tube t).halted = (s.tube t).halted ∧ (q.tube t).pointer = (s.tube t).pointer ∧
          (q.tube t).owed = (s.tube t).owed)

/-- Tier 2. The two stops and their end. STACK-RESET from link C in every mode (R158, R161): the stop clean-up, every flag and
enable cleared, M set to 0, COMMISSION or with E-STOP asserted STOPPED, and MODE pending alone on every link with no attention
line asserted. An assertion of E-STOP takes the stop clean-up and stops the stack with MODE pending on every link, unless the
stack is stopped already, and keeps the limits, the enables and the other flags (R158, R159); its release changes the input
alone, in every state. CLEAR-STOP from link C is answered MODE outside STOPPED (R154), STATE while E-STOP is asserted, and OK
otherwise, the mode becoming COMMISSION with MODE pending on every link and nothing else changed; a fresh assertion after it
brings the stack back to STOPPED with MODE pending (R160). Of the records, the admission wait of a step SUSPENDED from
ADMITTING is log entry 41, and the notes of an automatic purge's are log entry 16. -/
def Obligations.StackStopsAndClears : Prop :=
  (∀ (s : State) (tag : Byte), Framed s .c 0x59 tag [] →
    ∃ q : State, exec (.stackReset .c tag []) s = .next (q.answered .c 0x59 tag .ok []) ∧ stackStopped s q ∧
      q.mode = (if s.eStop then .stopped else .commission) ∧ q.limits = { s.limits with mask := 0 } ∧
      ∀ l, (q.link l).flags = noFlags ∧ (q.link l).modeFlag = true ∧ (q.link l).curtailFlag = false ∧
        (q.link l).enables = {} ∧ (q.link l).attentionLine = false) ∧
  (∀ s : State, s.mode = .stopped → exec .eStopAssert s = .next { openEvent s with eStop := true }) ∧
  (∀ s : State, s.mode ≠ .stopped →
    ∃ q : State, exec .eStopAssert s = .next q ∧ stackStopped s q ∧ q.mode = .stopped ∧ q.eStop = true ∧ q.limits = s.limits ∧
      ∀ l, (q.link l).modeFlag = true ∧ (q.link l).flags = (s.link l).flags ∧
        (q.link l).curtailFlag = (s.link l).curtailFlag ∧ (q.link l).enables = (s.link l).enables) ∧
  (∀ s : State, exec .eStopRelease s = .next { openEvent s with eStop := false }) ∧
  ∀ (s : State) (tag : Byte), Framed s .c 0x5A tag [] →
    (s.mode ≠ .stopped → exec (.clearStop .c tag []) s = .next ((openEvent s).answered .c 0x5A tag .mode [])) ∧
    (s.mode = .stopped → s.eStop = true →
      exec (.clearStop .c tag []) s = .next ((openEvent s).answered .c 0x5A tag .state [])) ∧
    (s.mode = .stopped → s.eStop = false →
      ∃ q : State, exec (.clearStop .c tag []) s = .next q ∧
        q = (raiseMode { openEvent s with mode := .commission }).answered .c 0x5A tag .ok [] ∧
        q.mode = .commission ∧ (∀ l, (q.link l).modeFlag = true) ∧
        ∃ p : State, exec .eStopAssert q = .next p ∧ p.mode = .stopped ∧ ∀ l, (p.link l).modeFlag = true)

/-! ### The requests of the tube sequencer -/

/-- Tier 2. What a tube's state refuses (R19): a QUEUE or CONTROL request about a tube that is OFF is answered MODE, and about
a tube in SERVICE it is answered SERVICE, where its form is right and the right held; a service request from link C outside RUN
is answered MODE (R154), and in RUN LEAVE-SERVICE, SERVICE-JOG, SERVICE-VALVE and SERVICE-SETPOINT about a tube that is not in
SERVICE are answered STATE (R164 to R167); RESUME-QUEUE and SUSPEND-TUBE in FAULT-HOLD, RESUME-TUBE outside SUSPENDED,
CLEAR-FAULT outside FAULT-HOLD, and ENTER-SERVICE and WRITE-TUBE where they are not taken are answered STATE; and nothing else
changes. -/
def Obligations.RefusedByTubeState : Prop :=
  (∀ (c : Instr) (r : Request) (s : State) (t : TubeId) (right : Rights → Bool),
    request c = some r → rightOfKind r.kind = some right → r.kind.toNat / 16 ≠ 3 → formPasses r.kind r.body = true →
    tubeNamed r.kind r.body = some (tubeByte t) → Framed s r.link r.kind r.tag r.body →
    right (s.rightsOn r.link t) = true →
      ((s.tube t).state = .off → exec c s = .next ((openEvent s).answered r.link r.kind r.tag .mode [])) ∧
      ((s.tube t).state = .service → exec c s = .next ((openEvent s).answered r.link r.kind r.tag .service []))) ∧
  (∀ (c : Instr) (r : Request) (s : State) (t : TubeId), request c = some r → r.link = .c → 0x5B ≤ r.kind.toNat →
    formPasses r.kind r.body = true → tubeNamed r.kind r.body = some (tubeByte t) → Framed s .c r.kind r.tag r.body →
      (s.mode ≠ .run → exec c s = .next ((openEvent s).answered .c r.kind r.tag .mode [])) ∧
      (s.mode = .run → 0x5C ≤ r.kind.toNat → (s.tube t).state ≠ .service →
        exec c s = .next ((openEvent s).answered .c r.kind r.tag .state []))) ∧
  ∀ (s : State) (l : LinkId) (t : TubeId) (tag : Byte) (fields : List Byte) (r : TubeRecord),
    (Framed s l 0x14 tag [tubeByte t] → (s.rightsOn l t).queue = true → (s.tube t).state = .faultHold →
      exec (.resumeQueue l tag [tubeByte t]) s = .next ((openEvent s).answered l 0x14 tag .state [])) ∧
    (Framed s l 0x22 tag [tubeByte t] → (s.rightsOn l t).control = true → (s.tube t).state = .faultHold →
      exec (.suspendTube l tag [tubeByte t]) s = .next ((openEvent s).answered l 0x22 tag .state [])) ∧
    (Framed s l 0x23 tag [tubeByte t] → (s.rightsOn l t).control = true → (s.tube t).takesSteps →
      (s.tube t).state ≠ .suspended →
      exec (.resumeTube l tag [tubeByte t]) s = .next ((openEvent s).answered l 0x23 tag .state [])) ∧
    (Framed s l 0x25 tag [tubeByte t] → (s.rightsOn l t).control = true → (s.tube t).takesSteps →
      (s.tube t).state ≠ .faultHold →
      exec (.clearFault l tag [tubeByte t]) s = .next ((openEvent s).answered l 0x25 tag .state [])) ∧
    (Framed s .c 0x5B tag [tubeByte t] → s.mode = .run → (s.tube t).state ≠ .idle → (s.tube t).state ≠ .faultHold →
      exec (.enterService .c tag [tubeByte t]) s = .next ((openEvent s).answered .c 0x5B tag .state [])) ∧
    (Framed s .c 0x54 tag (tubeByte t :: fields) → (takeFields recordSizes fields).bind recordOf = some r →
      (s.tube t).state ≠ .idle → (s.tube t).state ≠ .service →
      ((s.tube t).state = .off → s.mode ≠ .commission) →
      exec (.writeTube .c tag (tubeByte t :: fields)) s = .next ((openEvent s).answered .c 0x54 tag .state []))

/-- Tier 1. APPEND-STEP: FORMAT of a malformed record (R2); and of a well-formed one with its right held, in a tube state that
takes it (R3, R181), RANGE of what lies outside the ranges of R1, a cal set above 3, and a position or a hot speed outside what
the tube record in force gives; then DUPLICATE and FULL in that order; and otherwise the record joins the queue at its tail
with its level raised to the floor. That a level above 7 or a zone above 4 is RANGE, and no malformed record, is log entry 14,
and that the bytes of an absent field must be 0 is log entry 13. -/
def Obligations.AppendStepAppends : Prop :=
  (∀ (s : State) (l : LinkId) (tag : Byte) (body : List Byte), Framed s l 0x11 tag body → parseStep body = none →
    exec (.appendStep l tag body) s = .next ((openEvent s).answered l 0x11 tag .format [])) ∧
  ∀ (s : State) (l : LinkId) (t : TubeId) (tag : Byte) (body : List Byte) (raw : RawStep),
    Framed s l 0x11 tag body → parseStep body = some raw → raw.tube = tubeByte t → (s.rightsOn l t).queue = true →
    (s.tube t).takesSteps →
    (¬raw.ranged (s.tube t).record →
      exec (.appendStep l tag body) s = .next ((openEvent s).answered l 0x11 tag .range [])) ∧
    (raw.ranged (s.tube t).record → ∃ r, raw.gives r) ∧
    ∀ r, raw.ranged (s.tube t).record → raw.gives r →
      ((s.tube t).knows r.id →
        exec (.appendStep l tag body) s = .next ((openEvent s).answered l 0x11 tag .duplicate [])) ∧
      (¬(s.tube t).knows r.id → 16 ≤ (s.tube t).queue.length →
        exec (.appendStep l tag body) s = .next ((openEvent s).answered l 0x11 tag .full [])) ∧
      (¬(s.tube t).knows r.id → (s.tube t).queue.length < 16 →
        exec (.appendStep l tag body) s =
          .next ((settle ((openEvent s).onTube t fun u =>
            { u with
              queue := u.queue ++
                [{ r with
                    level := max r.level (s.rightsOn l t).floor
                    notes := { r.notes with levelClamped := decide (r.level < (s.rightsOn l t).floor) } }] })).answered
            l 0x11 tag .ok [if r.level < (s.rightsOn l t).floor then 1 else 0]))

/-- Tier 1. WITHDRAW-STEP, FLUSH-QUEUE and RESUME-QUEUE with their right held, in a tube state that takes them (R5, R6, R24). -/
def Obligations.QueueRequestsTaken : Prop :=
  ∀ (s : State) (l : LinkId) (t : TubeId) (tag i1 i0 : Byte), (s.rightsOn l t).queue = true → (s.tube t).takesSteps →
    (Framed s l 0x12 tag [tubeByte t, i1, i0] →
      ((∃ c, (s.tube t).current = some c ∧ c.step.id = num2 i1 i0) →
        exec (.withdrawStep l tag [tubeByte t, i1, i0]) s = .next ((openEvent s).answered l 0x12 tag .started [])) ∧
      ((∀ c, (s.tube t).current = some c → c.step.id ≠ num2 i1 i0) → (∃ r ∈ (s.tube t).queue, r.id = num2 i1 i0) →
        exec (.withdrawStep l tag [tubeByte t, i1, i0]) s =
          .next (((openEvent s).onTube t fun u =>
            { u with queue := u.queue.filter fun r => r.id != num2 i1 i0 }).answered l 0x12 tag .ok [])) ∧
      (¬(s.tube t).knows (num2 i1 i0) →
        exec (.withdrawStep l tag [tubeByte t, i1, i0]) s = .next ((openEvent s).answered l 0x12 tag .unknownId []))) ∧
    (Framed s l 0x13 tag [tubeByte t] →
      exec (.flushQueue l tag [tubeByte t]) s =
        .next (((openEvent s).onTube t fun u => { u with queue := [] }).answered l 0x13 tag .ok
          [BitVec.ofNat 8 (s.tube t).queue.length])) ∧
    (Framed s l 0x14 tag [tubeByte t] → (s.tube t).state ≠ .faultHold →
      exec (.resumeQueue l tag [tubeByte t]) s =
        .next ((settle ((openEvent s).onTube t fun u => { u with halted := false })).answered l 0x14 tag .ok []))

/-- Tier 2. ABORT-STEP with its right held, in a tube state that takes it (R20): of the current step, the work stops by the
state the step is in or remembers, the share is lowered, the record is pushed and STEP-DONE raised unless the step is quiet,
and the tube is IDLE, or stays SUSPENDED and remembers IDLE; a surcharge in HELD is released or recovers by the position
(R125); of a queued step, NOT-CURRENT; of no step, UNKNOWN-ID. What departs, falls or closes by it makes its evaluation due
(R77, R78, R87, R100, R105), and the ceilings are composed again, those that fall sent at once (R66, R67). Everything else of
the tube stands: its other lines (of a PURGING tube PURGE alone closes) with the purge account, its pointer, readings and open
flags, and, short of a motion that is stopped, its loader. The record holds the figures of R27 and joins the ring after the
newest, a full ring losing its oldest and counting the overwrite up to 255 (R26); a PULL-OUT whose automatic purge waits or
runs leaves the two records of R17, whose notes are log entry 16; the admission wait of a step SUSPENDED from ADMITTING is log
entry 41. -/
def Obligations.AbortEndsStep : Prop :=
  ∀ (s : State) (l : LinkId) (t : TubeId) (tag i1 i0 : Byte), (s.rightsOn l t).control = true → (s.tube t).takesSteps →
    Framed s l 0x21 tag [tubeByte t, i1, i0] →
    ((∀ c, (s.tube t).current = some c → c.step.id ≠ num2 i1 i0) → (∃ r ∈ (s.tube t).queue, r.id = num2 i1 i0) →
      exec (.abortStep l tag [tubeByte t, i1, i0]) s = .next ((openEvent s).answered l 0x21 tag .notCurrent [])) ∧
    (¬(s.tube t).knows (num2 i1 i0) →
      exec (.abortStep l tag [tubeByte t, i1, i0]) s = .next ((openEvent s).answered l 0x21 tag .unknownId [])) ∧
    ∀ c, (s.tube t).current = some c → c.step.id = num2 i1 i0 →
      ∃ q : State, exec (.abortStep l tag [tubeByte t, i1, i0]) s = .next ((settle q).answered l 0x21 tag .ok []) ∧
        stepEnded t c .aborted s q ∧ elsewhereKept t s q ∧ shareLowered t s q ∧ setpointsKept t s q ∧
        (if c.step.quiet then flagsKept s q else raised .stepDone t s q) ∧
        (q.tube t).halted = (s.tube t).halted ∧
        ((s.tube t).state = .suspended → (q.tube t).state = .suspended ∧ (q.tube t).remembered = some .idle) ∧
        ((s.tube t).state ≠ .suspended → (q.tube t).state = .idle) ∧
        ((s.tube t).effective = .admitting → (∀ d ∈ q.arbiter.claims, d.tube ≠ t) ∧ (∀ d ∈ q.gas.header, d.tube ≠ t) ∧
          ∀ d ∈ q.gas.scrubber, d.tube ≠ t) ∧
        ((s.tube t).effective = .ramping → ∀ d ∈ q.arbiter.claims, d.tube ≠ t) ∧
        ((s.tube t).effective = .purging → (q.tube t).lines.purge.commanded = 0 ∧ (q.tube t).credit = (s.tube t).credit) ∧
        ((s.tube t).effective = .moving → (q.tube t).loader.state = .stopped ∧ (q.tube t).loader.target = none ∧
          heldResolved t s q ∧ motionOver (s.tube t) (q.tube t)) ∧
        ((s.tube t).effective ≠ .moving → surchargeKept t s q ∧ loaderStands (s.tube t) (q.tube t)) ∧
        ((s.tube t).effective = .purging → purgeShut (s.tube t) (q.tube t)) ∧
        ((s.tube t).effective ≠ .purging → gasStands (s.tube t) (q.tube t)) ∧ ceilingsFollow t s q ∧ madeDue t s q

/-- Tier 1. SUSPEND-TUBE with its right held (R21, R124): the tube is SUSPENDED and remembers the state it came from, a moving
loader is sent a STOP and keeps its target and travel copy, and a tube already SUSPENDED does not change. -/
def Obligations.SuspendHolds : Prop :=
  ∀ (s : State) (l : LinkId) (t : TubeId) (tag : Byte), (s.rightsOn l t).control = true →
    Framed s l 0x22 tag [tubeByte t] → (s.tube t).takesSteps → (s.tube t).state ≠ .faultHold →
    ((s.tube t).state = .suspended →
      exec (.suspendTube l tag [tubeByte t]) s = .next ((openEvent s).answered l 0x22 tag .ok [])) ∧
    ((s.tube t).state ≠ .suspended → (s.tube t).state ≠ .moving →
      exec (.suspendTube l tag [tubeByte t]) s =
        .next (((openEvent s).onTube t fun u => { u with state := .suspended, remembered := some u.state }).answered
          l 0x22 tag .ok [])) ∧
    ((s.tube t).state = .moving →
      exec (.suspendTube l tag [tubeByte t]) s =
        .next (({ openEvent s with outbox := if (s.tube t).loader.isMoving then [.stop t] else [] }.onTube t fun u =>
          { u with
            state := .suspended
            remembered := some .moving
            loader :=
              { u.loader with
                state := .stopped
                segmentEnd := none
                speed := none
                stallCount := none
                stallRef := none
                stallFresh := false } }).answered l 0x22 tag .ok []))

/-- Tier 1. RESUME-TUBE of a SUSPENDED tube with its right held (R23): the remembered state returns and the three lists are
evaluated; before that, a scrubber claim under released EXHAUST-OK is removed with its step FAILED (R101), a ramp that is not
shed-paused makes a shed pass due while SHEDDING (R87), an automatic purge whose owed flag is clear ends and the pull begins,
or is DONE at once where the boat stands at the target (R17, R120, R123), and a motion goes on towards its kept target with the
travel copy it had (R124, R120, R121), or arrives at once where the boat stands at the target (R124, R123). From a position of
none to a target below the mouth the direction is the free value of log entry 3, and the notes of an automatic purge's record
are log entry 16. -/
def Obligations.ResumeReturns : Prop :=
  ∀ (s : State) (l : LinkId) (t : TubeId) (tag : Byte) (x : TubeState), (s.rightsOn l t).control = true →
    Framed s l 0x23 tag [tubeByte t] → (s.tube t).state = .suspended → (s.tube t).remembered = some x →
    ∃ p q : State, p = ((openEvent s).onTube t fun u => { u with state := x, remembered := none }) ∧
      exec (.resumeTube l tag [tubeByte t]) s =
        .next ((settle (dueScrubber (dueHeader (dueClaims q)))).answered l 0x23 tag .ok []) ∧
      (x = .idle ∨ x = .soaking → q = p) ∧
      (x = .admitting → (∃ d ∈ s.gas.scrubber, d.tube = t) → s.exhaust.asserted = false →
        q = endStep t (.failed .exhaust) (removeScrubberClaim t p)) ∧
      (x = .admitting → (∀ d ∈ s.gas.scrubber, d.tube ≠ t) ∨ s.exhaust.asserted = true → q = p) ∧
      (x = .ramping → (s.tube t).shedPaused = true ∨ s.arbiter.shedding = false → q.tubes = p.tubes ∧ q.due = p.due) ∧
      (x = .ramping → (s.tube t).shedPaused = false → s.arbiter.shedding = true → q = dueShed p) ∧
      (x = .purging →
        ((∀ k, (s.tube t).current = some k → k.auto ≠ .running) ∨ (s.tube t).owed = true → q = p) ∧
        ∀ k, (s.tube t).current = some k → k.auto = .running → (s.tube t).owed = false →
          ∃ m : State, autoPurgeEnded t k p m ∧ pullBegun t k m q) ∧
      (x = .moving → ∀ g tr k, (s.tube t).loader.target = some g → (s.tube t).loader.travel = some tr →
        (s.tube t).current = some k →
        ((s.tube t).loader.position ≠ some g →
          motionBegun t k tr ((s.tube t).loader.hotSpeed.getD tr.coldSpeed) g p q) ∧
        ((s.tube t).loader.position = some g → motionArrived t k p q ∧ motionOver (p.tube t) (q.tube t) ∧
          gasStands (p.tube t) (q.tube t) ∧ elsewhereKept t p q))

/-- Tier 1. EXTEND-STEP with its right held, in a tube state that takes it (R25, R137): an extension above 1048575 is RANGE; a
queued step's NOT-CURRENT; no step's UNKNOWN-ID; a current step's that is neither SOAK nor PURGE STATE; and otherwise the
loaded counter, or the duration where none is loaded, grows by it unless the sum passes 1048575, which is RANGE. -/
def Obligations.ExtendLengthens : Prop :=
  ∀ (s : State) (l : LinkId) (t : TubeId) (tag i1 i0 e3 e2 e1 e0 : Byte), (s.rightsOn l t).control = true →
    (s.tube t).takesSteps → Framed s l 0x24 tag [tubeByte t, i1, i0, e3, e2, e1, e0] →
    let e := num4 e3 e2 e1 e0
    let refused (code : AnswerCode) :=
      exec (.extendStep l tag [tubeByte t, i1, i0, e3, e2, e1, e0]) s =
        .next ((openEvent s).answered l 0x24 tag code [])
    (1048575 < e → refused .range) ∧
    (e ≤ 1048575 → ¬(s.tube t).knows (num2 i1 i0) → refused .unknownId) ∧
    (e ≤ 1048575 → (∀ c, (s.tube t).current = some c → c.step.id ≠ num2 i1 i0) →
      (∃ r ∈ (s.tube t).queue, r.id = num2 i1 i0) → refused .notCurrent) ∧
    ∀ c, (s.tube t).current = some c → c.step.id = num2 i1 i0 → e ≤ 1048575 →
      (c.step.body.kind ≠ .soak → c.step.body.kind ≠ .purge → refused .state) ∧
      (c.step.body.kind = .soak ∨ c.step.body.kind = .purge → ∀ k, (s.tube t).stepCounter = some k →
        (1048575 < remaining k + e → refused .range) ∧
        (remaining k + e ≤ 1048575 →
          exec (.extendStep l tag [tubeByte t, i1, i0, e3, e2, e1, e0]) s =
            .next (((openEvent s).onTube t fun u =>
              { u with
                stepCounter :=
                  some ⟨splitCount (remaining k + e), splitReloads (remaining k + e), k.paused, k.fresh⟩ }).answered
              l 0x24 tag .ok []))) ∧
      ((s.tube t).stepCounter = none → ∀ d, c.step.body.duration? = some d →
        (1048575 < d + e → refused .range) ∧
        (d + e ≤ 1048575 →
          exec (.extendStep l tag [tubeByte t, i1, i0, e3, e2, e1, e0]) s =
            .next (((openEvent s).onTube t fun u =>
              { u with current := some { c with step := { c.step with body := c.step.body.withDuration (d + e) } } }).answered
              l 0x24 tag .ok [])))

/-- Tier 1. CLEAR-FAULT of a tube in FAULT-HOLD with its right held (R150): PERSISTS while a condition cause of the set holds,
and otherwise the set is emptied and the tube is IDLE with its halted flag and its grant as they were; its ceilings are
composed again where OVER-TEMP leaves the set (R66), to go out at the next update where they rise (R67), and stand as they were
where it does not. Nothing else of the tube changes. -/
def Obligations.ClearFaultClears : Prop :=
  ∀ (s : State) (l : LinkId) (t : TubeId) (tag : Byte), (s.rightsOn l t).control = true →
    Framed s l 0x25 tag [tubeByte t] → (s.tube t).state = .faultHold →
    let f := (s.tube t).fault
    let holding := (f.causes.tcOpen && f.tcOpen) || (f.causes.overTemp && f.overTemp) ||
      (f.causes.exhaustLost && f.exhaustLost)
    (holding = true →
      exec (.clearFault l tag [tubeByte t]) s = .next ((openEvent s).answered l 0x25 tag .persists [])) ∧
    (holding = false →
      ∃ q : State, exec (.clearFault l tag [tubeByte t]) s = .next (q.answered l 0x25 tag .ok []) ∧
        q.tube t = { s.tube t with
          state := .idle
          fault := { f with causes := {}, entry := none }
          zones := (q.tube t).zones } ∧
        (∀ z, zoneKept ((s.tube t).zones.get z) ((q.tube t).zones.get z)) ∧
        ((f.causes.overTemp = true → ∀ z, ceilingStands q t z) ∧
          (f.causes.overTemp = false → (q.tube t).zones = (s.tube t).zones)) ∧ q.due = s.due ∧ flagsKept s q ∧
        ∀ j, j ≠ t → q.tube j = s.tube j)

/-! ### The requests that read, and attention -/

/-- Tier 1. Every read is answered OK with the body its row gives and changes nothing but the link that answers it (R173, R176,
R177, R178); a READ-QUEUE whose position is above 15 is answered RANGE (R173). -/
def Obligations.ReadsAnswer : Prop :=
  ∀ (s : State) (l : LinkId) (t : TubeId) (tag p : Byte),
    ((s.rightsOn l t).observe = true →
      (Framed s l 0x31 tag [tubeByte t] →
        exec (.readTube l tag [tubeByte t]) s = .next ((openEvent s).answered l 0x31 tag .ok (tubeStatus (s.tube t)))) ∧
      (Framed s l 0x32 tag [tubeByte t, p] →
        (15 < p.toNat →
          exec (.readQueue l tag [tubeByte t, p]) s = .next ((openEvent s).answered l 0x32 tag .range [])) ∧
        (p.toNat ≤ 15 →
          exec (.readQueue l tag [tubeByte t, p]) s =
            .next ((openEvent s).answered l 0x32 tag .ok
              (BitVec.ofNat 8 (s.tube t).queue.length :: p :: packRecords t 238 ((s.tube t).queue.drop p.toNat))))) ∧
      (Framed s l 0x33 tag [tubeByte t] →
        exec (.readCompletions l tag [tubeByte t]) s =
          .next ((openEvent s).answered l 0x33 tag .ok (completionsBody (s.tube t)))) ∧
      (Framed s l 0x34 tag [tubeByte t] →
        exec (.readGas l tag [tubeByte t]) s = .next ((openEvent s).answered l 0x34 tag .ok (gasBody s t)))) ∧
    (Framed s l 0x41 tag [] →
      exec (.readEnvelope l tag []) s = .next ((openEvent s).answered l 0x41 tag .ok (envelopeBody s))) ∧
    (Framed s l 0x42 tag [] →
      exec (.readClaims l tag []) s = .next ((openEvent s).answered l 0x42 tag .ok (claimsBody s))) ∧
    (Framed s l 0x43 tag [] →
      exec (.readStack l tag []) s = .next ((openEvent s).answered l 0x43 tag .ok (stackBody s)))

/-- Tier 2. The bodies of the answers, by their lengths and each field at its bytes, most significant byte first (R174, R176,
R177, R178), with the codes of R174; and READ-QUEUE's as many whole records from the position on as fit (R173). The bytes of
the jog target without a jog are log entry 40, and figures above 65535 are log entry 22. -/
def Obligations.AnswersLaidOut : Prop :=
  (∀ u : Tube, tubeLaidOut (tubeStatus u) u ∧ ringLaidOut (completionsBody u) u) ∧
    (∀ (s : State) (t : TubeId), gasLaidOut (gasBody s t) s t ∧ envelopeLaidOut (envelopeBody s) s ∧
      claimsLaidOut (claimsBody s) s ∧ stackLaidOut (stackBody s) s) ∧
    ([StepKind.ramp, .soak, .purge, .gasSet, .pushIn, .pullOut, .mark].map StepKind.toNat = [1, 2, 3, 4, 5, 6, 7] ∧
      [TubeState.off, .idle, .admitting, .ramping, .soaking, .purging, .moving, .suspended, .faultHold, .service].map
        TubeState.toNat = [0, 1, 2, 3, 4, 5, 6, 7, 8, 9] ∧
      [StepOutcome.done, .aborted, .failed, .faulted, .stopped].map StepOutcome.toNat = [1, 2, 3, 4, 5] ∧
      [FailCause.none, .calInvalid, .range, .unsealed, .exhaust, .dopantOpen, .admitTimeout].map FailCause.toNat =
        [0, 1, 2, 3, 4, 5, 6] ∧
      [CeilingTerm.admitted, .zmax, .openZone, .zero].map CeilingTerm.toNat = [0, 1, 2, 3] ∧
      [ClaimKind.step, .resume, .surcharge, .service].map ClaimKind.toNat = [1, 2, 3, 4] ∧
      [Treatment.masked, .suspended, .noFit, .blocking, .candidate, .notReached].map Treatment.toNat = [1, 2, 3, 4, 5, 6] ∧
      [Purpose.step, .auto].map Purpose.toNat = [1, 2] ∧
      [StackMode.commission, .run, .stopped].map StackMode.toNat = [0, 1, 2] ∧
      [Direction.up, .down, .level].map Direction.toNat = [1, 2, 3] ∧
      [LoaderState.stopped, .movingIn, .movingOut].map LoaderState.toNat = [0, 1, 2] ∧
      [Recovery.none, .held, .running].map Recovery.toNat = [0, 1, 2] ∧
      (∀ rate zones, [ServiceRamp.none, .waiting rate zones, .running].map ServiceRamp.toNat = [0, 1, 2])) ∧
    ∀ (t : TubeId) (room : Nat) (rs : List StepRecord), ∃ n,
      packRecords t room rs = (rs.take n).flatMap (fun r => encStep t r ++ enc1 r.notes.toNat) ∧ n ≤ rs.length ∧
        (packRecords t room rs).length ≤ room ∧
        ∀ r, rs[n]? = some r → room < (packRecords t room rs).length + (encStep t r ++ enc1 r.notes.toNat).length

/-- Tier 2. READ-ATTENTION (R184): four bytes, the first with MODE and CURTAIL in bits 0 and 1, and the others one 24-bit
number with the kinds of tube j in bits 5j to 5j + 4, the reserved bits 0; every flag is cleared, the enable of every kind that
had a pending flag is cleared and every other is left, the line is released, a read with no pending flag answers zeros, and no
other link changes. -/
def Obligations.AttentionRead : Prop :=
  ∀ (s : State) (l : LinkId) (tag : Byte), Framed s l 0x44 tag [] →
    ∃ (a b c d : Byte) (q : State),
      exec (.readAttention l tag []) s = .next (q.answered l 0x44 tag .ok [a, b, c, d]) ∧
      q = { openEvent s with links := q.links } ∧ (∀ m, m ≠ l → q.link m = s.link m) ∧
      a.getLsbD 0 = (s.link l).modeFlag ∧ a.getLsbD 1 = (s.link l).curtailFlag ∧ a.toNat < 4 ∧
      (let n := 65536 * b.toNat + 256 * c.toNat + d.toNat
       n < 1048576 ∧ ∀ t k, n.testBit (5 * t.toNat + k.index) = s.flag l t k) ∧
      (∀ t k, q.flag l t k = false) ∧ (q.link l).modeFlag = false ∧ (q.link l).curtailFlag = false ∧
      (∀ k, (q.link l).enables.has k = ((s.link l).enables.has k && !(s.link l).pendingKind k)) ∧
      (q.link l).enables.mode = ((s.link l).enables.mode && !(s.link l).modeFlag) ∧
      (q.link l).enables.curtail = ((s.link l).enables.curtail && !(s.link l).curtailFlag) ∧
      (q.link l).rx = (s.link l).rx ∧ (q.link l).attentionLine = false ∧
      ((s.link l).pendingAny = false → a = 0 ∧ b = 0 ∧ c = 0 ∧ d = 0 ∧ q.link l = s.link l)

/-- Tier 1. The attention line and ARM-ATTENTION (R183): the line is asserted exactly while a flag is set whose kind's enable
is set; a mask with bit 7 is answered FORMAT; and otherwise the enables of the mask's kinds become set, the others and every
flag are left, and a flag pending of a kind so armed asserts the line. The first holds of every link in every state. -/
def Obligations.AttentionArmed : Prop :=
  (∀ (s : State) (l : LinkId), (s.link l).attentionLine = true ↔
    (∃ k t, (s.link l).enables.has k = true ∧ s.flag l t k = true) ∨
      ((s.link l).enables.mode = true ∧ (s.link l).modeFlag = true) ∨
      ((s.link l).enables.curtail = true ∧ (s.link l).curtailFlag = true)) ∧
  ∀ (s : State) (l : LinkId) (tag mask : Byte), Framed s l 0x45 tag [mask] →
    (mask.getLsbD 7 = true →
      exec (.armAttention l tag [mask]) s = .next ((openEvent s).answered l 0x45 tag .format [])) ∧
    (mask.getLsbD 7 = false →
      ∃ q : State, exec (.armAttention l tag [mask]) s = .next (q.answered l 0x45 tag .ok []) ∧
        q = { openEvent s with links := q.links } ∧ (∀ m, m ≠ l → q.link m = s.link m) ∧ flagsKept s q ∧
        (q.link l).rx = (s.link l).rx ∧
        (∀ k, (q.link l).enables.has k = ((s.link l).enables.has k || mask.getLsbD k.index)) ∧
        (q.link l).enables.mode = ((s.link l).enables.mode || mask.getLsbD 5) ∧
        (q.link l).enables.curtail = ((s.link l).enables.curtail || mask.getLsbD 6) ∧
        ((∃ k t, mask.getLsbD k.index = true ∧ s.flag l t k = true) → (q.link l).attentionLine = true) ∧
        (mask = 0 → q.link l = s.link l))

/-! ### The SUPERVISE requests that write -/

/-- Tier 1. SET-MASK and PROMOTE-CLAIM from link C (R74, R86): a mask above 8 and a level above 7 are answered RANGE and a tube
without a claim UNKNOWN-ID; otherwise M or the level of the claim is replaced, the claim keeping everything else and standing
where its new level puts it, as the one claim of its tube, and the Claim List is evaluated. That the created stamps which order
it among claims of its new level are compared as numbers, without regard to their wrap, is log entry 17. -/
def Obligations.MaskAndPromote : Prop :=
  ∀ (s : State) (t : TubeId) (tag m : Byte),
    (Framed s .c 0x51 tag [m] →
      (8 < m.toNat → exec (.setMask .c tag [m]) s = .next ((openEvent s).answered .c 0x51 tag .range [])) ∧
      (m.toNat ≤ 8 →
        exec (.setMask .c tag [m]) s =
          .next ((settle (dueClaims ((openEvent s).onArbiter fun a => { a with mask := m.toNat }))).answered
            .c 0x51 tag .ok []))) ∧
    (Framed s .c 0x56 tag [tubeByte t, m] →
      (7 < m.toNat →
        exec (.promoteClaim .c tag [tubeByte t, m]) s = .next ((openEvent s).answered .c 0x56 tag .range [])) ∧
      (m.toNat ≤ 7 → claimOf s t = none →
        exec (.promoteClaim .c tag [tubeByte t, m]) s = .next ((openEvent s).answered .c 0x56 tag .unknownId [])) ∧
      ∀ c, m.toNat ≤ 7 → claimOf s t = some c → s.claimsOrdered →
        ∃ q : State, exec (.promoteClaim .c tag [tubeByte t, m]) s =
            .next ((settle (dueClaims q)).answered .c 0x56 tag .ok []) ∧
          q = { openEvent s with arbiter := { s.arbiter with claims := q.arbiter.claims } } ∧ q.claimsOrdered ∧
          { c with level := m.toNat } ∈ q.arbiter.claims ∧
          (∀ d ∈ q.arbiter.claims, d.tube = t → d = { c with level := m.toNat }) ∧
          ∀ d, d.tube ≠ t → (d ∈ q.arbiter.claims ↔ d ∈ s.arbiter.claims))

/-- Tier 1. SET-LIMITS from link C (R73, R112): RANGE while a value or the order of Ec and E is wrong; STATE while Q is below
the header allocation or K below the slots in use; and otherwise all seven values are replaced, the pacing time is discarded,
the Claim List is evaluated, a fall of the limit in force makes a shed pass due and a rise does while SHEDDING, and a rise of Q
or K evaluates its FIFO. -/
def Obligations.LimitsReplaced : Prop :=
  ∀ (s : State) (tag : Byte) (body : List Byte) (e ec ts tw nw q k : Nat), Framed s .c 0x52 tag body →
    takeFields [2, 2, 1, 2, 1, 2, 1] body = some [e, ec, ts, tw, nw, q, k] →
    let sound := e ≤ 30000 ∧ ec ≤ 30000 ∧ ts ≤ 60 ∧ (10 ≤ tw ∧ tw ≤ 600) ∧ (1 ≤ nw ∧ nw ≤ 4) ∧ q ≤ 5000 ∧
      (1 ≤ k ∧ k ≤ 4) ∧ ec ≤ e
    (¬sound → exec (.setLimits .c tag body) s = .next ((openEvent s).answered .c 0x52 tag .range [])) ∧
    (sound → q < headerAllocation s ∨ k < slotsInUse s →
      exec (.setLimits .c tag body) s = .next ((openEvent s).answered .c 0x52 tag .state [])) ∧
    (sound → headerAllocation s ≤ q → slotsInUse s ≤ k →
      ∃ p : State, exec (.setLimits .c tag body) s = .next ((settle p).answered .c 0x52 tag .ok []) ∧
        p.limits = ⟨e, ec, s.arbiter.mask, ts, tw, nw, q, k⟩ ∧ p.arbiter.pacing = none ∧ p.tubes = s.tubes ∧
        p.links = s.links ∧ p.rights = s.rights ∧ p.mode = s.mode ∧ p.arbiter.claims = s.arbiter.claims ∧
        p.arbiter.history = s.arbiter.history ∧ p.due.claims = true ∧
        p.due.shed = (s.due.shed || decide (limitInForce p < limitInForce s) ||
          (decide (limitInForce s < limitInForce p) && s.arbiter.shedding)) ∧
        p.due.header = (s.due.header || decide (s.gas.capacity < q)) ∧
        p.due.scrubber = (s.due.scrubber || decide (s.gas.slots < k)))

/-- Tier 1. WRITE-CAL and WRITE-TUBE from link C (R54, R28, R66, R118), with the ranges of R52 and R28 and the bytes of each
field: a value out of range is answered RANGE, and so is a set number above 3, whatever the tube byte (log entry 15); a set is
replaced whole and marked valid and every ceiling composed again; a tube record is written to a tube that is IDLE or in
SERVICE, or OFF in COMMISSION, with the tube's ceilings and sealed condition following it. With set 0 the tube byte of
WRITE-CAL is reserved and 0 (section 10.2). That no byte gives the field "valid" is log entry 38. -/
def Obligations.RecordsWritten : Prop :=
  ∀ (s : State) (t : TubeId) (n : Fin 4) (tag : Byte) (fields : List Byte),
    (let b : Byte := if n = 0 then 0 else tubeByte t
     ∀ c : CalSet, c.givenBy fields → Framed s .c 0x53 tag (BitVec.ofNat 8 n.val :: b :: fields) →
      (¬c.sound → exec (.writeCal .c tag (BitVec.ofNat 8 n.val :: b :: fields)) s =
          .next ((openEvent s).answered .c 0x53 tag .range [])) ∧
      (c.sound → ∃ p : State, exec (.writeCal .c tag (BitVec.ofNat 8 n.val :: b :: fields)) s =
            .next ((recomposeAll p).answered .c 0x53 tag .ok []) ∧
          calSetOf p t n = c ∧ (∀ m, m ≠ n → calSetOf p t m = calSetOf s t m) ∧
          (n ≠ 0 → ∀ j, j ≠ t → p.tube j = s.tube j) ∧ (n = 0 → p.tubes = s.tubes) ∧
          p.limits = s.limits ∧ p.links = s.links ∧ p.due = s.due)) ∧
    (∀ (m b : Byte), 3 < m.toNat → fields.length = 24 → Framed s .c 0x53 tag (m :: b :: fields) →
      exec (.writeCal .c tag (m :: b :: fields)) s = .next ((openEvent s).answered .c 0x53 tag .range [])) ∧
    ∀ r : TubeRecord, r.givenBy fields →
      (s.tube t).state = .idle ∨ (s.tube t).state = .service ∨ ((s.tube t).state = .off ∧ s.mode = .commission) →
      Framed s .c 0x54 tag (tubeByte t :: fields) →
      (¬r.sound →
        exec (.writeTube .c tag (tubeByte t :: fields)) s = .next ((openEvent s).answered .c 0x54 tag .range [])) ∧
      (r.sound →
        ∃ p : State, exec (.writeTube .c tag (tubeByte t :: fields)) s = .next ((settle p).answered .c 0x54 tag .ok []) ∧
          (p.tube t).record = r ∧ (p.tube t).recordValid = true ∧
          (p.tube t).loader.isSealed = ((s.tube t).loader.position == some r.limit) ∧
          ((s.tube t).loader.isSealed = true → (p.tube t).loader.isSealed = false →
            (p.tube t).lines.dopant.commanded = 0) ∧
          (∀ z, ((p.tube t).zones.get z).ceiling ≤ r.zmax.get z) ∧ (p.tube t).state = (s.tube t).state ∧
          (p.tube t).grant = (s.tube t).grant ∧ ∀ j, j ≠ t → p.tube j = s.tube j)

/-- Tier 1. WRITE-RIGHTS from link C, in every mode and tube state (R180): a rights byte with a reserved bit set is answered
FORMAT, a link above 4 or a floor above 7 RANGE, and otherwise the entry of the link and tube is replaced whole and no other,
with no flag, queue, current step or claim changed. -/
def Obligations.RightsWritten : Prop :=
  ∀ (s : State) (t : TubeId) (tag n r f : Byte), Framed s .c 0x55 tag [n, tubeByte t, r, f] →
    (8 ≤ r.toNat →
      exec (.writeRights .c tag [n, tubeByte t, r, f]) s = .next ((openEvent s).answered .c 0x55 tag .format [])) ∧
    (r.toNat < 8 → 4 < n.toNat ∨ 7 < f.toNat →
      exec (.writeRights .c tag [n, tubeByte t, r, f]) s = .next ((openEvent s).answered .c 0x55 tag .range [])) ∧
    ∀ k, r.toNat < 8 → LinkId.ofNat? n.toNat = some k → f.toNat ≤ 7 →
      ∃ q : State, exec (.writeRights .c tag [n, tubeByte t, r, f]) s = .next (q.answered .c 0x55 tag .ok []) ∧
        q = { openEvent s with rights := q.rights } ∧
        q.rightsOn k t = ⟨r.getLsbD 0, r.getLsbD 1, r.getLsbD 2, f.toNat⟩ ∧
        ∀ l j, l ≠ k ∨ j ≠ t → q.rightsOn l j = s.rightsOn l j

/-! ### Service -/

/-- Tier 2. ENTER-SERVICE and LEAVE-SERVICE from link C in RUN (R163, R167): entering, a tube that is IDLE or in FAULT-HOLD
becomes SERVICE and keeps everything but its service state; leaving, jog, ramp and claim are gone, the PURGE line and the lines
opened in service are closed, and DOPANT too unless the cause set is empty, the share is lowered, or is 0 with OVER-TEMP in the
set, its ceilings 0 and sent (R149), and the tube is halted and IDLE or in FAULT-HOLD by its set. What departs, falls or closes
by it makes its evaluation due (R77, R78, R87, R100, R105), and the ceilings are composed again, those that fall sent at once
(R66, R67). The tube's pointer, readings, open flags and fault monitor stand, its purge account unless an open DOPANT line
closes, and its loader, short of a jog, but for the recovery. -/
def Obligations.ServiceEnteredAndLeft : Prop :=
  ∀ (s : State) (t : TubeId) (tag : Byte), s.mode = .run →
    (Framed s .c 0x5B tag [tubeByte t] → (s.tube t).state = .idle ∨ (s.tube t).state = .faultHold →
      exec (.enterService .c tag [tubeByte t]) s =
        .next (((openEvent s).onTube t fun u =>
          { u with state := .service, service := ⟨.none, none, false, false⟩ }).answered .c 0x5B tag .ok [])) ∧
    (Framed s .c 0x5C tag [tubeByte t] → (s.tube t).state = .service →
      ∃ q : State, exec (.leaveService .c tag [tubeByte t]) s = .next ((settle q).answered .c 0x5C tag .ok []) ∧
        elsewhereKept t s q ∧ (q.tube t).halted = true ∧
        (q.tube t).state = (if (s.tube t).fault.causes.isEmpty then .idle else .faultHold) ∧
        (q.tube t).service = ⟨.none, none, false, false⟩ ∧
        ((s.tube t).service.jog ≠ none → (q.tube t).loader.state = .stopped ∧ (q.tube t).loader.target = none) ∧
        ((s.tube t).service.ramp = .running → ∀ z, ((q.tube t).zones.get z).ramp = none) ∧
        ((∃ rate zones, (s.tube t).service.ramp = .waiting rate zones) → ∀ d ∈ q.arbiter.claims, d.tube ≠ t) ∧
        (q.tube t).lines.purge.commanded = 0 ∧
        (q.tube t).lines.carrier.commanded =
          (if (s.tube t).service.carrier then 0 else (s.tube t).lines.carrier.commanded) ∧
        (q.tube t).lines.oxy.commanded = (if (s.tube t).service.oxy then 0 else (s.tube t).lines.oxy.commanded) ∧
        (q.tube t).lines.dopant.commanded =
          (if (s.tube t).fault.causes.isEmpty then (s.tube t).lines.dopant.commanded else 0) ∧
        ((s.tube t).fault.causes.overTemp = true → (q.tube t).grant.step = .zero ∧ (q.tube t).grant.surcharge = .zero ∧
          (q.tube t).loader.recovery = .none ∧ (q.tube t).loader.recoveryCounter = none ∧ ceilingsCut t q) ∧
        ((s.tube t).fault.causes.overTemp = false →
          shareLowered t s q ∧ (q.tube t).grant.surcharge = (s.tube t).grant.surcharge) ∧
        setpointsKept t s q ∧ (q.tube t).fault = (s.tube t).fault ∧ (q.tube t).queue = (s.tube t).queue ∧
        (q.tube t).pointer = (s.tube t).pointer ∧
        (∀ z, zoneStands ((s.tube t).zones.get z) ((q.tube t).zones.get z)) ∧
        ((s.tube t).service.jog = none → motionStands (s.tube t) (q.tube t)) ∧
        ((s.tube t).service.jog ≠ none → motionOver (s.tube t) (q.tube t)) ∧
        ((s.tube t).fault.causes.isEmpty = true ∨ (s.tube t).lines.dopant.commanded = 0 →
          accountStands (s.tube t) (q.tube t)) ∧
        ceilingsFollow t s q ∧ flagsKept s q ∧ madeDue t s q)

/-- Tier 1. SERVICE-JOG from link C of a tube in SERVICE in RUN (R164): STATE while DOPANT is open, RANGE outside the window,
and otherwise the loader moves towards the target as a single segment at the lesser of the cold speed and 60, with a stall
watch loaded; at the target already, the jog is over at once. Of the tube nothing else changes. A position of none counts as
below the mouth (R120); from it to a target below the mouth the direction is the free value of log entry 3. -/
def Obligations.ServiceJogMoves : Prop :=
  ∀ (s : State) (t : TubeId) (tag p1 p0 : Byte), Framed s .c 0x5D tag [tubeByte t, p1, p0] → s.mode = .run →
    (s.tube t).state = .service →
    let g := num2 p1 p0
    let r := (s.tube t).record
    ((s.tube t).lines.dopant.isOpen = true →
      exec (.serviceJog .c tag [tubeByte t, p1, p0]) s = .next ((openEvent s).answered .c 0x5D tag .state [])) ∧
    ((s.tube t).lines.dopant.isOpen = false → g < r.base ∨ r.limit < g →
      exec (.serviceJog .c tag [tubeByte t, p1, p0]) s = .next ((openEvent s).answered .c 0x5D tag .range [])) ∧
    ((s.tube t).lines.dopant.isOpen = false → r.base ≤ g → g ≤ r.limit →
      ∃ q : State, exec (.serviceJog .c tag [tubeByte t, p1, p0]) s = .next (q.answered .c 0x5D tag .ok []) ∧
        elsewhereKept t s q ∧ q.arbiter = s.arbiter ∧ q.gas = s.gas ∧ q.due = s.due ∧ flagsKept s q ∧
        q.tube t = { s.tube t with
          service := { (s.tube t).service with jog := (q.tube t).service.jog }
          loader := { (s.tube t).loader with
            state := (q.tube t).loader.state
            target := (q.tube t).loader.target
            segmentEnd := (q.tube t).loader.segmentEnd
            speed := (q.tube t).loader.speed
            travel := (q.tube t).loader.travel
            stallCount := (q.tube t).loader.stallCount
            stallRef := (q.tube t).loader.stallRef
            stallFresh := (q.tube t).loader.stallFresh } } ∧
        ((s.tube t).loader.position = some g → (q.tube t).service.jog = none ∧ (q.tube t).loader.state = .stopped ∧
          (q.tube t).loader.target = none ∧ motionOver (s.tube t) (q.tube t)) ∧
        ((s.tube t).loader.position ≠ some g → (q.tube t).service.jog = some g ∧ (q.tube t).loader.target = some g ∧
          (q.tube t).loader.segmentEnd = some g ∧ (q.tube t).loader.speed = some (min r.coldSpeed 60) ∧
          (q.tube t).loader.stallCount = some r.stallTime ∧ (q.tube t).loader.stallRef = (s.tube t).loader.position ∧
          (q.tube t).loader.travel =
            some ⟨r.base, r.mouth, r.limit, r.coldSpeed, r.hotCap, r.hotThreshold, r.stallTime⟩ ∧
          q.outbox = [.move t g (min r.coldSpeed 60)] ∧
          (∀ p, (s.tube t).loader.position = some p →
            (q.tube t).loader.state = if p < g then .movingIn else .movingOut) ∧
          ((s.tube t).loader.position = none →
            (q.tube t).loader.state =
              if r.mouth ≤ g then .movingIn
              else if Config.freeDirection s.freeIndex = true then .movingIn else .movingOut)))

/-- Tier 1. SERVICE-VALVE and SERVICE-SETPOINT from link C of a tube in SERVICE in RUN (R165, R166): DOPANT and a flow above
2000 are RANGE and a PURGE flow that does not fit STATE; a valve that fits is commanded, and CARRIER and OXY marked while open;
a ramp is RANGE with a rate or a target out of range, or, which is log entry 14, with a zone number above 4; STATE while
OVER-TEMP is in the set, and otherwise replaces the one before it and runs at once where its demand is no more than the step
total, and else waits on a SERVICE claim of level 0. A RUNNING ramp that is replaced stops with its setpoints frozen and its
ramp state gone; a WAITING one has its SERVICE claim removed, and that departure makes an evaluation of the Claim List due
(R77, R78), as the joining of the new claim does and a fall of the grant. A ramp that runs has its zones loaded as R32 gives
and its ceilings composed from its new share, those that fall sent at once (R66, R67). Of the tube nothing else changes, and no
other tube's claim. That a flow equal to the line's present command is sent again is log entry 36. -/
def Obligations.ServiceValveAndSetpoint : Prop :=
  ∀ (s : State) (t : TubeId) (tag n f1 f0 : Byte), s.mode = .run → (s.tube t).state = .service →
    (∀ line, LineId.ofNat? n.toNat = some line → Framed s .c 0x5E tag [tubeByte t, n, f1, f0] →
      (2000 < num2 f1 f0 ∨ line = .dopant →
        exec (.serviceValve .c tag [tubeByte t, n, f1, f0]) s = .next ((openEvent s).answered .c 0x5E tag .range [])) ∧
      (num2 f1 f0 ≤ 2000 → line = .carrier →
        exec (.serviceValve .c tag [tubeByte t, n, f1, f0]) s =
          .next (((commandLine t .carrier (num2 f1 f0) (openEvent s)).onTube t fun u =>
            { u with service := { u.service with carrier := decide (0 < num2 f1 f0) } }).answered .c 0x5E tag .ok [])) ∧
      (num2 f1 f0 ≤ 2000 → line = .oxy →
        exec (.serviceValve .c tag [tubeByte t, n, f1, f0]) s =
          .next (((commandLine t .oxy (num2 f1 f0) (openEvent s)).onTube t fun u =>
            { u with service := { u.service with oxy := decide (0 < num2 f1 f0) } }).answered .c 0x5E tag .ok [])) ∧
      (num2 f1 f0 ≤ 2000 → line = .purge →
        let others := headerAllocation s - (s.tube t).lines.purge.commanded
        (s.gas.capacity < others + num2 f1 f0 →
          exec (.serviceValve .c tag [tubeByte t, n, f1, f0]) s =
            .next ((openEvent s).answered .c 0x5E tag .state [])) ∧
        (others + num2 f1 f0 ≤ s.gas.capacity →
          ∃ q : State, exec (.serviceValve .c tag [tubeByte t, n, f1, f0]) s =
              .next ((settle q).answered .c 0x5E tag .ok []) ∧
            q = { commandLine t .purge (num2 f1 f0) (openEvent s) with due := q.due } ∧
            q.due = { s.due with
              header := s.due.header || decide (num2 f1 f0 < (s.tube t).lines.purge.commanded) }))) ∧
    ∀ (r1 r0 count : Byte) (es : List Byte) (entries : List (Nat × Nat)) (zones : List (ZoneId × Nat)),
      countedEntries 5 count es = some entries → Framed s .c 0x5F tag (tubeByte t :: r1 :: r0 :: count :: es) →
      (rangedZones entries = none ∨ num2 r1 r0 < 1 ∨ 300 < num2 r1 r0 →
        exec (.serviceSetpoint .c tag (tubeByte t :: r1 :: r0 :: count :: es)) s =
          .next ((openEvent s).answered .c 0x5F tag .range [])) ∧
      (rangedZones entries = some zones → 1 ≤ num2 r1 r0 → num2 r1 r0 ≤ 300 →
        ((s.tube t).fault.causes.overTemp = true →
          exec (.serviceSetpoint .c tag (tubeByte t :: r1 :: r0 :: count :: es)) s =
            .next ((openEvent s).answered .c 0x5F tag .state [])) ∧
        ((s.tube t).fault.causes.overTemp = false →
          let u := s.tube t
          let waited := ∃ rate zones, u.service.ramp = .waiting rate zones
          let stopped := if u.service.ramp = .running then u.dropRamps else u
          ∃ q : State, exec (.serviceSetpoint .c tag (tubeByte t :: r1 :: r0 :: count :: es)) s =
              .next ((settle q).answered .c 0x5F tag .ok []) ∧
            elsewhereKept t s q ∧ setpointsKept t s q ∧ flagsKept s q ∧ q.gas = s.gas ∧
            q.tube t = { u with
              service := { u.service with ramp := (q.tube t).service.ramp }
              grant := { u.grant with step := (q.tube t).grant.step }
              zones := (q.tube t).zones } ∧
            (∀ z, zoneStands (u.zones.get z) ((q.tube t).zones.get z)) ∧
            (∀ d, d.tube ≠ t → (d ∈ q.arbiter.claims ↔ d ∈ s.arbiter.claims)) ∧
            (let demand := rampStepDemand s t (num2 r1 r0) zones
             (demand.sum ≤ u.stepTotal →
               (q.tube t).service.ramp = .running ∧ (q.tube t).grant.step = demand ∧
                 zonesLoaded (num2 r1 r0) zones stopped (q.tube t) ∧ ceilingsFollow t s q ∧
                 (waited → (∀ d ∈ q.arbiter.claims, d.tube ≠ t) ∧
                   ((∃ d ∈ s.arbiter.claims, d.tube = t) → q.due.claims = true)) ∧ madeDue t s q) ∧
             (u.stepTotal < demand.sum → (q.tube t).service.ramp = .waiting (num2 r1 r0) zones ∧
               (q.tube t).grant = u.grant ∧ (q.tube t).zones = stopped.zones ∧
               (u.service.ramp = .running → ∀ z, ((q.tube t).zones.get z).ramp = none) ∧
               q.due = { s.due with claims := true } ∧
               ∃ c ∈ q.arbiter.claims, c.tube = t ∧ c.kind = .service ∧ c.level = 0 ∧ c.values = demand ∧
                 c.amount = demand.sum - u.stepTotal ∧ c.created = s.seconds ∧ c.bypass = 0 ∧ c.counter = none ∧
                 (waited ∨ (∀ d ∈ s.arbiter.claims, d.tube ≠ t) → ∀ d ∈ q.arbiter.claims, d.tube = t → d = c)))))

/-! ### The seconds boundary and the rows that take one of its events -/

/-- Tier 2. A seconds boundary (R132): the stack seconds counter advances by one modulo 2^32 and the input levels are taken; an
event that the command puts first is taken first, and those it leaves for later stay for their own rows (log entry 4). A
boundary at which nothing comes to its end, in whatever order its events are taken, leaves of every tube what `secondTaken`
says (the counters of R134, the holdback seconds of R43, the credit of R107, the owed test of R108, the low counts of R110, the
stall count of R128), of every claim its counter, of the filters their counts (R162), and nothing else changed. The premise is
that no earlier boundary has left an event; for the last clause also that the stack waits for nothing. -/
def Obligations.BoundaryTaken : Prop :=
  (∀ (s : State) (curtail exhaust : Bool) (order : List BoundaryItem), s.boundaryDue = [] → s.quiet →
    (∀ t, (s.tube t).secondUneventful ∧ counterLasts ((s.tube t).state = .suspended) (admissionCounter s t)) →
    (s.curtail.asserted = curtail ∨ s.curtail.count < 2) → (s.exhaust.asserted = exhaust ∨ s.exhaust.count < 2) →
    s.arbiter.pacing ≠ some (s.seconds + 1) →
    ∃ q : State, exec (.secondsBoundary curtail exhaust order []) s = .next q ∧
      (∀ t, secondTaken (s.tube t) (q.tube t) ∧
        counterTaken ((s.tube t).state = .suspended) (admissionCounter s t) (admissionCounter q t)) ∧
      filterTaken s.curtail q.curtail curtail ∧ filterTaken s.exhaust q.exhaust exhaust ∧
      (q.arbiter.claims.map fun c => { c with counter := none }) =
        (s.arbiter.claims.map fun c => { c with counter := none }) ∧
      q = { s with
        seconds := s.seconds + 1
        curtailInput := curtail
        exhaustInput := exhaust
        curtail := q.curtail
        exhaust := q.exhaust
        tubes := q.tubes
        arbiter := { s.arbiter with claims := q.arbiter.claims }
        outbox := [] }) ∧
  ∀ (s : State) (curtail exhaust : Bool) (order later : List BoundaryItem) (i : BoundaryItem), s.boundaryDue = [] →
    (∃ q : State, exec (.secondsBoundary curtail exhaust order later) s = .next q ∧ q.seconds = s.seconds + 1 ∧
      q.curtailInput = curtail ∧ q.exhaustInput = exhaust ∧
      ∀ j, j ∈ q.boundaryDue ↔ j ∈ boundaryItems ∧ j ∈ later ∧ j ∉ order) ∧
    (i ∈ boundaryItems →
      ∃ p : State, exec (.secondsBoundary curtail exhaust [i] boundaryItems) s = .next (runBoundary i p) ∧
        p.seconds = s.seconds + 1 ∧ p.curtailInput = curtail ∧ p.exhaustInput = exhaust ∧
        (∀ j, j ∈ p.boundaryDue ↔ j ∈ boundaryItems ∧ j ≠ i) ∧ p.mode = s.mode ∧ p.gas = s.gas ∧ p.links = s.links ∧
        p.limits = s.limits ∧ p.curtail = s.curtail ∧ p.exhaust = s.exhaust ∧ p.due = s.due ∧
        ∀ t, (p.tube t).zones = (s.tube t).zones ∧ (p.tube t).lines = (s.tube t).lines ∧
          (p.tube t).state = (s.tube t).state ∧ (p.tube t).grant = (s.tube t).grant ∧
          (∀ k, (p.tube t).stepCounter = some k → k.fresh = false ∧
            (s.tube t).stepCounter.map remaining = some (remaining k)))

/-- Tier 2. The expiry of a step counter (R16, R106, R136): the SOAK or PURGE ends DONE, with its record in the ring (R26,
R27), the share is lowered, a PURGE's line closes with its credit kept, the tube is IDLE and STEP-DONE is raised unless the
step is quiet; and the fall of the grant total and of the header allocation makes its evaluations due (R77, R78, R87, R105),
which follow within the event. The ceilings are composed again, those that fall sent at once (R66, R67). Everything else of the
tube stands: its lines, of which a PURGE step closes PURGE alone, its purge account, pointer, readings, open flags and loader.
-/
def Obligations.StepCounterExpires : Prop :=
  ∀ (s : State) (t : TubeId) (k : DwellCounter) (c : CurrentStep), .counter t .step ∈ s.boundaryDue →
    (s.tube t).stepCounter = some k → k.fresh = false → k.count ≤ 1 → k.reloads = 0 → (s.tube t).state ≠ .suspended →
    (s.tube t).current = some c →
    let p := dropBoundary (openEvent s) (.counter t .step)
    (c.step.body.kind = .soak → (s.tube t).holdback.asserted = false →
      ∃ q : State, exec (.soakCounterExpiry t) s = .next (settle q) ∧ stepEnded t c .done p q ∧ elsewhereKept t p q ∧
        gasStands (s.tube t) (q.tube t) ∧ loaderStands (s.tube t) (q.tube t) ∧
        ((s.tube t).state ≠ .off → ceilingsFollow t p q) ∧ (q.tube t).grant.surcharge = (s.tube t).grant.surcharge ∧
        shareLowered t p q ∧ setpointsKept t p q ∧ (q.tube t).state = .idle ∧
        (q.tube t).halted = (s.tube t).halted ∧ raisedAll (if c.step.quiet then [] else [.stepDone]) t p q ∧ madeDue t p q) ∧
    (c.step.body.kind = .purge →
      ∃ q : State, exec (.purgeCounterExpiry t) s = .next (settle q) ∧ stepEnded t c .done p q ∧ elsewhereKept t p q ∧
        purgeShut (s.tube t) (q.tube t) ∧ loaderStands (s.tube t) (q.tube t) ∧
        ((s.tube t).state ≠ .off → ceilingsFollow t p q) ∧ (q.tube t).grant.surcharge = (s.tube t).grant.surcharge ∧
        shareLowered t p q ∧ setpointsKept t p q ∧ (q.tube t).state = .idle ∧
        (q.tube t).halted = (s.tube t).halted ∧ raisedAll (if c.step.quiet then [] else [.stepDone]) t p q ∧
        (q.tube t).lines.purge.commanded = 0 ∧ (q.tube t).credit = (s.tube t).credit ∧
        (q.tube t).owed = (s.tube t).owed ∧ madeDue t p q)

/-- Tier 2. The expiry of a recovery counter releases the surcharge share as a whole (R126, R64), that of a holdback counter
brings the tube into FAULT-HOLD with HOLDBACK-TIMEOUT (R42, R143), and that of an admission-wait counter removes the claim and
ends the step FAILED with ADMIT-TIMEOUT and the tube halted (R85, R18). The claim that leaves, the grant total that falls and
the line that closes by it make their evaluations due (R77, R78, R87, R100, R105), and each composes the tube's ceilings again,
those that fall sent at once (R66, R67). Everything else of the tube stands: at a release all but the recovery; at an entry
CARRIER and OXY, the pointer, the readings and open flags, without an open DOPANT line the purge account, and short of a motion
the loader; at an admission wait's end all its gas and the loader. Of the records, the admission wait of a step SUSPENDED from
ADMITTING is log entry 41, and the notes of an automatic purge's are log entry 16. -/
def Obligations.WaitsExpire : Prop :=
  ∀ (s : State) (t : TubeId) (k : DwellCounter), k.fresh = false → k.count ≤ 1 → k.reloads = 0 →
    (.counter t .recovery ∈ s.boundaryDue → (s.tube t).loader.recoveryCounter = some k →
      let p := dropBoundary (openEvent s) (.counter t .recovery)
      ∃ q : State, exec (.recoveryCounterExpiry t) s = .next (settle q) ∧ elsewhereKept t p q ∧
        (q.tube t).grant.surcharge = .zero ∧ (q.tube t).grant.step = (s.tube t).grant.step ∧
        (q.tube t).loader.recovery = .none ∧ (q.tube t).loader.recoveryCounter = none ∧ flagsKept p q ∧
        (q.tube t).current = (s.tube t).current ∧ (q.tube t).state = (s.tube t).state ∧
        q.tube t = { s.tube t with
          grant := { (s.tube t).grant with surcharge := .zero }
          loader := { (s.tube t).loader with recovery := .none, recoveryCounter := none }
          zones := (q.tube t).zones } ∧
        (∀ z, zoneKept ((s.tube t).zones.get z) ((q.tube t).zones.get z)) ∧ ceilingsFollow t p q ∧ madeDue t p q) ∧
    (.counter t .holdback ∈ s.boundaryDue → (s.tube t).holdback.counter = some k → (s.tube t).works →
      (s.tube t).state ≠ .suspended →
      let p := dropBoundary (openEvent s) (.counter t .holdback)
      ∃ q : State, exec (.holdbackCounterExpiry t) s = .next (settle q) ∧ faultEntered t .holdbackTimeout p q ∧
        elsewhereKept t p q ∧ faultStands t .holdbackTimeout p q ∧
        (∀ z, zoneStands ((s.tube t).zones.get z) ((q.tube t).zones.get z)) ∧ ceilingsFollow t p q) ∧
    ∀ (d : Claim) (c : CurrentStep), .counter t .admission ∈ s.boundaryDue → claimOf s t = some d →
      d.counter = some k → (s.tube t).state ≠ .suspended → (s.tube t).current = some c →
      let p := dropBoundary (openEvent s) (.counter t .admission)
      ∃ q : State, exec (.admissionWaitExpiry t) s = .next (settle q) ∧ stepEnded t c (.failed .admitTimeout) p q ∧
        elsewhereKept t p q ∧ shareLowered t p q ∧ (∀ e ∈ q.arbiter.claims, e.tube ≠ t) ∧
        gasStands (s.tube t) (q.tube t) ∧ loaderStands (s.tube t) (q.tube t) ∧
        ((s.tube t).state ≠ .off → ceilingsFollow t p q) ∧ (q.tube t).grant.surcharge = (s.tube t).grant.surcharge ∧
        (q.tube t).state = .idle ∧ (q.tube t).halted = true ∧
        raisedAll (if c.step.quiet then [.halted] else [.stepDone, .halted]) t p q ∧ madeDue t p q

/-- Tier 2. The changes of the two filtered facility inputs, at the third sample in a row that differs (R162). CURTAIL asserted
makes a shed pass due, released an evaluation of the Claim List, and one of shedding while SHEDDING, and CURTAIL is raised on
every link (R72); EXHAUST-OK released closes every DOPANT line, making its tube owed, reports EXHAUST-LOST for each tube that
had it open and then, for each scrubber claim of a tube not SUSPENDED, ends its GAS-SET FAILED with EXHAUST, the tube IDLE and
halted and the claim gone (R101; that the evaluations a stage made due are taken at its end is log entry 24, and the order of
the reports log entry 37); asserted it ends the condition on every tube and evaluates the scrubber FIFO (R101). -/
def Obligations.FacilityInputsChange : Prop :=
  ∀ s : State,
    (.curtailFilter ∈ s.boundaryDue → s.curtailInput = true → s.curtail = ⟨false, 2⟩ →
      ∃ q : State, exec .curtailAsserted s = .next q ∧
        q = raiseCurtail (settle (dueShed { dropBoundary (openEvent s) .curtailFilter with curtail := ⟨true, 0⟩ })) ∧
        ∀ l, (q.link l).curtailFlag = true) ∧
    (.curtailFilter ∈ s.boundaryDue → s.curtailInput = false → s.curtail = ⟨true, 2⟩ →
      ∃ q : State, exec .curtailReleased s = .next q ∧
        q = raiseCurtail (settle (dueClaims (dueShedWhileShedding
          { dropBoundary (openEvent s) .curtailFilter with curtail := ⟨false, 0⟩ }))) ∧
        ∀ l, (q.link l).curtailFlag = true) ∧
    (.exhaustFilter ∈ s.boundaryDue → s.exhaustInput = false → s.exhaust = ⟨true, 2⟩ →
      ∃ p r q : State, exec .exhaustLost s = .next (settle q) ∧
        r = (TubeId.all.filter fun t => (s.tube t).lines.dopant.isOpen).foldl
          (fun r t => reportCause t .exhaustLost r) (settle p) ∧
        scrubberClaimsFailed r q ∧
        p.exhaust = ⟨false, 0⟩ ∧ p.gas = s.gas ∧ p.arbiter = s.arbiter ∧ p.links = s.links ∧
        p.due = { s.due with
          scrubber := s.due.scrubber || TubeId.all.any fun t => (s.tube t).lines.dopant.isOpen } ∧
        ∀ t, (p.tube t).lines.dopant.commanded = 0 ∧ dopantShut id (s.tube t) (p.tube t) ∧
          p.tube t = { s.tube t with
            lines := (p.tube t).lines
            owed := (p.tube t).owed
            credit := (p.tube t).credit
            remainder := (p.tube t).remainder } ∧
          ((s.tube t).lines.dopant.isOpen = false → p.tube t = s.tube t)) ∧
    (.exhaustFilter ∈ s.boundaryDue → s.exhaustInput = true → s.exhaust = ⟨false, 2⟩ →
      exec .exhaustRestored s =
        .next (settle (dueScrubber ({ dropBoundary (openEvent s) .exhaustFilter with exhaust := ⟨true, 0⟩ }.onTubes fun u =>
          { u with fault := { u.fault with exhaustLost := false } }))))

/-- Tier 2. The walk of the Claim List where it grants nothing, in a stack that waits for nothing (R74, R78, R79, R80, R82,
R93). With an empty list an evaluation does nothing (R78); that a pacing time then stands, where R79 has an evaluation first
discard it, is log entry 9. The walk goes past a claim whose level is not below M, one whose tube is SUSPENDED, and one that
does not fit and has a bypass count below 3. One that goes past every claim of a list that is not empty, and one stopped by an
eligible claim that does not fit at a bypass count of 3 or more, changes the reported treatments alone and leaves no pacing
time, and so does one that comes to a claim that fits while SHEDDING; one that comes to a claim that fits while a pacing test
fails sets the pacing time to the later of the newest raise's stamp plus ts and the Nw-th newest's plus Tw. No bypass count
changes. -/
def Obligations.WalkWithoutGrant : Prop :=
  ∀ s : State, s.quiet →
    let leaves (claims : List Claim) (pacing : Option Stamp) :=
      settle (dueClaims s) = { s with arbiter := { s.arbiter with claims := claims, pacing := pacing } }
    (s.arbiter.claims = [] → settle (dueClaims s) = s) ∧
    (s.arbiter.claims ≠ [] → (∀ d ∈ s.arbiter.claims, walkPasses s d) →
      leaves (s.arbiter.claims.map (walkedPast s)) none) ∧
    ∀ (ahead behind : List Claim) (c : Claim), walkReaches s ahead c behind →
      let ends (treatment : Treatment) :=
        ahead.map (walkedPast s) ++ { c with treatment := treatment } :: behind.map Claim.unreached
      (¬claimFits s c → 3 ≤ c.bypass → leaves (ends .blocking) none) ∧
      (claimFits s c → s.arbiter.shedding = true → leaves (ends .candidate) none) ∧
      (claimFits s c → s.arbiter.shedding = false → ¬staggerOpen s ∨ ¬windowOpen s →
        ∀ (newest : Raise) (older : List Raise), s.arbiter.history.reverse = newest :: older → 0 < s.arbiter.windowCount →
          let short (span : Nat) (r : Raise) := span - (s.seconds - r.stamp).toNat
          ∃ d : Nat, leaves (ends .candidate) (some (s.seconds + BitVec.ofNat 32 d)) ∧
            short s.arbiter.stagger newest ≤ d ∧
            (∀ r, (newest :: older)[s.arbiter.windowCount - 1]? = some r → short s.arbiter.window r ≤ d) ∧
            (d = short s.arbiter.stagger newest ∨
              ∃ r, (newest :: older)[s.arbiter.windowCount - 1]? = some r ∧ d = short s.arbiter.window r))

/-- Tier 2. The pacing time and the grant of a claim. At the pacing time the Claim List is evaluated (R80). An evaluation whose
walk comes to a claim that fits, past claims that are masked, SUSPENDED or do not fit at a bypass count below 3, grants it
while SHEDDING is clear and both pacing tests pass (R79, R80), in the stages of R83: the grant record and the last grant mark
are written, the raise is entered in the history (R81), the bypass counts of the eligible claims ahead rise by 1 and no others
(R82), the claim leaves, GRANTED is raised, the ceilings are composed again from the new shares (R66; they rise at the next
update, R67), and the tube proceeds: a RAMP or a service ramp with its zones loaded as R32 gives, and the "rate clamped" note
where the natural cooling rate cuts a RAMP's; where a push then begins to move from a position of none to a target below the
mouth, the direction is the free value of log entry 3. This holds of the evaluation at the pacing time, in a stack that waits
for nothing, and of one that is due. -/
def Obligations.ClaimGranted : Prop :=
  (∀ s : State, .pacing ∈ s.boundaryDue → s.arbiter.pacing = some s.seconds →
    exec .pacingTimeReached s = .next (settle (dueClaims (dropBoundary (openEvent s) .pacing)))) ∧
  ∀ (s x : State) (ahead behind : List Claim) (c : Claim),
    (.pacing ∉ s.boundaryDue ∧ s.due.claims = true ∧ x = s) ∨
      (.pacing ∈ s.boundaryDue ∧ s.arbiter.pacing = some s.seconds ∧ s.quiet ∧ s.listsBounded ∧
        x = dropBoundary s .pacing) →
    walkReaches s ahead c behind → claimFits s c → s.arbiter.shedding = false → staggerOpen s → windowOpen s →
    ∃ p : State, exec .claimGrant s = .next (settle (dueClaims (proceedGranted c p))) ∧
      elsewhereKept c.tube x p ∧ raisedAll [.granted] c.tube s p ∧
      (p.tube c.tube).grant.mark = some ⟨s.seconds, s.arbiter.grants⟩ ∧
      p.arbiter.history = appendRaise s.arbiter.history ⟨s.seconds, c.tube⟩ ∧
      p.arbiter.claims = ahead.map (overtaken s) ++ behind.map Claim.unreached ∧ p.arbiter.pacing = none ∧
      (p.tube c.tube).current = (s.tube c.tube).current ∧ (p.tube c.tube).state = (s.tube c.tube).state ∧
      p.tube c.tube = { s.tube c.tube with grant := (p.tube c.tube).grant, zones := (p.tube c.tube).zones } ∧
      (∀ z, zoneKept ((s.tube c.tube).zones.get z) ((p.tube c.tube).zones.get z)) ∧ ceilingsFollow c.tube x p ∧
      (c.kind = .surcharge → (p.tube c.tube).grant.step = (s.tube c.tube).grant.step ∧
        (∀ z, (p.tube c.tube).grant.surcharge.get z = (s.tube c.tube).grant.surcharge.get z + c.values.get z) ∧
        ∀ k g hot, (s.tube c.tube).current = some k → k.step.body = .pushIn g hot →
          let u := s.tube c.tube
          let target := k.step.body.target u.record
          (u.loader.position ≠ some target →
            motionBegun c.tube { k with wait := some (s.seconds - k.start) } (travelCopy u.record)
                (u.loader.hotSpeed.getD u.record.coldSpeed) target p (proceedGranted c p) ∧
              ((proceedGranted c p).tube c.tube).grant = (p.tube c.tube).grant ∧
              ((proceedGranted c p).tube c.tube).loader.recovery = .held ∧
              ((proceedGranted c p).tube c.tube).loader.recoveryCounter = none) ∧
          (u.loader.position = some target →
            motionArrived c.tube { k with wait := some (s.seconds - k.start) }
                (p.onLoader c.tube fun l => { l with recovery := .held, recoveryCounter := none }) (proceedGranted c p) ∧
              motionOver u ((proceedGranted c p).tube c.tube) ∧ gasStands u ((proceedGranted c p).tube c.tube))) ∧
      (c.kind ≠ .surcharge → (p.tube c.tube).grant.step = c.values ∧
        (p.tube c.tube).grant.surcharge = (s.tube c.tube).grant.surcharge) ∧
      (c.kind = .resume → ((proceedGranted c p).tube c.tube) = { p.tube c.tube with shedPaused := false }) ∧
      (c.kind = .service → ∀ rate zones, (s.tube c.tube).service.ramp = .waiting rate zones →
        ((proceedGranted c p).tube c.tube).service.ramp = .running ∧
          zonesLoaded rate zones (s.tube c.tube) ((proceedGranted c p).tube c.tube)) ∧
      (c.kind = .step → ∀ k, (s.tube c.tube).current = some k →
        (∀ d band, k.step.body = .soak d band → ((proceedGranted c p).tube c.tube).state = .soaking ∧
          gasStands (s.tube c.tube) ((proceedGranted c p).tube c.tube) ∧
          ((proceedGranted c p).tube c.tube).loader = (s.tube c.tube).loader ∧
          ((proceedGranted c p).tube c.tube).stepCounter = some (loadCounter d) ∧
          ((proceedGranted c p).tube c.tube).current = some { k with wait := some (s.seconds - k.start) }) ∧
        ∀ rate band zones, k.step.body = .ramp rate band zones →
          rampBegun { k with wait := some (s.seconds - k.start) } rate zones (s.tube c.tube)
            ((proceedGranted c p).tube c.tube))

/-- Tier 2. What a boundary finds wrong with the plant, and the end of an automatic purge, in a stack that waits for nothing. A
stall count that reaches 0 brings a MOVING tube into FAULT-HOLD with MOTION-STALL (R128, R143), and in SERVICE it ends the jog
with the cause in the set (R163; that the jog ends even if the cause was in the set is log entry 19). A low count that reaches
10 closes the line and brings the tube into FAULT-HOLD with FLOW-LOW for PURGE and DOPANT (the admission wait of a step
SUSPENDED from ADMITTING: log entry 41), in SERVICE the cause joining the set (R111, R149, R163), and sets the line's flag
alone for CARRIER and OXY. A credit that reaches the purge volume clears the owed flag and ends an automatic purge, its record
pushed (the notes of such a record: log entry 16) and its line closed, and the pull begins with its first segment, or is DONE
at once where the boat stands at the target (R17, R108, R109, R120, R123; from a position of none to a target below the mouth
the direction is the free value of log entry 3). What departs, falls or closes by these makes its evaluation due (R77, R78,
R87, R100, R105). Each tube that an event enters FAULT-HOLD has its ceilings composed again, those that fall sent at once (R66,
R67), and in every case the pointer, the readings and the open flags stand, with CARRIER and OXY as they are commanded. -/
def Obligations.PlantEventsOfABoundary : Prop :=
  ∀ (s : State) (t : TubeId), s.quiet →
    (∀ n, .stall t ∈ s.boundaryDue → (s.tube t).loader.isMoving = true → (s.tube t).loader.stallFresh = false →
      (s.tube t).loader.stallCount = some n → n ≤ 1 →
      let p := dropBoundary (openEvent s) (.stall t)
      ((s.tube t).state = .moving →
        ∃ q : State, exec (.motionStall t) s = .next (settle q) ∧ faultEntered t .motionStall p q ∧
          elsewhereKept t p q ∧ faultStands t .motionStall p q ∧
          (∀ z, zoneStands ((s.tube t).zones.get z) ((q.tube t).zones.get z)) ∧ ceilingsFollow t p q) ∧
      ((s.tube t).state = .service → (s.tube t).fault.causes.motionStall = false → (s.tube t).service.jog ≠ none →
        ∃ q : State, exec (.motionStall t) s = .next (stopJog t (settle q)) ∧ elsewhereKept t p q ∧
          (q.tube t).state = .service ∧ (q.tube t).service.jog = none ∧ (q.tube t).loader.state = .stopped ∧
          (q.tube t).fault.causes = (s.tube t).fault.causes.insert .motionStall ∧ causeStands t .motionStall p q ∧
          (∀ z, zoneStands ((s.tube t).zones.get z) ((q.tube t).zones.get z)) ∧ loweredSent t p q ∧
          raisedAll (if (s.tube t).fault.causes.isEmpty then [.fault] else []) t p q ∧ madeDue t p q) ∧
      ((s.tube t).state = .service → (s.tube t).fault.causes.motionStall = true → (s.tube t).service.jog ≠ none →
        ∃ q : State, exec (.motionStall t) s = .next q ∧ elsewhereKept t p q ∧
          q.tube t = { s.tube t with
            service := { (s.tube t).service with jog := none }
            loader := (q.tube t).loader } ∧
          motionOver (s.tube t) (q.tube t) ∧ surchargeKept t s q ∧ flagsKept p q)) ∧
    (.gas t ∈ s.boundaryDue →
      let p := dropBoundary (openEvent s) (.gas t)
      let u := s.tube t
      (∀ line, autoPurgeOver u.creditPurge.testOwed = false → (u.lines.get line).lowReached = true →
        (line = .purge ∨ line = .dopant → u.works →
          ∃ q : State, exec (.flowLow t line) s = .next (settle (settle q)) ∧ faultEntered t .flowLow p q ∧
            elsewhereKept t p q ∧ tubeStands u (q.tube t) ∧ conditionsStand .flowLow u.fault (q.tube t).fault ∧
            (∀ z, zoneStands (u.zones.get z) ((q.tube t).zones.get z)) ∧ ceilingsFollow t p q ∧
            (u.effective = .moving → motionOver u (q.tube t)) ∧ (u.effective ≠ .moving → motionStands u (q.tube t))) ∧
        (line = .purge ∨ line = .dopant → ¬u.works →
          ∃ q : State, exec (.flowLow t line) s =
              .next (if u.state = .off ∨ u.fault.causes.has .flowLow = true then settle q else settle (settle q)) ∧
            causeHeard t .flowLow p q ∧ elsewhereKept t p q ∧ ((q.tube t).lines.get line).commanded = 0 ∧
            (∀ m, m = .carrier ∨ m = .oxy → ((q.tube t).lines.get m).commanded = (u.lines.get m).commanded) ∧
            (q.tube t).pointer = u.pointer ∧ (q.tube t).current = u.current ∧
            conditionsStand .flowLow u.fault (q.tube t).fault ∧
            (∀ z, zoneStands (u.zones.get z) ((q.tube t).zones.get z)) ∧
            (line = .dopant → (q.tube t).owed = true ∧ (q.tube t).credit = 0 ∧ (q.tube t).remainder = 0)) ∧
        (line = .carrier ∨ line = .oxy → u.lines.purge.lowReached = false → u.lines.dopant.lowReached = false →
          ∃ q : State, exec (.flowLow t line) s = .next q ∧ elsewhereKept t p q ∧
            (q.tube t).lines.get line = { u.lines.get line with flowLow := true, lowCount := 10 } ∧
            (∀ m, ((q.tube t).lines.get m).commanded = (u.lines.get m).commanded ∧
              ((q.tube t).lines.get m).measured = (u.lines.get m).measured) ∧
            q.tube t = { u with
              lines := (q.tube t).lines
              owed := (q.tube t).owed
              credit := (q.tube t).credit
              remainder := (q.tube t).remainder })) ∧
      ∀ c, u.state = .purging → u.current = some c → c.auto = .running → u.recordValid = true →
        u.record.purgeVolume ≤ u.creditPurge.credit →
        ∃ q m : State, exec (.autoPurgeEnd t) s = .next (settle (testLines t (settle m))) ∧
          (q.tube t).owed = false ∧ autoPurgeEnded t c p q ∧ pullBegun t c q m)

/-! ### The zone trajectory update and the rows that take one of its events -/

/-- Tier 2. A zone update (R31): the events it is made of are every zone without a reading and then every tube (their order is
the choice of log entry 4, and that a zone's readings are told by its flag `reported` is log entry 28). An interval without a
reading, below the fourth, raises the zone's missed count by 1 and leaves PV and the open flag, and a fifth leaves the count at
4 (R44). At a tube's own event the over-temperature test and holdback come first; then, short of the update that lands the last
listed zone, the setpoints advance where the tube is RAMPING without holdback and not shed-paused, or in SERVICE with its ramp
running (R31, R36), track where it is IDLE with a grant of 0 (R38), are 0 for an OFF tube (log entry 31) or are held; and then
every zone's reported setpoint and ceiling are sent (R30, R67). -/
def Obligations.UpdateTaken : Prop :=
  ∀ (s : State) (order later : List UpdateItem) (t : TubeId), s.updateDue = [] →
    (∃ q : State, exec (.zoneUpdate order later) s = .next q ∧ q.seconds = s.seconds ∧
      ∀ j, j ∈ q.updateDue ↔ j ∈ updateItems s ∧ j ∈ later ∧ j ∉ order) ∧
    (∀ j, j ∈ updateItems s ↔ (∃ k, j = .tube k) ∨
      ∃ k z, j = .missed k z ∧ ((s.tube k).zones.get z).reported = false) ∧
    (∀ z,
      let zone := (s.tube t).zones.get z
      zone.reported = false → zone.missed < 3 ∨ (zone.missed = 4 ∧ zone.isOpen = true) →
      ∃ q : State, exec (.zoneUpdate [.missed t z] (updateItems s)) s = .next (settle q) ∧
        elsewhereKept t (dropUpdate (beginUpdate (openEvent s)) (.missed t z)) q ∧
        ((q.tube t).zones.get z).missed = min (zone.missed + 1) 4 ∧ ((q.tube t).zones.get z).isOpen = zone.isOpen ∧
        ((q.tube t).zones.get z).pv = zone.pv ∧ (q.tube t).state = (s.tube t).state ∧ (q.tube t).fault = (s.tube t).fault) ∧
    ∃ p r : State, exec (.zoneUpdate [.tube t] (updateItems s)) s = .next r ∧
      p = updateEvaluate t (dropUpdate (beginUpdate (openEvent s)) (.tube t)) ∧
      (∀ z, ((r.tube t).zones.get z).sentCeiling = ((r.tube t).zones.get z).ceiling ∧
        ((r.tube t).zones.get z).sentSetpoint =
          if (r.tube t).state = .off then 0 else ((r.tube t).zones.get z).reportedSetpoint) ∧
      (let u := p.tube t
       ¬(u.rampMoves ∧ u.rampFinishes) → ∀ z,
         ((r.tube t).zones.get z).s =
           (if u.rampMoves then (u.zones.get z).advance.s
            else if u.state = .idle ∧ u.stepTotal + u.surchargeTotal = 0 then
              (if (u.zones.get z).isOpen then (u.zones.get z).s else min (64 * (u.zones.get z).pv) 800000)
            else if u.state = .off then 0 else (u.zones.get z).s) ∧
         ((r.tube t).zones.get z).ramp = if u.rampMoves then (u.zones.get z).advance.ramp else (u.zones.get z).ramp)

/-- Tier 2. The evaluation of holdback and of the over-temperature test at an update of one tube that raises no OVER-TEMP and
ends no ramp. Holdback is asserted exactly where the lag of a zone that is not open exceeds the step's band (R39, R40), the max
lag is the largest lag so far (R43), and the counter is loaded with the limit, unless that is 0, by the update that asserts
holdback, kept while it stays asserted, and discarded where it is released (R42); in other tube states holdback stays as it is.
Each zone's excess count rises by 1 up to 20 where the zone reads above its band, and is 0 where it does not or the zone is
open (R46, R48; that the count of a zone that opens becomes 0 at its next update is log entry 34), and an OVER-TEMP condition
goes where no zone that is not open is above its band or at 13000 (R48; log entry 23). The setpoints are those before the
update moves them. Of the tube only its zones, its holdback and the condition change, and of the zones no reading. -/
def Obligations.HoldbackEvaluated : Prop :=
  ∀ (s : State) (t : TubeId), s.updateDue = [] →
    let u := s.tube t
    let hot (z : ZoneId) := (u.zones.get z).aboveBand u.record.overTempBand
    let burning (z : ZoneId) := (u.zones.get z).isOpen = false ∧ 13000 ≤ (u.zones.get z).pv
    let lag (z : ZoneId) := lagOf (u.zones.get z)
    let settled := u.fault.overTemp = true ∨ u.state = .off ∨ ∀ z, ¬burning z ∧ (hot z → (u.zones.get z).excess < 19)
    let heldBack := ∃ c z, u.current = some c ∧ (u.zones.get z).isOpen = false ∧ c.band < lag z
    settled →
    (u.rampFinishes → u.state = .ramping ∧ (u.shedPaused = true ∨ heldBack) ∨ u.state = .service ∧ u.service.ramp ≠ .running ∨
      (u.state ≠ .ramping ∧ u.state ≠ .service)) →
    ∃ r : State, exec (.zoneUpdate [.tube t] (updateItems s)) s = .next r ∧
      (let h := u.holdback
       let g := (r.tube t).holdback
       (u.state = .ramping ∨ u.state = .soaking → ∀ c, u.current = some c →
         (g.asserted = true ↔ ∃ z, (u.zones.get z).isOpen = false ∧ c.band < lag z) ∧
         (∀ z, (u.zones.get z).isOpen = false → lag z ≤ g.maxLag) ∧ h.maxLag ≤ g.maxLag ∧
         (g.maxLag = h.maxLag ∨ ∃ z, (u.zones.get z).isOpen = false ∧ g.maxLag = lag z) ∧ g.seconds = h.seconds ∧
         (g.asserted = false → g.counter = none) ∧
         (g.asserted = true → h.asserted = true → g.counter = h.counter) ∧
         (g.asserted = true → h.asserted = false → u.record.holdbackLimit = 0 → g.counter = none) ∧
         (g.asserted = true → h.asserted = false → u.record.holdbackLimit ≠ 0 →
           g.counter = some (loadCounter u.record.holdbackLimit))) ∧
       (u.state ≠ .ramping → u.state ≠ .soaking → g = h)) ∧
      (u.state ≠ .off →
        (∀ z, ((r.tube t).zones.get z).excess = 0 ∨ hot z) ∧
        (∀ z, hot z → ((r.tube t).zones.get z).excess = min ((u.zones.get z).excess + 1) 20) ∧
        ((r.tube t).fault.overTemp = true ↔ u.fault.overTemp = true ∧ ∃ z, hot z ∨ burning z)) ∧
      (u.state = .off → (r.tube t).fault = u.fault ∧ ∀ z, ((r.tube t).zones.get z).excess = (u.zones.get z).excess) ∧
      r.tube t = { u with
        zones := (r.tube t).zones
        holdback := (r.tube t).holdback
        fault := { u.fault with overTemp := (r.tube t).fault.overTemp } } ∧
      ∀ z, ((r.tube t).zones.get z).pv = (u.zones.get z).pv ∧ ((r.tube t).zones.get z).isOpen = (u.zones.get z).isOpen ∧
        ((r.tube t).zones.get z).missed = (u.zones.get z).missed

/-- Tier 2. What an update of one tube brings about. OVER-TEMP arises where a zone reads 13000 or more, or has been above its
band for 20 updates (R48; that the figure of 13000, like the band, is tested only for zones that are not open is the model's
deduction, log entry 23, on which both clauses rest), and brings a working tube into FAULT-HOLD with its grant and ceilings 0
(R143), joining the set of one in FAULT-HOLD or SERVICE (R148, R149). At an update at which OVER-TEMP does not arise and the
tube's ramp moves (it is RAMPING, not shed-paused and no lag above its band, or in SERVICE with its ramp running: R31, R36,
R40), the landing of the last listed zone, each zone at no more than its step from its target landing on it (R33, R34), ends a
RAMP DONE (R35), and a service ramp with the share lowered (R166), and composes the ceilings again, those that fall sent before
the update sends all (R66, R67); the tube's gas, its readings and open flags and its loader stand. Of the records, the
admission wait of a step SUSPENDED from ADMITTING is log entry 41, and the notes of an automatic purge's are log entry 16. -/
def Obligations.UpdateEvents : Prop :=
  ∀ (s : State) (t : TubeId), .tube t ∈ s.updateDue →
    let p := dropUpdate (openEvent s) (.tube t)
    let u := s.tube t
    (u.overTempDue →
      let goesOn (x : State) := updateSend t (updateMove t (x.onTube t Tube.updateHoldback))
      (u.works → ∃ q : State, exec (.overTempArises t) s = .next (goesOn (settle q)) ∧
        faultEntered t .overTemp p q ∧ elsewhereKept t p q ∧ faultStands t .overTemp p q ∧
        (q.tube t).fault.overTemp = true) ∧
      (¬u.works → ∃ q : State, exec (.overTempArises t) s =
          .next (goesOn (if u.fault.causes.overTemp = true then q else settle q)) ∧
        causeHeard t .overTemp p q ∧ elsewhereKept t p q ∧ causeStands t .overTemp p q ∧
        (q.tube t).fault.overTemp = true)) ∧
    (¬u.overTempDue → u.rampFinishes →
      let landed (v : State) := elsewhereKept t p v ∧ v.links = s.links ∧ v.due = s.due ∧ (v.tube t).grant = u.grant ∧
        v.tube t = { u with
          zones := (v.tube t).zones
          holdback := (v.tube t).holdback
          fault := { u.fault with overTemp := (v.tube t).fault.overTemp } } ∧
        ∀ z, ((v.tube t).zones.get z).pv = (u.zones.get z).pv ∧ ((v.tube t).zones.get z).isOpen = (u.zones.get z).isOpen ∧
          ((v.tube t).zones.get z).reported = (u.zones.get z).reported ∧
          ((v.tube t).zones.get z).missed = (u.zones.get z).missed ∧
          (∀ r, (u.zones.get z).ramp = some r → ((v.tube t).zones.get z).s =
            (if r.landed then (u.zones.get z).s else 64 * r.target)) ∧
          ((u.zones.get z).ramp = none → ((v.tube t).zones.get z).s = (u.zones.get z).s)
      (∀ c, u.state = .ramping → u.shedPaused = false → u.current = some c →
        (∀ z, (u.zones.get z).isOpen = false → lagOf (u.zones.get z) ≤ c.band) →
        ∃ v q : State, exec (.rampComplete t) s = .next (updateSend t (settle q)) ∧ landed v ∧
          (v.tube t).holdback.seconds = u.holdback.seconds ∧ u.holdback.maxLag ≤ (v.tube t).holdback.maxLag ∧
          (∀ z, (u.zones.get z).isOpen = false → lagOf (u.zones.get z) ≤ (v.tube t).holdback.maxLag) ∧
          ((v.tube t).holdback.maxLag = u.holdback.maxLag ∨
            ∃ z, (u.zones.get z).isOpen = false ∧ (v.tube t).holdback.maxLag = lagOf (u.zones.get z)) ∧
          stepEnded t c .done v q ∧ elsewhereKept t v q ∧ shareLowered t v q ∧ setpointsKept t v q ∧
          gasStands u (q.tube t) ∧ loaderStands u (q.tube t) ∧ ceilingsFollow t v q ∧
          (q.tube t).state = .idle ∧ raisedAll (if c.step.quiet then [] else [.stepDone]) t v q ∧ madeDue t v q) ∧
      (u.state = .service → u.service.ramp = .running →
        ∃ v q : State, exec (.serviceRampComplete t) s = .next (updateSend t (settle (dueClaims q))) ∧ landed v ∧
          elsewhereKept t v q ∧ shareLowered t v q ∧ setpointsKept t v q ∧ (q.tube t).service.ramp = .none ∧
          (∀ z, ((q.tube t).zones.get z).ramp = none) ∧ (q.tube t).state = .service ∧
          q.tube t = { v.tube t with
            service := { u.service with ramp := .none }
            grant := { u.grant with step := (q.tube t).grant.step }
            zones := (q.tube t).zones } ∧
          (∀ z, zoneStands ((v.tube t).zones.get z) ((q.tube t).zones.get z)) ∧ ceilingsFollow t v q ∧ flagsKept v q))

/-- Tier 2. A zone's readings (R44, R45, R47): a valid one is held at 13000 and closes the zone with its missed count 0, an
open one and the fourth interval missed leave PV and open the zone, and the opening of a second zone brings a working tube into
FAULT-HOLD with TC-OPEN, sets the condition of an OFF tube alone and joins the set of one in FAULT-HOLD or SERVICE (R142, R148,
R149), as the closing of all but one ends the condition. A zone that opens or closes has its ceiling composed again, limited to
its hold share while it is open, and one that falls by it is sent at once (R46, R66, R67); nothing of the tube but the zone and
the condition has then changed. That an open reading leaves the missed count as it is is log entry 12, and the flag `reported`
that a reading sets is log entry 28. Of the records, the admission wait of a step SUSPENDED from ADMITTING is log entry 41, and
the notes of an automatic purge's are log entry 16. -/
def Obligations.ReadingsTaken : Prop :=
  ∀ (s : State) (t : TubeId) (z : ZoneId) (value : Nat),
    let zone := (s.tube t).zones.get z
    let others := (ZoneId.all.filter fun y => y != z && ((s.tube t).zones.get y).isOpen).length
    let alone (q : State) :=
      (let w := (q.tube t).zones.get z
       w = { zone with
         pv := w.pv
         isOpen := w.isOpen
         reported := w.reported
         missed := w.missed
         ceiling := w.ceiling
         term := w.term
         sentCeiling := w.sentCeiling }) ∧
      (∀ y, y ≠ z → (q.tube t).zones.get y = (s.tube t).zones.get y) ∧
      q.tube t = { s.tube t with zones := (q.tube t).zones, fault := (q.tube t).fault } ∧
      (((q.tube t).zones.get z).isOpen ≠ zone.isOpen → ceilingComposed q t z) ∧ loweredSent t s q ∧ flagsKept s q
    let heard (q : State) :=
      if (s.tube t).state = .off ∨ (s.tube t).fault.causes.tcOpen = true then settle q else settle (settle q)
    (zone.isOpen = false ∨ others ≠ 1 →
      ∃ q : State, exec (.zoneReading t z value false) s = .next (settle q) ∧ elsewhereKept t s q ∧
        ((q.tube t).zones.get z).pv = min value 13000 ∧ ((q.tube t).zones.get z).missed = 0 ∧
        ((q.tube t).zones.get z).isOpen = false ∧ ((q.tube t).zones.get z).reported = true ∧ setpointsKept t s q ∧ alone q ∧
        (q.tube t).state = (s.tube t).state ∧ (q.tube t).fault = (s.tube t).fault) ∧
    (zone.isOpen = true → others = 1 →
      ∃ q : State, exec (.zoneReading t z value false) s = .next (settle q) ∧ elsewhereKept t s q ∧
        ((q.tube t).zones.get z).pv = min value 13000 ∧ ((q.tube t).zones.get z).isOpen = false ∧ setpointsKept t s q ∧
        alone q ∧ (q.tube t).state = (s.tube t).state ∧ (q.tube t).fault = { (s.tube t).fault with tcOpen := false }) ∧
    (zone.isOpen = true ∨ others ≠ 1 →
      ∃ q : State, exec (.zoneReading t z value true) s = .next (settle q) ∧ elsewhereKept t s q ∧
        ((q.tube t).zones.get z).pv = zone.pv ∧ ((q.tube t).zones.get z).isOpen = true ∧
        ((q.tube t).zones.get z).missed = zone.missed ∧ setpointsKept t s q ∧ alone q ∧ (q.tube t).state = (s.tube t).state ∧
        (q.tube t).fault = (s.tube t).fault) ∧
    (zone.isOpen = false → others = 1 → (s.tube t).works →
      ∃ q : State, exec (.zoneReading t z value true) s = .next (settle (settle q)) ∧ faultEntered t .tcOpen s q ∧
        elsewhereKept t s q ∧ faultStands t .tcOpen s q ∧ (∀ y, ceilingComposed q t y) ∧ (q.tube t).fault.tcOpen = true) ∧
    (zone.isOpen = false → others = 1 → ¬(s.tube t).works →
      ∃ q : State, exec (.zoneReading t z value true) s = .next (heard q) ∧ causeHeard t .tcOpen s q ∧
        elsewhereKept t s q ∧ causeStands t .tcOpen s q ∧ ceilingComposed q t z ∧ (q.tube t).fault.tcOpen = true ∧
        ((q.tube t).zones.get z).isOpen = true ∧
        ((q.tube t).zones.get z).pv = zone.pv) ∧
    (.missed t z ∈ s.updateDue → zone.missed = 3 →
      let p := dropUpdate (openEvent s) (.missed t z)
      (zone.isOpen = true ∨ others ≠ 1 →
        ∃ q : State, exec (.zoneReadingMissed t z) s = .next (settle q) ∧ elsewhereKept t p q ∧
          ((q.tube t).zones.get z).pv = zone.pv ∧ ((q.tube t).zones.get z).isOpen = true ∧
          ((q.tube t).zones.get z).missed = 4 ∧ setpointsKept t s q ∧ alone q ∧ (q.tube t).state = (s.tube t).state ∧
          (q.tube t).fault = (s.tube t).fault) ∧
      (zone.isOpen = false → others = 1 → (s.tube t).works →
        ∃ q : State, exec (.zoneReadingMissed t z) s = .next (settle (settle q)) ∧ faultEntered t .tcOpen p q ∧
          elsewhereKept t p q ∧ faultStands t .tcOpen p q ∧ (∀ y, ceilingComposed q t y) ∧ (q.tube t).fault.tcOpen = true) ∧
      (zone.isOpen = false → others = 1 → ¬(s.tube t).works →
        ∃ q : State, exec (.zoneReadingMissed t z) s = .next (heard q) ∧ causeHeard t .tcOpen p q ∧
          elsewhereKept t p q ∧ causeStands t .tcOpen p q ∧ ceilingComposed q t z ∧ (q.tube t).fault.tcOpen = true ∧
          ((q.tube t).zones.get z).isOpen = true ∧
          ((q.tube t).zones.get z).pv = zone.pv ∧ ((q.tube t).zones.get z).missed = 4))

/-! ### The field links -/

/-- Tier 2. The reports of the gas link and of the loader link (R95, R96, R117, R118, R122, R128): a flow report replaces the
line's measured flow, held at 2000, and nothing else; a position report that is no arrival replaces the position, held at 3000,
the sealed condition follows it, an open DOPANT line closes where the seal is lost, and for a moving loader short of its
segment end a change of the position loads the stall count and its reference again; one at or beyond the end of the first
segment and short of the target begins the second segment. Of the tube nothing changes but its loader, the notes of its current
step and, where the seal is lost with DOPANT open, that line and the purge account. -/
def Obligations.FieldReports : Prop :=
  (∀ (s : State) (t : TubeId) (line : LineId) (flow : Nat),
    exec (.flowReport t line flow) s =
      .next ((openEvent s).onLine t line fun l => { l with measured := min flow 2000 })) ∧
  ∀ (s : State) (t : TubeId) (position : Nat),
    let x := min position 3000
    let l := (s.tube t).loader
    l.reaches x = false →
    ∃ q : State, exec (.positionReport t position) s = .next (settle q) ∧ elsewhereKept t s q ∧
      (q.tube t).loader.position = some x ∧
      (q.tube t).loader.isSealed = ((s.tube t).recordValid && x == (s.tube t).record.limit) ∧
      (l.isSealed = true → (q.tube t).loader.isSealed = false →
        (q.tube t).lines.dopant.commanded = 0 ∧ dopantShut id (s.tube t) (q.tube t)) ∧
      (l.isSealed = false ∨ (q.tube t).loader.isSealed = true → gasStands (s.tube t) (q.tube t)) ∧
      q.tube t = { s.tube t with
        current := (q.tube t).current
        lines := (q.tube t).lines
        owed := (q.tube t).owed
        credit := (q.tube t).credit
        remainder := (q.tube t).remainder
        loader := (q.tube t).loader } ∧
      (q.tube t).state = (s.tube t).state ∧ (q.tube t).loader.state = l.state ∧ (q.tube t).loader.target = l.target ∧
      (l.state = .stopped → (q.tube t).current = (s.tube t).current ∧
        (q.tube t).loader = { l with position := some x, isSealed := (q.tube t).loader.isSealed }) ∧
      (l.state ≠ .stopped → l.endsSegment x = false → (q.tube t).current = (s.tube t).current ∧
        (q.tube t).loader = { l with
          position := some x
          isSealed := (q.tube t).loader.isSealed
          stallCount := (q.tube t).loader.stallCount
          stallRef := (q.tube t).loader.stallRef
          stallFresh := (q.tube t).loader.stallFresh } ∧
        (l.stallRef = some x → (q.tube t).loader.stallCount = l.stallCount) ∧
        (l.stallRef ≠ some x →
          (q.tube t).loader.stallCount = l.travel.map TravelCopy.stallTime ∧ (q.tube t).loader.stallRef = some x)) ∧
      ∀ (e g : Nat) (tr : TravelCopy) (k : CurrentStep), l.segmentEnd = some e → l.target = some g → l.travel = some tr →
        (s.tube t).current = some k →
        (l.state = .movingIn ∧ e ≤ x ∧ x < g) ∨ (l.state = .movingOut ∧ x ≤ e ∧ g < x) →
        segmentBegun t k tr (l.hotSpeed.getD tr.coldSpeed) (decide (l.state = .movingIn)) g
          (s.onLoader t fun l => { l with position := some x }) q

/-- Tier 2. The arrivals at a target. A step's motion that arrives ends DONE with the loader STOPPED and the motion's values
gone (R123); a push that holds a surcharge starts the recovery counter with the kept time, or releases the surcharge where that
is 0 (R126). A service jog that arrives becomes NONE (R164). The sealed condition follows the report (R118), and a seal so lost
closes an open DOPANT line (R102); everything else of the tube stands: its other lines, without such a closing its purge
account, its pointer, readings and open flags. The ceilings follow the lowered share (R66, R67). -/
def Obligations.MotionsArrive : Prop :=
  ∀ (s : State) (t : TubeId) (position g : Nat),
    let x := min position 3000
    let l := (s.tube t).loader
    let sealed := (s.tube t).recordValid && x == (s.tube t).record.limit
    let follows (q : State) :=
      motionOver { s.tube t with loader := { l with position := some x, isSealed := sealed } } (q.tube t) ∧
        (l.isSealed = true → sealed = false → dopantShut id (s.tube t) (q.tube t)) ∧
        (l.isSealed = false ∨ sealed = true → gasStands (s.tube t) (q.tube t))
    l.target = some g → (l.state = .movingIn ∧ g ≤ x) ∨ (l.state = .movingOut ∧ x ≤ g) →
    (∀ c, (s.tube t).state = .moving → (s.tube t).current = some c →
      ∃ q : State, exec (.loaderArrival t position) s = .next (settle q) ∧
        exec (.positionReport t position) s = .next (settle q) ∧ motionArrived t c s q ∧ elsewhereKept t s q ∧
        follows q ∧ ceilingsFollow t s q ∧ (q.tube t).loader.position = some x) ∧
    ((s.tube t).state = .service →
      ∃ q : State, exec (.serviceJogArrival t position) s = .next (settle q) ∧
        exec (.positionReport t position) s = .next (settle q) ∧ elsewhereKept t s q ∧
        (q.tube t).state = .service ∧ (q.tube t).service.jog = none ∧ (q.tube t).loader.position = some x ∧
        (q.tube t).loader.state = .stopped ∧ (q.tube t).loader.target = none ∧ (q.tube t).loader.travel = none ∧
        q.tube t = { s.tube t with
          service := { (s.tube t).service with jog := none }
          lines := (q.tube t).lines
          owed := (q.tube t).owed
          credit := (q.tube t).credit
          remainder := (q.tube t).remainder
          loader := (q.tube t).loader } ∧
        follows q ∧ surchargeKept t s q ∧ flagsKept s q ∧ madeDue t s q)

/-! ### What an event makes due, starts, and the grants of the two gas lists -/

/-- Tier 2. What an event made due is taken within it, until nothing is left (R9, R78, R87, R100, R105): a stack that waits for
nothing stays as it is; otherwise the first of these is taken and the rest after it: the start of the lowest tube whose queue
head can become current, the grant of the scrubber claim, the grant of the header claim, a shed pass, the grant of a claim.
That starts come before evaluations is R18 and R78; the rest of the order is log entry 7. -/
def Obligations.SettleTakes : Prop :=
  (∀ s : State, s.quiet ↔ s.due = Due.none ∧ ∀ t, ¬(s.tube t).mayStart) ∧
  (∀ s : State, s.quiet → settle s = s) ∧
  ∀ s : State, s.listsBounded → (settle s).quiet ∧
    (∀ t, (s.tube t).mayStart → (∀ j, j.toNat < t.toNat → ¬(s.tube j).mayStart) →
      exec (.stepStart t) s = .next (settle (openEvent s))) ∧
    ((∀ t, ¬(s.tube t).mayStart) →
      (∀ ahead c behind, s.due.scrubber = true → scrubberTakes s ahead c behind →
        (s.tube c.tube).loader.isSealed = true → slotsInUse s < s.gas.slots → s.exhaust.asserted = true →
        exec .scrubberClaimGrant s = .next (settle (openEvent s))) ∧
      (s.due.scrubber = false →
        (∀ ahead c behind, s.due.header = true → headerTakes s ahead c behind →
          headerAllocation s + c.flow ≤ s.gas.capacity → exec .headerClaimGrant s = .next (settle (openEvent s))) ∧
        (s.due.header = false → s.due.shed = true → settle s = settle (shedPass s)) ∧
        (s.due.header = false → s.due.shed = false → s.due.claims = true → .pacing ∉ s.boundaryDue →
          ∀ ahead c behind, walkReaches s ahead c behind → claimFits s c → s.arbiter.shedding = false → staggerOpen s →
            windowOpen s → exec .claimGrant s = .next (settle (openEvent s)))))

/-- Tier 2. A step's start (R9 to R14): the queue head becomes current with the stack second as its start stamp; the first
check that fails ends it FAILED with the tube halted, CAL-INVALID with the pointer where it was; and otherwise, with a valid
set named by the step in force from then on (R10, R55), it proceeds as its kind requires. A MARK, and a GAS-SET that opens no
closed DOPANT line, is DONE at once (R12, R14), the share lowered and STEP-DONE raised unless it is quiet (R18), a DOPANT line
it closes making the tube owed with its credit and remainder 0 (R98). A RAMP or SOAK whose demand is within the step total
begins, a RAMP with its zones loaded as R32 gives. A PUSH-IN keeps the recovery time of its set and its hot speed and is noted
where its surcharge is capped (R62); with no surcharge it begins to move with its first segment, as a PULL-OUT does that is not
owed (R13, R119 to R121), or is DONE at once where the boat stands at the target (R123). The others become ADMITTING with their
claim, and its list is evaluated (R78, R100, R105). An end and a grant without a claim compose the ceilings again (R66), and
the lines and the purge account stand but for those a GAS-SET sets. From a position of none to a target below the mouth the
direction is the free value of log entry 3. -/
def Obligations.StepStarts : Prop :=
  ∀ (s : State) (t : TubeId) (h : StepRecord) (rest : List StepRecord), (s.tube t).state = .idle →
    (s.tube t).halted = false → (s.tube t).queue = h :: rest →
    ∃ q : State, exec (.stepStart t) s = .next (settle q) ∧ elsewhereKept t s q ∧ (q.tube t).queue = rest ∧
      (let u := s.tube t
       let v := q.tube t
       let c : CurrentStep := ⟨h, s.seconds, none, h.body.band u.record, .none⟩
       let begun (pointer : Fin 4) :=
         (openEvent s).onTube t fun u => { u with queue := rest, current := some c, pointer := pointer }
       let ends (p : State) (e : StepEnd) (kinds : List TubeKind) := stepEnded t c e p q ∧ shareLowered t p q ∧
         setpointsKept t p q ∧ v.state = .idle ∧ raisedAll kinds t p q ∧ ceilingsFollow t p q ∧ madeDue t p q
       let fails (p : State) (cause : FailCause) :=
         ends p (.failed cause) (if h.quiet then [.halted] else [.stepDone, .halted]) ∧ v.halted = true ∧ gasStands u v
       let p := begun (h.calSet.getD u.pointer)
       let done := ends p .done (if h.quiet then [] else [.stepDone]) ∧ v.halted = false
       let waits := v.state = .admitting ∧ v.grant = u.grant ∧ gasStands u v ∧ setpointsKept t s q ∧ flagsKept s q
       let claims (kind : ClaimKind) (values : PerZone Nat) (amount : Nat) := waits ∧ q.due.claims = true ∧
         ∃ d ∈ q.arbiter.claims, d.tube = t ∧ d.kind = kind ∧ d.level = h.level ∧ d.values = values ∧ d.amount = amount ∧
           d.created = s.seconds ∧ d.bypass = 0 ∧ d.counter = loadUnlessZero u.record.admissionLimit
       let target := h.body.target u.record
       let opens (es : List (LineId × Nat)) := u.lines.dopant.commanded = 0 ∧ ∃ flow, 0 < flow ∧ (.dopant, flow) ∈ es
       (∀ n, h.calSet = some n → (calSetOf s t n).valid = false →
         fails (begun u.pointer) .calInvalid ∧ v.pointer = u.pointer) ∧
       ((∀ n, h.calSet = some n → (calSetOf s t n).valid = true) →
         v.pointer = h.calSet.getD u.pointer ∧
         (h.body.isMotion = true →
           (target < u.record.base ∨ u.record.limit < target ∨
               (∃ x, h.body.hotSpeed = some x ∧ u.record.coldSpeed < x) → fails p .range) ∧
           (u.record.base ≤ target → target ≤ u.record.limit →
             (∀ x, h.body.hotSpeed = some x → x ≤ u.record.coldSpeed) → 0 < u.lines.dopant.commanded →
             fails p .dopantOpen)) ∧
         (∀ es, h.body = .gasSet es → opens es →
           (u.loader.isSealed = false → fails p .unsealed) ∧
           (u.loader.isSealed = true → s.exhaust.asserted = false → fails p .exhaust) ∧
           (u.loader.isSealed = true → s.exhaust.asserted = true → waits ∧ q.due.scrubber = true ∧ v.current = some c ∧
             q.gas.scrubber = s.gas.scrubber ++ [⟨t, s.seconds, .notReached⟩])) ∧
         (h.body = .mark → done ∧ v.lines = u.lines ∧ v.owed = u.owed ∧ v.credit = u.credit ∧ v.remainder = u.remainder) ∧
         (∀ es, h.body = .gasSet es → ¬opens es → done ∧
           ((es.map Prod.fst).Nodup →
             (∀ e ∈ es, (v.lines.get e.1).commanded = e.2) ∧
             (∀ l, l ∉ es.map Prod.fst → v.lines.get l = u.lines.get l) ∧
             ((.dopant, 0) ∈ es → 0 < u.lines.dopant.commanded → v.owed = true ∧ v.credit = 0 ∧ v.remainder = 0) ∧
             ((.dopant, 0) ∉ es ∨ u.lines.dopant.commanded = 0 →
               v.owed = u.owed ∧ v.credit = u.credit ∧ v.remainder = u.remainder))) ∧
         (∀ flow d, h.body = .purge flow d → waits ∧ q.due.header = true ∧ v.current = some c ∧
           q.gas.header = s.gas.header ++ [⟨t, .step, flow, s.seconds, .notReached⟩]) ∧
         (∀ d band, h.body = .soak d band →
           let demand := holdShares p t
           (demand.sum ≤ u.stepTotal → v.state = .soaking ∧ v.stepCounter = some (loadCounter d) ∧
             v.holdback = ⟨false, none, 0, 0⟩ ∧ v.grant = { u.grant with step := demand } ∧ setpointsKept t s q ∧
             gasStands u v ∧ v.loader = u.loader ∧ (∀ z, ceilingComposed q t z) ∧
             v.current = some { c with wait := some 0 } ∧ flagsKept s q ∧ madeDue t p q) ∧
           (u.stepTotal < demand.sum → claims .step demand (demand.sum - u.stepTotal) ∧ v.current = some c)) ∧
         (∀ rate band zones, h.body = .ramp rate band zones →
           let demand := rampStepDemand p t rate zones
           (demand.sum ≤ u.stepTotal → rampBegun { c with wait := some 0 } rate zones u v ∧
             v.grant = { u.grant with step := demand } ∧ (∀ z, ceilingComposed q t z) ∧ flagsKept s q) ∧
           (u.stepTotal < demand.sum → claims .step demand (demand.sum - u.stepTotal) ∧ v.current = some c)) ∧
         (u.record.base ≤ target → target ≤ u.record.limit →
           (∀ x, h.body.hotSpeed = some x → x ≤ u.record.coldSpeed) → u.lines.dopant.commanded = 0 →
           let moves (load : Loader → Loader) (hot : Option Nat) (k : CurrentStep) :=
             motionStarted t { k with wait := some 0 } (hot.getD u.record.coldSpeed) target (p.onLoader t load) q ∧
               (u.loader.position ≠ some target →
                 v.loader.keptRecovery = (load u.loader).keptRecovery ∧ v.loader.hotSpeed = (load u.loader).hotSpeed)
           (∀ g hot, h.body = .pushIn g hot →
             let cal := calInForce p t
             let amount := admittedSurcharge p t
             let load (l : Loader) := { l with keptRecovery := cal.recovery, hotSpeed := some (hot.getD u.record.coldSpeed) }
             let noted := { c with
               step := { h with
                 notes := { h.notes with surchargeCapped := h.notes.surchargeCapped || decide (amount < cal.surcharge) } } }
             (amount = 0 → moves load hot noted) ∧
             (0 < amount → claims .surcharge (layOut amount (headrooms p t)) amount ∧ v.current = some noted ∧
               v.loader = load u.loader)) ∧
           ∀ g hot, h.body = .pullOut g hot →
             let load (l : Loader) := { l with hotSpeed := some (hot.getD u.record.coldSpeed) }
             (u.owed = false → moves load hot c) ∧
             (u.owed = true → waits ∧ q.due.header = true ∧ v.current = some { c with auto := .waiting } ∧
               v.loader = load u.loader ∧
               q.gas.header = s.gas.header ++ [⟨t, .auto, u.record.autoFlow, s.seconds, .notReached⟩]))))

/-- Tier 2. The header FIFO and the scrubber FIFO (R99, R100, R105, R106, R17). The first clause, of a state in which no queue
head may start, has a due scrubber evaluation taken before a due evaluation of the header FIFO or the Claim List and before a
due shed pass: that order is the model's choice, log entry 7. An evaluation passes over the claims of SUSPENDED tubes, which
keep their places, and comes to the oldest other claim. A header claim that fits opens the PURGE line at its flow and the tube
is PURGING, with its step counter loaded for a PURGE step; one for an automatic purge whose owed flag has cleared while it
waited ends that purge at once, its record pushed and its line closed, and the pull begins, or is DONE at once where the boat
stands at the target (R17, R120, R123; notes of the record: log entry 16; from a position of none to a target below the mouth
the direction is the free value of log entry 3); a scrubber claim of a sealed tube, with a slot free and EXHAUST-OK asserted,
takes every setting of its GAS-SET and ends it DONE; and GRANTED is raised. The scrubber claim of a tube that is not sealed is
removed instead, with its GAS-SET FAILED with UNSEALED and the tube IDLE and halted (R100). The ceilings are composed again at
each end (R66), and everything else of the tube stands. A claim that can be neither granted nor removed ends the evaluation,
and with it or with no claim to come to the reported treatments alone change. -/
def Obligations.GasClaimsGranted : Prop :=
  (∀ (s : State) (ahead behind : List ScrubberClaim) (c : ScrubberClaim) (k : CurrentStep), s.listsBounded →
    (∀ t, ¬(s.tube t).mayStart) → s.due.scrubber = true → scrubberTakes s ahead c behind →
    (s.tube c.tube).loader.isSealed = false → (s.tube c.tube).current = some k →
    ∃ q : State, settle s = settle (dueScrubber q) ∧ elsewhereKept c.tube s q ∧
      stepEnded c.tube k (.failed .unsealed) s q ∧ shareLowered c.tube s q ∧ (q.tube c.tube).state = .idle ∧
      (q.tube c.tube).halted = true ∧ gasStands (s.tube c.tube) (q.tube c.tube) ∧ loaderStands (s.tube c.tube) (q.tube c.tube) ∧
      ((s.tube c.tube).state ≠ .off → ceilingsFollow c.tube s q) ∧
      q.gas.scrubber = ahead.map ScrubberClaim.passed ++ behind ∧
      raisedAll (if k.step.quiet then [.halted] else [.stepDone, .halted]) c.tube s q) ∧
  (∀ (s : State) (ahead behind : List HeaderClaim) (c : HeaderClaim) (k : CurrentStep), headerTakes s ahead c behind →
    s.due.header = true → headerAllocation s + c.flow ≤ s.gas.capacity → (s.tube c.tube).current = some k →
    (∀ flow d, c.purpose = .step → k.step.body = .purge flow d →
      ∃ q : State, exec .headerClaimGrant s = .next (settle (dueHeader q)) ∧ elsewhereKept c.tube s q ∧
        (q.tube c.tube).state = .purging ∧ (q.tube c.tube).lines.purge.commanded = c.flow ∧
        (q.tube c.tube).stepCounter = some (loadCounter d) ∧
        (q.tube c.tube).current = some { k with wait := some (s.seconds - k.start) } ∧
        q.tube c.tube = { s.tube c.tube with
          state := .purging
          current := (q.tube c.tube).current
          stepCounter := (q.tube c.tube).stepCounter
          lines := { (s.tube c.tube).lines with purge := (q.tube c.tube).lines.purge } } ∧
        q.gas.header = ahead.map HeaderClaim.passed ++ behind ∧ raisedAll [.granted] c.tube s q) ∧
    (c.purpose = .auto → (s.tube c.tube).owed = true →
      ∃ q : State, exec .headerClaimGrant s = .next (settle (dueHeader q)) ∧ elsewhereKept c.tube s q ∧
        (q.tube c.tube).state = .purging ∧ (q.tube c.tube).lines.purge.commanded = c.flow ∧
        (q.tube c.tube).current = some { k with wait := some (s.seconds - k.start), auto := .running } ∧
        q.tube c.tube = { s.tube c.tube with
          state := .purging
          current := (q.tube c.tube).current
          lines := { (s.tube c.tube).lines with purge := (q.tube c.tube).lines.purge } } ∧
        q.gas.header = ahead.map HeaderClaim.passed ++ behind ∧ raisedAll [.granted] c.tube s q) ∧
    (c.purpose = .auto → (s.tube c.tube).owed = false →
      let granted := { k with wait := some (s.seconds - k.start), auto := .running }
      ∃ g q m : State, exec .headerClaimGrant s = .next (settle (dueHeader m)) ∧ elsewhereKept c.tube s g ∧
        (g.tube c.tube).lines.purge.commanded = c.flow ∧ (g.tube c.tube).current = some granted ∧
        (g.tube c.tube).loader = (s.tube c.tube).loader ∧ (g.tube c.tube).ring = (s.tube c.tube).ring ∧
        (g.tube c.tube).overwrites = (s.tube c.tube).overwrites ∧
        g.gas.header = ahead.map HeaderClaim.passed ++ behind ∧ raisedAll [.granted] c.tube s g ∧
        autoPurgeEnded c.tube granted g q ∧ pullBegun c.tube granted q m)) ∧
  (∀ (s : State) (ahead behind : List ScrubberClaim) (c : ScrubberClaim) (k : CurrentStep) (es : List (LineId × Nat)),
    scrubberTakes s ahead c behind → s.due.scrubber = true → (s.tube c.tube).loader.isSealed = true →
    slotsInUse s < s.gas.slots → s.exhaust.asserted = true → (s.tube c.tube).current = some k →
    k.step.body = .gasSet es → (es.map Prod.fst).Nodup →
    ∃ q : State, exec .scrubberClaimGrant s = .next (settle (dueScrubber q)) ∧ elsewhereKept c.tube s q ∧
      stepEnded c.tube { k with wait := some (s.seconds - k.start) } .done s q ∧ (q.tube c.tube).state = .idle ∧
      (∀ e ∈ es, ((q.tube c.tube).lines.get e.1).commanded = e.2) ∧
      (∀ l, l ∉ es.map Prod.fst → (q.tube c.tube).lines.get l = (s.tube c.tube).lines.get l) ∧
      ((.dopant, 0) ∉ es ∨ (s.tube c.tube).lines.dopant.commanded = 0 → accountStands (s.tube c.tube) (q.tube c.tube)) ∧
      loaderStands (s.tube c.tube) (q.tube c.tube) ∧
      ((s.tube c.tube).state ≠ .off → shareLowered c.tube s q ∧ ceilingsFollow c.tube s q) ∧
      q.gas.scrubber = ahead.map ScrubberClaim.passed ++ behind ∧
      raisedAll (if k.step.quiet then [.granted] else [.granted, .stepDone]) c.tube s q) ∧
  ∀ s : State, s.quiet →
    let headerLeft (claims : List HeaderClaim) := settle (dueHeader s) = { s with gas := { s.gas with header := claims } }
    let scrubberLeft (claims : List ScrubberClaim) :=
      settle (dueScrubber s) = { s with gas := { s.gas with scrubber := claims } }
    ((∀ d ∈ s.gas.header, (s.tube d.tube).state = .suspended) → headerLeft (s.gas.header.map HeaderClaim.passed)) ∧
    (∀ ahead c behind, headerTakes s ahead c behind → s.gas.capacity < headerAllocation s + c.flow →
      headerLeft (ahead.map HeaderClaim.passed ++ { c with treatment := .noFit } :: behind.map HeaderClaim.unreached)) ∧
    ((∀ d ∈ s.gas.scrubber, (s.tube d.tube).state = .suspended) →
      scrubberLeft (s.gas.scrubber.map ScrubberClaim.passed)) ∧
    ∀ ahead c behind, scrubberTakes s ahead c behind → (s.tube c.tube).loader.isSealed = true →
      s.gas.slots ≤ slotsInUse s ∨ s.exhaust.asserted = false →
      scrubberLeft
        (ahead.map ScrubberClaim.passed ++ { c with treatment := .noFit } :: behind.map ScrubberClaim.unreached)

/-! ### Faults -/

/-- Tier 2. The entry into FAULT-HOLD (R143), and what an arising cause does by the state of its tube: in OFF its condition
alone changes; in a working state the tube enters FAULT-HOLD; in FAULT-HOLD and in SERVICE a cause in the set changes its
condition alone and another joins the set, the grant going to 0 for OVER-TEMP, with FAULT raised and the service work stopped
in SERVICE as `causeHeard` says (R142, R148, R149, R163); with OVER-TEMP in the set every ceiling of the tube is 0 and is sent
within the event (R146, R148); and what departs, falls or closes makes its evaluation due (R77, R78, R87, R100, R105). At an
entry the ceilings are composed again (R66), CARRIER and OXY, the pointer, the readings and the open flags stand, without an
open DOPANT line the purge account, and short of a motion the loader but for the recovery; in FAULT-HOLD and in SERVICE all the
gas stands (R148, R149). Of the records, the admission wait of a step SUSPENDED from ADMITTING is log entry 41, and the notes
of an automatic purge's are log entry 16. -/
def Obligations.FaultsArise : Prop :=
  ∀ (s : State) (t : TubeId) (c : FaultCause),
    faultEntered t c s (enterFaultHold t c s) ∧ elsewhereKept t s (enterFaultHold t c s) ∧
    faultStands t c s (enterFaultHold t c s) ∧
    (∀ z, zoneStands ((s.tube t).zones.get z) (((enterFaultHold t c s).tube t).zones.get z)) ∧
    ((s.tube t).state ≠ .off → ∀ z, ceilingComposed (enterFaultHold t c s) t z) ∧
    ((s.tube t).state = .off → reportCause t c s = setCondition t c true s) ∧
    ((s.tube t).works → reportCause t c s = settle (enterFaultHold t c (setCondition t c true s))) ∧
    ((s.tube t).state = .faultHold ∨ (s.tube t).state = .service →
      ((s.tube t).fault.causes.has c = true → reportCause t c s = setCondition t c true s) ∧
      ((s.tube t).fault.causes.has c = false →
        ∃ q : State, reportCause t c s = settle q ∧ elsewhereKept t s q ∧ causeHeard t c s q ∧ causeStands t c s q ∧
          (∀ z, zoneStands ((s.tube t).zones.get z) ((q.tube t).zones.get z)) ∧ loweredSent t s q))

/-! ### The arithmetic -/

/-- Tier 2. The step of a listed zone that advances (R33): the sum is F + 4r, the step the sum div 15; a remaining distance
greater than the step moves S by the step towards the target and leaves F the sum mod 15, and one that is not lands the zone on
its target with F 0; a step is 4r div 15 or one more, and 4r / 15 at a rate that is a multiple of 15; and over n such updates
that do not land, S moves by (4rn + F at the start - F at the end) div 15, which over 240 of them is 64r. -/
def Obligations.ZoneStepArithmetic : Prop :=
  ∀ (zone : Zone) (r : ZoneRamp), zone.ramp = some r → r.landed = false →
    let sum := zone.f + 4 * r.rate
    let target := 64 * r.target
    let distance := (target - zone.s) + (zone.s - target)
    (sum / 15 < distance →
      (zone.s < target → zone.advance.s = zone.s + sum / 15) ∧
      (target < zone.s → zone.advance.s = zone.s - sum / 15) ∧ zone.advance.f = sum % 15 ∧
      zone.advance.ramp = zone.ramp ∧ zone.advance.f ≤ 14) ∧
    (zone.f ≤ 14 → (sum / 15 = 4 * r.rate / 15 ∨ sum / 15 = 4 * r.rate / 15 + 1) ∧
      (r.rate % 15 = 0 → 15 * (sum / 15) = 4 * r.rate)) ∧
    (distance ≤ sum / 15 → zone.advance.s = target ∧ zone.advance.f = 0 ∧
      zone.advance.ramp = some { r with landed := true }) ∧
    (∀ n, ((Zone.advance^[n] zone).ramp = zone.ramp) →
      15 * (((Zone.advance^[n] zone).s - zone.s) + (zone.s - (Zone.advance^[n] zone).s)) +
        (Zone.advance^[n] zone).f = 4 * r.rate * n + zone.f) ∧
    ((Zone.advance^[240] zone).ramp = zone.ramp → zone.f ≤ 14 →
      ((Zone.advance^[240] zone).s - zone.s) + (zone.s - (Zone.advance^[240] zone).s) = 64 * r.rate ∧
        (Zone.advance^[240] zone).f = zone.f)

/-- Tier 2. Demand, surcharge and ceiling (R56 to R63, R65, R68). The hold demand is the hold coefficient times the excess over
250, divided by 1000 and rounded up, 0 at 250 and below and at most 4900 within the ranges; the hold share is the smaller of it
and the rating; a ramp demand is the mass coefficient times the rate, divided by 10 and rounded up; no zone share is above its
rating; a step's and a resumed ramp's demand take each zone at the temperature and with the ramp demand that R57 and R59 give
it; the headroom of a zone is its rating less its step share and the surcharge part it holds; the admitted surcharge is the
smaller of the set's surcharge and the sum of the headrooms, laid out from Z0 upward, each part within its headroom and the
five summing to it; a ceiling is 0 with OVER-TEMP in the set or OFF, the lesser of admitted power and rating, and for an open
zone of that and the hold share; and its deciding term is ZERO with OVER-TEMP in the set or OFF, OPEN where the hold share of
an open zone cuts it, ZMAX where the rating cuts the admitted power, and ADMITTED otherwise (R68). -/
def Obligations.PowerFigures : Prop :=
  (∀ l x zmax : Nat,
    (x ≤ 250 → holdDemand l x = 0) ∧
    (250 < x → l * (x - 250) ≤ 1000 * holdDemand l x ∧ 1000 * holdDemand l x < l * (x - 250) + 1000) ∧
    holdShare l zmax x = min (holdDemand l x) zmax ∧ (l ≤ 400 → x ≤ 12500 → holdDemand l x ≤ 4900)) ∧
  (∀ c rate : Nat, c * rate ≤ 10 * rampDemand c rate ∧ 10 * rampDemand c rate < c * rate + 10) ∧
  (∀ (cal : CalSet) (zmax : PerZone Nat) (z : ZoneId) (x d : Nat),
    zoneShare cal zmax z x d = min (holdDemand (cal.hold.get z) x + d) (zmax.get z)) ∧
  (∀ (s : State) (t : TubeId) (z : ZoneId),
    let u := s.tube t
    let zone := u.zones.get z
    let share (x d : Nat) := min (holdDemand ((calInForce s t).hold.get z) x + d) (u.record.zmax.get z)
    let rising (rate : Nat) := rampDemand ((calInForce s t).mass.get z) rate
    (holdShares s t).get z = share zone.reportedSetpoint 0 ∧
    (∀ rate zones, (zones.map Prod.fst).Nodup →
      ((∀ g, (z, g) ∉ zones) → (rampStepDemand s t rate zones).get z = share zone.reportedSetpoint 0) ∧
      ∀ g, (z, g) ∈ zones →
        (zone.reportedSetpoint < g → (rampStepDemand s t rate zones).get z = share g (rising rate)) ∧
        (g ≤ zone.reportedSetpoint → (rampStepDemand s t rate zones).get z = share g 0)) ∧
    (zone.ramp = none → (resumeDemand s t).get z = share zone.reportedSetpoint 0) ∧
    ∀ r, zone.ramp = some r →
      (r.direction = .up → r.landed = false → (resumeDemand s t).get z = share r.target (rising r.rate)) ∧
      (r.direction ≠ .up ∨ r.landed = true → (resumeDemand s t).get z = share r.target 0)) ∧
  (∀ (s : State) (t : TubeId),
    let parts := layOut (admittedSurcharge s t) (headrooms s t)
    (∀ z, (headrooms s t).get z =
      (s.tube t).record.zmax.get z - ((s.tube t).grant.step.get z + (s.tube t).grant.surcharge.get z)) ∧
    admittedSurcharge s t = min (calInForce s t).surcharge (headrooms s t).sum ∧ parts.sum = admittedSurcharge s t ∧
    (∀ z, parts.get z ≤ (headrooms s t).get z) ∧
    ∀ z y, z.toNat < y.toNat → 0 < parts.get y → parts.get z = (headrooms s t).get z) ∧
  ∀ (s : State) (t : TubeId) (z : ZoneId),
    let u := s.tube t
    let zone := u.zones.get z
    let zmax := u.record.zmax.get z
    let base := min (u.grant.step.get z + u.grant.surcharge.get z) zmax
    let hold := holdShare ((calInForce s t).hold.get z) zmax zone.reportedSetpoint
    (((recompose t s).tube t).zones.get z).ceiling =
      (if u.fault.causes.overTemp = true ∨ u.state = .off then 0
       else if zone.isOpen then min base hold else base) ∧
    (((recompose t s).tube t).zones.get z).term =
      if u.fault.causes.overTemp = true ∨ u.state = .off then .zero
      else if zone.isOpen = true ∧ hold < base then .openZone
      else if zmax < u.grant.step.get z + u.grant.surcharge.get z then .zmax else .admitted

/-- Tier 2. The dwell counter (R133, R134): a loading splits its duration into a count of 1 to 4096 and reloads of 4096, and a
counter loaded with d expires at the d-th boundary that decrements it and at none before. -/
def Obligations.CounterRunsItsDuration : Prop :=
  ∀ d : Nat, 1 ≤ d →
    remaining (loadCounter d) = d ∧ 1 ≤ (loadCounter d).count ∧ (loadCounter d).count ≤ 4096 ∧
    (∀ n, n < d →
      remaining ((tick false)^[n] (settleFresh (loadCounter d))) = d - n ∧
      (expires false ((tick false)^[n] (settleFresh (loadCounter d))) = true ↔ n + 1 = d)) ∧
    ∀ c : DwellCounter, expires true c = false ∧ remaining (tick true c) = remaining c

/-- Tier 2. A shed pass (R87 to R90). It ends with the sum within the limit in force and the SHEDDING flag clear, or with the
flag set and no candidate left; a sum within the limit sheds no tube. Every tube it sheds was a candidate, is left shed-paused
with its share at the lesser of it and its hold share, and has a RESUME claim at its step's level for its demand less the shed
floor, and SHED raised. No candidate is shed while one that goes before it is not, and none once the sum without it is within
the limit. The ceilings of those shed are composed again, those that fall sent at once (R66, R67), and nothing else of the
tubes changes. -/
def Obligations.ShedPassEnds : Prop :=
  ∀ s : State,
    let q := shedPass s
    let shed (t : TubeId) := (q.tube t).shedPaused ≠ (s.tube t).shedPaused
    ((grantSum q ≤ limitInForce q ∧ q.arbiter.shedding = false) ∨
      (limitInForce q < grantSum q ∧ q.arbiter.shedding = true ∧ ∀ t, ¬shedCandidate q t)) ∧
    limitInForce q = limitInForce s ∧ q.due.shed = false ∧ (grantSum s ≤ limitInForce s → q.tubes = s.tubes) ∧
    (∀ t, shed t → shedCandidate s t ∧ (q.tube t).shedPaused = true ∧ shareLowered t s q ∧ ceilingsFollow t s q ∧
      (∀ l, s.hears l t = true → q.flag l t .shed = true) ∧
      ∃ d ∈ q.arbiter.claims, d.tube = t ∧ d.kind = .resume ∧ d.level = currentLevel s t ∧ d.values = resumeDemand s t ∧
        d.amount = (resumeDemand s t).sum - (shedFloor s t).sum ∧ d.created = s.seconds ∧ d.bypass = 0 ∧
        d.counter = none) ∧
    (∀ a b, shed b → shedCandidate s a → shedGoesFirst s a b → shed a) ∧
    (∀ b, shed b → (∀ a, a ≠ b → shed a → shedGoesFirst s a b) →
      limitInForce s < grantSum q + ((s.tube b).stepTotal - (q.tube b).stepTotal)) ∧
    ∀ t, (q.tube t).state = (s.tube t).state ∧ (q.tube t).grant.surcharge = (s.tube t).grant.surcharge ∧
      (∀ z, (q.tube t).grant.step.get z ≤ (s.tube t).grant.step.get z) ∧
      q.tube t = { s.tube t with
        shedPaused := (q.tube t).shedPaused
        grant := { (s.tube t).grant with step := (q.tube t).grant.step }
        zones := (q.tube t).zones } ∧
      (∀ z, zoneKept ((s.tube t).zones.get z) ((q.tube t).zones.get z)) ∧
      (¬shed t → (q.tube t).grant = (s.tube t).grant)
end

