-- ==== Sys2Proof/Laws/State.lean ====
section
/-! SUPPORT. What each update of the state leaves and changes: one lemma per field and update, so that no later proof unfolds a
record update. -/

namespace Sys2Proof

section Tables
variable {α : Type}

@[simp] theorem PerTube.get_set_same (v : PerTube α) (t : TubeId) (x : α) : (v.set t x).get t = x := by
  cases t <;> rfl

theorem PerTube.get_set_of_ne (v : PerTube α) {t u : TubeId} (h : u ≠ t) (x : α) : (v.set t x).get u = v.get u := by
  cases t <;> cases u <;> first | rfl | exact absurd rfl h

@[simp] theorem PerTube.get_of (f : TubeId → α) (t : TubeId) : (PerTube.of f).get t = f t := by
  cases t <;> rfl

@[simp] theorem PerTube.set_get (v : PerTube α) (t : TubeId) : v.set t (v.get t) = v := by
  cases t <;> rfl

theorem PerTube.ext_get {v w : PerTube α} (h : ∀ t, v.get t = w.get t) : v = w := by
  cases v; cases w
  have h0 := h .t0; have h1 := h .t1; have h2 := h .t2; have h3 := h .t3
  simp only [PerTube.get] at h0 h1 h2 h3
  subst h0 h1 h2 h3; rfl

@[simp] theorem PerZone.get_set_same (v : PerZone α) (z : ZoneId) (x : α) : (v.set z x).get z = x := by
  cases z <;> rfl

theorem PerZone.get_set_of_ne (v : PerZone α) {z y : ZoneId} (h : y ≠ z) (x : α) : (v.set z x).get y = v.get y := by
  cases z <;> cases y <;> first | rfl | exact absurd rfl h

@[simp] theorem PerZone.get_of (f : ZoneId → α) (z : ZoneId) : (PerZone.of f).get z = f z := by
  cases z <;> rfl

@[simp] theorem PerZone.get_map {β : Type} (f : ZoneId → α → β) (v : PerZone α) (z : ZoneId) :
    (v.map f).get z = f z (v.get z) := by
  cases z <;> rfl

@[simp] theorem PerLine.get_set_same (v : PerLine α) (l : LineId) (x : α) : (v.set l x).get l = x := by
  cases l <;> rfl

theorem PerLine.get_set_of_ne (v : PerLine α) {l m : LineId} (h : m ≠ l) (x : α) : (v.set l x).get m = v.get m := by
  cases l <;> cases m <;> first | rfl | exact absurd rfl h

@[simp] theorem PerLink.get_set_same (v : PerLink α) (l : LinkId) (x : α) : (v.set l x).get l = x := by
  cases l <;> simp [PerLink.get, PerLink.set]

theorem PerLink.get_set_of_ne (v : PerLink α) {l m : LinkId} (h : m ≠ l) (x : α) : (v.set l x).get m = v.get m := by
  cases l <;> cases m <;> simp_all [PerLink.get, PerLink.set, PerTube.get_set_of_ne]

@[simp] theorem PerLink.get_of (f : LinkId → α) (l : LinkId) : (PerLink.of f).get l = f l := by
  cases l <;> simp [PerLink.get, PerLink.of]

end Tables

theorem PerZone.sum_le {v w : PerZone Nat} (h : ∀ z, v.get z ≤ w.get z) : v.sum ≤ w.sum := by
  have h0 := h .z0; have h1 := h .z1; have h2 := h .z2; have h3 := h .z3; have h4 := h .z4
  simp only [PerZone.get] at h0 h1 h2 h3 h4
  simp only [PerZone.sum]; omega

@[simp] theorem PerZone.sum_zero : PerZone.zero.sum = 0 := rfl

@[simp] theorem PerZone.get_zero (z : ZoneId) : PerZone.zero.get z = 0 := by cases z <;> rfl

theorem TubeId.mem_all (t : TubeId) : t ∈ TubeId.all := by cases t <;> decide

theorem ZoneId.mem_all (z : ZoneId) : z ∈ ZoneId.all := by cases z <;> decide

namespace Machine

/-! ### One tube changed -/

section OnTube
variable (s : State) (t : TubeId) (f : Tube → Tube)

@[simp] theorem tube_onTube_same : (s.onTube t f).tube t = f (s.tube t) := by
  simp [State.onTube, State.tube]

theorem tube_onTube_of_ne {u : TubeId} (h : u ≠ t) : (s.onTube t f).tube u = s.tube u := by
  simp [State.onTube, State.tube, PerTube.get_set_of_ne _ h]

@[simp] theorem onTube_pending : (s.onTube t f).pending = s.pending := rfl
@[simp] theorem onTube_mode : (s.onTube t f).mode = s.mode := rfl
@[simp] theorem onTube_eStop : (s.onTube t f).eStop = s.eStop := rfl
@[simp] theorem onTube_curtailInput : (s.onTube t f).curtailInput = s.curtailInput := rfl
@[simp] theorem onTube_exhaustInput : (s.onTube t f).exhaustInput = s.exhaustInput := rfl
@[simp] theorem onTube_curtail : (s.onTube t f).curtail = s.curtail := rfl
@[simp] theorem onTube_exhaust : (s.onTube t f).exhaust = s.exhaust := rfl
@[simp] theorem onTube_seconds : (s.onTube t f).seconds = s.seconds := rfl
@[simp] theorem onTube_cal0 : (s.onTube t f).cal0 = s.cal0 := rfl
@[simp] theorem onTube_arbiter : (s.onTube t f).arbiter = s.arbiter := rfl
@[simp] theorem onTube_gas : (s.onTube t f).gas = s.gas := rfl
@[simp] theorem onTube_links : (s.onTube t f).links = s.links := rfl
@[simp] theorem onTube_rights : (s.onTube t f).rights = s.rights := rfl
@[simp] theorem onTube_due : (s.onTube t f).due = s.due := rfl
@[simp] theorem onTube_boundaryDue : (s.onTube t f).boundaryDue = s.boundaryDue := rfl
@[simp] theorem onTube_updateDue : (s.onTube t f).updateDue = s.updateDue := rfl
@[simp] theorem onTube_outbox : (s.onTube t f).outbox = s.outbox := rfl
@[simp] theorem onTube_freeIndex : (s.onTube t f).freeIndex = s.freeIndex := rfl

end OnTube

/-! ### The other parts changed -/

section Others
variable (s : State) (u : TubeId)

@[simp] theorem tube_onTubes (f : Tube → Tube) : (s.onTubes f).tube u = f (s.tube u) := by
  simp [State.onTubes, State.tube]

@[simp] theorem tube_onArbiter (f : Arbiter → Arbiter) : (s.onArbiter f).tube u = s.tube u := rfl
@[simp] theorem arbiter_onArbiter (f : Arbiter → Arbiter) : (s.onArbiter f).arbiter = f s.arbiter := rfl
@[simp] theorem gas_onArbiter (f : Arbiter → Arbiter) : (s.onArbiter f).gas = s.gas := rfl
@[simp] theorem due_onArbiter (f : Arbiter → Arbiter) : (s.onArbiter f).due = s.due := rfl
@[simp] theorem curtail_onArbiter (f : Arbiter → Arbiter) : (s.onArbiter f).curtail = s.curtail := rfl
@[simp] theorem exhaust_onArbiter (f : Arbiter → Arbiter) : (s.onArbiter f).exhaust = s.exhaust := rfl

@[simp] theorem tube_onGas (f : GasBlock → GasBlock) : (s.onGas f).tube u = s.tube u := rfl
@[simp] theorem arbiter_onGas (f : GasBlock → GasBlock) : (s.onGas f).arbiter = s.arbiter := rfl
@[simp] theorem gas_onGas (f : GasBlock → GasBlock) : (s.onGas f).gas = f s.gas := rfl
@[simp] theorem due_onGas (f : GasBlock → GasBlock) : (s.onGas f).due = s.due := rfl
@[simp] theorem curtail_onGas (f : GasBlock → GasBlock) : (s.onGas f).curtail = s.curtail := rfl
@[simp] theorem exhaust_onGas (f : GasBlock → GasBlock) : (s.onGas f).exhaust = s.exhaust := rfl

@[simp] theorem tube_onDue (f : Due → Due) : (s.onDue f).tube u = s.tube u := rfl
@[simp] theorem arbiter_onDue (f : Due → Due) : (s.onDue f).arbiter = s.arbiter := rfl
@[simp] theorem gas_onDue (f : Due → Due) : (s.onDue f).gas = s.gas := rfl
@[simp] theorem due_onDue (f : Due → Due) : (s.onDue f).due = f s.due := rfl
@[simp] theorem curtail_onDue (f : Due → Due) : (s.onDue f).curtail = s.curtail := rfl
@[simp] theorem exhaust_onDue (f : Due → Due) : (s.onDue f).exhaust = s.exhaust := rfl

@[simp] theorem tube_onLink (l : LinkId) (f : Link → Link) : (s.onLink l f).tube u = s.tube u := rfl
@[simp] theorem arbiter_onLink (l : LinkId) (f : Link → Link) : (s.onLink l f).arbiter = s.arbiter := rfl
@[simp] theorem gas_onLink (l : LinkId) (f : Link → Link) : (s.onLink l f).gas = s.gas := rfl
@[simp] theorem due_onLink (l : LinkId) (f : Link → Link) : (s.onLink l f).due = s.due := rfl
@[simp] theorem curtail_onLink (l : LinkId) (f : Link → Link) : (s.onLink l f).curtail = s.curtail := rfl
@[simp] theorem exhaust_onLink (l : LinkId) (f : Link → Link) : (s.onLink l f).exhaust = s.exhaust := rfl
@[simp] theorem link_onLink_same (l : LinkId) (f : Link → Link) : (s.onLink l f).link l = f (s.link l) := by
  simp [State.onLink, State.link]

theorem link_onLink_of_ne {l m : LinkId} (h : m ≠ l) (f : Link → Link) : (s.onLink l f).link m = s.link m := by
  simp [State.onLink, State.link, PerLink.get_set_of_ne _ h]

@[simp] theorem tube_onLinks (f : LinkId → Link → Link) : (s.onLinks f).tube u = s.tube u := rfl
@[simp] theorem arbiter_onLinks (f : LinkId → Link → Link) : (s.onLinks f).arbiter = s.arbiter := rfl
@[simp] theorem gas_onLinks (f : LinkId → Link → Link) : (s.onLinks f).gas = s.gas := rfl
@[simp] theorem due_onLinks (f : LinkId → Link → Link) : (s.onLinks f).due = s.due := rfl
@[simp] theorem curtail_onLinks (f : LinkId → Link → Link) : (s.onLinks f).curtail = s.curtail := rfl
@[simp] theorem exhaust_onLinks (f : LinkId → Link → Link) : (s.onLinks f).exhaust = s.exhaust := rfl
@[simp] theorem link_onLinks (f : LinkId → Link → Link) (l : LinkId) : (s.onLinks f).link l = f l (s.link l) := by
  simp [State.onLinks, State.link]

@[simp] theorem tube_send (m : Sent) : (s.send m).tube u = s.tube u := rfl
@[simp] theorem arbiter_send (m : Sent) : (s.send m).arbiter = s.arbiter := rfl
@[simp] theorem gas_send (m : Sent) : (s.send m).gas = s.gas := rfl
@[simp] theorem due_send (m : Sent) : (s.send m).due = s.due := rfl
@[simp] theorem curtail_send (m : Sent) : (s.send m).curtail = s.curtail := rfl
@[simp] theorem exhaust_send (m : Sent) : (s.send m).exhaust = s.exhaust := rfl
@[simp] theorem outbox_send (m : Sent) : (s.send m).outbox = s.outbox ++ [m] := rfl

end Others

/-! ### What is made due, and what is raised -/

section Dues
variable (s : State) (u : TubeId)

@[simp] theorem tube_dueClaims : (dueClaims s).tube u = s.tube u := rfl
@[simp] theorem arbiter_dueClaims : (dueClaims s).arbiter = s.arbiter := rfl
@[simp] theorem gas_dueClaims : (dueClaims s).gas = s.gas := rfl
@[simp] theorem seconds_dueClaims : (dueClaims s).seconds = s.seconds := rfl
@[simp] theorem curtail_dueClaims : (dueClaims s).curtail = s.curtail := rfl
@[simp] theorem exhaust_dueClaims : (dueClaims s).exhaust = s.exhaust := rfl
@[simp] theorem tube_dueHeader : (dueHeader s).tube u = s.tube u := rfl
@[simp] theorem arbiter_dueHeader : (dueHeader s).arbiter = s.arbiter := rfl
@[simp] theorem gas_dueHeader : (dueHeader s).gas = s.gas := rfl
@[simp] theorem seconds_dueHeader : (dueHeader s).seconds = s.seconds := rfl
@[simp] theorem curtail_dueHeader : (dueHeader s).curtail = s.curtail := rfl
@[simp] theorem exhaust_dueHeader : (dueHeader s).exhaust = s.exhaust := rfl
@[simp] theorem tube_dueScrubber : (dueScrubber s).tube u = s.tube u := rfl
@[simp] theorem arbiter_dueScrubber : (dueScrubber s).arbiter = s.arbiter := rfl
@[simp] theorem gas_dueScrubber : (dueScrubber s).gas = s.gas := rfl
@[simp] theorem seconds_dueScrubber : (dueScrubber s).seconds = s.seconds := rfl
@[simp] theorem curtail_dueScrubber : (dueScrubber s).curtail = s.curtail := rfl
@[simp] theorem exhaust_dueScrubber : (dueScrubber s).exhaust = s.exhaust := rfl
@[simp] theorem tube_dueShed : (dueShed s).tube u = s.tube u := rfl
@[simp] theorem arbiter_dueShed : (dueShed s).arbiter = s.arbiter := rfl
@[simp] theorem gas_dueShed : (dueShed s).gas = s.gas := rfl
@[simp] theorem seconds_dueShed : (dueShed s).seconds = s.seconds := rfl
@[simp] theorem curtail_dueShed : (dueShed s).curtail = s.curtail := rfl
@[simp] theorem exhaust_dueShed : (dueShed s).exhaust = s.exhaust := rfl
@[simp] theorem tube_dueShedWhileShedding : (dueShedWhileShedding s).tube u = s.tube u := rfl
@[simp] theorem arbiter_dueShedWhileShedding : (dueShedWhileShedding s).arbiter = s.arbiter := rfl
@[simp] theorem gas_dueShedWhileShedding : (dueShedWhileShedding s).gas = s.gas := rfl
@[simp] theorem seconds_dueShedWhileShedding : (dueShedWhileShedding s).seconds = s.seconds := rfl
@[simp] theorem curtail_dueShedWhileShedding : (dueShedWhileShedding s).curtail = s.curtail := rfl
@[simp] theorem exhaust_dueShedWhileShedding : (dueShedWhileShedding s).exhaust = s.exhaust := rfl
@[simp] theorem tube_raiseTube (k : TubeKind) (t : TubeId) : (raiseTube k t s).tube u = s.tube u := rfl
@[simp] theorem arbiter_raiseTube (k : TubeKind) (t : TubeId) : (raiseTube k t s).arbiter = s.arbiter := rfl
@[simp] theorem gas_raiseTube (k : TubeKind) (t : TubeId) : (raiseTube k t s).gas = s.gas := rfl
@[simp] theorem due_raiseTube (k : TubeKind) (t : TubeId) : (raiseTube k t s).due = s.due := rfl
@[simp] theorem seconds_raiseTube (k : TubeKind) (t : TubeId) : (raiseTube k t s).seconds = s.seconds := rfl
@[simp] theorem curtail_raiseTube (k : TubeKind) (t : TubeId) : (raiseTube k t s).curtail = s.curtail := rfl
@[simp] theorem exhaust_raiseTube (k : TubeKind) (t : TubeId) : (raiseTube k t s).exhaust = s.exhaust := rfl
@[simp] theorem tube_raiseMode : (raiseMode s).tube u = s.tube u := rfl
@[simp] theorem arbiter_raiseMode : (raiseMode s).arbiter = s.arbiter := rfl
@[simp] theorem gas_raiseMode : (raiseMode s).gas = s.gas := rfl
@[simp] theorem due_raiseMode : (raiseMode s).due = s.due := rfl
@[simp] theorem seconds_raiseMode : (raiseMode s).seconds = s.seconds := rfl
@[simp] theorem curtail_raiseMode : (raiseMode s).curtail = s.curtail := rfl
@[simp] theorem exhaust_raiseMode : (raiseMode s).exhaust = s.exhaust := rfl
@[simp] theorem tube_raiseCurtail : (raiseCurtail s).tube u = s.tube u := rfl
@[simp] theorem arbiter_raiseCurtail : (raiseCurtail s).arbiter = s.arbiter := rfl
@[simp] theorem gas_raiseCurtail : (raiseCurtail s).gas = s.gas := rfl
@[simp] theorem due_raiseCurtail : (raiseCurtail s).due = s.due := rfl
@[simp] theorem seconds_raiseCurtail : (raiseCurtail s).seconds = s.seconds := rfl
@[simp] theorem curtail_raiseCurtail : (raiseCurtail s).curtail = s.curtail := rfl
@[simp] theorem exhaust_raiseCurtail : (raiseCurtail s).exhaust = s.exhaust := rfl

end Dues

/-- Two states whose tubes agree name by name have equal tubes. -/
theorem tubes_ext {s t : State} (h : ∀ u, s.tube u = t.tube u) : s.tubes = t.tubes := PerTube.ext_get h

end Machine

end Sys2Proof
end

