-- ==== Sys2Proof/Laws/Keeps.lean ====
section
/-! SUPPORT. What an operation keeps, as a relation between the state before it and the state after it: `Keeps` carries every
property of Safety.lean from the one to the other, and `Moves` adds the fields no event of the part itself changes and the two filters. Each is reflexive and transitive, so an operation's lemma is put together from those of its parts. -/

namespace Sys2Proof.Machine

/-! ### The parts of the state the properties read -/

/-- What the properties of Safety.lean read of a tube, and what no event of the part itself changes of it. -/
structure TubeView where
  queue : List StepRecord
  current : Option StepBody
  ring : List CompletionRecord
  overwrites : Nat
  record : TubeRecord
  recordValid : Bool
  cals : CalSet × CalSet × CalSet
  zones : PerZone Zone
  step : PerZone Nat
  surcharge : PerZone Nat
  lines : PerLine Line
  credit : Nat
  remainder : Nat
  heldBack : Nat
  position : Option Nat
  isSealed : Bool
  ramp : ServiceRamp

/-- The view of a tube. -/
def Tube.view (u : Tube) : TubeView :=
  ⟨u.queue, u.current.map fun c => c.step.body, u.ring, u.overwrites, u.record, u.recordValid, (u.cal1, u.cal2, u.cal3),
    u.zones, u.grant.step, u.grant.surcharge, u.lines, u.credit, u.remainder, u.holdback.seconds, u.loader.position,
    u.loader.isSealed, u.service.ramp⟩

/-- What a claim keeps while it stands in the list. -/
def Claim.core (c : Claim) : TubeId × ClaimKind × Nat × PerZone Nat × Nat × Stamp × Nat :=
  (c.tube, c.kind, c.level, c.values, c.amount, c.created, c.joined)

/-- What the properties read of the arbiter beside the limits. -/
def Arbiter.view (a : Arbiter) : List (TubeId × ClaimKind × Nat × PerZone Nat × Nat × Stamp × Nat) × List Raise × Bool :=
  (a.claims.map Claim.core, a.history, a.shedding)

/-! ### The relations -/

/-- Every property of Safety.lean is carried over, from a state within its ranges. -/
structure Keeps (s t : State) : Prop where
  range : s.inRange → t.inRange
  ceil : s.inRange → s.ceilingsHold → t.ceilingsHold
  envelope : s.inRange → s.surchargesAddUp ∧ s.withinEnvelope → t.surchargesAddUp ∧ t.withinEnvelope
  header : s.inRange → s.withinHeader → t.withinHeader
  scrubber : s.inRange → s.withinScrubber → t.withinScrubber
  sealing : s.inRange → s.dopantSealed → t.dopantSealed
  order : s.inRange → s.claimsOrdered → t.claimsOrdered

/-- What no event of the part itself changes is kept, as are the filters. -/
structure Stays (s t : State) : Prop where
  fixed : t.fixed = s.fixed
  curtail : t.curtail = s.curtail
  exhaust : t.exhaust = s.exhaust

/-- Every property is carried over, and what no event of the part itself changes is kept, as are the filters. -/
structure Moves (s t : State) : Prop extends Keeps s t, Stays s t

theorem Keeps.refl (s : State) : Keeps s s :=
  ⟨id, fun _ => id, fun _ => id, fun _ => id, fun _ => id, fun _ => id, fun _ => id⟩

theorem Keeps.trans {s t u : State} (h : Keeps s t) (k : Keeps t u) : Keeps s u :=
  ⟨k.range ∘ h.range, fun r a => k.ceil (h.range r) (h.ceil r a), fun r a => k.envelope (h.range r) (h.envelope r a),
    fun r a => k.header (h.range r) (h.header r a), fun r a => k.scrubber (h.range r) (h.scrubber r a),
    fun r a => k.sealing (h.range r) (h.sealing r a), fun r a => k.order (h.range r) (h.order r a)⟩

/-- What is carried over may be shown of states within their ranges. -/
theorem Keeps.of_range {s t : State} (h : s.inRange → Keeps s t) : Keeps s t :=
  ⟨fun r => (h r).range r, fun r => (h r).ceil r, fun r => (h r).envelope r, fun r => (h r).header r,
    fun r => (h r).scrubber r, fun r => (h r).sealing r, fun r => (h r).order r⟩

theorem Stays.refl (s : State) : Stays s s := ⟨rfl, rfl, rfl⟩

theorem Stays.trans {s t u : State} (h : Stays s t) (k : Stays t u) : Stays s u :=
  ⟨k.fixed.trans h.fixed, k.curtail.trans h.curtail, k.exhaust.trans h.exhaust⟩

theorem Moves.refl (s : State) : Moves s s := ⟨Keeps.refl s, Stays.refl s⟩

theorem Moves.trans {s t u : State} (h : Moves s t) (k : Moves t u) : Moves s u :=
  ⟨h.toKeeps.trans k.toKeeps, h.toStays.trans k.toStays⟩

/-- What is carried over may be shown of states within their ranges, beside what is kept in any case. -/
theorem Moves.of_range {s t : State} (h : Stays s t) (k : s.inRange → Keeps s t) : Moves s t := ⟨.of_range k, h⟩

/-- An operation after another, the later one first. -/
theorem Moves.after {s t u : State} (k : Moves t u) (h : Moves s t) : Moves s u := h.trans k

theorem Stays.after {s t u : State} (k : Stays t u) (h : Stays s t) : Stays s u := h.trans k

theorem Keeps.after {s t u : State} (k : Keeps t u) (h : Keeps s t) : Keeps s u := h.trans k

theorem Keeps.safe {s t : State} (h : Keeps s t) (hs : s.safe) : t.safe :=
  ⟨h.range hs.1, h.ceil hs.1 hs.2.1, h.envelope hs.1 hs.2.2.1, h.header hs.1 hs.2.2.2.1, h.scrubber hs.1 hs.2.2.2.2.1,
    h.sealing hs.1 hs.2.2.2.2.2.1, h.order hs.1 hs.2.2.2.2.2.2⟩

/-- A chain of operations over a list. -/
theorem Moves.foldl {α : Type} {f : State → α → State} (h : ∀ s a, Moves s (f s a)) (l : List α) (s : State) :
    Moves s (l.foldl f s) := by
  induction l generalizing s with
  | nil => exact Moves.refl s
  | cons a l ih => exact (h s a).trans (ih _)

theorem Keeps.foldl {α : Type} {f : State → α → State} (h : ∀ s a, Keeps s (f s a)) (l : List α) (s : State) :
    Keeps s (l.foldl f s) := by
  induction l generalizing s with
  | nil => exact Keeps.refl s
  | cons a l ih => exact (h s a).trans (ih _)

theorem Stays.ite {s : State} {a b : State} {p : Prop} [Decidable p] (h : p → Stays s a) (k : ¬p → Stays s b) :
    Stays s (if p then a else b) := by
  split
  · exact h ‹_›
  · exact k ‹_›

theorem Keeps.ite {s : State} {a b : State} {p : Prop} [Decidable p] (h : p → Keeps s a) (k : ¬p → Keeps s b) :
    Keeps s (if p then a else b) := by
  split
  · exact h ‹_›
  · exact k ‹_›

theorem Stays.foldl {α : Type} {f : State → α → State} (h : ∀ s a, Stays s (f s a)) (l : List α) (s : State) :
    Stays s (l.foldl f s) := by
  induction l generalizing s with
  | nil => exact Stays.refl s
  | cons a l ih => exact (h s a).trans (ih _)

theorem Moves.ite {s : State} {a b : State} {p : Prop} [Decidable p] (h : p → Moves s a) (k : ¬p → Moves s b) :
    Moves s (if p then a else b) := by
  split
  · exact h ‹_›
  · exact k ‹_›

/-! ### One tube -/

/-- What a change of one tube carries over, where no figure the stack shares rises by it. -/
structure TubeKeeps (u v : Tube) : Prop where
  range : u.inRange → v.inRange
  ceil : u.ceilingsHold → v.ceilingsHold
  total : v.grantTotal ≤ u.grantTotal
  purge : v.lines.purge.commanded ≤ u.lines.purge.commanded
  dopant : v.lines.dopant.isOpen = true → u.lines.dopant.isOpen = true
  sealing : u.loader.isSealed = sealedNow u → v.loader.isSealed = sealedNow v
  sealed : (u.lines.dopant.isOpen = true → u.loader.isSealed = true) →
    v.lines.dopant.isOpen = true → v.loader.isSealed = true
  fixed : v.fixed = u.fixed

theorem TubeKeeps.refl (u : Tube) : TubeKeeps u u := ⟨id, id, le_rfl, le_rfl, id, id, id, rfl⟩

theorem TubeKeeps.trans {u v w : Tube} (h : TubeKeeps u v) (k : TubeKeeps v w) : TubeKeeps u w :=
  ⟨k.range ∘ h.range, k.ceil ∘ h.ceil, k.total.trans h.total, k.purge.trans h.purge, h.dopant ∘ k.dopant, k.sealing ∘ h.sealing,
    k.sealed ∘ h.sealed, k.fixed.trans h.fixed⟩

theorem current_inRange {u : Tube} :
    (∀ c, u.current = some c → c.step.body.inRange) ↔ ∀ b, u.view.current = some b → b.inRange := by
  simp only [Tube.view, Option.map_eq_some_iff]
  constructor
  · rintro h b ⟨c, hc, rfl⟩; exact h c hc
  · intro h c hc; exact h _ ⟨c, hc, rfl⟩

/-- A change that leaves the view as it was keeps everything. -/
theorem TubeKeeps.of_view {u v : Tube} (h : v.view = u.view) : TubeKeeps u v := by
  have hc := @current_inRange u
  have hd := @current_inRange v
  rw [h] at hd
  simp only [Tube.view, TubeView.mk.injEq] at h
  obtain ⟨h1, -, h3, h4, h5, h6, h7, h8, h9, h10, h11, h12, h13, h14, h15, h16, h17⟩ := h
  simp only [Prod.mk.injEq] at h7
  obtain ⟨h7a, h7b, h7c⟩ := h7
  refine ⟨?_, ?_, ?_, ?_, ?_, ?_, ?_, ?_⟩
  · rintro ⟨⟨a1, a2, a3, a4, a5⟩, b, c, d, e, f, g, i⟩
    rw [h12.symm] at f; rw [← h13] at g
    exact ⟨⟨h1 ▸ a1, h1 ▸ a2, hd.2 (hc.1 a3), h3 ▸ a4, h4 ▸ a5⟩, h8 ▸ b, h11 ▸ c, h17 ▸ d, h14 ▸ e, f, g, h15 ▸ i⟩
  · intro a z
    rw [h8, h9, h10, h5]; exact a z
  · simp [Tube.grantTotal, Tube.stepTotal, Tube.surchargeTotal, h9, h10]
  · rw [h11]
  · rw [h11]; exact id
  · intro a; simp only [sealedNow, h16, h6, h15, h5] at a ⊢; exact a
  · rw [h11, h16]; exact id
  · simp [Tube.fixed, h5, h6, h7a, h7b, h7c]

/-! ### The whole state -/

theorem grantSum_le {s t : State} (h : ∀ u, (t.tube u).grantTotal ≤ (s.tube u).grantTotal) : grantSum t ≤ grantSum s := by
  have h0 := h .t0; have h1 := h .t1; have h2 := h .t2; have h3 := h .t3
  simp only [grantSum]; omega

theorem headerAllocation_le {s t : State}
    (h : ∀ u, (t.tube u).lines.purge.commanded ≤ (s.tube u).lines.purge.commanded) :
    headerAllocation t ≤ headerAllocation s := by
  have h0 := h .t0; have h1 := h .t1; have h2 := h .t2; have h3 := h .t3
  simp only [headerAllocation]; omega

theorem slotsInUse_le {s t : State}
    (h : ∀ u, (t.tube u).lines.dopant.isOpen = true → (s.tube u).lines.dopant.isOpen = true) :
    slotsInUse t ≤ slotsInUse s := by
  simp only [slotsInUse]
  exact (List.monotone_filter_right TubeId.all fun u hu => h u hu).length_le

theorem limitInForce_eq {s t : State} (h : t.limits = s.limits) (hc : t.curtail = s.curtail) :
    limitInForce t = limitInForce s := by
  simp only [State.limits, LimitView.mk.injEq] at h
  simp [limitInForce, h.1, h.2.1, hc]

theorem surchargesAddUp_iff (s : State) :
    s.surchargesAddUp ↔ ∀ c ∈ s.arbiter.claims.map Claim.core, c.2.1 = .surcharge → c.2.2.2.1.sum = c.2.2.2.2.1 := by
  simp only [State.surchargesAddUp, List.mem_map, forall_exists_index, and_imp]
  constructor
  · rintro h c d hd rfl; exact h d hd
  · intro h c hc; exact h c.core c hc rfl

/-- Whether one claim's core stands ahead of another's. -/
def aheadCore (a b : TubeId × ClaimKind × Nat × PerZone Nat × Nat × Stamp × Nat) : Bool :=
  a.2.2.1 < b.2.2.1 ||
    (a.2.2.1 == b.2.2.1 &&
      (a.2.2.2.2.2.1.toNat < b.2.2.2.2.2.1.toNat ||
        (a.2.2.2.2.2.1 == b.2.2.2.2.2.1 && a.2.2.2.2.2.2 < b.2.2.2.2.2.2)))

theorem ordered_iff (l : List Claim) :
    ordered l ↔ (l.map Claim.core).Pairwise fun a b => aheadCore b a = false := by
  simp only [ordered, List.pairwise_map]; rfl

theorem limits_le {s t : State} (hl : t.limits = s.limits) (h : s.arbiter.limitEc ≤ s.arbiter.limitE) :
    t.arbiter.limitEc ≤ t.arbiter.limitE := by
  simp only [State.limits, LimitView.mk.injEq] at hl
  omega

theorem inRange_of_tubes {s t : State} (hl : t.limits = s.limits) (hc : t.curtail = s.curtail)
    (he : t.exhaust = s.exhaust) (ht : ∀ u, (s.tube u).inRange → (t.tube u).inRange)
    (ha : s.arbiter.history.length ≤ 4 → t.arbiter.history.length ≤ 4) : s.inRange → t.inRange := by
  rintro ⟨a, b, c, d, e⟩
  exact ⟨fun u => ht u (a u), ha b, hc ▸ c, he ▸ d, limits_le hl e⟩

theorem withinHeader_of_le {s t : State} (hl : t.limits = s.limits) (h : headerAllocation t ≤ headerAllocation s) :
    s.withinHeader → t.withinHeader := by
  simp only [State.limits, LimitView.mk.injEq] at hl
  simp only [State.withinHeader]; omega

theorem withinScrubber_of_le {s t : State} (hl : t.limits = s.limits) (h : slotsInUse t ≤ slotsInUse s) :
    s.withinScrubber → t.withinScrubber := by
  simp only [State.limits, LimitView.mk.injEq] at hl
  simp only [State.withinScrubber]; omega

theorem surchargesAddUp_congr {s t : State} (h : t.arbiter.claims.map Claim.core = s.arbiter.claims.map Claim.core) :
    s.surchargesAddUp → t.surchargesAddUp := by
  rw [surchargesAddUp_iff, surchargesAddUp_iff, h]; exact id

theorem claimsOrdered_congr {s t : State} (h : t.arbiter.claims.map Claim.core = s.arbiter.claims.map Claim.core) :
    s.claimsOrdered → t.claimsOrdered := by
  simp only [State.claimsOrdered, ordered_iff, h]; exact id

/-- A change of tubes alone, each keeping what a tube keeps, with the rest the properties read unchanged. -/
theorem Moves.of_tubes {s t : State} (hf : t.fixed = s.fixed) (hc : t.curtail = s.curtail) (he : t.exhaust = s.exhaust)
    (ht : ∀ u, TubeKeeps (s.tube u) (t.tube u)) (ha : t.arbiter.view = s.arbiter.view)
    (hd : s.due.shed = true → t.due.shed = true) : Moves s t := by
  have hl : t.limits = s.limits := congrArg Fixed.limits hf
  simp only [Arbiter.view, Prod.mk.injEq] at ha
  obtain ⟨ha1, ha2, ha3⟩ := ha
  refine ⟨⟨inRange_of_tubes hl hc he (fun u => (ht u).range) (ha2 ▸ id), fun _ a u => (ht u).ceil (a u), ?_,
    fun _ => withinHeader_of_le hl (headerAllocation_le fun u => (ht u).purge),
    fun _ => withinScrubber_of_le hl (slotsInUse_le fun u => (ht u).dopant), ?_, fun _ => claimsOrdered_congr ha1⟩, ⟨hf, hc, he⟩⟩
  · rintro - ⟨a, b⟩
    refine ⟨surchargesAddUp_congr ha1 a, ?_⟩
    rcases b with b | b | b
    · exact .inl (hd b)
    · exact .inr (.inl (ha3 ▸ b))
    · refine .inr (.inr ?_)
      rw [limitInForce_eq hl hc]
      exact (grantSum_le fun u => (ht u).total).trans b
  · intro _ a u
    refine ⟨(ht u).sealing (a u).1, fun ho => ⟨(ht u).sealed (fun h => ((a u).2 h).1) ho, ?_⟩⟩
    rw [he]; exact ((a u).2 ((ht u).dopant ho)).2

/-- A change that leaves everything the properties read, and everything fixed, as it was. -/
theorem Moves.of_same {s t : State} (hf : t.fixed = s.fixed) (hc : t.curtail = s.curtail) (he : t.exhaust = s.exhaust)
    (ht : ∀ u, (t.tube u).view = (s.tube u).view) (ha : t.arbiter.view = s.arbiter.view)
    (hd : s.due.shed = true → t.due.shed = true) : Moves s t :=
  .of_tubes hf hc he (fun u => .of_view (ht u)) ha hd

/-! ### The primitive operations -/

/-- One tube changed, with its record and calibration sets kept. -/
theorem onTube_stays {s : State} {t : TubeId} {f : Tube → Tube} (h : (f (s.tube t)).fixed = (s.tube t).fixed) :
    Stays s (s.onTube t f) := by
  refine ⟨?_, rfl, rfl⟩
  have : (fun u => ((s.onTube t f).tube u).fixed) = fun u => (s.tube u).fixed := by
    funext u
    by_cases hu : u = t
    · subst hu; simpa using h
    · simp [tube_onTube_of_ne _ _ _ hu]
  simp only [State.fixed, this]; rfl

/-- One tube changed, with nothing the stack shares raised. -/
theorem onTube_moves {s : State} {t : TubeId} {f : Tube → Tube} (h : TubeKeeps (s.tube t) (f (s.tube t))) :
    Moves s (s.onTube t f) := by
  refine .of_tubes (onTube_stays h.fixed).fixed rfl rfl (fun u => ?_) rfl id
  by_cases hu : u = t
  · subst hu; simpa using h
  · rw [tube_onTube_of_ne _ _ _ hu]; exact .refl _

/-- One tube changed outside its view. -/
theorem onTube_view {s : State} {t : TubeId} {f : Tube → Tube} (h : ∀ u, (f u).view = u.view) : Moves s (s.onTube t f) :=
  onTube_moves (.of_view (h _))

theorem onLoader_view {s : State} {t : TubeId} {f : Loader → Loader} (h : ∀ l, (f l).position = l.position)
    (k : ∀ l, (f l).isSealed = l.isSealed) : Moves s (s.onLoader t f) := by
  refine onTube_moves (.of_view ?_)
  simp [Tube.view, h, k]

theorem onFault_view {s : State} {t : TubeId} {f : FaultMonitor → FaultMonitor} : Moves s (s.onFault t f) :=
  onTube_view fun _ => rfl

theorem onCurrent_view {s : State} {t : TubeId} {f : CurrentStep → CurrentStep} (h : ∀ c, (f c).step.body = c.step.body) :
    Moves s (s.onCurrent t f) := by
  refine onTube_view fun u => ?_
  simp [Tube.view, Option.map_map, Function.comp_def, h]

theorem onArbiter_view {s : State} {f : Arbiter → Arbiter} (h : (f s.arbiter).view = s.arbiter.view)
    (k : (s.onArbiter f).limits = s.limits) : Moves s (s.onArbiter f) := by
  refine .of_same ?_ rfl rfl (fun _ => rfl) h id
  simp only [State.fixed, k]; rfl

theorem onDue_moves {s : State} {f : Due → Due} (h : s.due.shed = true → (f s.due).shed = true) : Moves s (s.onDue f) :=
  .of_same rfl rfl rfl (fun _ => rfl) rfl h

theorem send_moves (s : State) (m : Sent) : Moves s (s.send m) := .of_same rfl rfl rfl (fun _ => rfl) rfl id

theorem onLinks_moves {s : State} {f : LinkId → Link → Link} (h : ∀ l, (f l (s.link l)).fixed = (s.link l).fixed) :
    Moves s (s.onLinks f) := by
  refine .of_same ?_ rfl rfl (fun _ => rfl) rfl id
  have : (fun l => ((s.onLinks f).link l).fixed) = fun l => (s.link l).fixed := by
    funext l; simpa using h l
  simp only [State.fixed, this]; rfl

theorem dueClaims_moves (s : State) : Moves s (dueClaims s) := onDue_moves id
theorem dueHeader_moves (s : State) : Moves s (dueHeader s) := onDue_moves id
theorem dueScrubber_moves (s : State) : Moves s (dueScrubber s) := onDue_moves id
theorem dueShed_moves (s : State) : Moves s (dueShed s) := onDue_moves fun _ => rfl
theorem dueShedWhileShedding_moves (s : State) : Moves s (dueShedWhileShedding s) :=
  onDue_moves fun h => by simp [h]

theorem raiseTube_moves (k : TubeKind) (t : TubeId) (s : State) : Moves s (raiseTube k t s) := by
  refine onLinks_moves fun l => ?_
  dsimp only
  split <;> rfl

theorem raiseMode_moves (s : State) : Moves s (raiseMode s) := onLinks_moves fun _ => rfl

theorem raiseCurtail_moves (s : State) : Moves s (raiseCurtail s) := onLinks_moves fun _ => rfl

end Sys2Proof.Machine
end

