-- ==== Sys2Proof/Laws/Claims.lean ====
section
/-! SUPPORT. The Claim List: its order under placing, moving and removing claims, what the walk leaves of it, and what those
operations keep. -/

namespace Sys2Proof.Machine

/-! ### The order of R76 -/

theorem Claim.ahead_asymm {a b : Claim} (h : a.ahead b = true) : b.ahead a = false := by
  simp only [Claim.ahead, Bool.or_eq_true, Bool.and_eq_true, decide_eq_true_eq, beq_iff_eq] at h
  rw [← Bool.not_eq_true]
  simp only [Claim.ahead, Bool.or_eq_true, Bool.and_eq_true, decide_eq_true_eq, beq_iff_eq]
  rintro (k | ⟨k, k' | ⟨k', k''⟩⟩) <;> rcases h with h | ⟨h, h' | ⟨h', h''⟩⟩
  all_goals first
    | omega
    | (rw [k'] at h'; omega)
    | (rw [h'] at k'; omega)

theorem Claim.not_ahead_trans {a b c : Claim} (h : b.ahead a = false) (k : c.ahead b = false) : c.ahead a = false := by
  rw [← Bool.not_eq_true] at h k ⊢
  simp only [Claim.ahead, Bool.or_eq_true, Bool.and_eq_true, decide_eq_true_eq, beq_iff_eq, ← BitVec.toNat_inj] at h k ⊢
  omega

theorem mem_insertClaim {c d : Claim} {l : List Claim} : d ∈ insertClaim c l ↔ d = c ∨ d ∈ l := by
  induction l with
  | nil => simp [insertClaim]
  | cons e l ih =>
    simp only [insertClaim]
    split
    · simp only [List.mem_cons, ih]; tauto
    · simp only [List.mem_cons]

/-- A claim placed behind every claim ahead of it leaves an ordered list ordered (R76). -/
theorem insertClaim_ordered {c : Claim} {l : List Claim} (h : ordered l) : ordered (insertClaim c l) := by
  induction l with
  | nil => simp [insertClaim, ordered]
  | cons d l ih =>
    simp only [ordered, List.pairwise_cons] at h
    simp only [insertClaim]
    split
    · rename_i hd
      simp only [ordered, List.pairwise_cons]
      refine ⟨fun e he => ?_, ih h.2⟩
      rcases mem_insertClaim.1 he with rfl | he
      · exact Claim.ahead_asymm hd
      · exact h.1 e he
    · rename_i hd
      simp only [Bool.not_eq_true] at hd
      simp only [ordered, List.pairwise_cons]
      refine ⟨fun e he => ?_, h⟩
      rcases List.mem_cons.1 he with rfl | he
      · exact hd
      · exact Claim.not_ahead_trans hd (h.1 e he)

/-! ### What changes of the list keep -/

theorem claimsOrdered_of_sublist {s t : State}
    (h : (t.arbiter.claims.map Claim.core).Sublist (s.arbiter.claims.map Claim.core)) : s.claimsOrdered → t.claimsOrdered := by
  simp only [State.claimsOrdered, ordered_iff]
  exact fun k => k.sublist h

theorem surchargesAddUp_of_sublist {s t : State}
    (h : (t.arbiter.claims.map Claim.core).Sublist (s.arbiter.claims.map Claim.core)) :
    s.surchargesAddUp → t.surchargesAddUp := by
  simp only [surchargesAddUp_iff]
  exact fun k c hc => k c (h.subset hc)

/-- A change of the Claim List that only takes claims out of it, or changes what a claim does not keep. -/
theorem claims_moves {s : State} {f : Arbiter → Arbiter}
    (h : ((f s.arbiter).claims.map Claim.core).Sublist (s.arbiter.claims.map Claim.core))
    (hh : s.arbiter.history.length ≤ 4 → (f s.arbiter).history.length ≤ 4) (hs : (f s.arbiter).shedding = s.arbiter.shedding)
    (hl : (s.onArbiter f).limits = s.limits) : Moves s (s.onArbiter f) := by
  refine ⟨⟨inRange_of_tubes hl rfl rfl (fun _ => id) hh, fun _ => id, ?_, fun _ => ?_, fun _ => ?_,
    fun _ => id, fun _ => ?_⟩, ⟨?_, rfl, rfl⟩⟩
  · rintro - ⟨a, b⟩
    refine ⟨surchargesAddUp_of_sublist h a, ?_⟩
    have := limitInForce_eq hl rfl
    have g : grantSum (s.onArbiter f) = grantSum s := rfl
    simpa only [State.withinEnvelope, this, g, due_onArbiter, arbiter_onArbiter, hs] using b
  · exact withinHeader_of_le hl le_rfl
  · exact withinScrubber_of_le hl le_rfl
  · exact claimsOrdered_of_sublist h
  · simp only [State.fixed, hl]; rfl

/-- A claim placed, which asks for the sum of its parts if it is a SURCHARGE claim. -/
theorem placeClaim_moves {t : TubeId} {kind : ClaimKind} {level : Nat} {values : PerZone Nat} {amount : Nat}
    {counter : Option DwellCounter} {s : State} (h : kind = .surcharge → values.sum = amount) :
    Moves s (placeClaim t kind level values amount counter s) := by
  refine ⟨⟨?_, fun _ => id, ?_, fun _ => id, fun _ => id, fun _ => id, fun _ => ?_⟩, ⟨rfl, rfl, rfl⟩⟩
  · exact inRange_of_tubes rfl rfl rfl (fun _ => id) id
  · rintro - ⟨a, b⟩
    refine ⟨fun c hc k => ?_, b⟩
    rcases mem_insertClaim.1 hc with rfl | hc
    · exact h k
    · exact a c hc k
  · exact fun a => insertClaim_ordered a

theorem removeClaim_moves (t : TubeId) (s : State) : Moves s (removeClaim t s) := by
  unfold removeClaim
  split
  · exact (claims_moves (List.filter_sublist.map _) id rfl rfl).trans (dueClaims_moves _)
  · exact .refl _

theorem onClaim_moves {t : TubeId} {f : Claim → Claim} {s : State} (h : ∀ c, (f c).core = c.core) :
    Moves s (onClaim t f s) := by
  refine claims_moves ?_ id rfl rfl
  have : Claim.core ∘ (fun c : Claim => if c.tube = t then f c else c) = Claim.core := by
    funext c; simp only [Function.comp]; split <;> simp [h]
  simp [List.map_map, this]

/-! ### The walk -/

theorem unreached_core (cs : List Claim) : (unreached cs).map Claim.core = cs.map Claim.core := by
  simp [unreached, List.map_map, Function.comp_def, Claim.core]

theorem bypassed_core (cs : List Claim) : (bypassed cs).map Claim.core = cs.map Claim.core := by
  simp only [bypassed, List.map_map]
  congr 1; funext c; simp only [Function.comp]; split <;> rfl

/-- A walk that finds no candidate keeps every claim. -/
theorem walk_core_none (s : State) (l : List Claim) (h : (walk s l).candidate = none) :
    ((walk s l).before ++ (walk s l).behind).map Claim.core = l.map Claim.core := by
  induction l with
  | nil => rfl
  | cons c l ih =>
    simp only [walk] at h ⊢
    split at h
    · simp_all [Walk.pass, Claim.core]
    · rename_i h1; rw [if_neg h1]
      split at h
      · simp_all [Walk.pass, Claim.core]
      · rename_i h2; rw [if_neg h2]
        split at h
        · simp at h
        · rename_i h3; rw [if_neg h3]
          split at h
          · simp_all [Walk.pass, Claim.core]
          · rename_i h4; rw [if_neg h4]
            simp [unreached_core, Claim.core]

/-- A walk that finds a candidate keeps it in its place among the others, and it fits. -/
theorem walk_core_some (s : State) (l : List Claim) {c : Claim} (h : (walk s l).candidate = some c) :
    ((walk s l).before.map Claim.core ++ c.core :: (walk s l).behind.map Claim.core = l.map Claim.core) ∧ c ∈ l ∧
      fits s c = true ∧ c.level < s.arbiter.mask ∧ (s.tube c.tube).isSuspended = false := by
  induction l with
  | nil => simp [walk] at h
  | cons d l ih =>
    simp only [walk] at h ⊢
    split at h
    · rename_i h1
      have := ih (by simpa [Walk.pass] using h)
      simp only [h1, if_true, Walk.pass, List.map_cons, List.cons_append, List.mem_cons, this.1]
      exact ⟨rfl, .inr this.2.1, this.2.2⟩
    · rename_i h1; rw [if_neg h1]
      split at h
      · rename_i h2
        have := ih (by simpa [Walk.pass] using h)
        simp only [h2, if_true, Walk.pass, List.map_cons, List.cons_append, List.mem_cons, this.1]
        exact ⟨rfl, .inr this.2.1, this.2.2⟩
      · rename_i h2; rw [if_neg h2]
        split at h
        · rename_i h3
          simp only [Option.some.injEq] at h
          subst h
          rw [if_pos h3]
          simp only [unreached_core, List.map_nil, List.nil_append, List.map_cons, List.mem_cons, true_or, h3, true_and]
          exact ⟨by omega, by simpa using h2⟩
        · rename_i h3; rw [if_neg h3]
          split at h
          · rename_i h4
            have := ih (by simpa [Walk.pass] using h)
            simp only [h4, if_true, Walk.pass, List.map_cons, List.cons_append, List.mem_cons, this.1]
            exact ⟨rfl, .inr this.2.1, this.2.2⟩
          · simp at h

end Sys2Proof.Machine
end

