-- ==== Sys2Proof/Laws/Envelope.lean ====
section
/-! SUPPORT. The composition of ceilings, the grant record's writes, and the shed pass: what each does, once, and what it keeps. -/

namespace Sys2Proof.Machine

/-! ### Ceilings -/

theorem composedCeiling_le (s : State) (t : TubeId) (z : ZoneId) :
    (composedCeiling s t z).1 ≤ (s.tube t).grant.step.get z + (s.tube t).grant.surcharge.get z ∧
      (composedCeiling s t z).1 ≤ (s.tube t).record.zmax.get z := by
  unfold composedCeiling
  dsimp only
  split
  · simp
  · split
    · rename_i h
      simp only [Bool.and_eq_true, decide_eq_true_eq] at h
      dsimp only; omega
    · split <;> (dsimp only; omega)

theorem withCeiling_sent_le {z : Zone} (c : Nat × CeilingTerm) (h : z.sentCeiling ≤ z.ceiling) :
    (z.withCeiling c).sentCeiling ≤ (z.withCeiling c).ceiling := by
  unfold Zone.withCeiling
  dsimp only
  split <;> omega

/-- A ceiling depends on what of its tube no composition changes. -/
theorem composedCeiling_congr {s s' : State} {t : TubeId} {z : ZoneId} (h0 : s'.cal0 = s.cal0)
    (h : ∃ zs, s'.tube t = { s.tube t with zones := zs } ∧ (zs.get z).s = ((s.tube t).zones.get z).s ∧
      (zs.get z).isOpen = ((s.tube t).zones.get z).isOpen) : composedCeiling s' t z = composedCeiling s t z := by
  obtain ⟨zs, h1, h2, h3⟩ := h
  have hc : calInForce s' t = calInForce s t := by
    simp only [calInForce, h1]
    unfold calSetOf
    split <;> simp [h0, h1]
  unfold composedCeiling
  dsimp only
  rw [hc, h1]
  simp only [Zone.reportedSetpoint, h2, h3]
  rfl

/-- The state with what was sent on the field links replaced. -/
def State.withOutbox (s : State) (o : List Sent) : State := { s with outbox := o }

theorem withOutbox_onTube (s : State) (o : List Sent) (t : TubeId) (f : Tube → Tube) :
    (s.withOutbox o).onTube t f = (s.onTube t f).withOutbox o := rfl

theorem withOutbox_withOutbox (s : State) (o p : List Sent) : (s.withOutbox o).withOutbox p = s.withOutbox p := rfl

theorem tube_withOutbox (s : State) (o : List Sent) (t : TubeId) : (s.withOutbox o).tube t = s.tube t := rfl

theorem onTube_onTube (s : State) (t : TubeId) (f g : Tube → Tube) : (s.onTube t f).onTube t g = s.onTube t fun u => g (f u) := by
  cases t <;> rfl

/-- The ceiling of one zone composed again: the zone alone changes. -/
theorem recomposeZone_eq (t : TubeId) (s : State) (z : ZoneId) :
    ∃ o, recomposeZone t s z = (s.onZone t z fun zone => zone.withCeiling (composedCeiling s t z)).withOutbox o := by
  unfold recomposeZone
  dsimp only
  split
  · exact ⟨_, rfl⟩
  · exact ⟨s.outbox, rfl⟩

theorem recomposeZone_tube (t : TubeId) (s : State) (z : ZoneId) :
    (recomposeZone t s z).tube t = { s.tube t with
      zones := (s.tube t).zones.set z (((s.tube t).zones.get z).withCeiling (composedCeiling s t z)) } := by
  obtain ⟨o, h⟩ := recomposeZone_eq t s z
  rw [h, tube_withOutbox, State.onZone, tube_onTube_same]

theorem composedCeiling_recomposeZone {t : TubeId} {s : State} {y z : ZoneId} (h : z ≠ y) :
    composedCeiling (recomposeZone t s y) t z = composedCeiling s t z := by
  refine composedCeiling_congr ?_ ⟨_, recomposeZone_tube t s y, ?_, ?_⟩
  · obtain ⟨o, k⟩ := recomposeZone_eq t s y; rw [k]; rfl
  · rw [PerZone.get_set_of_ne _ h]
  · rw [PerZone.get_set_of_ne _ h]

/-- A tube with every ceiling composed again (R65, R66). -/
def Tube.recomposed (s : State) (t : TubeId) (u : Tube) : Tube :=
  { u with zones := u.zones.map fun z zone => zone.withCeiling (composedCeiling s t z) }

/-- The ceilings of a tube composed again: the tube's zones alone change, and the lowered ceilings are sent. -/
theorem recompose_eq (t : TubeId) (s : State) :
    ∃ o, recompose t s = (s.onTube t (Tube.recomposed s t)).withOutbox o := by
  have key : ∀ y z : ZoneId, z ≠ y → ∀ s, composedCeiling (recomposeZone t s y) t z = composedCeiling s t z :=
    fun y z h s => composedCeiling_recomposeZone h
  obtain ⟨o0, h0⟩ := recomposeZone_eq t s .z0
  obtain ⟨o1, h1⟩ := recomposeZone_eq t (recomposeZone t s .z0) .z1
  obtain ⟨o2, h2⟩ := recomposeZone_eq t (recomposeZone t (recomposeZone t s .z0) .z1) .z2
  obtain ⟨o3, h3⟩ := recomposeZone_eq t (recomposeZone t (recomposeZone t (recomposeZone t s .z0) .z1) .z2) .z3
  obtain ⟨o4, h4⟩ := recomposeZone_eq t
    (recomposeZone t (recomposeZone t (recomposeZone t (recomposeZone t s .z0) .z1) .z2) .z3) .z4
  simp only [key .z0 .z1 (by decide), key .z0 .z2 (by decide), key .z1 .z2 (by decide), key .z0 .z3 (by decide),
    key .z1 .z3 (by decide), key .z2 .z3 (by decide), key .z0 .z4 (by decide), key .z1 .z4 (by decide),
    key .z2 .z4 (by decide), key .z3 .z4 (by decide)] at h1 h2 h3 h4
  have h : recompose t s = recomposeZone t
    (recomposeZone t (recomposeZone t (recomposeZone t (recomposeZone t s .z0) .z1) .z2) .z3) .z4 := rfl
  refine ⟨o4, ?_⟩
  rw [h, h4, h3, h2, h1, h0]
  simp only [State.onZone, withOutbox_onTube, withOutbox_withOutbox, onTube_onTube]
  rfl

theorem recompose_tube (t : TubeId) (s : State) : (recompose t s).tube t = (s.tube t).recomposed s t := by
  obtain ⟨o, h⟩ := recompose_eq t s
  rw [h]; exact tube_onTube_same s t _

theorem recompose_tube_of_ne {t u : TubeId} (h : u ≠ t) (s : State) : (recompose t s).tube u = s.tube u := by
  obtain ⟨o, k⟩ := recompose_eq t s
  rw [k]; exact tube_onTube_of_ne s t _ h

theorem withCeiling_inRange {z : Zone} {c : Nat × CeilingTerm} (h : z.inRange) : (z.withCeiling c).inRange := h

/-- The ceilings composed again hold, whatever they were, if none had been sent above its zone's. -/
theorem recomposed_ceilingsHold {s : State} {t : TubeId}
    (h : ∀ z, ((s.tube t).zones.get z).sentCeiling ≤ ((s.tube t).zones.get z).ceiling) :
    ((s.tube t).recomposed s t).ceilingsHold := by
  intro z
  simp only [Tube.recomposed, PerZone.get_map]
  exact ⟨withCeiling_sent_le _ (h z), composedCeiling_le s t z⟩

theorem recomposed_keeps (s : State) (t : TubeId) : TubeKeeps (s.tube t) ((s.tube t).recomposed s t) := by
  refine ⟨?_, fun h => recomposed_ceilingsHold fun z => (h z).1, le_rfl, le_rfl, id, id, id, rfl⟩
  rintro ⟨a, b, c⟩
  refine ⟨a, fun z => ?_, c⟩
  simp only [Tube.recomposed, PerZone.get_map]
  exact withCeiling_inRange (b z)

theorem outbox_moves (s : State) (o : List Sent) : Moves s (s.withOutbox o) :=
  .of_same rfl rfl rfl (fun _ => rfl) rfl id

theorem recompose_moves (t : TubeId) (s : State) : Moves s (recompose t s) := by
  obtain ⟨o, h⟩ := recompose_eq t s
  rw [h]
  exact (onTube_moves (recomposed_keeps s t)).trans (outbox_moves _ o)

theorem recomposeZone_moves (t : TubeId) (z : ZoneId) (s : State) : Moves s (recomposeZone t s z) := by
  obtain ⟨o, h⟩ := recomposeZone_eq t s z
  rw [h]
  refine (onTube_moves ?_).trans (outbox_moves _ o)
  refine ⟨?_, ?_, le_rfl, le_rfl, id, id, id, rfl⟩
  · rintro ⟨a, b, c⟩
    refine ⟨a, fun y => ?_, c⟩
    by_cases hy : y = z
    · subst hy; simpa using withCeiling_inRange (b y)
    · simpa [PerZone.get_set_of_ne _ hy] using b y
  · intro a y
    by_cases hy : y = z
    · subst hy; simpa using ⟨withCeiling_sent_le _ (a y).1, composedCeiling_le s t y⟩
    · simpa [PerZone.get_set_of_ne _ hy] using a y

theorem recomposeAll_moves (s : State) : Moves s (recomposeAll s) := Moves.foldl (fun s t => recompose_moves t s) _ s

/-! ### Writing the grant record -/

/-- A tube whose grant shares are written and whose ceilings are composed again. -/
theorem granted_keeps {s : State} {t : TubeId} {step surcharge : PerZone Nat} {s1 : State}
    (h1 : s1 = s.onTube t fun u => { u with grant := { u.grant with step := step, surcharge := surcharge } })
    (h : step.sum + surcharge.sum ≤ (s.tube t).grantTotal) : TubeKeeps (s.tube t) ((s1.tube t).recomposed s1 t) := by
  have e : s1.tube t = { s.tube t with grant := { (s.tube t).grant with step := step, surcharge := surcharge } } := by
    rw [h1]; exact tube_onTube_same s t _
  have k := recomposed_keeps s1 t
  refine ⟨fun a => k.range ?_, fun a => recomposed_ceilingsHold fun z => ?_, ?_, ?_, ?_, ?_, ?_, ?_⟩
  · rw [e]; exact a
  · rw [e]; exact (a z).1
  · simpa [Tube.recomposed, e, Tube.grantTotal, Tube.stepTotal, Tube.surchargeTotal] using h
  · simp [Tube.recomposed, e]
  · simp [Tube.recomposed, e]
  · simp only [Tube.recomposed, e]; exact id
  · simp only [Tube.recomposed, e]; exact id
  · simp [Tube.recomposed, e, Tube.fixed]

/-- The grant record as written, with the ceilings composed again, before what it makes due. -/
def granted (t : TubeId) (step surcharge : PerZone Nat) (s : State) : State :=
  recompose t (s.onTube t fun u => { u with grant := { u.grant with step := step, surcharge := surcharge } })

theorem writeGrant_eq (t : TubeId) (step surcharge : PerZone Nat) (s : State) :
    writeGrant t step surcharge s = if step.sum + surcharge.sum < (s.tube t).grantTotal then
      dueShedWhileShedding (dueClaims (granted t step surcharge s)) else granted t step surcharge s := rfl

theorem granted_moves {t : TubeId} {step surcharge : PerZone Nat} {s : State}
    (h : step.sum + surcharge.sum ≤ (s.tube t).grantTotal) : Moves s (granted t step surcharge s) := by
  unfold granted
  generalize h1 : s.onTube t (fun u => { u with grant := { u.grant with step := step, surcharge := surcharge } }) = s1
  obtain ⟨o, k⟩ := recompose_eq t s1
  rw [k]
  have hk := granted_keeps h1.symm h
  have : s1.onTube t (Tube.recomposed s1 t) = s.onTube t fun _ => (s1.tube t).recomposed s1 t := by
    rw [← h1]
    cases t <;> rfl
  rw [this]
  exact (onTube_moves hk).trans (outbox_moves _ o)

/-- A write of a tube's shares that does not raise its grant total. -/
theorem writeGrant_moves {t : TubeId} {step surcharge : PerZone Nat} {s : State}
    (h : step.sum + surcharge.sum ≤ (s.tube t).grantTotal) : Moves s (writeGrant t step surcharge s) := by
  rw [writeGrant_eq]
  split
  · exact (granted_moves h).trans ((dueClaims_moves _).trans (dueShedWhileShedding_moves _))
  · exact granted_moves h

theorem writeStepShare_moves {t : TubeId} {step : PerZone Nat} {s : State} (h : step.sum ≤ (s.tube t).stepTotal) :
    Moves s (writeStepShare t step s) :=
  writeGrant_moves (by simp only [Tube.grantTotal, Tube.surchargeTotal]; omega)

theorem loweredShare_le (s : State) (t : TubeId) : (loweredShare s t).sum ≤ (s.tube t).stepTotal :=
  PerZone.sum_le fun z => by simp only [loweredShare, PerZone.get_of]; omega

theorem lowerShare_moves (t : TubeId) (s : State) : Moves s (lowerShare t s) := writeStepShare_moves (loweredShare_le s t)

theorem releaseSurcharge_moves (t : TubeId) (s : State) : Moves s (releaseSurcharge t s) := by
  refine Moves.trans ?_ (writeGrant_moves ?_)
  · exact onLoader_view (fun _ => rfl) fun _ => rfl
  · simp [State.onLoader, Tube.grantTotal, Tube.stepTotal]

theorem zeroGrant_moves (t : TubeId) (s : State) : Moves s (zeroGrant t s) := by
  refine Moves.trans ?_ (writeGrant_moves ?_)
  · exact onLoader_view (fun _ => rfl) fun _ => rfl
  · simp [State.onLoader]

theorem sendCeiling_moves (t : TubeId) (s : State) (z : ZoneId) : Moves s (sendCeiling t s z) := by
  refine .after (send_moves _ _) (onTube_moves ?_)
  refine ⟨?_, ?_, le_rfl, le_rfl, id, id, id, rfl⟩
  · rintro ⟨a, b, c⟩
    refine ⟨a, fun y => ?_, c⟩
    by_cases hy : y = z
    · subst hy; simp only [PerZone.get_set_same]; exact b y
    · simpa [PerZone.get_set_of_ne _ hy] using b y
  · intro a y
    by_cases hy : y = z
    · subst hy; simpa using (a y).2
    · simpa [PerZone.get_set_of_ne _ hy] using a y

theorem overTempGrant_moves (t : TubeId) (s : State) : Moves s (overTempGrant t s) :=
  (zeroGrant_moves t s).trans (Moves.foldl (sendCeiling_moves t) _ _)

theorem resolveHeld_moves (t : TubeId) (s : State) : Moves s (resolveHeld t s) := by
  unfold resolveHeld
  refine .ite (fun _ => .ite (fun _ => ?_) fun _ => releaseSurcharge_moves t s) fun _ => .refl s
  exact onLoader_view (fun _ => rfl) fun _ => rfl

/-! ### Shedding -/

theorem shedTube_moves (t : TubeId) (s : State) : Moves s (shedTube t s) := by
  unfold shedTube
  refine Moves.trans (Moves.trans (Moves.trans ?_ (writeStepShare_moves ?_)) (placeClaim_moves (by simp)))
    (raiseTube_moves _ _ _)
  · exact onTube_view fun _ => rfl
  · simpa [Tube.stepTotal] using loweredShare_le s t

theorem shedLoop_moves (n : Nat) (s : State) : Moves s (shedLoop n s) := by
  induction n generalizing s with
  | zero => exact .refl s
  | succ n ih =>
    unfold shedLoop
    split
    · exact .refl s
    · split
      · exact .refl s
      · exact (shedTube_moves _ s).trans (ih _)

theorem granted_arbiter (t : TubeId) (step surcharge : PerZone Nat) (s : State) :
    (granted t step surcharge s).arbiter = s.arbiter := by
  unfold granted
  obtain ⟨o, k⟩ := recompose_eq t (s.onTube t fun u => { u with grant := { u.grant with step := step, surcharge := surcharge } })
  rw [k]; rfl

theorem writeGrant_arbiter (t : TubeId) (step surcharge : PerZone Nat) (s : State) :
    (writeGrant t step surcharge s).arbiter = s.arbiter := by
  rw [writeGrant_eq]
  split <;> exact granted_arbiter t step surcharge s

theorem shedLoop_shedding (n : Nat) (s : State) : (shedLoop n s).arbiter.shedding = s.arbiter.shedding := by
  induction n generalizing s with
  | zero => rfl
  | succ n ih =>
    unfold shedLoop
    split
    · rfl
    · split
      · rfl
      · rw [ih]
        simp [shedTube, raiseTube, placeClaim, dueClaims, writeStepShare, writeGrant_arbiter]

/-- A change of what is due and of the SHEDDING flag, after which the envelope stands as R72 has it. -/
theorem shedding_moves {s t : State} (h : ∃ d b, t = { s with due := d, arbiter := { s.arbiter with shedding := b } })
    (k : s.withinEnvelope → t.withinEnvelope) : Moves s t := by
  obtain ⟨d, b, rfl⟩ := h
  exact ⟨⟨id, fun _ => id, fun _ a => ⟨a.1, k a.2⟩, fun _ => id, fun _ => id, fun _ => id, fun _ => id⟩, ⟨rfl, rfl, rfl⟩⟩

theorem shedPass_moves (s : State) : Moves s (shedPass s) := by
  unfold shedPass
  dsimp only
  split
  · refine Moves.trans (shedding_moves (t := (s.onDue fun d => { d with shed := false }).onArbiter fun a =>
      { a with shedding := true }) ⟨_, _, rfl⟩ fun _ => .inr (.inl rfl)) (Moves.trans (shedLoop_moves 4 _) ?_)
    generalize hq : shedLoop 4 ((s.onDue fun d => { d with shed := false }).onArbiter fun a => { a with shedding := true }) = q
    have hs : q.arbiter.shedding = true := by rw [← hq, shedLoop_shedding]; rfl
    split
    · rename_i hle
      exact shedding_moves ⟨_, _, rfl⟩ fun _ => .inr (.inr hle)
    · exact shedding_moves ⟨_, q.arbiter.shedding, rfl⟩ fun _ => .inr (.inl hs)
  · rename_i hle
    split
    · exact shedding_moves ⟨_, _, rfl⟩ fun _ => .inr (.inr (Nat.not_lt.1 hle))
    · exact shedding_moves ⟨_, s.arbiter.shedding, rfl⟩ fun _ => .inr (.inr (Nat.not_lt.1 hle))

end Sys2Proof.Machine
end

