-- ==== Sys2Proof/Laws/Gas.lean ====
section
/-! SUPPORT. What the operations of the gas block and of the boat loaders keep. -/

namespace Sys2Proof.Machine

/-! ### Lines -/

@[simp] theorem command_commanded (l : Line) (flow : Nat) : (l.command flow).commanded = flow := rfl

@[simp] theorem command_isOpen (l : Line) (flow : Nat) : (l.command flow).isOpen = decide (0 < flow) := rfl

theorem command_inRange {l : Line} (h : l.inRange) (flow : Nat) : (l.command flow).inRange := ⟨h.1, Nat.zero_le _⟩

/-- One line of a tube replaced, its PURGE flow not raised and its DOPANT line not opened. -/
theorem setLine_keeps {u : Tube} {l : LineId} {x : Line} (h : (u.lines.get l).inRange → x.inRange)
    (hp : l = .purge → x.commanded ≤ u.lines.purge.commanded)
    (hd : l = .dopant → x.isOpen = true → u.lines.dopant.isOpen = true) :
    TubeKeeps u { u with lines := u.lines.set l x } := by
  refine ⟨?_, id, le_rfl, ?_, ?_, id, ?_, rfl⟩
  · rintro ⟨a, b, c, d⟩
    refine ⟨a, b, fun m => ?_, d⟩
    by_cases hm : m = l
    · subst hm; simpa using h (c m)
    · simpa [PerLine.get_set_of_ne _ hm] using c m
  · cases l
    · exact hp rfl
    all_goals exact le_rfl
  · cases l
    on_goal 4 => exact hd rfl
    all_goals exact id
  · cases l
    on_goal 4 => exact fun k ho => k (hd rfl ho)
    all_goals exact id

/-- A command that does not raise the PURGE flow and does not open a DOPANT line. -/
theorem commandLine_moves {t : TubeId} {l : LineId} {flow : Nat} {s : State}
    (hp : l = .purge → flow ≤ (s.tube t).lines.purge.commanded)
    (hd : l = .dopant → 0 < flow → (s.tube t).lines.dopant.isOpen = true) : Moves s (commandLine t l flow s) := by
  unfold commandLine
  refine Moves.trans ?_ (send_moves _ _)
  exact onTube_moves (setLine_keeps (fun h => command_inRange h flow) hp fun h k => hd h (by simpa using k))

theorem closeDopant_moves (t : TubeId) (s : State) : Moves s (closeDopant t s) := by
  unfold closeDopant
  refine .ite (fun _ => ?_) fun _ => .refl s
  refine Moves.trans (Moves.trans (commandLine_moves ?_ ?_) (onTube_moves ⟨?_, id, le_rfl, le_rfl, id, id, id, rfl⟩))
    (dueScrubber_moves _)
  · simp
  · simp
  rintro ⟨a, b, c, d, e, f, g, h⟩
  exact ⟨a, b, c, d, e, Nat.zero_le _, Nat.zero_le _, h⟩

theorem closePurge_moves (t : TubeId) (s : State) : Moves s (closePurge t s) := by
  unfold closePurge
  refine .ite (fun _ => ?_) fun _ => .refl s
  refine Moves.trans (commandLine_moves ?_ ?_) (dueHeader_moves _) <;> simp

theorem commandLine_tube (t : TubeId) (l : LineId) (flow : Nat) (s : State) :
    (commandLine t l flow s).tube t = { s.tube t with lines := (s.tube t).lines.set l (((s.tube t).lines.get l).command flow) } := by
  unfold commandLine State.onLine
  rw [tube_send, tube_onTube_same]

theorem commandLine_tube_of_ne {t u : TubeId} (h : u ≠ t) (l : LineId) (flow : Nat) (s : State) :
    (commandLine t l flow s).tube u = s.tube u := by
  unfold commandLine State.onLine
  rw [tube_send, tube_onTube_of_ne _ _ _ h]

/-- After DOPANT is closed, it is closed. -/
theorem closeDopant_closed (t : TubeId) (s : State) : ((closeDopant t s).tube t).lines.dopant.isOpen = false := by
  unfold closeDopant
  split
  · rw [tube_dueScrubber, tube_onTube_same, commandLine_tube]
    rfl
  · rename_i h; simpa using h

theorem closeDopant_tube_of_ne {t u : TubeId} (h : u ≠ t) (s : State) : (closeDopant t s).tube u = s.tube u := by
  unfold closeDopant
  split
  · rw [tube_dueScrubber, tube_onTube_of_ne _ _ _ h, commandLine_tube_of_ne h]
  · rfl

/-! ### The settings of a GAS-SET -/

/-- A setting that names no PURGE line and opens no DOPANT line. -/
theorem applySetting_moves {t : TubeId} {s : State} {e : LineId × Nat} (hp : e.1 ≠ .purge)
    (hd : e.1 = .dopant → 0 < e.2 → (s.tube t).lines.dopant.isOpen = true) : Moves s (applySetting t s e) := by
  unfold applySetting
  refine .ite (fun h => .ite (fun _ => closeDopant_moves t s) fun k => .ite (fun _ => ?_) fun _ => .refl s) fun h => ?_
  · exact commandLine_moves (fun h => absurd h hp) fun h => absurd h k
  · exact commandLine_moves (fun h => absurd h hp) fun h _ => hd h (by omega)

/-- A setting of another line leaves the DOPANT line as it was. -/
theorem applySetting_dopant {t : TubeId} {s : State} {e : LineId × Nat} (h : e.1 ≠ .dopant) :
    ((applySetting t s e).tube t).lines.dopant = (s.tube t).lines.dopant := by
  have key : ∀ f, ((commandLine t e.1 f s).tube t).lines.dopant = (s.tube t).lines.dopant := by
    intro f; rw [commandLine_tube]
    obtain ⟨l, n⟩ := e
    cases l
    on_goal 4 => exact absurd rfl h
    all_goals rfl
  unfold applySetting
  split
  · split
    · exact key 0
    · rfl
  · exact key _

/-- Settings that name no PURGE line, name each line once, and open no DOPANT line. -/
theorem applySettings_moves {t : TubeId} {entries : List (LineId × Nat)} {s : State} (hp : ∀ e ∈ entries, e.1 ≠ .purge)
    (hn : (entries.map Prod.fst).Nodup)
    (hd : (s.tube t).lines.dopant.isOpen = true ∨ ∀ e ∈ entries, e.1 = .dopant → e.2 = 0) :
    Moves s (applySettings t entries s) := by
  unfold applySettings
  induction entries generalizing s with
  | nil => exact .refl s
  | cons e es ih =>
    simp only [List.map_cons, List.nodup_cons] at hn
    simp only [List.mem_cons, forall_eq_or_imp] at hp hd
    refine Moves.trans (applySetting_moves hp.1 fun h k => ?_) (ih hp.2 hn.2 ?_)
    · rcases hd with hd | hd
      · exact hd
      · have := hd.1 h; omega
    · by_cases h : e.1 = .dopant
      · refine .inr fun e' he' h' => absurd (List.mem_map_of_mem (f := Prod.fst) he') ?_
        rw [h', ← h]; exact hn.1
      · rw [applySetting_dopant h]
        exact hd.imp id fun k => k.2

/-! ### The FIFOs and the purge account -/

theorem onGas_moves {s : State} {f : GasBlock → GasBlock} (h : (f s.gas).capacity = s.gas.capacity)
    (k : (f s.gas).slots = s.gas.slots) : Moves s (s.onGas f) := by
  refine .of_same ?_ rfl rfl (fun _ => rfl) rfl id
  have : (s.onGas f).limits = s.limits := by simp [State.limits, h, k]
  simp only [State.fixed, this]; rfl

theorem placeHeaderClaim_moves (t : TubeId) (p : Purpose) (flow : Nat) (s : State) : Moves s (placeHeaderClaim t p flow s) :=
  Moves.trans (onGas_moves rfl rfl) (dueHeader_moves _)

theorem placeScrubberClaim_moves (t : TubeId) (s : State) : Moves s (placeScrubberClaim t s) :=
  Moves.trans (onGas_moves rfl rfl) (dueScrubber_moves _)

theorem removeHeaderClaim_moves (t : TubeId) (s : State) : Moves s (removeHeaderClaim t s) :=
  .ite (fun _ => Moves.trans (onGas_moves rfl rfl) (dueHeader_moves _)) fun _ => .refl s

theorem removeScrubberClaim_moves (t : TubeId) (s : State) : Moves s (removeScrubberClaim t s) :=
  .ite (fun _ => Moves.trans (onGas_moves rfl rfl) (dueScrubber_moves _)) fun _ => .refl s

theorem removeClaims_moves (t : TubeId) (s : State) : Moves s (removeClaims t s) :=
  ((removeClaim_moves t s).trans (removeHeaderClaim_moves t _)).trans (removeScrubberClaim_moves t _)

theorem creditPurge_inRange {u : Tube} (h : u.inRange) : u.creditPurge.inRange := by
  unfold Tube.creditPurge
  split
  · obtain ⟨a, b, c, d, e, f, g, i⟩ := h
    exact ⟨a, b, c, d, e, Nat.min_le_right _ _, by show _ % 60 ≤ 59; omega, i⟩
  · exact h

theorem testOwed_view (u : Tube) : u.testOwed.view = u.view := by
  unfold Tube.testOwed; split <;> rfl

theorem creditPurge_keeps (u : Tube) : TubeKeeps u u.creditPurge := by
  have h : ∀ {P : Tube → Prop}, P u → P { u with
      credit := min (u.credit + (u.remainder + creditedFlow u) / 60) 65535
      remainder := (u.remainder + creditedFlow u) % 60 } → P u.creditPurge := by
    intro P a b; unfold Tube.creditPurge; split
    · exact b
    · exact a
  refine ⟨creditPurge_inRange, ?_, ?_, ?_, ?_, ?_, ?_, ?_⟩
  all_goals first
    | exact h (P := fun v => u.ceilingsHold → v.ceilingsHold) id id
    | exact h (P := fun v => v.grantTotal ≤ u.grantTotal) le_rfl le_rfl
    | exact h (P := fun v => v.lines.purge.commanded ≤ u.lines.purge.commanded) le_rfl le_rfl
    | exact h (P := fun v => v.lines.dopant.isOpen = true → u.lines.dopant.isOpen = true) id id
    | exact h (P := fun v => u.loader.isSealed = sealedNow u → v.loader.isSealed = sealedNow v) id id
    | exact h (P := fun v => (u.lines.dopant.isOpen = true → u.loader.isSealed = true) →
        v.lines.dopant.isOpen = true → v.loader.isSealed = true) id id
    | exact h (P := fun v => v.fixed = u.fixed) rfl rfl

theorem testFlow_inRange {l : Line} (h : l.inRange) : l.testFlow.inRange := by
  unfold Line.testFlow
  split
  · split
    · exact ⟨h.1, Nat.min_le_right _ _⟩
    · exact ⟨h.1, Nat.zero_le _⟩
  · exact h

@[simp] theorem testFlow_commanded (l : Line) : l.testFlow.commanded = l.commanded := by
  unfold Line.testFlow; split
  · split <;> rfl
  · rfl

/-! ### The loader -/

theorem sendMove_moves (t : TubeId) (inward : Bool) (e v : Nat) (s : State) : Moves s (sendMove t inward e v s) := by
  refine Moves.trans ?_ (send_moves _ _)
  exact onLoader_view (fun _ => rfl) fun _ => rfl

theorem beginSegment_moves (t : TubeId) (inward : Bool) (e : Nat) (c : TravelCopy) (s : State) :
    Moves s (beginSegment t inward e c s) := by
  unfold beginSegment
  refine Moves.trans (.ite (fun _ => ?_) fun _ => .refl s) (sendMove_moves _ _ _ _ _)
  exact onCurrent_view fun _ => rfl

theorem stopLoader_moves (t : TubeId) (s : State) : Moves s (stopLoader t s) := by
  refine Moves.trans (t := if (s.tube t).loader.isMoving then s.send (.stop t) else s)
    (.ite (fun _ => send_moves _ _) fun _ => .refl s) ?_
  exact onLoader_view (fun _ => rfl) fun _ => rfl

theorem holdLoader_moves (t : TubeId) (s : State) : Moves s (holdLoader t s) := by
  unfold holdLoader
  refine Moves.trans ?_ (onLoader_view (fun _ => rfl) fun _ => rfl)
  exact .ite (fun _ => send_moves _ _) fun _ => .refl s

end Sys2Proof.Machine
end

