-- ==== Sys2Proof/Laws/Sequencer.lean ====
section
/-! SUPPORT. What the operations of the tube sequencer keep: the end of a step, the beginning of each kind's work, the motions, and
the start of the queue head. -/

namespace Sys2Proof.Machine

/-! ### Completion records -/

theorem pushRing_length {ring : List CompletionRecord} (h : ring.length ≤ Config.ringCapacity) (r : CompletionRecord) :
    (pushRing ring r).length ≤ Config.ringCapacity := by
  unfold pushRing
  split <;> (simp_all [Config.ringCapacity]; try omega)

theorem push_keeps (u : Tube) (r : CompletionRecord) : TubeKeeps u (u.push r) := by
  refine ⟨?_, id, le_rfl, le_rfl, id, id, id, rfl⟩
  rintro ⟨⟨a, b, c, d, e⟩, k⟩
  refine ⟨⟨a, b, c, pushRing_length d r, ?_⟩, k⟩
  show (if _ then _ else _) ≤ _
  split
  · exact Nat.min_le_right _ _
  · exact e

theorem pushEnd_keeps (now : Stamp) (u : Tube) (c : CurrentStep) (e : StepEnd) : TubeKeeps u (u.pushEnd now c e) := by
  unfold Tube.pushEnd
  split
  · exact (push_keeps _ _).trans (push_keeps _ _)
  · exact push_keeps _ _

/-! ### The end of a step -/

theorem raiseStepDone_moves (t : TubeId) (q : Bool) (s : State) : Moves s (raiseStepDone t q s) :=
  .ite (fun _ => .refl s) fun _ => raiseTube_moves _ _ _

theorem endAttention_moves (t : TubeId) (q : Bool) (e : StepEnd) (s : State) : Moves s (endAttention t q e s) := by
  cases e
  · exact raiseStepDone_moves t q s
  · exact raiseStepDone_moves t q s
  · exact (raiseStepDone_moves t q s).trans (raiseTube_moves _ _ _)
  · exact .refl s
  · exact .refl s

theorem dropRamp_inRange {z : Zone} (h : z.inRange) : z.dropRamp.inRange := by
  unfold Zone.dropRamp
  split
  · obtain ⟨a, -, c, d, e, -⟩ := h
    exact ⟨a, Nat.zero_le _, c, d, e, fun r hr => by cases hr⟩
  · exact h

theorem dropRamp_ceilings (z : Zone) : z.dropRamp.sentCeiling = z.sentCeiling ∧ z.dropRamp.ceiling = z.ceiling := by
  unfold Zone.dropRamp; split <;> exact ⟨rfl, rfl⟩

/-- The zones of a tube changed within their ranges and apart from their ceilings. -/
theorem mapZones_keeps {u : Tube} {f : ZoneId → Zone → Zone} (h : u.inRange → ∀ z, (f z (u.zones.get z)).inRange)
    (k : ∀ z, (f z (u.zones.get z)).sentCeiling = (u.zones.get z).sentCeiling ∧
      (f z (u.zones.get z)).ceiling = (u.zones.get z).ceiling) :
    TubeKeeps u { u with zones := u.zones.map f } := by
  refine ⟨fun r => ?_, fun c z => ?_, le_rfl, le_rfl, id, id, id, rfl⟩
  · obtain ⟨a, b, c⟩ := id r
    refine ⟨a, fun z => ?_, c⟩
    simpa using h r z
  · simp only [PerZone.get_map, (k z).1, (k z).2]
    exact c z

theorem dropRamps_keeps (u : Tube) : TubeKeeps u u.dropRamps :=
  mapZones_keeps (fun h z => dropRamp_inRange (h.2.1 z)) fun _ => dropRamp_ceilings _

theorem leave_keeps (u : Tube) (e : StepEnd) : TubeKeeps u (u.leave e) := by
  refine (dropRamps_keeps u).trans ?_
  have key : ∀ v : Tube, v.queue = u.dropRamps.queue → v.current = none → v.ring = u.dropRamps.ring →
      v.overwrites = u.dropRamps.overwrites → v.zones = u.dropRamps.zones → v.lines = u.dropRamps.lines →
      v.service = u.dropRamps.service → v.holdback = .reset → v.credit = u.dropRamps.credit →
      v.remainder = u.dropRamps.remainder → v.loader.position = u.dropRamps.loader.position →
      v.loader.isSealed = u.dropRamps.loader.isSealed →
      v.grant = u.dropRamps.grant → v.record = u.dropRamps.record → v.recordValid = u.dropRamps.recordValid →
      v.fixed = u.dropRamps.fixed → TubeKeeps u.dropRamps v := by
    generalize u.dropRamps = w
    intro v h1 h2 h3 h4 h5 h6 h7 h8 h9 h10 h11 h12 h13 h14 h15 h16
    refine ⟨?_, ?_, ?_, ?_, ?_, ?_, ?_, h16⟩
    · rintro ⟨⟨a1, a2, a3, a4, a5⟩, b, c, d, e, f, g, i⟩
      refine ⟨⟨h1 ▸ a1, h1 ▸ a2, ?_, h3 ▸ a4, h4 ▸ a5⟩, h5 ▸ b, h6 ▸ c, h7 ▸ d, ?_, ?_, ?_, h11 ▸ i⟩
      · intro c hc; rw [h2] at hc; cases hc
      · rw [h8]; exact Nat.zero_le _
      · rw [h9]; exact f
      · rw [h10]; exact g
    · intro a z; rw [h5, h13, h14]; exact a z
    · simp [Tube.grantTotal, Tube.stepTotal, Tube.surchargeTotal, h13]
    · rw [h6]
    · rw [h6]; exact id
    · intro a; simp only [sealedNow, h12, h15, h11, h14] at a ⊢; exact a
    · rw [h6, h12]; exact id
  cases e
  case aborted => unfold Tube.leave; dsimp only; split <;> (apply key <;> rfl)
  all_goals (apply key <;> rfl)

theorem endHoldback_moves {t : TubeId} {s : State} {f : Holdback → Holdback} (h : ∀ x, (f x).seconds = x.seconds) :
    Moves s (s.onTube t fun u => { u with holdback := f u.holdback }) :=
  onTube_view fun u => by simp [Tube.view, h]

theorem endStep_moves (t : TubeId) (e : StepEnd) (s : State) : Moves s (endStep t e s) := by
  unfold endStep
  split
  · exact .refl s
  · refine Moves.trans (Moves.trans (Moves.trans (Moves.trans (t := s.onTube t fun u =>
      { u with holdback := { u.holdback with asserted := false, counter := none } }) ?_ (.ite (fun _ => lowerShare_moves t _)
        fun _ => .refl _)) (onTube_moves (pushEnd_keeps _ _ _ _))) (endAttention_moves t _ e _))
        (onTube_moves (leave_keeps _ _))
    exact endHoldback_moves (f := fun x => { x with asserted := false, counter := none }) fun _ => rfl

/-! ### Ramps and soaks -/

theorem load_inRange {z : Zone} {rate cdown : Nat} {zones : List (ZoneId × Nat)} {n : ZoneId} (h : z.inRange)
    (k : zonesInRange zones) : (z.load rate cdown zones n).inRange := by
  unfold Zone.load
  split
  · exact h
  · rename_i target ht
    obtain ⟨a, -, c, d, e, -⟩ := h
    refine ⟨a, Nat.zero_le _, c, d, e, fun r hr => ?_⟩
    simp only [Option.some.injEq] at hr
    subst hr
    simp only [targetIn, Option.map_eq_some_iff] at ht
    obtain ⟨x, hx, rfl⟩ := ht
    exact k x (List.mem_of_find?_eq_some hx)

theorem load_ceilings (z : Zone) (rate cdown : Nat) (zones : List (ZoneId × Nat)) (n : ZoneId) :
    (z.load rate cdown zones n).sentCeiling = z.sentCeiling ∧ (z.load rate cdown zones n).ceiling = z.ceiling := by
  unfold Zone.load; split <;> exact ⟨rfl, rfl⟩

theorem loadZones_keeps (u : Tube) (rate : Nat) {zones : List (ZoneId × Nat)} (k : zonesInRange zones) :
    TubeKeeps u (u.loadZones rate zones) :=
  mapZones_keeps (fun h z => load_inRange (h.2.1 z) k) fun _ => load_ceilings _ _ _ _ _

/-- A tube whose fields outside its view are changed, and whose holdback begins clear. -/
theorem clearHoldback_keeps {u v : Tube} (h : v.view = { u.view with heldBack := 0 }) : TubeKeeps u v := by
  have : v.view = { u with holdback := .reset : Tube }.view := h
  refine TubeKeeps.trans (v := { u with holdback := .reset }) ⟨?_, id, le_rfl, le_rfl, id, id, id, rfl⟩ (.of_view this)
  rintro ⟨a, b, c, d, e, f⟩
  exact ⟨a, b, c, d, Nat.zero_le _, f⟩

theorem becomeRamping_moves {t : TubeId} {rate : Nat} {zones : List (ZoneId × Nat)} {s : State} (k : zonesInRange zones) :
    Moves s (becomeRamping t rate zones s) := by
  unfold becomeRamping
  refine .after (dueShedWhileShedding_moves _) (.after (onTube_moves ?_)
    (.ite (fun _ => onCurrent_view fun _ => rfl) fun _ => .refl s))
  exact (loadZones_keeps _ rate k).trans (clearHoldback_keeps rfl)

theorem becomeSoaking_moves (t : TubeId) (duration : Nat) (s : State) : Moves s (becomeSoaking t duration s) :=
  onTube_moves (clearHoldback_keeps rfl)

theorem takeWait_moves (t : TubeId) (s : State) : Moves s (takeWait t s) := onCurrent_view fun _ => rfl

theorem becomeAdmitting_moves (t : TubeId) (s : State) : Moves s (becomeAdmitting t s) := onTube_view fun _ => rfl

/-! ### Motions -/

theorem arrive_moves (t : TubeId) (s : State) : Moves s (arrive t s) := by
  have h1 : Moves s (s.onLoader t Loader.clearMotion) := onLoader_view (fun _ => rfl) fun _ => rfl
  unfold arrive
  dsimp only
  split
  · refine h1.trans (onTube_moves ⟨?_, id, le_rfl, le_rfl, id, id, id, rfl⟩)
    exact id
  · split
    · exact h1
    · refine h1.trans (Moves.trans (.ite (fun _ => .ite (fun _ => releaseSurcharge_moves t _) fun _ => ?_) fun _ => .refl _)
        (endStep_moves t .done _))
      exact onLoader_view (fun _ => rfl) fun _ => rfl

theorem moveTowards_moves (t : TubeId) (target : Nat) (s : State) : Moves s (moveTowards t target s) := by
  unfold moveTowards
  dsimp only
  split
  · exact .refl s
  · refine .ite (fun _ => arrive_moves t s) fun _ => ?_
    split
    · exact beginSegment_moves _ _ _ _ _
    · refine .ite (fun _ => beginSegment_moves _ _ _ _ _) fun _ => Moves.trans ?_ (beginSegment_moves _ _ _ _ _)
      exact .of_same rfl rfl rfl (fun _ => rfl) rfl id

theorem beginMotion_moves (t : TubeId) (target : Nat) (s : State) : Moves s (beginMotion t target s) :=
  .after (moveTowards_moves _ _ _) (onTube_view fun _ => rfl)

theorem beginStepMotion_moves (t : TubeId) (s : State) : Moves s (beginStepMotion t s) := by
  unfold beginStepMotion
  split
  · exact .refl s
  · exact beginMotion_moves _ _ _

/-! ### The automatic purge -/

theorem endAutoPurge_moves (t : TubeId) (s : State) : Moves s (endAutoPurge t s) := by
  unfold endAutoPurge
  split
  · exact .refl s
  · exact .after (beginStepMotion_moves _ _) (.after (onCurrent_view fun _ => rfl)
      (.after (raiseStepDone_moves _ _ _) (.after (onTube_moves (push_keeps _ _)) (closePurge_moves t s))))

theorem checkAutoPurge_moves (t : TubeId) (s : State) : Moves s (checkAutoPurge t s) :=
  .ite (fun _ => endAutoPurge_moves t s) fun _ => .refl s

/-! ### Starting a step -/

theorem admitDemand_moves {t : TubeId} {level : Nat} {demand : PerZone Nat} {proceed : State → State} {s : State}
    (h : ∀ s, Moves s (proceed s)) : Moves s (admitDemand t level demand proceed s) := by
  unfold admitDemand
  dsimp only
  split
  · rename_i k
    exact Moves.trans (Moves.trans (writeStepShare_moves k) (takeWait_moves _ _)) (h _)
  · exact Moves.trans (placeClaim_moves (by simp)) (becomeAdmitting_moves _ _)

/-- An amount within the headrooms is laid out whole (R63). -/
theorem layOut_sum {amount : Nat} {room : PerZone Nat} (h : amount ≤ room.sum) : (layOut amount room).sum = amount := by
  simp only [PerZone.sum] at h
  simp only [layOut, PerZone.sum]
  omega

theorem startPush_moves (t : TubeId) (level : Nat) (hot : Option Nat) (s : State) : Moves s (startPush t level hot s) := by
  have key : ∀ s1 s2 : State, Moves s s1 → Moves s1 s2 → Moves s
      (if admittedSurcharge s t = 0 then beginStepMotion t (takeWait t s2)
        else becomeAdmitting t (placeClaim t .surcharge level (layOut (admittedSurcharge s t) (headrooms s t))
          (admittedSurcharge s t) (loadUnlessZero (s.tube t).record.admissionLimit) s2)) := by
    intro s1 s2 h1 h2
    refine (h1.trans h2).trans (.ite (fun _ => (takeWait_moves _ _).trans (beginStepMotion_moves _ _)) fun _ => ?_)
    exact (placeClaim_moves fun _ => layOut_sum (Nat.min_le_right _ _)).trans (becomeAdmitting_moves _ _)
  refine key (s.onLoader t fun l => { l with
    keptRecovery := (calInForce s t).recovery
    hotSpeed := some (hot.getD (s.tube t).record.coldSpeed) }) _ ?_ ?_
  · exact onLoader_view (fun _ => rfl) fun _ => rfl
  · exact .ite (fun _ => onCurrent_view fun _ => rfl) fun _ => .refl _

theorem startPull_moves (t : TubeId) (hot : Option Nat) (s : State) : Moves s (startPull t hot s) := by
  have h1 : Moves s (s.onLoader t fun l => { l with hotSpeed := some (hot.getD (s.tube t).record.coldSpeed) }) :=
    onLoader_view (fun _ => rfl) fun _ => rfl
  refine h1.trans (.ite (fun _ => ?_) fun _ => (takeWait_moves _ _).trans (beginStepMotion_moves _ _))
  exact .after (becomeAdmitting_moves _ _) (.after (placeHeaderClaim_moves _ _ _ _) (onCurrent_view fun _ => rfl))

theorem proceedByKind_moves {t : TubeId} {step : StepRecord} {s : State} (h : step.body.inRange) :
    Moves s (proceedByKind t step s) := by
  unfold proceedByKind
  split
  · rename_i hb; rw [hb] at h
    exact admitDemand_moves fun _ => becomeRamping_moves h
  · exact admitDemand_moves fun _ => becomeSoaking_moves _ _ _
  · exact (placeHeaderClaim_moves _ _ _ _).trans (becomeAdmitting_moves _ _)
  · rename_i entries hb; rw [hb] at h
    split
    · exact (placeScrubberClaim_moves _ _).trans (becomeAdmitting_moves _ _)
    · rename_i ho
      refine (applySettings_moves h.1 h.2 ?_).trans (endStep_moves _ _ _)
      by_cases hd : (s.tube t).lines.dopant.isOpen = true
      · exact .inl hd
      · refine .inr fun e he hx => ?_
        simp only [opensDopant, hd, Bool.not_false, Bool.true_and, List.any_eq_true, not_exists, not_and] at ho
        have := ho e he
        simp only [hx, beq_self_eq_true, Bool.true_and, decide_eq_true_eq] at this
        omega
  · exact startPush_moves _ _ _ _
  · exact startPull_moves _ _ _
  · exact endStep_moves _ _ _

theorem startCalibration_moves {t : TubeId} {step : StepRecord} {s s' : State} (h : startCalibration t step s = some s') :
    Moves s s' := by
  unfold startCalibration at h
  split at h
  · cases h; exact .refl s
  · split at h
    · cases h
      exact .after (recompose_moves _ _) (onTube_view fun _ => rfl)
    · cases h

/-! ### What is kept whatever the step -/

theorem becomeRamping_stays (t : TubeId) (rate : Nat) (zones : List (ZoneId × Nat)) (s : State) :
    Stays s (becomeRamping t rate zones s) := by
  unfold becomeRamping
  refine .after (dueShedWhileShedding_moves _).toStays (.after (onTube_stays ?_)
    (.ite (fun _ => Moves.toStays (onCurrent_view fun _ => rfl)) fun _ => .refl s))
  rfl

theorem commandLine_stays (t : TubeId) (l : LineId) (flow : Nat) (s : State) : Stays s (commandLine t l flow s) := by
  unfold commandLine
  exact .after (send_moves _ _).toStays (onTube_stays rfl)

theorem applySettings_stays (t : TubeId) (entries : List (LineId × Nat)) (s : State) :
    Stays s (applySettings t entries s) := by
  refine Stays.foldl (fun s e => ?_) _ _
  unfold applySetting
  exact .ite (fun _ => .ite (fun _ => (closeDopant_moves t s).toStays) fun _ =>
    .ite (fun _ => commandLine_stays _ _ _ _) fun _ => .refl s) fun _ => commandLine_stays _ _ _ _

theorem admitDemand_stays {t : TubeId} {level : Nat} {demand : PerZone Nat} {proceed : State → State} {s : State}
    (h : ∀ s, Stays s (proceed s)) : Stays s (admitDemand t level demand proceed s) := by
  refine .ite (fun k => .after (h _) ?_) fun _ => ?_
  · exact ((writeStepShare_moves k).trans (takeWait_moves _ _)).toStays
  · exact ((placeClaim_moves (by simp)).trans (becomeAdmitting_moves _ _)).toStays

theorem proceedByKind_stays (t : TubeId) (step : StepRecord) (s : State) : Stays s (proceedByKind t step s) := by
  unfold proceedByKind
  split
  · exact admitDemand_stays fun _ => becomeRamping_stays _ _ _ _
  · exact admitDemand_stays fun _ => (becomeSoaking_moves _ _ _).toStays
  · exact ((placeHeaderClaim_moves _ _ _ _).trans (becomeAdmitting_moves _ _)).toStays
  · exact .ite (fun _ => ((placeScrubberClaim_moves _ _).trans (becomeAdmitting_moves _ _)).toStays) fun _ =>
      .after (endStep_moves _ _ _).toStays (applySettings_stays _ _ _)
  · exact (startPush_moves _ _ _ _).toStays
  · exact (startPull_moves _ _ _).toStays
  · exact (endStep_moves _ _ _).toStays

theorem startStep_moves (t : TubeId) (s : State) : Moves s (startStep t s) := by
  unfold startStep
  split
  · exact .refl s
  · rename_i step rest hq
    have h1 : Moves s (s.onTube t fun u =>
        { u with queue := rest, current := some ⟨step, s.seconds, none, step.body.band u.record, .none⟩ }) := by
      refine onTube_moves ⟨?_, id, le_rfl, le_rfl, id, id, id, rfl⟩
      rintro ⟨⟨a, b, c, d⟩, e⟩
      rw [hq] at a b
      refine ⟨⟨(Nat.le_succ _).trans a, fun r hr => b r (List.mem_cons_of_mem _ hr), fun c hc => ?_, d⟩, e⟩
      cases hc
      exact b step (List.mem_cons_self ..)
    have hb : s.inRange → step.body.inRange := fun h => (h.1 t).1.2.1 step (by rw [hq]; exact List.mem_cons_self ..)
    dsimp only
    generalize s.onTube t _ = s1 at h1
    split
    · exact h1.trans (endStep_moves _ _ _)
    · rename_i s2 h2
      have h2 := h1.trans (startCalibration_moves h2)
      split
      · exact h2.trans (endStep_moves _ _ _)
      · exact .of_range (h2.toStays.trans (proceedByKind_stays _ _ _)) fun h =>
          h2.toKeeps.trans (proceedByKind_moves (hb h)).toKeeps

end Sys2Proof.Machine
end

