-- ==== Sys2Proof/Laws/Evaluate.lean ====
section
/-! SUPPORT. What the grants and evaluations of the three lists keep, and the end of an event: each grant raises only what its list
has room for. -/

namespace Sys2Proof.Machine

/-! ### Grants from the Claim List -/

theorem grantSum_change {s s' : State} {t : TubeId} (h : ∀ u, u ≠ t → (s'.tube u).grantTotal = (s.tube u).grantTotal) :
    grantSum s' + (s.tube t).grantTotal = grantSum s + (s'.tube t).grantTotal := by
  have h0 := h .t0; have h1 := h .t1; have h2 := h .t2; have h3 := h .t3
  simp only [grantSum]
  cases t <;> simp_all <;> omega

theorem grantTotal_le_sum (s : State) (t : TubeId) : (s.tube t).grantTotal ≤ grantSum s := by
  simp only [grantSum]; cases t <;> omega

theorem granted_tube (t : TubeId) (step surcharge : PerZone Nat) (s : State) :
    ((granted t step surcharge s).tube t).grantTotal = step.sum + surcharge.sum := by
  unfold granted
  rw [recompose_tube, tube_onTube_same]; rfl

theorem granted_tube_of_ne {t u : TubeId} (h : u ≠ t) (step surcharge : PerZone Nat) (s : State) :
    (granted t step surcharge s).tube u = s.tube u := by
  unfold granted
  rw [recompose_tube_of_ne h, tube_onTube_of_ne _ _ _ h]

/-- A write of a tube's shares after which the sum is within the limit in force. -/
theorem granted_raises {t : TubeId} {step surcharge : PerZone Nat} {s : State}
    (h : s.surchargesAddUp → grantSum s + (step.sum + surcharge.sum) ≤ limitInForce s + (s.tube t).grantTotal) :
    Moves s (granted t step surcharge s) := by
  by_cases hle : step.sum + surcharge.sum ≤ (s.tube t).grantTotal
  · exact granted_moves hle
  have hu := @granted_tube_of_ne t
  have htot := granted_tube t step surcharge s
  have hsum := grantSum_change (s := s) (s' := granted t step surcharge s) (t := t) fun u h => by rw [hu h]
  rw [htot] at hsum
  -- the same state with the tube's shares set to their parts at most as before keeps the rest
  generalize h1 : s.onTube t (fun u => { u with grant := { u.grant with step := step, surcharge := surcharge } }) = s1
    at *
  have e1 : s1.tube t = { s.tube t with grant := { (s.tube t).grant with step := step, surcharge := surcharge } } := by
    rw [← h1]; exact tube_onTube_same s t _
  have e2 : (granted t step surcharge s).tube t = (s1.tube t).recomposed s1 t := by
    unfold granted; rw [h1, recompose_tube]
  have k := recomposed_keeps s1 t
  have kr : (s.tube t).inRange → ((s1.tube t).recomposed s1 t).inRange := fun a => k.range (by rw [e1]; exact a)
  have kc : (s.tube t).ceilingsHold → ((s1.tube t).recomposed s1 t).ceilingsHold := fun a =>
    recomposed_ceilingsHold fun z => by rw [e1]; exact (a z).1
  obtain ⟨o, ho⟩ := recompose_eq t s1
  have hg : granted t step surcharge s = (s.onTube t fun _ => (s1.tube t).recomposed s1 t).withOutbox o := by
    unfold granted; rw [h1, ho, ← h1, onTube_onTube]
    cases t <;> rfl
  have hf : Stays s (granted t step surcharge s) := by
    rw [hg]
    exact .after (outbox_moves _ o).toStays (onTube_stays (by simp [Tube.recomposed, e1, Tube.fixed]))
  have hl : (granted t step surcharge s).limits = s.limits := congrArg Fixed.limits hf.fixed
  have hd : ∀ u, ((granted t step surcharge s).tube u).lines = (s.tube u).lines ∧
      ((granted t step surcharge s).tube u).loader = (s.tube u).loader ∧
      sealedNow ((granted t step surcharge s).tube u) = sealedNow (s.tube u) := by
    intro u
    by_cases hx : u = t
    · subst hx; rw [e2]; simp [Tube.recomposed, e1, sealedNow]
    · rw [hu hx]; exact ⟨rfl, rfl, rfl⟩
  refine ⟨⟨?_, ?_, ?_, ?_, ?_, ?_, ?_⟩, hf⟩
  · refine inRange_of_tubes hl hf.curtail hf.exhaust (fun u a => ?_) (by rw [granted_arbiter]; exact id)
    by_cases hx : u = t
    · subst hx; rw [e2]; exact kr a
    · rw [hu hx]; exact a
  · intro _ a u
    by_cases hx : u = t
    · subst hx; rw [e2]; exact kc (a u)
    · rw [hu hx]; exact a u
  · rintro - ⟨a, b⟩
    refine ⟨surchargesAddUp_congr (by rw [granted_arbiter]) a, .inr (.inr ?_)⟩
    rw [limitInForce_eq hl hf.curtail]
    have := h a
    omega
  · exact fun _ => withinHeader_of_le hl (headerAllocation_le fun u => by rw [(hd u).1])
  · exact fun _ => withinScrubber_of_le hl (slotsInUse_le fun u => by rw [(hd u).1]; exact id)
  · intro _ a u
    rw [(hd u).1, (hd u).2.1, (hd u).2.2, hf.exhaust]; exact a u
  · exact fun _ => claimsOrdered_congr (by rw [granted_arbiter])

theorem writeGrant_raises {t : TubeId} {step surcharge : PerZone Nat} {s : State}
    (h : s.surchargesAddUp → grantSum s + (step.sum + surcharge.sum) ≤ limitInForce s + (s.tube t).grantTotal) :
    Moves s (writeGrant t step surcharge s) := by
  rw [writeGrant_eq]
  split
  · exact (granted_raises h).trans ((dueClaims_moves _).trans (dueShedWhileShedding_moves _))
  · exact granted_raises h

theorem PerZone.sum_of_add (v w : PerZone Nat) : (PerZone.of fun z => v.get z + w.get z).sum = v.sum + w.sum := by
  simp only [PerZone.of, PerZone.sum, PerZone.get]; omega

/-- The grant of a claim that fits writes no more than the limit in force leaves. -/
theorem writeGranted_moves {c : Claim} {s : State} (hf : fits s c = true) (hc : c ∈ s.arbiter.claims) :
    Moves s (writeGranted c s) := by
  replace hf : othersSum s c.tube + newTotal s c ≤ limitInForce s := of_decide_eq_true hf
  simp only [othersSum] at hf
  have hle := grantTotal_le_sum s c.tube
  unfold writeGranted
  dsimp only
  split
  · rename_i hk
    refine writeGrant_raises fun ha => ?_
    have hv := ha c hc hk
    rw [PerZone.sum_of_add]
    simp only [newTotal, hk] at hf
    simp only [Tube.grantTotal, Tube.stepTotal, Tube.surchargeTotal] at hf hle ⊢
    omega
  · rename_i hk
    refine writeGrant_raises fun _ => ?_
    have hn : newTotal s c = c.values.sum + (s.tube c.tube).surchargeTotal := by
      unfold newTotal; split
      · exact absurd ‹_› hk
      · rfl
    rw [hn] at hf
    simp only [Tube.grantTotal, Tube.stepTotal, Tube.surchargeTotal] at hf hle ⊢
    omega

theorem proceedGranted_stays (c : Claim) (s : State) : Stays s (proceedGranted c s) := by
  unfold proceedGranted
  dsimp only
  split
  · split
    · exact .refl s
    · split
      · exact .after (becomeRamping_stays _ _ _ _) (takeWait_moves _ _).toStays
      · exact ((takeWait_moves _ _).trans (becomeSoaking_moves _ _ _)).toStays
      · exact .refl s
  · exact .after ((takeWait_moves _ _).trans (beginStepMotion_moves _ _)).toStays
      (Moves.toStays (onLoader_view (fun _ => rfl) fun _ => rfl))
  · exact .after (dueShedWhileShedding_moves _).toStays (onTube_stays rfl)
  · split
    · exact onTube_stays rfl
    · exact .refl s

theorem proceedGranted_moves (c : Claim) (s : State) : Moves s (proceedGranted c s) := by
  refine .of_range (proceedGranted_stays c s) fun hr => Moves.toKeeps ?_
  have ht := hr.1 c.tube
  unfold proceedGranted
  dsimp only
  split
  · split
    · exact .refl s
    · rename_i cur hcur
      split
      · rename_i hb
        have := ht.1.2.2.1 cur hcur
        rw [hb] at this
        exact .after (becomeRamping_moves this) (takeWait_moves _ _)
      · exact (takeWait_moves _ _).trans (becomeSoaking_moves _ _ _)
      · exact .refl s
  · exact .after ((takeWait_moves _ _).trans (beginStepMotion_moves _ _)) (onLoader_view (fun _ => rfl) fun _ => rfl)
  · exact .after (dueShedWhileShedding_moves _) (onTube_view fun _ => rfl)
  · split
    · rename_i zones hb
      have hz : zonesInRange zones := by have := ht.2.2.2.1; rw [hb] at this; exact this
      refine onTube_moves ((loadZones_keeps _ _ hz).trans ⟨?_, id, le_rfl, le_rfl, id, id, id, rfl⟩)
      rintro ⟨a, b, c, -, d⟩
      exact ⟨a, b, c, trivial, d⟩
    · exact .refl s

theorem appendRaise_length {h : List Raise} (k : h.length ≤ 4) (r : Raise) : (appendRaise h r).length ≤ 4 := by
  unfold appendRaise
  split <;> (simp; omega)

theorem writeGranted_arbiter (c : Claim) (s : State) : (writeGranted c s).arbiter = s.arbiter := by
  unfold writeGranted
  dsimp only
  split
  · exact writeGrant_arbiter ..
  · exact writeGrant_arbiter ..

/-- The grant of a walk's candidate. -/
theorem grantClaim_moves {s : State} {c : Claim} (h : (walk s s.arbiter.claims).candidate = some c) :
    Moves s (grantClaim (walk s s.arbiter.claims) c s) := by
  obtain ⟨hcore, hmem, hfit, -⟩ := walk_core_some _ _ h
  unfold grantClaim
  refine .after (dueClaims_moves _) (.after (proceedGranted_moves _ _) (.after (raiseTube_moves _ _ _)
    (.after (claims_moves ?_ (fun k => ?_) rfl rfl) (.after (onTube_view fun _ => rfl) (writeGranted_moves hfit hmem)))))
  · rw [onTube_arbiter, writeGranted_arbiter, ← hcore, List.map_append, bypassed_core]
    exact List.Sublist.append_left (List.sublist_cons_self _ _) _
  · rw [onTube_arbiter, writeGranted_arbiter] at k ⊢
    exact appendRaise_length k _

theorem evaluateWaiting_moves (s : State) : Moves s (evaluateWaiting s) := by
  unfold evaluateWaiting
  have h0 : Moves s (s.onArbiter fun a => { a with pacing := none }) := .after (onArbiter_view rfl rfl) (.refl s)
  dsimp only
  generalize s.onArbiter (fun a => { a with pacing := none }) = s0 at h0
  refine h0.trans ?_
  split
  · rename_i hw
    exact claims_moves (by rw [walk_core_none _ _ hw]) id rfl rfl
  · rename_i c hw
    have hc : ((walk s0 s0.arbiter.claims).before ++ { c with treatment := .candidate } ::
        (walk s0 s0.arbiter.claims).behind).map Claim.core = s0.arbiter.claims.map Claim.core := by
      rw [← (walk_core_some _ _ hw).1, List.map_append, List.map_cons]; rfl
    refine .ite (fun _ => claims_moves (by rw [hc]) id rfl rfl) fun _ => .ite (fun _ => grantClaim_moves hw) fun _ => ?_
    exact claims_moves (by rw [hc]) id rfl rfl

theorem evaluateClaims_moves (s : State) : Moves s (evaluateClaims s) :=
  .ite (fun _ => onDue_moves id) fun _ => .after (evaluateWaiting_moves _) (onDue_moves id)

/-! ### The header claim FIFO -/

theorem headerAllocation_change {s s' : State} {t : TubeId}
    (h : ∀ u, u ≠ t → (s'.tube u).lines.purge.commanded = (s.tube u).lines.purge.commanded) :
    headerAllocation s' + (s.tube t).lines.purge.commanded = headerAllocation s + (s'.tube t).lines.purge.commanded := by
  have h0 := h .t0; have h1 := h .t1; have h2 := h .t2; have h3 := h .t3
  simp only [headerAllocation]
  cases t <;> simp_all <;> omega

/-- A PURGE command for which the header has room. -/
theorem commandPurge_moves {t : TubeId} {flow : Nat} {s : State}
    (h : headerAllocation s + flow ≤ s.gas.capacity + (s.tube t).lines.purge.commanded) :
    Moves s (commandLine t .purge flow s) := by
  by_cases hle : flow ≤ (s.tube t).lines.purge.commanded
  · exact commandLine_moves (fun _ => hle) (by simp)
  have hu := fun u h => commandLine_tube_of_ne (t := t) (u := u) h .purge flow s
  have ht := commandLine_tube t .purge flow s
  have hs := commandLine_stays t .purge flow s
  have hl : (commandLine t .purge flow s).limits = s.limits := congrArg Fixed.limits hs.fixed
  have hall := headerAllocation_change (s := s) (s' := commandLine t .purge flow s) (t := t) fun u h => by rw [hu u h]
  have ho : ∀ u, ((commandLine t .purge flow s).tube u).lines.dopant = (s.tube u).lines.dopant := by
    intro u
    by_cases hx : u = t
    · subst hx; rw [ht]; rfl
    · rw [hu u hx]
  have hg : ∀ u, ((commandLine t .purge flow s).tube u).grantTotal = (s.tube u).grantTotal ∧
      ((commandLine t .purge flow s).tube u).loader = (s.tube u).loader ∧
      sealedNow ((commandLine t .purge flow s).tube u) = sealedNow (s.tube u) := by
    intro u
    by_cases hx : u = t
    · subst hx; rw [ht]; exact ⟨rfl, rfl, rfl⟩
    · rw [hu u hx]; exact ⟨rfl, rfl, rfl⟩
  refine ⟨⟨?_, ?_, ?_, ?_, ?_, ?_, fun _ => id⟩, hs⟩
  · refine inRange_of_tubes hl rfl rfl (fun u a => ?_) id
    by_cases hx : u = t
    · subst hx
      rw [ht]
      obtain ⟨a, b, c, d⟩ := a
      refine ⟨a, b, fun m => ?_, d⟩
      cases m
      · exact command_inRange (c .purge) flow
      · exact c .carrier
      · exact c .oxy
      · exact c .dopant
    · rw [hu u hx]; exact a
  · intro _ a u
    by_cases hx : u = t
    · subst hx; rw [ht]; exact a u
    · rw [hu u hx]; exact a u
  · rintro - ⟨a, b⟩
    refine ⟨a, ?_⟩
    rcases b with b | b | b
    · exact .inl b
    · exact .inr (.inl b)
    · refine .inr (.inr ?_)
      rw [limitInForce_eq hl rfl]
      exact (grantSum_le fun u => (hg u).1.le).trans b
  · intro _ a
    have : ((commandLine t .purge flow s).tube t).lines.purge.commanded = flow := by rw [ht]; rfl
    rw [this] at hall
    have hcap : (commandLine t .purge flow s).gas.capacity = s.gas.capacity := rfl
    simp only [State.withinHeader, hcap] at a ⊢
    omega
  · exact fun _ => withinScrubber_of_le hl (slotsInUse_le fun u => by rw [ho]; exact id)
  · intro _ a u
    rw [ho, (hg u).2.1, (hg u).2.2]; exact a u

theorem grantHeader_moves {c : HeaderClaim} {s : State} (h : headerAllocation s + c.flow ≤ s.gas.capacity) :
    Moves s (grantHeader c s) := by
  have hq : Moves s ((takeWait c.tube (raiseTube .granted c.tube (commandLine c.tube .purge c.flow s))).onTube c.tube
      fun u => { u with state := .purging }) :=
    .after (onTube_view fun _ => rfl) (.after (takeWait_moves _ _) (.after (raiseTube_moves _ _ _)
      (commandPurge_moves (by omega))))
  unfold grantHeader
  dsimp only
  split
  · split
    · exact hq
    · split
      · exact .after (onTube_view fun _ => rfl) hq
      · exact hq
  · exact .after (checkAutoPurge_moves _ _) (.after (onCurrent_view fun _ => rfl) hq)

theorem evaluateHeader_moves (s : State) : Moves s (evaluateHeader s) := by
  unfold evaluateHeader
  have h0 : Moves s (s.onDue fun d => { d with header := false }) := onDue_moves id
  dsimp only
  generalize (s.onDue fun d => { d with header := false }) = s0 at h0
  refine h0.trans ?_
  split
  · exact onGas_moves rfl rfl
  · rename_i c cs _
    refine .ite (fun h => ?_) fun _ => onGas_moves rfl rfl
    exact .after (dueHeader_moves _) (.after (grantHeader_moves h) (onGas_moves rfl rfl))

/-! ### The scrubber claim FIFO -/

theorem slotsInUse_succ {s s' : State} {t : TubeId}
    (h : ∀ u, u ≠ t → (s'.tube u).lines.dopant.isOpen = (s.tube u).lines.dopant.isOpen) :
    slotsInUse s' ≤ slotsInUse s + 1 := by
  have h0 := h .t0; have h1 := h .t1; have h2 := h .t2; have h3 := h .t3
  simp only [slotsInUse, TubeId.all]
  cases t <;> simp_all [List.filter_cons] <;> repeat' split <;> simp_all

/-- A DOPANT command at the seal, under asserted EXHAUST-OK, for which the scrubber has a slot. -/
theorem openDopant_moves {t : TubeId} {flow : Nat} {s : State} (hseal : (s.tube t).loader.isSealed = true)
    (hslot : slotsInUse s < s.gas.slots) (he : s.exhaust.asserted = true) : Moves s (commandLine t .dopant flow s) := by
  by_cases hop : (s.tube t).lines.dopant.isOpen = true
  · exact commandLine_moves (by simp) fun _ _ => hop
  have hu := fun u h => commandLine_tube_of_ne (t := t) (u := u) h .dopant flow s
  have ht := commandLine_tube t .dopant flow s
  have hs := commandLine_stays t .dopant flow s
  have hl : (commandLine t .dopant flow s).limits = s.limits := congrArg Fixed.limits hs.fixed
  have hg : ∀ u, ((commandLine t .dopant flow s).tube u).grantTotal = (s.tube u).grantTotal ∧
      ((commandLine t .dopant flow s).tube u).loader = (s.tube u).loader ∧
      sealedNow ((commandLine t .dopant flow s).tube u) = sealedNow (s.tube u) ∧
      ((commandLine t .dopant flow s).tube u).lines.purge = (s.tube u).lines.purge := by
    intro u
    by_cases hx : u = t
    · subst hx; rw [ht]; exact ⟨rfl, rfl, rfl, rfl⟩
    · rw [hu u hx]; exact ⟨rfl, rfl, rfl, rfl⟩
  refine ⟨⟨?_, ?_, ?_, ?_, ?_, ?_, fun _ => id⟩, hs⟩
  · refine inRange_of_tubes hl rfl rfl (fun u a => ?_) id
    by_cases hx : u = t
    · subst hx
      rw [ht]
      obtain ⟨a, b, c, d⟩ := a
      refine ⟨a, b, fun m => ?_, d⟩
      cases m
      · exact c .purge
      · exact c .carrier
      · exact c .oxy
      · exact command_inRange (c .dopant) flow
    · rw [hu u hx]; exact a
  · intro _ a u
    by_cases hx : u = t
    · subst hx; rw [ht]; exact a u
    · rw [hu u hx]; exact a u
  · rintro - ⟨a, b⟩
    refine ⟨a, ?_⟩
    rcases b with b | b | b
    · exact .inl b
    · exact .inr (.inl b)
    · refine .inr (.inr ?_)
      rw [limitInForce_eq hl rfl]
      exact (grantSum_le fun u => (hg u).1.le).trans b
  · exact fun _ => withinHeader_of_le hl (headerAllocation_le fun u => by rw [(hg u).2.2.2])
  · intro _ _
    have := slotsInUse_succ (s := s) (s' := commandLine t .dopant flow s) (t := t) fun u h => by rw [hu u h]
    have hk : (commandLine t .dopant flow s).gas.slots = s.gas.slots := rfl
    simp only [State.withinScrubber, hk]
    omega
  · intro _ a u
    rw [(hg u).2.1, (hg u).2.2.1]
    refine ⟨(a u).1, fun ho => ?_⟩
    by_cases hx : u = t
    · subst hx; exact ⟨hseal, he⟩
    · rw [hu u hx] at ho; exact (a u).2 ho

theorem applySetting_loader (t : TubeId) (s : State) (e : LineId × Nat) (h : e.1 ≠ .dopant) :
    ((applySetting t s e).tube t).loader = (s.tube t).loader := by
  unfold applySetting
  split
  · split
    · rw [commandLine_tube]
    · rfl
  · rw [commandLine_tube]

theorem applySetting_slots (t : TubeId) (s : State) (e : LineId × Nat) (h : e.1 ≠ .dopant) :
    slotsInUse (applySetting t s e) ≤ slotsInUse s := by
  refine slotsInUse_le fun u => ?_
  by_cases hx : u = t
  · subst hx; rw [applySetting_dopant h]; exact id
  · unfold applySetting
    split
    · split
      · rw [commandLine_tube_of_ne hx]; exact id
      · exact id
    · rw [commandLine_tube_of_ne hx]; exact id

/-- Settings that open a DOPANT line at the seal, under asserted EXHAUST-OK, for which the scrubber has a slot. -/
theorem applySettings_opens {t : TubeId} {entries : List (LineId × Nat)} {s : State} (hp : ∀ e ∈ entries, e.1 ≠ .purge)
    (hn : (entries.map Prod.fst).Nodup) (hseal : (s.tube t).loader.isSealed = true) (hslot : slotsInUse s < s.gas.slots)
    (he : s.exhaust.asserted = true) : Moves s (applySettings t entries s) := by
  unfold applySettings
  induction entries generalizing s with
  | nil => exact .refl s
  | cons e es ih =>
    simp only [List.map_cons, List.nodup_cons] at hn
    simp only [List.mem_cons, forall_eq_or_imp] at hp
    simp only [List.foldl_cons]
    by_cases hd : e.1 = .dopant
    · have h1 : Moves s (applySetting t s e) := by
        unfold applySetting
        rw [if_pos hd, hd]
        exact .ite (fun _ => closeDopant_moves t s) fun _ => openDopant_moves hseal hslot he
      refine h1.trans (applySettings_moves hp.2 hn.2 (.inr fun e' he' h' => absurd (List.mem_map_of_mem (f := Prod.fst) he') ?_))
      rw [h', ← hd]; exact hn.1
    · have h1 : Moves s (applySetting t s e) := applySetting_moves hp.1 fun h => absurd h hd
      have hl : (applySetting t s e).limits = s.limits := congrArg Fixed.limits h1.fixed
      simp only [State.limits, LimitView.mk.injEq] at hl
      refine h1.trans (ih hp.2 hn.2 ?_ ?_ ?_)
      · rw [applySetting_loader _ _ _ hd]; exact hseal
      · have := applySetting_slots t s e hd; omega
      · rw [h1.exhaust]; exact he

theorem grantScrubber_stays (c : ScrubberClaim) (s : State) : Stays s (grantScrubber c s) := by
  unfold grantScrubber
  dsimp only
  split
  · exact (raiseTube_moves _ _ _).toStays
  · split
    · exact .after ((raiseTube_moves _ _ _).trans (endStep_moves _ _ _)).toStays
        (.after (applySettings_stays _ _ _) (takeWait_moves _ _).toStays)
    · exact (raiseTube_moves _ _ _).toStays

theorem grantScrubber_moves {c : ScrubberClaim} {s : State} (hseal : (s.tube c.tube).loader.isSealed = true)
    (hslot : slotsInUse s < s.gas.slots) (he : s.exhaust.asserted = true) : Moves s (grantScrubber c s) := by
  refine .of_range (grantScrubber_stays c s) fun hr => Moves.toKeeps ?_
  unfold grantScrubber
  dsimp only
  split
  · exact raiseTube_moves _ _ _
  · rename_i cur hcur
    have hb := (hr.1 c.tube).1.2.2.1 cur hcur
    split
    · rename_i entries he'
      rw [he'] at hb
      refine .after ((raiseTube_moves _ _ _).trans (endStep_moves _ _ _)) (.after (applySettings_opens hb.1 hb.2 ?_ ?_ he)
        (takeWait_moves _ _))
      · simpa [takeWait, State.onCurrent] using hseal
      · refine lt_of_le_of_lt (slotsInUse_le fun u => ?_) hslot
        by_cases hx : u = c.tube
        · subst hx; simp [takeWait, State.onCurrent]
        · simp [takeWait, State.onCurrent, tube_onTube_of_ne _ _ _ hx]
    · exact raiseTube_moves _ _ _

theorem evaluateScrubber_moves (s : State) : Moves s (evaluateScrubber s) := by
  unfold evaluateScrubber
  have h0 : Moves s (s.onDue fun d => { d with scrubber := false }) := onDue_moves id
  dsimp only
  generalize (s.onDue fun d => { d with scrubber := false }) = s0 at h0
  refine h0.trans ?_
  split
  · exact onGas_moves rfl rfl
  · rename_i c cs _
    refine .ite (fun _ => ?_) fun hs => .ite (fun h => ?_) fun _ => onGas_moves rfl rfl
    · exact .after (dueScrubber_moves _) (.after (endStep_moves _ _ _) (onGas_moves rfl rfl))
    · simp only [Bool.and_eq_true, decide_eq_true_eq] at h
      simp only [Bool.not_eq_true', Bool.not_eq_false] at hs
      exact .after (dueScrubber_moves _) (.after (grantScrubber_moves hs h.1 h.2) (onGas_moves rfl rfl))

/-! ### The end of an event -/

theorem settleOnce_moves (s : State) : Moves s (settleOnce s) := by
  unfold settleOnce
  split
  · exact startStep_moves _ _
  · exact .ite (fun _ => evaluateScrubber_moves s) fun _ => .ite (fun _ => evaluateHeader_moves s) fun _ =>
      .ite (fun _ => shedPass_moves s) fun _ => .ite (fun _ => evaluateClaims_moves s) fun _ => .refl s

theorem settleLoop_moves (n : Nat) (s : State) : Moves s (settleLoop n s) := by
  induction n generalizing s with
  | zero => exact .refl s
  | succ n ih => exact .ite (fun _ => .refl s) fun _ => (settleOnce_moves s).trans (ih _)

/-- The end of an event keeps every property and everything no event of the part itself changes. -/
theorem settle_moves (s : State) : Moves s (settle s) := settleLoop_moves _ s

/-- With nothing left to be taken, the end of an event changes nothing. -/
theorem settle_of_settled {s : State} (h : isSettled s = true) : settle s = s := by
  unfold settle Config.settleFuel settleLoop
  rw [if_pos h]

end Sys2Proof.Machine
end

