-- ==== Sys2Proof/Laws/Faults.lean ====
section
/-! SUPPORT. What fault reports, entry into FAULT-HOLD and the stop clean-up keep. -/

namespace Sys2Proof.Machine

/-! ### Fault reports -/

theorem stopWork_moves (t : TubeId) (s : State) : Moves s (stopWork t s) := by
  unfold stopWork
  split
  · exact removeClaims_moves _ _
  · exact removeClaim_moves _ _
  · exact closePurge_moves _ _
  · exact (stopLoader_moves _ _).trans (resolveHeld_moves _ _)
  · exact .refl s

theorem joinCause_moves (t : TubeId) (c : FaultCause) (s : State) : Moves s (joinCause t c s) := onFault_view

theorem setCondition_moves (t : TubeId) (c : FaultCause) (b : Bool) (s : State) : Moves s (setCondition t c b s) :=
  onFault_view

theorem enterFaultHold_moves (t : TubeId) (c : FaultCause) (s : State) : Moves s (enterFaultHold t c s) := by
  unfold enterFaultHold
  exact .after (raiseTube_moves _ _ _) (.after (onTube_view fun _ => rfl) (.after (endStep_moves _ _ _)
    (.after (.ite (fun _ => overTempGrant_moves _ _) fun _ => lowerShare_moves _ _) (.after (closePurge_moves _ _)
      (.after (closeDopant_moves _ _) (.after (stopWork_moves _ _) (.after onFault_view (joinCause_moves _ _ _))))))))

theorem faultEntry_moves (t : TubeId) (c : FaultCause) (s : State) : Moves s (faultEntry t c s) :=
  (enterFaultHold_moves t c s).trans (settle_moves _)

/-- A tube whose service state changes, its ramp no longer waiting. -/
theorem service_keeps {u : Tube} {f : Service → Service} (h : u.service.ramp.inRange → (f u.service).ramp.inRange) :
    TubeKeeps u { u with service := f u.service } := by
  refine ⟨?_, id, le_rfl, le_rfl, id, id, id, rfl⟩
  rintro ⟨a, b, c, d, e⟩
  exact ⟨a, b, c, h d, e⟩

theorem stopServiceWork_moves (t : TubeId) (c : FaultCause) (s : State) : Moves s (stopServiceWork t c s) := by
  have key : ∀ s1, Moves s s1 → Moves s (match (s.tube t).service.ramp with
      | .none => s1
      | .waiting _ _ => (removeClaim t s1).onTube t fun u => { u with service := { u.service with ramp := .none } }
      | .running =>
        let s2 := s1.onTube t fun u => { u.dropRamps with service := { u.service with ramp := .none } }
        if c = .overTemp then s2 else lowerShare t s2) := by
    intro s1 h1
    split
    · exact h1
    · refine .after (onTube_moves ?_) (h1.trans (removeClaim_moves _ _))
      exact service_keeps (f := fun v => { v with ramp := .none }) fun _ => trivial
    · have h2 : Moves s1 (s1.onTube t fun u => { u.dropRamps with service := { u.service with ramp := .none } }) := by
        refine onTube_moves ((dropRamps_keeps _).trans ?_)
        exact service_keeps (u := (s1.tube t).dropRamps) (f := fun v => { v with ramp := .none }) fun _ => trivial
      exact (h1.trans h2).trans (.ite (fun _ => .refl _) fun _ => lowerShare_moves _ _)
  refine key _ ?_
  split
  · refine .after (onTube_moves ?_) (stopLoader_moves _ _)
    exact service_keeps (f := fun v => { v with jog := none }) id
  · exact .refl s

theorem serviceFault_moves (t : TubeId) (c : FaultCause) (s : State) : Moves s (serviceFault t c s) := by
  have h1 := joinCause_moves t c s
  unfold serviceFault
  refine .after (settle_moves _) (.after (.ite (fun _ => overTempGrant_moves _ _) fun _ => .refl _)
    (.after (stopServiceWork_moves _ _ _) (h1.trans (.ite (fun _ => ?_) fun _ => .refl _))))
  exact .after (raiseTube_moves _ _ _) onFault_view

theorem faultHoldFault_moves (t : TubeId) (c : FaultCause) (s : State) : Moves s (faultHoldFault t c s) := by
  unfold faultHoldFault
  exact .after (settle_moves _) ((joinCause_moves t c s).trans (.ite (fun _ => overTempGrant_moves _ _) fun _ => .refl _))

/-- A fault report keeps every property, whatever state its tube is in. -/
theorem reportCause_moves (t : TubeId) (c : FaultCause) (s : State) : Moves s (reportCause t c s) := by
  have h1 := setCondition_moves t c true s
  unfold reportCause
  dsimp only
  split
  · exact h1
  · exact h1.trans (.ite (fun _ => .refl _) fun _ => faultHoldFault_moves _ _ _)
  · exact h1.trans (.ite (fun _ => .refl _) fun _ => serviceFault_moves _ _ _)
  · exact h1.trans (faultEntry_moves _ _ _)

/-! ### The stop clean-up -/

theorem onTubes_moves {s : State} {f : Tube → Tube} (h : ∀ u, TubeKeeps u (f u)) : Moves s (s.onTubes f) := by
  refine .of_tubes ?_ rfl rfl (fun u => by rw [tube_onTubes]; exact h _) rfl id
  have : (fun u => ((s.onTubes f).tube u).fixed) = fun u => (s.tube u).fixed := by
    funext u; rw [tube_onTubes]; exact (h _).fixed
  simp only [State.fixed, this]; rfl

theorem stopStep_moves (s : State) (t : TubeId) : Moves s (stopStep s t) := by
  unfold stopStep
  dsimp only
  split
  · exact .refl s
  · exact .after (endStep_moves _ _ _) (.after (stopWork_moves _ _) (.ite (fun _ => send_moves _ _) fun _ => .refl s))

theorem emptyLists_moves (s : State) : Moves s (emptyLists s) := by
  refine .after (onGas_moves rfl rfl) (.after (claims_moves (by simp) id rfl rfl) (onTubes_moves fun u => ?_))
  refine ⟨?_, id, le_rfl, le_rfl, id, id, id, rfl⟩
  rintro ⟨⟨-, -, c⟩, d⟩
  exact ⟨⟨Nat.zero_le _, by simp, c⟩, d⟩

theorem commandOff_moves (t : TubeId) (l : LineId) (s : State) : Moves s (commandLine t l 0 s) :=
  commandLine_moves (fun _ => Nat.zero_le _) fun _ h => absurd h (Nat.lt_irrefl 0)

theorem closeLines_moves (s : State) (t : TubeId) : Moves s (closeLines s t) := by
  unfold closeLines
  refine .after (onTube_moves ?_) (.after (commandOff_moves _ _ _) (.after (commandOff_moves _ _ _)
    (.after (commandOff_moves _ _ _) (.ite (fun _ => closeDopant_moves _ _) fun _ => commandOff_moves _ _ _))))
  exact service_keeps (f := fun v => { v with carrier := false, oxy := false }) id

theorem stopMotion_moves (s : State) (t : TubeId) : Moves s (stopMotion s t) := by
  refine .after (onTube_moves ?_) (stopLoader_moves _ _)
  exact service_keeps (f := fun v => { v with jog := none }) id

theorem dark_keeps (u : Tube) : TubeKeeps u { u with zones := u.zones.map fun _ z => z.dark } := by
  refine ⟨?_, ?_, le_rfl, le_rfl, id, id, id, rfl⟩
  · rintro ⟨a, b, c⟩
    refine ⟨a, fun z => ?_, c⟩
    obtain ⟨-, -, d, e, f, g⟩ := b z
    simp only [PerZone.get_map]
    exact ⟨Nat.zero_le _, Nat.zero_le _, d, e, f, g⟩
  · intro _ z
    simp only [PerZone.get_map]
    exact ⟨le_rfl, Nat.zero_le _, Nat.zero_le _⟩

theorem sendDark_tube (t : TubeId) (l : List ZoneId) (s : State) (u : TubeId) :
    (l.foldl (sendDark t) s).tube u = s.tube u := by
  induction l generalizing s with
  | nil => rfl
  | cons z l ih => rw [List.foldl_cons, ih]; rfl

theorem darken_moves (t : TubeId) (s : State) : Moves s (darken t s) :=
  .after (Moves.foldl (fun _ _ => send_moves _ _) _ _) (onTube_moves (dark_keeps _))

theorem cutPower_moves (s : State) (t : TubeId) : Moves s (cutPower s t) := (zeroGrant_moves t s).trans (darken_moves t _)

theorem writeGrant_tube (t : TubeId) (step surcharge : PerZone Nat) (s : State) (u : TubeId) :
    (writeGrant t step surcharge s).tube u = (granted t step surcharge s).tube u := by
  rw [writeGrant_eq]; split <;> rfl

theorem darken_grant (t u : TubeId) (s : State) : ((darken t s).tube u).grant = (s.tube u).grant := by
  unfold darken
  rw [sendDark_tube]
  by_cases h : u = t
  · subst h; rw [tube_onTube_same]
  · rw [tube_onTube_of_ne _ _ _ h]

theorem cutPower_total (s : State) (t u : TubeId) :
    ((cutPower s t).tube u).grantTotal = if u = t then 0 else (s.tube u).grantTotal := by
  have hd : ((cutPower s t).tube u).grantTotal = ((zeroGrant t s).tube u).grantTotal := by
    simp only [Tube.grantTotal, Tube.stepTotal, Tube.surchargeTotal, cutPower, darken_grant]
  rw [hd, zeroGrant, writeGrant_tube]
  split
  · rename_i h; subst h; rw [granted_tube]; rfl
  · rename_i h
    rw [granted_tube_of_ne h, State.onLoader, tube_onTube_of_ne _ _ _ h]

theorem cutAll_sum (s : State) : grantSum (TubeId.all.foldl cutPower s) = 0 := by
  simp [grantSum, TubeId.all, cutPower_total]

theorem switchOff_keeps (u : Tube) : TubeKeeps u u.switchOff := by
  refine (dropRamps_keeps u).trans ?_
  unfold Tube.switchOff
  generalize u.dropRamps = w
  refine ⟨?_, ?_, le_rfl, le_rfl, id, id, id, rfl⟩
  · rintro ⟨a, b, c, -, -, d⟩
    refine ⟨a, fun z => ?_, c, trivial, Nat.zero_le _, d⟩
    obtain ⟨e, f, g, h, -, i⟩ := b z
    simp only [PerZone.get_map]
    exact ⟨e, f, g, h, Nat.zero_le _, i⟩
  · intro a z
    simp only [PerZone.get_map]
    exact a z

/-- The end of a stop: with every grant at 0, the tubes go OFF, the pacing time and the SHEDDING flag go, and nothing is due. -/
theorem stopped_moves {s : State} (h : grantSum s = 0) :
    Moves s (((s.onArbiter fun a => { a with pacing := none, shedding := false }).onTubes Tube.switchOff).onDue
      fun _ => Due.none) := by
  have hg : grantSum (s.onTubes Tube.switchOff) = 0 := by
    rw [← h]; simp only [grantSum, tube_onTubes]; rfl
  have h1 : Moves s (s.onTubes Tube.switchOff) := onTubes_moves switchOff_keeps
  have e : (((s.onArbiter fun a => { a with pacing := none, shedding := false }).onTubes Tube.switchOff).onDue
      fun _ => Due.none) = ((s.onTubes Tube.switchOff).onArbiter fun a =>
        { a with pacing := none, shedding := false }).onDue fun _ => Due.none := rfl
  rw [e]
  generalize s.onTubes Tube.switchOff = q at h1 hg
  refine .trans h1 (Moves.trans (t := q.onArbiter fun a => { a with pacing := none }) (onArbiter_view rfl rfl) ?_)
  exact shedding_moves ⟨Due.none, false, rfl⟩ fun _ => .inr (.inr (by
    show grantSum q ≤ _
    rw [hg]; exact Nat.zero_le _))

/-- The stop clean-up keeps every property. -/
theorem stopCleanUp_moves (s : State) : Moves s (stopCleanUp s) := by
  unfold stopCleanUp
  exact .after (stopped_moves (cutAll_sum _)) (.after (Moves.foldl cutPower_moves _ _) (.after (Moves.foldl stopMotion_moves _ _)
    (.after (Moves.foldl closeLines_moves _ _) (.after (emptyLists_moves _) (Moves.foldl stopStep_moves _ _)))))

end Sys2Proof.Machine
end

