-- ==== Sys2Proof/Laws/Boundary.lean ====
section
/-! SUPPORT. What the events of a seconds boundary keep. -/

namespace Sys2Proof.Machine

/-! ### The gas block -/

theorem creditTube_moves (t : TubeId) (s : State) : Moves s (creditTube t s) :=
  .after (settle_moves _) (.after (checkAutoPurge_moves _ _)
    (onTube_moves ((creditPurge_keeps _).trans (.of_view (testOwed_view _)))))

theorem closeLowLines_moves (t : TubeId) (b : PerLine Line) (s : State) : Moves s (closeLowLines t b s) := by
  have h : Moves s (if b.purge.lowReached then closePurge t s else s) :=
    .ite (fun _ => closePurge_moves _ _) fun _ => .refl s
  exact h.trans (.ite (fun _ => closeDopant_moves _ _) fun _ => .refl _)

theorem testFlow_keeps (u : Tube) :
    TubeKeeps u { u with lines :=
      ⟨u.lines.purge.testFlow, u.lines.carrier.testFlow, u.lines.oxy.testFlow, u.lines.dopant.testFlow⟩ } := by
  have ho : u.lines.dopant.testFlow.isOpen = u.lines.dopant.isOpen := by simp [Line.isOpen]
  refine ⟨?_, id, le_rfl, ?_, ?_, id, ?_, rfl⟩
  · rintro ⟨a, b, c, d⟩
    refine ⟨a, b, fun l => ?_, d⟩
    cases l
    · exact testFlow_inRange (c .purge)
    · exact testFlow_inRange (c .carrier)
    · exact testFlow_inRange (c .oxy)
    · exact testFlow_inRange (c .dopant)
  · simp
  · simp only [ho]; exact id
  · simp only [ho]; exact id

theorem testLines_moves (t : TubeId) (s : State) : Moves s (testLines t s) := by
  have h : Moves s (s.onTube t fun u => { u with lines :=
      ⟨(s.tube t).lines.purge.testFlow, (s.tube t).lines.carrier.testFlow, (s.tube t).lines.oxy.testFlow,
        (s.tube t).lines.dopant.testFlow⟩ }) := onTube_moves (testFlow_keeps _)
  exact h.trans (.ite (fun _ => .after (reportCause_moves _ _ _) (closeLowLines_moves _ _ _)) fun _ => .refl _)

theorem gasSecond_moves (t : TubeId) (s : State) : Moves s (gasSecond t s) :=
  .after (settle_moves _) (.after (testLines_moves _ _) (creditTube_moves _ _))

/-! ### The counters -/

theorem expireStep_moves (t : TubeId) (s : State) : Moves s (expireStep t s) := by
  have h : Moves s (s.onTube t fun u => { u with stepCounter := none }) := onTube_view fun _ => rfl
  unfold expireStep
  dsimp only
  split
  · exact h
  · exact h.trans (.after (settle_moves _) (.after (endStep_moves _ _ _)
      (.ite (fun _ => closePurge_moves _ _) fun _ => .refl _)))

theorem stepSecond_moves (t : TubeId) (s : State) : Moves s (stepSecond t s) := by
  unfold stepSecond
  dsimp only
  split
  · exact .refl s
  · exact .ite (fun _ => expireStep_moves t s) fun _ => onTube_view fun _ => rfl

theorem recoverySecond_moves (t : TubeId) (s : State) : Moves s (recoverySecond t s) := by
  unfold recoverySecond
  split
  · exact .refl s
  · exact .ite (fun _ => (releaseSurcharge_moves t s).trans (settle_moves _)) fun _ =>
      onLoader_view (fun _ => rfl) fun _ => rfl

theorem holdbackSecond_moves (t : TubeId) (s : State) : Moves s (holdbackSecond t s) := by
  unfold holdbackSecond
  dsimp only
  split
  · exact .refl s
  · exact .ite (fun _ => .after (reportCause_moves _ _ _) (onTube_view fun _ => rfl)) fun _ => onTube_view fun _ => rfl

theorem admissionSecond_moves (t : TubeId) (s : State) : Moves s (admissionSecond t s) := by
  unfold admissionSecond
  split
  · exact .refl s
  · exact .ite (fun _ => .after (settle_moves _) (.after (endStep_moves _ _ _) (removeClaim_moves t s))) fun _ =>
      onClaim_moves fun _ => rfl

theorem counterSecond_moves (t : TubeId) (k : CounterKind) (s : State) : Moves s (counterSecond t k s) := by
  cases k
  · exact stepSecond_moves t s
  · exact recoverySecond_moves t s
  · exact holdbackSecond_moves t s
  · exact admissionSecond_moves t s

theorem countHoldback_keeps (u : Tube) : TubeKeeps u u.countHoldback := by
  unfold Tube.countHoldback
  split
  · refine ⟨?_, id, le_rfl, le_rfl, id, id, id, rfl⟩
    rintro ⟨a, b, c, d, -, e⟩
    exact ⟨a, b, c, d, Nat.min_le_right _ _, e⟩
  · exact .refl u

/-! ### The stall watch -/

theorem countDown_fixed (l : Loader) : l.countDown.position = l.position ∧ l.countDown.isSealed = l.isSealed := by
  unfold Loader.countDown; split <;> exact ⟨rfl, rfl⟩

theorem stopJog_moves (t : TubeId) (s : State) : Moves s (stopJog t s) := by
  unfold stopJog
  split
  · exact .after (onTube_moves (service_keeps (f := fun v => { v with jog := none }) id)) (stopLoader_moves t s)
  · exact .refl s

theorem stallSecond_moves (t : TubeId) (s : State) : Moves s (stallSecond t s) := by
  have h : Moves s (s.onLoader t Loader.countDown) :=
    onLoader_view (fun l => (countDown_fixed l).1) fun l => (countDown_fixed l).2
  refine h.trans (.ite (fun _ => ?_) fun _ => .refl _)
  exact (reportCause_moves _ _ _).trans (.ite (fun _ => stopJog_moves _ _) fun _ => .refl _)

/-! ### The facility input filters -/

theorem sample_count {f : Filter} (h : f.count ≤ 2) (b : Bool) : (f.sample b).count ≤ 2 := by
  unfold Filter.sample
  split
  · exact Nat.zero_le _
  · split
    · exact Nat.zero_le _
    · show f.count + 1 ≤ 2; omega

theorem sample_asserted (f : Filter) (b : Bool) : (f.sample b).asserted = if f.flips b then b else f.asserted := by
  unfold Filter.sample Filter.flips
  split
  · rename_i h; simp [h]
  · rename_i h
    split
    · rename_i k; simp [h, k]
    · rename_i k; simp [k]

/-- The CURTAIL filter replaced by one within its range, with what a change of its state makes due. -/
theorem curtail_keeps {s : State} {f : Filter} {d : Due} (h : s.curtail.count ≤ 2 → f.count ≤ 2)
    (hd : s.due.shed = true → d.shed = true)
    (k : f.asserted = s.curtail.asserted ∨ d.shed = true ∨ f.asserted = false) :
    Keeps s { s with curtail := f, due := d } := by
  refine ⟨fun a => ⟨a.1, a.2.1, h a.2.2.1, a.2.2.2⟩, fun _ => id, ?_, fun _ => id, fun _ => id, fun _ => id, fun _ => id⟩
  rintro hr ⟨a, b⟩
  refine ⟨a, ?_⟩
  rcases b with b | b | b
  · exact .inl (hd b)
  · exact .inr (.inl b)
  · rcases k with k | k | k
    · refine .inr (.inr (b.trans (le_of_eq ?_)))
      simp only [limitInForce, k]
    · exact .inl k
    · refine .inr (.inr (b.trans ?_))
      have := hr.2.2.2.2
      simp only [limitInForce, k]
      split <;> simp_all

theorem curtailSecond_keeps (s : State) : Keeps s (curtailSecond s) := by
  unfold curtailSecond
  dsimp only
  split
  · rename_i hf
    have ha : (s.curtail.sample s.curtailInput).asserted = s.curtailInput := by rw [sample_asserted, if_pos hf]
    refine .after (Moves.toKeeps (t := _) ((settle_moves _).trans (raiseCurtail_moves _))) ?_
    split
    · exact curtail_keeps (s := s) (d := { s.due with shed := true }) (fun h => sample_count h _) (fun _ => rfl)
        (.inr (.inl rfl))
    · rename_i hi
      exact curtail_keeps (s := s) (d := { s.due with claims := true, shed := s.due.shed || s.arbiter.shedding })
        (fun h => sample_count h _) (fun h => by simp [h]) (.inr (.inr (ha.trans (by simpa using hi))))
  · rename_i hf
    refine curtail_keeps (d := s.due) (fun h => sample_count h _) id (.inl ?_)
    rw [sample_asserted, if_neg hf]

theorem curtailSecond_fixed (s : State) : (curtailSecond s).fixed = s.fixed := by
  unfold curtailSecond
  dsimp only
  split
  · unfold curtailChanged
    rw [((settle_moves _).trans (raiseCurtail_moves _)).fixed]
    split <;> rfl
  · rfl

/-- The EXHAUST-OK filter replaced. -/
def State.withExhaust (s : State) (f : Filter) : State := { s with exhaust := f }

theorem closeDopant_withExhaust (t : TubeId) (s : State) (f : Filter) :
    closeDopant t (s.withExhaust f) = (closeDopant t s).withExhaust f := by
  unfold closeDopant
  show (if (s.tube t).lines.dopant.isOpen = true then _ else _) = _
  split <;> rfl

theorem closeAll_withExhaust (l : List TubeId) (s : State) (f : Filter) :
    l.foldl (fun s t => closeDopant t s) (s.withExhaust f) = (l.foldl (fun s t => closeDopant t s) s).withExhaust f := by
  induction l generalizing s with
  | nil => rfl
  | cons t l ih => rw [List.foldl_cons, closeDopant_withExhaust, ih, List.foldl_cons]

theorem closeAll_closed (l : List TubeId) (s : State) (t : TubeId) (h : t ∈ l ∨ (s.tube t).lines.dopant.isOpen = false) :
    ((l.foldl (fun s t => closeDopant t s) s).tube t).lines.dopant.isOpen = false := by
  induction l generalizing s with
  | nil => simpa using h
  | cons u l ih =>
    rw [List.foldl_cons]
    refine ih _ ?_
    by_cases hu : t = u
    · subst hu; exact .inr (closeDopant_closed _ _)
    · rw [closeDopant_tube_of_ne hu]
      simpa [hu] using h

/-- The EXHAUST-OK filter replaced by one within its range, no DOPANT line being open or the state staying asserted. -/
theorem withExhaust_keeps {s : State} {f : Filter} (h : s.exhaust.count ≤ 2 → f.count ≤ 2)
    (k : (∀ t, (s.tube t).lines.dopant.isOpen = false) ∨ (s.exhaust.asserted = true → f.asserted = true)) :
    Keeps s (s.withExhaust f) := by
  refine ⟨fun a => ⟨a.1, a.2.1, a.2.2.1, h a.2.2.2.1, a.2.2.2.2⟩, fun _ => id, fun _ => id, fun _ => id, fun _ => id,
    fun _ a t => ⟨(a t).1, fun ho => ?_⟩, fun _ => id⟩
  rcases k with k | k
  · have := k t; rw [show ((s.withExhaust f).tube t) = s.tube t from rfl] at ho
    rw [this] at ho; cases ho
  · exact ⟨((a t).2 ho).1, k ((a t).2 ho).2⟩

theorem failScrubberClaims_moves (s : State) : Moves s (failScrubberClaims s) :=
  .after (settle_moves _) (Moves.foldl (fun _ _ => .after (endStep_moves _ _ _) (removeScrubberClaim_moves _ _)) _ _)

theorem exhaustSecond_keeps (s : State) : Keeps s (exhaustSecond s) := by
  unfold exhaustSecond
  dsimp only
  have hc : s.exhaust.count ≤ 2 → (s.exhaust.sample s.exhaustInput).count ≤ 2 := fun h => sample_count h _
  have ha := sample_asserted s.exhaust s.exhaustInput
  generalize s.exhaust.sample s.exhaustInput = f at hc ha
  split
  · rename_i hf
    rw [if_pos hf] at ha
    unfold exhaustChanged
    split
    · rename_i hi
      rw [hi] at ha
      refine .after (settle_moves _).toKeeps (.after (dueScrubber_moves _).toKeeps (.after (Moves.toKeeps
        (s := s.withExhaust f) (onTubes_moves fun u => .of_view ?_)) (withExhaust_keeps hc (.inr fun _ => ha))))
      rfl
    · refine .after (failScrubberClaims_moves _).toKeeps ?_
      unfold closeForExhaust
      dsimp only
      refine .after (Moves.foldl (fun _ _ => reportCause_moves _ _ _) _ _).toKeeps (.after (settle_moves _).toKeeps ?_)
      rw [show ({ s with exhaust := f } : State) = s.withExhaust f from rfl, closeAll_withExhaust]
      refine .after (withExhaust_keeps ?_ (.inl fun t => closeAll_closed _ _ _ ?_))
        (Moves.foldl (fun _ _ => closeDopant_moves _ _) _ _).toKeeps
      · rw [(Moves.foldl (f := fun s t => closeDopant t s) (fun _ _ => closeDopant_moves _ _) _ _).exhaust]
        exact hc
      · by_cases ho : (s.tube t).lines.dopant.isOpen = true
        · exact .inl (List.mem_filter.2 ⟨TubeId.mem_all t, ho⟩)
        · exact .inr (by simpa using ho)
  · rename_i hf
    rw [if_neg hf] at ha
    exact withExhaust_keeps hc (.inr fun h => ha.trans h)

theorem exhaustSecond_fixed (s : State) : (exhaustSecond s).fixed = s.fixed := by
  unfold exhaustSecond
  dsimp only
  split
  · unfold exhaustChanged
    split
    · rw [(settle_moves _).fixed, (dueScrubber_moves _).fixed]
      exact (onTubes_moves (s := s.withExhaust (s.exhaust.sample s.exhaustInput)) (f := fun u =>
        { u with fault := { u.fault with exhaustLost := false } }) fun u => .of_view rfl).fixed
    · rw [(failScrubberClaims_moves _).fixed]
      unfold closeForExhaust
      dsimp only
      rw [(Moves.foldl (f := fun s t => reportCause t .exhaustLost s) (fun _ _ => reportCause_moves _ _ _) _ _).fixed,
        (settle_moves _).fixed, (Moves.foldl (f := fun s t => closeDopant t s) (fun _ _ => closeDopant_moves _ _) _ _).fixed]
      rfl
  · rfl

/-! ### The events of a boundary -/

theorem pacingSecond_moves (s : State) : Moves s (pacingSecond s) :=
  .ite (fun _ => (dueClaims_moves s).trans (settle_moves _)) fun _ => .refl s

/-- Every event of a boundary keeps every property. -/
theorem runBoundary_keeps (i : BoundaryItem) (s : State) : Keeps s (runBoundary i s) := by
  cases i
  · exact (gasSecond_moves _ s).toKeeps
  · exact (onTube_moves (countHoldback_keeps _)).toKeeps
  · exact (counterSecond_moves _ _ s).toKeeps
  · exact (stallSecond_moves _ s).toKeeps
  · exact curtailSecond_keeps s
  · exact exhaustSecond_keeps s
  · exact (pacingSecond_moves s).toKeeps

/-- Every event of a boundary keeps what no event of the part itself changes. -/
theorem runBoundary_fixed (i : BoundaryItem) (s : State) : (runBoundary i s).fixed = s.fixed := by
  cases i
  · exact (gasSecond_moves _ s).fixed
  · exact (onTube_stays (countHoldback_keeps _).fixed).fixed
  · exact (counterSecond_moves _ _ s).fixed
  · exact (stallSecond_moves _ s).fixed
  · exact curtailSecond_fixed s
  · exact exhaustSecond_fixed s
  · exact (pacingSecond_moves s).fixed

/-- A state whose events still to be taken are changed. -/
theorem Keeps.of_eq {s t : State} (h1 : t.tubes = s.tubes) (h2 : t.arbiter = s.arbiter) (h3 : t.gas = s.gas)
    (h4 : t.curtail = s.curtail) (h5 : t.exhaust = s.exhaust) (h6 : t.due = s.due) : Keeps s t := by
  have ht : t.tube = s.tube := by funext u; simp only [State.tube, h1]
  refine ⟨?_, fun _ => ?_, fun _ => ?_, fun _ => ?_, fun _ => ?_, fun _ => ?_, fun _ => ?_⟩
  · simp only [State.inRange, ht, h2, h4, h5]; exact id
  · simp only [State.ceilingsHold, ht]; exact id
  · simp only [State.surchargesAddUp, State.withinEnvelope, grantSum, limitInForce, ht, h2, h4, h6]; exact id
  · simp only [State.withinHeader, headerAllocation, ht, h3]; exact id
  · simp only [State.withinScrubber, slotsInUse, ht, h3]; exact id
  · simp only [State.dopantSealed, ht, h5]; exact id
  · simp only [State.claimsOrdered, h2]; exact id

theorem takeBoundary_keeps (s : State) (i : BoundaryItem) : Keeps s (takeBoundary s i) :=
  .ite (fun _ => .after (runBoundary_keeps _ _) (.of_eq rfl rfl rfl rfl rfl rfl)) fun _ => .refl s

theorem openEvent_keeps (s : State) : Keeps s (openEvent s) := .of_eq rfl rfl rfl rfl rfl rfl

theorem settleFresh_keeps (u : Tube) : TubeKeeps u u.settleFresh := .of_view rfl

theorem beginBoundary_keeps (c e : Bool) (s : State) : Keeps s (beginBoundary c e s) := by
  have h1 : Moves s (s.onTubes Tube.settleFresh) := onTubes_moves settleFresh_keeps
  have h2 : Moves (s.onTubes Tube.settleFresh) ((s.onTubes Tube.settleFresh).onArbiter fun a =>
      { a with claims := a.claims.map Claim.settleFresh }) := by
    refine claims_moves ?_ id rfl rfl
    rw [List.map_map]
    exact List.Sublist.refl _
  exact (h1.trans h2).toKeeps.trans (.of_eq rfl rfl rfl rfl rfl rfl)

theorem finishBoundary_keeps (s : State) : Keeps s (finishBoundary s) := Keeps.foldl takeBoundary_keeps _ _

end Sys2Proof.Machine
end

