-- ==== Sys2Proof/Laws/Update.lean ====
section
/-! SUPPORT. What readings and the events of a zone trajectory update keep. -/

namespace Sys2Proof.Machine

/-! ### Readings -/

/-- One zone of a tube changed within its ranges and apart from its ceiling. -/
theorem setZone_keeps {u : Tube} {z : ZoneId} {f : Zone → Zone} (h : (u.zones.get z).inRange → (f (u.zones.get z)).inRange)
    (k : (f (u.zones.get z)).sentCeiling ≤ (u.zones.get z).ceiling ∨
      (f (u.zones.get z)).sentCeiling = (u.zones.get z).sentCeiling)
    (k' : (f (u.zones.get z)).ceiling = (u.zones.get z).ceiling) :
    TubeKeeps u { u with zones := u.zones.set z (f (u.zones.get z)) } := by
  refine ⟨?_, ?_, le_rfl, le_rfl, id, id, id, rfl⟩
  · rintro ⟨a, b, c⟩
    refine ⟨a, fun y => ?_, c⟩
    by_cases hy : y = z
    · subst hy; simpa using h (b y)
    · simpa [PerZone.get_set_of_ne _ hy] using b y
  · intro a y
    by_cases hy : y = z
    · subst hy
      simp only [PerZone.get_set_same, k']
      rcases k with k | k
      · exact ⟨k, (a y).2⟩
      · rw [k]; exact a y
    · simpa [PerZone.get_set_of_ne _ hy] using a y

theorem reportOpenCount_moves (t : TubeId) (n : Nat) (s : State) : Moves s (reportOpenCount t n s) :=
  .ite (fun _ => reportCause_moves _ _ _) fun _ => .ite (fun _ => setCondition_moves _ _ _ _) fun _ => .refl s

theorem senseZone_moves {t : TubeId} {z : ZoneId} {f : Zone → Zone} {s : State} (h : ∀ x, x.inRange → (f x).inRange)
    (k : ∀ x, (f x).sentCeiling = x.sentCeiling) (k' : ∀ x, (f x).ceiling = x.ceiling) : Moves s (senseZone t z f s) :=
  .after (reportOpenCount_moves _ _ _) (.after (recomposeZone_moves _ _ _)
    (onTube_moves (setZone_keeps (h _) (.inr (k _)) (k' _))))

theorem read_inRange (v : Nat) (o : Bool) {z : Zone} (h : z.inRange) : (z.read v o).inRange := by
  obtain ⟨a, b, c, d, e, f⟩ := h
  unfold Zone.read
  split
  · exact ⟨a, b, c, d, e, f⟩
  · exact ⟨a, b, Nat.min_le_right _ _, Nat.zero_le _, e, f⟩

theorem read_ceilings (v : Nat) (o : Bool) (z : Zone) :
    (z.read v o).sentCeiling = z.sentCeiling ∧ (z.read v o).ceiling = z.ceiling := by
  unfold Zone.read; split <;> exact ⟨rfl, rfl⟩

theorem readZone_moves (t : TubeId) (z : ZoneId) (v : Nat) (o : Bool) (s : State) :
    Moves s (senseZone t z (Zone.read v o) s) :=
  senseZone_moves (fun _ h => read_inRange v o h) (fun x => (read_ceilings v o x).1) fun x => (read_ceilings v o x).2

theorem missZone_moves (t : TubeId) (z : ZoneId) (s : State) : Moves s (missZone t z s) := by
  refine .after (settle_moves _) (senseZone_moves (fun x h => ?_) (fun _ => rfl) fun _ => rfl)
  obtain ⟨a, b, c, d, e, f⟩ := h
  exact ⟨a, b, c, Nat.min_le_right _ _, e, f⟩

/-! ### The over-temperature test and holdback -/

theorem testExcess_inRange (band : Nat) {z : Zone} (h : z.inRange) : (z.testExcess band).inRange := by
  obtain ⟨a, b, c, d, e, f⟩ := h
  unfold Zone.testExcess
  split
  · exact ⟨a, b, c, d, Nat.zero_le _, f⟩
  · split
    · exact ⟨a, b, c, d, Nat.min_le_right _ _, f⟩
    · exact ⟨a, b, c, d, Nat.zero_le _, f⟩

theorem testExcess_ceilings (band : Nat) (z : Zone) :
    (z.testExcess band).sentCeiling = z.sentCeiling ∧ (z.testExcess band).ceiling = z.ceiling := by
  unfold Zone.testExcess; split
  · exact ⟨rfl, rfl⟩
  · split <;> exact ⟨rfl, rfl⟩

theorem testExcess_keeps (u : Tube) : TubeKeeps u u.testExcess :=
  mapZones_keeps (fun h z => testExcess_inRange _ (h.2.1 z)) fun _ => testExcess_ceilings _ _

theorem endOverTemp_moves (t : TubeId) (s : State) : Moves s (endOverTemp t s) := by
  refine .after (onTube_moves (mapZones_keeps (fun h z => ?_) fun _ => ⟨rfl, rfl⟩)) (setCondition_moves _ _ _ _)
  obtain ⟨a, b, c, d, -, f⟩ := h.2.1 z
  exact ⟨a, b, c, d, Nat.zero_le _, f⟩

theorem updateTest_moves (t : TubeId) (s : State) : Moves s (updateTest t s) := by
  unfold updateTest
  refine .ite (fun _ => .refl s) fun _ => ?_
  have h : Moves s (s.onTube t Tube.testExcess) := onTube_moves (testExcess_keeps _)
  exact h.trans (.ite (fun _ => reportCause_moves _ _ _) fun _ => .ite (fun _ => endOverTemp_moves _ _) fun _ => .refl _)

theorem updateHoldback_view (u : Tube) : u.updateHoldback.view = u.view := by
  unfold Tube.updateHoldback
  split
  · split <;> rfl
  · rfl

theorem updateEvaluate_moves (t : TubeId) (s : State) : Moves s (updateEvaluate t s) :=
  .after (onTube_view updateHoldback_view) (updateTest_moves t s)

/-! ### Setpoints -/

/-- A zone's advance stays within the setpoint range (R30, R33, R34). -/
theorem advance_inRange {z : Zone} (h : z.inRange) : z.advance.inRange := by
  obtain ⟨a, b, c, d, e, f⟩ := h
  simp only [Config.maxS] at a
  unfold Zone.advance
  split
  · exact ⟨a, b, c, d, e, f⟩
  · rename_i r hr
    have ht := f r hr
    split
    · exact ⟨a, b, c, d, e, f⟩
    · split
      · refine ⟨by simp only [Config.maxS]; omega, Nat.zero_le _, c, d, e, fun q hq => ?_⟩
        simp only [Option.some.injEq] at hq
        subst hq; exact ht
      · rename_i hlt
        simp only [remainingDistance, absDiff] at hlt
        refine ⟨?_, by show _ % 15 ≤ 14; omega, c, d, e, f⟩
        simp only [Config.maxS]
        split <;> omega

theorem advance_ceilings (z : Zone) : z.advance.sentCeiling = z.sentCeiling ∧ z.advance.ceiling = z.ceiling := by
  unfold Zone.advance
  split
  · exact ⟨rfl, rfl⟩
  · split
    · exact ⟨rfl, rfl⟩
    · split <;> exact ⟨rfl, rfl⟩

theorem track_inRange {z : Zone} (h : z.inRange) : z.track.inRange := by
  unfold Zone.track
  split
  · exact h
  · exact ⟨Nat.min_le_right _ _, h.2⟩

theorem track_ceilings (z : Zone) : z.track.sentCeiling = z.sentCeiling ∧ z.track.ceiling = z.ceiling := by
  unfold Zone.track; split <;> exact ⟨rfl, rfl⟩

theorem moveSetpoints_keeps (u : Tube) : TubeKeeps u u.moveSetpoints := by
  unfold Tube.moveSetpoints
  split
  · exact mapZones_keeps (fun h z => advance_inRange (h.2.1 z)) fun _ => advance_ceilings _
  · split
    · exact mapZones_keeps (fun h z => track_inRange (h.2.1 z)) fun _ => track_ceilings _
    · split
      · refine mapZones_keeps (fun h z => ?_) fun _ => ⟨rfl, rfl⟩
        exact ⟨Nat.zero_le _, (h.2.1 z).2⟩
      · exact .refl u

theorem endServiceRamp_moves (t : TubeId) (s : State) : Moves s (endServiceRamp t s) := by
  unfold endServiceRamp
  exact .after (settle_moves _) (.after (dueClaims_moves _) (.after (lowerShare_moves _ _)
    (.after (onTube_moves (service_keeps (f := fun v => { v with ramp := .none }) fun _ => trivial))
      (onTube_moves (dropRamps_keeps _)))))

theorem updateMove_moves (t : TubeId) (s : State) : Moves s (updateMove t s) := by
  have h : Moves s (recompose t (s.onTube t Tube.moveSetpoints)) :=
    .after (recompose_moves _ _) (onTube_moves (moveSetpoints_keeps _))
  refine h.trans (.ite (fun _ => .ite (fun _ => endServiceRamp_moves _ _) fun _ => ?_) fun _ => .refl _)
  exact (endStep_moves _ _ _).trans (settle_moves _)

theorem sendZone_moves (t : TubeId) (s : State) (z : ZoneId) : Moves s (sendZone t s z) := by
  unfold sendZone
  refine .after (send_moves _ _) (onTube_moves ?_)
  exact setZone_keeps (f := fun zone => { zone with
    sentSetpoint := (s.tube t).sentSetpoint ((s.tube t).zones.get z)
    sentCeiling := ((s.tube t).zones.get z).ceiling }) id (.inl le_rfl) rfl

/-- An update of one tube keeps every property. -/
theorem updateTube_moves (t : TubeId) (s : State) : Moves s (updateTube t s) :=
  .after (Moves.foldl (sendZone_moves t) _ _) (.after (updateMove_moves _ _) (updateEvaluate_moves _ _))

/-! ### The events of an update interval -/

theorem runUpdate_moves (i : UpdateItem) (s : State) : Moves s (runUpdate i s) := by
  cases i
  · exact missZone_moves _ _ s
  · exact updateTube_moves _ s

theorem takeUpdate_keeps (s : State) (i : UpdateItem) : Keeps s (takeUpdate s i) :=
  .ite (fun _ => .after (runUpdate_moves _ _).toKeeps (.of_eq rfl rfl rfl rfl rfl rfl)) fun _ => .refl s

theorem finishUpdate_keeps (s : State) : Keeps s (finishUpdate s) := Keeps.foldl takeUpdate_keeps _ _

theorem beginUpdate_keeps (s : State) : Keeps s (beginUpdate s) := by
  have h : Moves s (s.onTubes Tube.awaitReadings) :=
    onTubes_moves fun u => mapZones_keeps (fun h z => h.2.1 z) fun _ => ⟨rfl, rfl⟩
  exact h.toKeeps.trans (.of_eq rfl rfl rfl rfl rfl rfl)

end Sys2Proof.Machine
end

