-- ==== Sys2Proof/Laws/Plant.lean ====
section
/-! SUPPORT. What power-on, E-STOP and the reports of the plant keep: above all the sealed condition, which is computed again with
every position and record. -/

namespace Sys2Proof.Machine

/-! ### The sealed condition -/

/-- As `Keeps`, but for the sealed condition. -/
structure KeepsBut (s t : State) : Prop where
  range : s.inRange → t.inRange
  ceil : s.inRange → s.ceilingsHold → t.ceilingsHold
  envelope : s.inRange → s.surchargesAddUp ∧ s.withinEnvelope → t.surchargesAddUp ∧ t.withinEnvelope
  header : s.inRange → s.withinHeader → t.withinHeader
  scrubber : s.inRange → s.withinScrubber → t.withinScrubber
  order : s.inRange → s.claimsOrdered → t.claimsOrdered

theorem Keeps.but {s t : State} (h : Keeps s t) : KeepsBut s t := ⟨h.range, h.ceil, h.envelope, h.header, h.scrubber, h.order⟩

theorem KeepsBut.trans {s t u : State} (h : KeepsBut s t) (k : KeepsBut t u) : KeepsBut s u :=
  ⟨k.range ∘ h.range, fun r a => k.ceil (h.range r) (h.ceil r a), fun r a => k.envelope (h.range r) (h.envelope r a),
    fun r a => k.header (h.range r) (h.header r a), fun r a => k.scrubber (h.range r) (h.scrubber r a),
    fun r a => k.order (h.range r) (h.order r a)⟩

theorem KeepsBut.keeps {s t : State} (h : KeepsBut s t) (k : s.inRange → s.dopantSealed → t.dopantSealed) : Keeps s t :=
  ⟨h.range, h.ceil, h.envelope, h.header, h.scrubber, k, h.order⟩

/-- One tube changed, what the properties but the sealed condition read of it kept. -/
theorem onTube_but {s : State} {t : TubeId} {f : Tube → Tube} (hr : (s.tube t).inRange → (f (s.tube t)).inRange)
    (hc : (s.tube t).ceilingsHold → (f (s.tube t)).ceilingsHold)
    (hg : (f (s.tube t)).grant = (s.tube t).grant) (hl : (f (s.tube t)).lines = (s.tube t).lines) :
    KeepsBut s (s.onTube t f) := by
  have ht : ∀ {P : Tube → Tube → Prop}, P (s.tube t) (f (s.tube t)) → (∀ u, P u u) →
      ∀ u, P (s.tube u) ((s.onTube t f).tube u) := by
    intro P h k u
    by_cases hu : u = t
    · subst hu; rw [tube_onTube_same]; exact h
    · rw [tube_onTube_of_ne _ _ _ hu]; exact k _
  have hg' := ht (P := fun u v => v.grant = u.grant) hg fun _ => rfl
  have hl' := ht (P := fun u v => v.lines = u.lines) hl fun _ => rfl
  refine ⟨inRange_of_tubes rfl rfl rfl (ht (P := fun u v => u.inRange → v.inRange) hr fun _ => id) id,
    fun _ a u => ht (P := fun u v => u.ceilingsHold → v.ceilingsHold) hc (fun _ => id) u (a u), ?_,
    fun _ => withinHeader_of_le rfl (headerAllocation_le fun u => by rw [hl']),
    fun _ => withinScrubber_of_le rfl (slotsInUse_le fun u => by rw [hl']; exact id), fun _ => id⟩
  rintro - ⟨a, b⟩
  refine ⟨a, b.imp id (Or.imp id fun b => (grantSum_le fun u => ?_).trans b)⟩
  simp only [Tube.grantTotal, Tube.stepTotal, Tube.surchargeTotal, hg', le_refl]

theorem closeDopant_kept (t : TubeId) (s : State) :
    ((closeDopant t s).tube t).loader = (s.tube t).loader ∧ sealedNow ((closeDopant t s).tube t) = sealedNow (s.tube t) := by
  unfold closeDopant
  split
  · rw [tube_dueScrubber, tube_onTube_same, commandLine_tube]
    exact ⟨rfl, rfl⟩
  · exact ⟨rfl, rfl⟩

/-- The sealed condition computed again: the tube has it as its record and position have it, and no other tube changes. -/
theorem recomputeSeal_tube (t : TubeId) (s : State) :
    ((recomputeSeal t s).tube t).loader.isSealed = sealedNow (s.tube t) ∧
      sealedNow ((recomputeSeal t s).tube t) = sealedNow (s.tube t) := by
  unfold recomputeSeal
  dsimp only
  split
  · rw [(closeDopant_kept _ _).1, (closeDopant_kept _ _).2, State.onLoader, tube_onTube_same]
    exact ⟨rfl, rfl⟩
  · rw [State.onLoader, tube_onTube_same]
    exact ⟨rfl, rfl⟩

theorem recomputeSeal_tube_of_ne {t u : TubeId} (h : u ≠ t) (s : State) : (recomputeSeal t s).tube u = s.tube u := by
  unfold recomputeSeal
  dsimp only
  split
  · rw [closeDopant_tube_of_ne h, State.onLoader, tube_onTube_of_ne _ _ _ h]
  · rw [State.onLoader, tube_onTube_of_ne _ _ _ h]

theorem recomputeSeal_but (t : TubeId) (s : State) : KeepsBut s (recomputeSeal t s) := by
  have h : KeepsBut s (s.onLoader t fun l => { l with isSealed := sealedNow (s.tube t) }) := onTube_but id id rfl rfl
  unfold recomputeSeal
  dsimp only
  split
  · exact h.trans (closeDopant_moves _ _).toKeeps.but
  · exact h

theorem recomputeSeal_exhaust (t : TubeId) (s : State) : (recomputeSeal t s).exhaust = s.exhaust := by
  unfold recomputeSeal
  dsimp only
  split
  · rw [(closeDopant_moves _ _).exhaust]; rfl
  · rfl

/-- A DOPANT line open after the sealed condition is computed again was open before, and the condition held or holds. -/
theorem recomputeSeal_dopant {t : TubeId} {s : State} (h : ((recomputeSeal t s).tube t).lines.dopant.isOpen = true) :
    (s.tube t).lines.dopant.isOpen = true ∧ ((s.tube t).loader.isSealed = true → sealedNow (s.tube t) = true) := by
  unfold recomputeSeal at h
  dsimp only at h
  split at h
  · rw [closeDopant_closed] at h; cases h
  · rename_i hl
    rw [State.onLoader, tube_onTube_same] at h
    refine ⟨h, fun k => ?_⟩
    simp only [k, Bool.true_and, Bool.not_eq_true, Bool.not_eq_false'] at hl
    exact hl

/-- A tube whose position or record has changed, the sealed condition computed again. -/
theorem reseal_keeps {s s1 : State} {t : TubeId} (h : KeepsBut s s1) (ht : ∀ u, u ≠ t → s1.tube u = s.tube u)
    (hs : (s1.tube t).loader.isSealed = (s.tube t).loader.isSealed)
    (hd : (s1.tube t).lines.dopant = (s.tube t).lines.dopant) (he : s1.exhaust = s.exhaust) :
    Keeps s (recomputeSeal t s1) := by
  refine (h.trans (recomputeSeal_but t s1)).keeps fun _ a u => ?_
  rw [recomputeSeal_exhaust, he]
  by_cases hu : u = t
  · subst hu
    rw [(recomputeSeal_tube u s1).1, (recomputeSeal_tube u s1).2]
    refine ⟨rfl, fun ho => ?_⟩
    have k := recomputeSeal_dopant ho
    rw [hd] at k
    rw [hs] at k
    exact ⟨k.2 ((a u).2 k.1).1, ((a u).2 k.1).2⟩
  · rw [recomputeSeal_tube_of_ne hu, ht u hu]
    exact a u

/-! ### The loader link -/

theorem secondSegment_moves (t : TubeId) (s : State) : Moves s (secondSegment t s) := by
  unfold secondSegment
  dsimp only
  split
  · exact beginSegment_moves _ _ _ _ _
  · exact .refl s

theorem watch_kept (l : Loader) : l.watch.position = l.position ∧ l.watch.isSealed = l.isSealed := by
  unfold Loader.watch; split <;> exact ⟨rfl, rfl⟩

theorem testPosition_moves (t : TubeId) (p : Nat) (s : State) : Moves s (testPosition t p s) :=
  .ite (fun _ => arrive_moves _ _) fun _ => .ite (fun _ => secondSegment_moves _ _) fun _ =>
    onLoader_view (fun l => (watch_kept l).1) fun l => (watch_kept l).2

/-- A position report keeps every property. -/
theorem takePosition_keeps (t : TubeId) (position : Nat) (s : State) : Keeps s (takePosition t position s) := by
  have h1 : KeepsBut s (s.onLoader t fun l => { l with position := some (min position 3000) }) := by
    refine onTube_but ?_ id rfl rfl
    rintro ⟨a, b, c, d, e, f, g, -⟩
    refine ⟨a, b, c, d, e, f, g, fun p hp => ?_⟩
    simp only [Option.some.injEq] at hp
    omega
  have h2 : Keeps s (recomputeSeal t (s.onLoader t fun l => { l with position := some (min position 3000) })) := by
    refine reseal_keeps h1 (fun u h => tube_onTube_of_ne _ _ _ h) ?_ ?_ rfl
    · rw [State.onLoader, tube_onTube_same]
    · rw [State.onLoader, tube_onTube_same]
  unfold takePosition
  dsimp only
  generalize recomputeSeal t _ = q at h2
  have h3 : Moves q (if (q.tube t).loader.isMoving = true then testPosition t (min position 3000) q else q) :=
    .ite (fun _ => testPosition_moves _ _ _) fun _ => .refl _
  exact h2.trans (h3.trans (settle_moves _)).toKeeps

/-! ### Power-on and E-STOP -/

theorem assertStop_keeps (s : State) : Keeps s (assertStop s) := by
  have h : Keeps s { s with eStop := true } := .of_eq rfl rfl rfl rfl rfl rfl
  unfold assertStop
  refine .ite (fun _ => h) fun _ => ?_
  have k := h.trans (stopCleanUp_moves _).toKeeps
  generalize stopCleanUp _ = q at k
  exact k.trans (.of_eq rfl rfl rfl rfl rfl rfl)

end Sys2Proof.Machine
end

