-- ==== Sys2Proof/Laws/Requests.lean ====
section
/-! SUPPORT. What the requests keep: each handler by itself, and the checks and the answer around it. -/

namespace Sys2Proof.Machine

/-! ### The link layer -/

/-- A handler keeps every property. -/
def Holds (h : State → State × Reply) : Prop := ∀ s, Keeps s (h s).1

theorem onLink_keeps (s : State) (l : LinkId) (f : Link → Link) : Keeps s (s.onLink l f) := .of_eq rfl rfl rfl rfl rfl rfl

/-- A request keeps every property if its handler does. -/
theorem takeRequest_keeps {kind : Byte} {l : LinkId} {tag : Byte} {body : List Byte} {h : State → State × Reply}
    (k : Holds h) {s t : State} (e : takeRequest kind l tag body h s = .next t) : Keeps s t := by
  unfold takeRequest at e
  split at e
  · cases e
    exact (openEvent_keeps s).trans ((k _).trans (onLink_keeps _ _ _))
  · cases e; exact .refl s

theorem Holds.refuse (c : AnswerCode) : Holds (refuse c) := fun s => .refl s

theorem ok_keeps {s t : State} (h : Moves s t) : Keeps s (ok t).1 := h.toKeeps

theorem keeps_ok {s t : State} (h : Keeps s t) : Keeps s (ok t).1 := h

theorem okWith_keeps {s t : State} {b : List Byte} (h : Moves s t) : Keeps s (okWith b t).1 := h.toKeeps

theorem withTube_keeps {b : Byte} {s : State} {k : TubeId → State × Reply} (h : ∀ t, Keeps s (k t).1) :
    Keeps s (withTube b s k).1 := by
  unfold withTube
  split
  · exact .refl s
  · exact h _

theorem withRight_keeps {right : Rights → Bool} {l : LinkId} {t : TubeId} {s : State} {k : State × Reply}
    (h : Keeps s k.1) : Keeps s (withRight right l t s k).1 := by
  unfold withRight
  split
  · exact h
  · exact .refl s

theorem supervise_keeps {l : LinkId} {s : State} {k : State × Reply} (h : Keeps s k.1) :
    Keeps s (supervise l s k).1 := by
  unfold supervise
  split
  · exact h
  · exact .refl s

theorem inRun_keeps {s : State} {k : State × Reply} (h : Keeps s k.1) : Keeps s (inRun s k).1 := by
  unfold inRun
  split
  · exact h
  · exact .refl s

theorem inService_keeps {t : TubeId} {s : State} {k : State × Reply} (h : Keeps s k.1) :
    Keeps s (inService t s k).1 := by
  unfold inService
  refine inRun_keeps ?_
  split
  · exact h
  · exact .refl s

theorem Holds.tubeRequest {right : Rights → Bool} {l : LinkId} {body : List Byte} {h : TubeId → State → State × Reply}
    (k : ∀ t, Holds (h t)) : Holds (tubeRequest right l body h) := by
  intro s
  unfold Machine.tubeRequest
  split
  · exact withTube_keeps fun t => withRight_keeps (k t s)
  · exact .refl s

theorem Holds.stepRequest {right : Rights → Bool} {l : LinkId} {body : List Byte} {h : TubeId → Nat → State → State × Reply}
    (k : ∀ t n, Holds (h t n)) : Holds (stepRequest right l body h) := by
  intro s
  unfold Machine.stepRequest
  split
  · exact withTube_keeps fun t => withRight_keeps (k t _ s)
  · exact .refl s

theorem Holds.stackRequest {l : LinkId} {body : List Byte} {h : State → State × Reply} (k : Holds h) :
    Holds (stackRequest l body h) := by
  intro s
  unfold Machine.stackRequest
  split
  · exact supervise_keeps (k s)
  · exact .refl s

theorem Holds.openRequest {body : List Byte} {h : State → State × Reply} (k : Holds h) : Holds (openRequest body h) := by
  intro s
  unfold Machine.openRequest
  split
  · exact k s
  · exact .refl s

theorem Holds.serviceTubeRequest {l : LinkId} {body : List Byte} {h : TubeId → State → State × Reply}
    (k : ∀ t, Holds (h t)) : Holds (serviceTubeRequest l body h) := by
  intro s
  unfold Machine.serviceTubeRequest
  split
  · exact withTube_keeps fun t => supervise_keeps (k t s)
  · exact .refl s

/-! ### Step records of frames -/

/-- A parsed kind field whose lines, if it is a GAS-SET, are other than PURGE and stand once each. -/
def RawBody.inRange : RawBody → Prop
  | .gasSet entries => (∀ e ∈ entries, e.1 ≠ .purge) ∧ (entries.map Prod.fst).Nodup
  | _ => True

theorem gasEntries_fst {es : List (Nat × Nat)} {ls : List (LineId × Nat)} (h : gasEntries es = some ls) :
    (∀ e ∈ ls, e.1 ≠ .purge) ∧ ls.map (fun e => some e.1) = es.map fun e => LineId.ofNat? e.1 := by
  induction es generalizing ls with
  | nil => simp [gasEntries] at h; subst h; simp
  | cons e es ih =>
    obtain ⟨n, flow⟩ := e
    simp only [gasEntries] at h
    split at h
    · cases h
    · cases h
    · rename_i l hl hn
      simp only [Option.map_eq_some_iff] at h
      obtain ⟨r, hr, rfl⟩ := h
      have := ih hr
      refine ⟨fun e he => ?_, by simp [this.2, hn]⟩
      rcases List.mem_cons.1 he with rfl | he
      · exact fun h => hl (h ▸ rfl)
      · exact this.1 e he

theorem hasTwice_nodup {l : List Nat} (h : hasTwice l = false) : l.Nodup := by
  induction l with
  | nil => exact List.nodup_nil
  | cons x xs ih =>
    simp only [hasTwice, Bool.or_eq_false_iff] at h
    exact List.nodup_cons.2 ⟨by simpa using h.1, ih h.2⟩

theorem line_ofNat_inj {a b : Nat} {l : LineId} (h : LineId.ofNat? a = some l) (k : LineId.ofNat? b = some l) : a = b := by
  unfold LineId.ofNat? at h k
  split at h <;> cases h <;> (split at k <;> (cases k; try rfl))

theorem countedEntries_nodup {most : Nat} {n : Byte} {bs : List Byte} {es : List (Nat × Nat)}
    (h : countedEntries most n bs = some es) : (es.map Prod.fst).Nodup := by
  unfold countedEntries at h
  split at h
  · cases h
  · split at h
    · rename_i k; cases h; exact hasTwice_nodup k.2.2.2
    · cases h

theorem gasEntries_nodup {es : List (Nat × Nat)} {ls : List (LineId × Nat)} (h : gasEntries es = some ls)
    (k : (es.map Prod.fst).Nodup) : (ls.map Prod.fst).Nodup := by
  induction es generalizing ls with
  | nil => simp [gasEntries] at h; subst h; simp
  | cons e es ih =>
    obtain ⟨n, flow⟩ := e
    simp only [List.map_cons, List.nodup_cons] at k
    simp only [gasEntries] at h
    split at h
    · cases h
    · cases h
    · rename_i l hl hn
      simp only [Option.map_eq_some_iff] at h
      obtain ⟨r, hr, rfl⟩ := h
      refine List.nodup_cons.2 ⟨fun hm => ?_, ih hr k.2⟩
      obtain ⟨e', he', hle⟩ := List.mem_map.1 hm
      have h1 : some l ∈ r.map fun e => some e.1 := List.mem_map.2 ⟨e', he', by rw [hle]⟩
      rw [(gasEntries_fst hr).2] at h1
      obtain ⟨e'', he'', h2⟩ := List.mem_map.1 h1
      have h3 := line_ofNat_inj hn h2
      exact k.1 (List.mem_map.2 ⟨e'', he'', h3.symm⟩)

theorem gasFields_inRange {bs : List Byte} {r : RawBody} (h : gasFields bs = some r) : r.inRange := by
  unfold gasFields at h
  split at h
  · simp only [Option.bind_eq_some_iff, Option.map_eq_some_iff] at h
    obtain ⟨ls, hls, g, hg, rfl⟩ := h
    exact ⟨(gasEntries_fst hg).1, gasEntries_nodup hg (countedEntries_nodup hls)⟩
  · cases h

theorem kindFields_inRange {kind : Byte} {a b c : Bool} {bs : List Byte} {r : RawBody}
    (h : kindFields kind a b c bs = some r) : r.inRange := by
  unfold kindFields at h
  split at h
  case h_5 => split at h; · cases h
              exact gasFields_inRange h
  all_goals first
    | (cases h)
    | (split at h
       · cases h
       · first
         | (unfold rampFields at h; split at h
            · simp only [Option.bind_eq_some_iff, Option.map_eq_some_iff] at h
              obtain ⟨_, _, _, _, rfl⟩ := h; trivial
            · cases h)
         | (unfold soakFields at h; split at h
            · simp only [Option.map_eq_some_iff] at h
              obtain ⟨_, _, rfl⟩ := h; trivial
            · cases h)
         | (unfold purgeFields at h; split at h
            · simp only [Option.some.injEq] at h
              subst h; trivial
            · cases h)
         | (unfold motionFields at h; split at h
            · simp only [Option.bind_eq_some_iff, Option.map_eq_some_iff] at h
              obtain ⟨_, _, _, _, rfl⟩ := h; trivial
            · cases h)
         | (cases h; trivial))

theorem parseStep_inRange {body : List Byte} {raw : RawStep} (h : parseStep body = some raw) : raw.body.inRange := by
  unfold parseStep at h
  split at h
  · split at h
    · cases h
    · split at h
      · cases h
      · simp only [Option.map_eq_some_iff] at h
        obtain ⟨b, hb, rfl⟩ := h
        exact kindFields_inRange hb
  · cases h

theorem rangedZones_inRange {es : List (Nat × Nat)} {zs : List (ZoneId × Nat)} (h : rangedZones es = some zs) :
    zonesInRange zs := by
  unfold rangedZones at h
  split at h
  · rename_i k
    induction es generalizing zs with
    | nil => simp [zoneEntries] at h; subst h; simp [zonesInRange]
    | cons e es ih =>
      obtain ⟨n, x⟩ := e
      simp only [zoneEntries] at h
      simp only [List.all_cons, Bool.and_eq_true] at k
      split at h
      · cases h
      · simp only [Option.map_eq_some_iff] at h
        obtain ⟨r, hr, rfl⟩ := h
        intro e he
        rcases List.mem_cons.1 he with rfl | he
        · have := k.1
          simp only [within, Bool.and_eq_true, decide_eq_true_eq] at this
          exact this.2
        · exact ih k.2 hr e he
  · cases h

theorem rangedBody_inRange {r : TubeRecord} {raw : RawBody} {b : StepBody} (h : rangedBody r raw = some b)
    (k : raw.inRange) : b.inRange := by
  unfold rangedBody at h
  split at h
  · split at h
    · simp only [Option.map_eq_some_iff] at h
      obtain ⟨zs, hz, rfl⟩ := h
      exact rangedZones_inRange hz
    · cases h
  · split at h <;> cases h; trivial
  · split at h <;> cases h; trivial
  · split at h <;> cases h
    exact k
  · split at h <;> cases h; trivial
  · split at h <;> cases h; trivial
  · cases h; trivial

theorem rangedStep_inRange {r : TubeRecord} {raw : RawStep} {x : StepRecord} (h : rangedStep r raw = some x)
    (k : raw.body.inRange) : x.body.inRange := by
  unfold rangedStep at h
  split at h
  · cases h
  · split at h
    · rename_i hb; cases h; exact rangedBody_inRange hb k
    · cases h

/-! ### Queue requests -/

/-- A tube whose queue is replaced by one within R4 and R1. -/
theorem queue_keeps {u : Tube} {q : List StepRecord}
    (h : u.queue.length ≤ Config.queueCapacity → q.length ≤ Config.queueCapacity)
    (k : (∀ r ∈ u.queue, r.body.inRange) → ∀ r ∈ q, r.body.inRange) : TubeKeeps u { u with queue := q } := by
  refine ⟨?_, id, le_rfl, le_rfl, id, id, id, rfl⟩
  rintro ⟨⟨a, b, c⟩, d⟩
  exact ⟨⟨h a, k b, c⟩, d⟩

theorem appendTo_holds {l : LinkId} {t : TubeId} {raw : RawStep} (h : raw.body.inRange) : Holds (appendTo l t raw) := by
  intro s
  unfold appendTo
  dsimp only
  split
  · exact .refl s
  · split
    · exact .refl s
    · rename_i r hr
      have hb := rangedStep_inRange hr h
      split
      · exact .refl s
      · split
        · exact .refl s
        · rename_i hq
          refine okWith_keeps (.after (settle_moves _) (onTube_moves (queue_keeps (fun _ => ?_) fun k r hr => ?_)))
          · simp only [List.length_append, List.length_singleton]; omega
          · rcases List.mem_append.1 hr with hr | hr
            · exact k r hr
            · rw [List.mem_singleton.1 hr]; exact hb

theorem appendRequest_holds (l : LinkId) (body : List Byte) : Holds (appendRequest l body) := by
  intro s
  unfold appendRequest
  split
  · exact .refl s
  · rename_i raw hraw
    exact withTube_keeps fun t => withRight_keeps (appendTo_holds (parseStep_inRange hraw) s)

theorem withdrawFrom_holds (t : TubeId) (id : Nat) : Holds (withdrawFrom t id) := by
  intro s
  unfold withdrawFrom
  dsimp only
  split
  · exact .refl s
  · split
    · exact .refl s
    · split
      · refine ok_keeps (onTube_moves (queue_keeps (fun h => ?_) fun k r hr => k r (List.mem_of_mem_filter hr)))
        exact (List.length_filter_le _ _).trans h
      · exact .refl s

theorem flush_holds (t : TubeId) : Holds (flush t) := by
  intro s
  unfold flush
  dsimp only
  split
  · exact .refl s
  · exact okWith_keeps (onTube_moves (queue_keeps (fun _ => Nat.zero_le _) fun _ _ h => by cases h))

theorem resumeQueue_holds (t : TubeId) : Holds (resumeQueue t) := by
  intro s
  unfold resumeQueue
  split
  · exact .refl s
  · exact .refl s
  · exact .refl s
  · exact ok_keeps (.after (settle_moves _) (onTube_view fun _ => rfl))

/-! ### Control requests -/

theorem abort_holds (t : TubeId) (id : Nat) : Holds (abort t id) := by
  intro s
  unfold abort
  dsimp only
  split
  · exact .refl s
  · split
    · exact ok_keeps (.after (settle_moves _) (.after (endStep_moves _ _ _) (stopWork_moves _ _)))
    · split <;> exact .refl s

theorem suspendFrom_moves (t : TubeId) (s : State) : Moves s (suspendFrom t s) := by
  have h : Moves s (if (s.tube t).state = .moving then holdLoader t s else s) :=
    .ite (fun _ => holdLoader_moves t s) fun _ => .refl s
  unfold suspendFrom
  exact h.trans (onTube_view fun _ => rfl)

theorem suspend_holds (t : TubeId) : Holds (suspend t) := by
  intro s
  unfold suspend
  split
  · exact .refl s
  · exact .refl s
  · exact .refl s
  · exact .refl s
  · exact ok_keeps (suspendFrom_moves t s)

theorem resumeWork_moves (t : TubeId) (s : State) : Moves s (resumeWork t s) := by
  unfold resumeWork
  split
  · exact .ite (fun _ => (removeScrubberClaim_moves _ _).trans (endStep_moves _ _ _)) fun _ => .refl s
  · exact .ite (fun _ => .refl s) fun _ => dueShedWhileShedding_moves s
  · exact checkAutoPurge_moves _ _
  · split
    · exact moveTowards_moves _ _ _
    · exact .refl s
  · exact .refl s

theorem resumeSuspended_moves (t : TubeId) (s : State) : Moves s (resumeSuspended t s) := by
  unfold resumeSuspended
  exact .after (settle_moves _) (.after (dueScrubber_moves _) (.after (dueHeader_moves _) (.after (dueClaims_moves _)
    (.after (resumeWork_moves _ _) (onTube_view fun _ => rfl)))))

theorem resume_holds (t : TubeId) : Holds (resume t) := by
  intro s
  unfold resume
  split
  · exact .refl s
  · exact .refl s
  · exact ok_keeps (resumeSuspended_moves t s)
  · exact .refl s

theorem withDuration_inRange {b : StepBody} (h : b.inRange) (d : Nat) : (b.withDuration d).inRange := by
  cases b <;> exact h

theorem extendCurrent_holds (t : TubeId) (e d : Nat) : Holds (extendCurrent t e d) := by
  intro s
  unfold extendCurrent
  split
  · split
    · exact .refl s
    · exact ok_keeps (onTube_view fun _ => rfl)
  · split
    · exact .refl s
    · refine ok_keeps (onTube_moves ⟨?_, id, le_rfl, le_rfl, id, id, id, rfl⟩)
      rintro ⟨⟨a, b, c, d⟩, e⟩
      refine ⟨⟨a, b, fun x hx => ?_, d⟩, e⟩
      simp only [Option.map_eq_some_iff] at hx
      obtain ⟨y, hy, rfl⟩ := hx
      exact withDuration_inRange (c y hy) _

theorem extend_holds (t : TubeId) (id e : Nat) : Holds (extend t id e) := by
  intro s
  unfold extend
  dsimp only
  split
  · exact .refl s
  · split
    · exact .refl s
    · split
      · split
        · exact extendCurrent_holds _ _ _ s
        · exact .refl s
      · split <;> exact .refl s

theorem extendRequest_holds (l : LinkId) (body : List Byte) : Holds (extendRequest l body) := by
  intro s
  unfold extendRequest
  split
  · exact withTube_keeps fun t => withRight_keeps (extend_holds _ _ _ s)
  · exact .refl s

theorem clearFault_holds (t : TubeId) : Holds (clearFault t) := by
  intro s
  unfold clearFault
  split
  · exact .refl s
  · exact .refl s
  · split
    · exact .refl s
    · refine ok_keeps ?_
      unfold clearCauses
      split
      · exact .after (recompose_moves _ _) (onTube_view fun _ => rfl)
      · exact onTube_view fun _ => rfl
  · exact .refl s

end Sys2Proof.Machine
end

