-- ==== Sys2Proof/Laws/Supervise.lean ====
section
/-! SUPPORT. What the SUPERVISE and service requests keep. -/

namespace Sys2Proof.Machine

/-! ### Limits -/

theorem setMask_holds (m : Nat) : Holds (setMask m) := by
  intro s
  unfold setMask
  split
  · exact .refl s
  · have h : Keeps s (s.onArbiter fun a => { a with mask := m }) :=
      ⟨id, fun _ => id, fun _ => id, fun _ => id, fun _ => id, fun _ => id, fun _ => id⟩
    exact keeps_ok (h.trans ((dueClaims_moves _).trans (settle_moves _)).toKeeps)

section LimitChange
variable (n m : Nat) (q : State)

theorem dueLimitChange_arbiter : (dueLimitChange n m q).arbiter = q.arbiter := by
  unfold dueLimitChange; split; rfl; split <;> rfl

theorem dueLimitChange_gas : (dueLimitChange n m q).gas = q.gas := by
  unfold dueLimitChange; split; rfl; split <;> rfl

theorem dueLimitChange_tube (u : TubeId) : (dueLimitChange n m q).tube u = q.tube u := by
  unfold dueLimitChange; split; rfl; split <;> rfl

theorem dueLimitChange_curtail : (dueLimitChange n m q).curtail = q.curtail := by
  unfold dueLimitChange; split; rfl; split <;> rfl

theorem dueLimitChange_exhaust : (dueLimitChange n m q).exhaust = q.exhaust := by
  unfold dueLimitChange; split; rfl; split <;> rfl

theorem dueLimitChange_limit : limitInForce (dueLimitChange n m q) = limitInForce q := by
  unfold dueLimitChange; split; rfl; split <;> rfl

theorem dueLimitChange_due (h : q.due.shed = true ∨ m < n) : (dueLimitChange n m q).due.shed = true := by
  unfold dueLimitChange
  split
  · rfl
  · rename_i k
    have h := h.resolve_right k
    split
    · simp only [dueShedWhileShedding, due_onDue, Bool.or_eq_true]; exact .inl h
    · exact h

end LimitChange

/-- New limits, their fall making a shed pass due, keep every property where the allocation and the slots in use fit them. -/
theorem newLimits_keeps {v : Limits} {s : State} (hle : v.limitEc ≤ v.limitE) (hq : headerAllocation s ≤ v.capacity)
    (hk : slotsInUse s ≤ v.slots) :
    Keeps s (dueLimitChange (limitInForce s) (limitInForce (writeLimits v s)) (writeLimits v s)) := by
  have key : ∀ n m q, q = writeLimits v s → limitInForce s = n → limitInForce q = m →
      Keeps s (dueLimitChange n m q) := by
    intro n m q hqq hn hm
    have ht : ∀ u, q.tube u = s.tube u := by rw [hqq]; exact fun _ => rfl
    have hc : q.curtail = s.curtail := by rw [hqq]; rfl
    have he : q.exhaust = s.exhaust := by rw [hqq]; rfl
    have hcl : q.arbiter.claims = s.arbiter.claims := by rw [hqq]; rfl
    have hsh : q.arbiter.shedding = s.arbiter.shedding := by rw [hqq]; rfl
    have hhi : q.arbiter.history = s.arbiter.history := by rw [hqq]; rfl
    have hcap : q.gas.capacity = v.capacity := by rw [hqq]; rfl
    have hsl : q.gas.slots = v.slots := by rw [hqq]; rfl
    have hl : q.arbiter.limitEc ≤ q.arbiter.limitE := by rw [hqq]; exact hle
    have hd : q.due = s.due := by rw [hqq]; rfl
    have h6 := dueLimitChange_due n m q
    have h3 : ∀ u, (dueLimitChange n m q).tube u = s.tube u := fun u => (dueLimitChange_tube n m q u).trans (ht u)
    have h1 := dueLimitChange_arbiter n m q
    have h2 := dueLimitChange_gas n m q
    have h4 := (dueLimitChange_curtail n m q).trans hc
    have h5 := (dueLimitChange_exhaust n m q).trans he
    have h7 := (dueLimitChange_limit n m q).trans hm
    rw [hd] at h6
    clear hqq hc he hm hd
    generalize dueLimitChange n m q = r at *
    refine ⟨?_, fun _ => ?_, fun _ => ?_, fun _ => ?_, fun _ => ?_, fun _ => ?_, fun _ => ?_⟩
    · simp only [State.inRange, h3, h1, h4, h5, hhi]
      rintro ⟨a, b, c, d, -⟩
      exact ⟨a, b, c, d, hl⟩
    · simp only [State.ceilingsHold, h3]; exact id
    · rintro ⟨a, b⟩
      refine ⟨?_, ?_⟩
      · simp only [State.surchargesAddUp, h1, hcl]; exact a
      · rcases b with b | b | b
        · exact .inl (h6 (.inl b))
        · refine .inr (.inl ?_)
          rw [h1, hsh]; exact b
        · by_cases hlt : m < n
          · exact .inl (h6 (.inr hlt))
          · refine .inr (.inr ?_)
            have hg : grantSum r = grantSum s := by unfold grantSum; simp only [h3]
            rw [h7, hg]; omega
    · simp only [State.withinHeader, headerAllocation, h3, h2, hcap]
      exact fun _ => hq
    · simp only [State.withinScrubber, slotsInUse, h3, h2, hsl]
      exact fun _ => hk
    · simp only [State.dopantSealed, h3, h5]; exact id
    · simp only [State.claimsOrdered, h1, hcl]; exact id
  exact key _ _ _ rfl rfl rfl

theorem setLimits_holds (v : Limits) : Holds (setLimits v) := by
  intro s
  unfold setLimits
  split
  · exact .refl s
  · rename_i hv
    split
    · exact .refl s
    · rename_i hq
      simp only [Bool.not_eq_true', Bool.not_eq_false] at hv
      simp only [not_or, Nat.not_lt] at hq
      have hle : v.limitEc ≤ v.limitE := by
        simp only [Limits.inRange, Bool.and_eq_true, decide_eq_true_eq] at hv
        exact hv.2
      have kg : ∀ q, Moves q (dueGasRise s.gas v q) := by
        intro q
        unfold dueGasRise
        have h1 : Moves q (if s.gas.capacity < v.capacity then dueHeader q else q) :=
          .ite (fun _ => dueHeader_moves q) fun _ => .refl q
        exact h1.trans (.ite (fun _ => dueScrubber_moves _) fun _ => .refl _)
      exact keeps_ok ((newLimits_keeps hle hq.1 hq.2).trans
        ((dueClaims_moves _).trans ((kg _).trans (settle_moves _))).toKeeps)

/-! ### Calibration sets, tube records and rights -/

theorem writeCalSet_keeps (n : Nat) (t : TubeId) (c : CalSet) (s : State) : Keeps s (writeCalSet n t c s) := by
  have h : ∀ f : Tube → Tube, (∀ u, (f u).zones = u.zones ∧ (f u).grant = u.grant ∧ (f u).record = u.record ∧
      (f u).lines = u.lines ∧ (f u).loader = u.loader ∧ (f u).recordValid = u.recordValid ∧ ((u.inRange) → (f u).inRange)) →
      Keeps s (s.onTube t f) := by
    intro f hf
    have hf' := hf (s.tube t)
    obtain ⟨h1, h2, h3, h4, h5, h6, h7⟩ := hf'
    refine (onTube_but h7 (fun a z => ?_) h2 h4).keeps fun _ a u => ?_
    · rw [h1, h2, h3]; exact a z
    · by_cases hu : u = t
      · subst hu
        rw [tube_onTube_same]
        simp only [sealedNow, h3, h4, h5, h6]
        exact a u
      · rw [tube_onTube_of_ne _ _ _ hu]; exact a u
  unfold writeCalSet
  split
  · exact .of_eq rfl rfl rfl rfl rfl rfl
  all_goals exact h _ fun u => ⟨rfl, rfl, rfl, rfl, rfl, rfl, id⟩

theorem writeCal_holds (n : Nat) (t : TubeId) (fields : List Nat) : Holds (writeCal n t fields) := by
  intro s
  unfold writeCal
  split
  · exact .refl s
  · split
    · exact .refl s
    · exact keeps_ok ((writeCalSet_keeps _ _ _ s).trans (recomposeAll_moves _).toKeeps)

/-- A new tube record keeps every property: the ceilings are composed and the sealed condition is computed again under it. -/
theorem writeTube_holds (t : TubeId) (r : TubeRecord) : Holds (writeTube t r) := by
  intro s
  unfold writeTube
  split
  · exact .refl s
  · split
    · exact .refl s
    · have hc : KeepsBut s (recompose t (s.onTube t fun u => u.withRecord r)) := by
        generalize hf : (fun u : Tube => u.withRecord r) = f
        have hz : (f (s.tube t)).zones = (s.tube t).zones ∧ (f (s.tube t)).grant = (s.tube t).grant ∧
            (f (s.tube t)).lines = (s.tube t).lines ∧ ((s.tube t).inRange → (f (s.tube t)).inRange) := by
          rw [← hf]; exact ⟨rfl, rfl, rfl, id⟩
        have e := tube_onTube_same s t f
        have k := recomposed_keeps (s.onTube t f) t
        have c := @recomposed_ceilingsHold (s.onTube t f) t
        obtain ⟨o, ho⟩ := recompose_eq t (s.onTube t f)
        rw [onTube_onTube] at ho
        rw [e] at k c
        rw [ho]
        generalize s.onTube t f = s1 at k c
        refine KeepsBut.trans (t := s.onTube t fun u => Tube.recomposed s1 t (f u)) ?_ (outbox_moves _ o).toKeeps.but
        refine onTube_but (fun a => k.range (hz.2.2.2 a)) (fun a => c fun z => ?_) hz.2.1 hz.2.2.1
        rw [hz.1]; exact (a z).1
      have h2 : Keeps s (recomputeSeal t (recompose t (s.onTube t fun u => u.withRecord r))) := by
        refine reseal_keeps hc (fun u h => ?_) ?_ ?_ ?_
        · rw [recompose_tube_of_ne h, tube_onTube_of_ne _ _ _ h]
        · rw [recompose_tube, tube_onTube_same]; rfl
        · rw [recompose_tube, tube_onTube_same]; rfl
        · rw [(recompose_moves _ _).exhaust]; rfl
      exact keeps_ok (h2.trans (settle_moves _).toKeeps)

theorem writeRights_holds (n : Nat) (t : TubeId) (r : Rights) : Holds (writeRights n t r) := by
  intro s
  unfold writeRights
  split
  · exact .refl s
  · split
    · exact .refl s
    · exact .of_eq rfl rfl rfl rfl rfl rfl

/-! ### PROMOTE-CLAIM -/

/-- A promoted claim moves to its place, and asks for what it asked for. -/
theorem promoted_moves {c : Claim} {level : Nat} {s : State} (hc : c ∈ s.arbiter.claims) : Moves s (promoted c level s) := by
  have hd : ∀ d, d ∈ (promoted c level s).arbiter.claims → d = { c with level := level } ∨ d ∈ s.arbiter.claims :=
    fun d h => (mem_insertClaim.1 h).imp id List.mem_of_mem_filter
  refine ⟨⟨id, fun _ => id, ?_, fun _ => id, fun _ => id, fun _ => id, fun _ a => ?_⟩, ⟨rfl, rfl, rfl⟩⟩
  · rintro - ⟨a, b⟩
    refine ⟨fun d h k => ?_, b⟩
    rcases hd d h with rfl | h
    · exact a c hc k
    · exact a d h k
  · exact insertClaim_ordered (List.Pairwise.filter _ a)

theorem promote_holds (t : TubeId) (level : Nat) : Holds (promote t level) := by
  intro s
  unfold promote
  split
  · exact .refl s
  · split
    · exact .refl s
    · rename_i c hc
      refine ok_keeps (.after (settle_moves _) (.after (dueClaims_moves _) (promoted_moves ?_)))
      exact List.mem_of_find?_eq_some hc

/-! ### The stack modes -/

theorem reportOpen_moves (s : State) (t : TubeId) : Moves s (reportOpen s t) :=
  .ite (fun _ => reportCause_moves _ _ _) fun _ => .refl s

theorem openStack_holds : Holds openStack := by
  intro s
  unfold openStack
  split
  · exact .refl s
  · split
    · exact .refl s
    · have h1 : Keeps s ({ s with mode := .run } : State) := .of_eq rfl rfl rfl rfl rfl rfl
      have h2 : Moves ({ s with mode := .run } : State) (({ s with mode := .run } : State).onTubes Tube.opened) :=
        onTubes_moves fun u => .of_view rfl
      generalize ({ s with mode := .run } : State).onTubes Tube.opened = q at h2
      exact keeps_ok (h1.trans (h2.trans ((recomposeAll_moves q).trans ((Moves.foldl reportOpen_moves _ _).trans
        (raiseMode_moves _)))).toKeeps)

theorem closed_keeps (s : State) : Keeps s (closed s) := by
  have h : Moves s (((((TubeId.all.foldl cutPower s).onArbiter fun a => { a with pacing := none, shedding := false }).onTubes
      Tube.switchOff).onDue fun _ => Due.none)) :=
    .after (stopped_moves (cutAll_sum s)) (Moves.foldl cutPower_moves _ _)
  refine h.toKeeps.trans ?_
  unfold closed
  dsimp only
  generalize TubeId.all.foldl cutPower s = q
  exact .of_eq rfl rfl rfl rfl rfl rfl

theorem closeStack_holds : Holds closeStack := by
  intro s
  unfold closeStack
  split
  · exact .refl s
  · split
    · exact .refl s
    · exact keeps_ok (closed_keeps s)

theorem resetStack_keeps (s : State) : Keeps s (resetStack s) := by
  have h := (stopCleanUp_moves s).toKeeps
  unfold resetStack
  dsimp only
  generalize stopCleanUp s = q at h
  refine h.trans ?_
  have h2 : Keeps q (q.onArbiter fun a => { a with mask := 0 }) :=
    ⟨id, fun _ => id, fun _ => id, fun _ => id, fun _ => id, fun _ => id, fun _ => id⟩
  exact h2.trans (.of_eq rfl rfl rfl rfl rfl rfl)

theorem clearStop_holds : Holds clearStop := by
  intro s
  unfold clearStop
  split
  · exact .refl s
  · split
    · exact .refl s
    · exact .of_eq rfl rfl rfl rfl rfl rfl

/-! ### Service -/

theorem enterService_holds (t : TubeId) : Holds (enterService t) := by
  intro s
  unfold enterService
  have h : Keeps s (s.onTube t fun u => { u with state := .service, service := .reset }) := by
    refine Moves.toKeeps (onTube_moves ⟨?_, id, le_rfl, le_rfl, id, id, id, rfl⟩)
    rintro ⟨a, b, c, -, d⟩
    exact ⟨a, b, c, trivial, d⟩
  refine inRun_keeps ?_
  split
  · exact h
  · exact h
  · exact .refl s

theorem stopServiceRamp_moves (t : TubeId) (s : State) : Moves s (stopServiceRamp t s) := by
  unfold stopServiceRamp
  split
  · exact .refl s
  · exact .after (onTube_moves (service_keeps (f := fun v => { v with ramp := .none }) fun _ => trivial))
      (removeClaim_moves t s)
  · exact .after (onTube_moves (service_keeps (f := fun v => { v with ramp := .none }) fun _ => trivial))
      (onTube_moves (dropRamps_keeps _))

theorem closeServiceLines_moves (t : TubeId) (s : State) : Moves s (closeServiceLines t s) := by
  have key : ∀ (b c : Bool) (q : State), Moves s q → Moves s (
      let s2 := if b then commandLine t .carrier 0 q else q
      let s3 := if c then commandLine t .oxy 0 s2 else s2
      s3.onService t fun v => { v with carrier := false, oxy := false }) := by
    intro b c q h
    have h2 : Moves q (if b then commandLine t .carrier 0 q else q) :=
      .ite (fun _ => commandOff_moves _ _ _) fun _ => .refl q
    refine (h.trans h2).trans (.after (onTube_moves (service_keeps (f := fun v => { v with carrier := false, oxy := false }) id))
      (.ite (fun _ => commandOff_moves _ _ _) fun _ => .refl _))
  have h := key (s.tube t).service.carrier (s.tube t).service.oxy _ (closePurge_moves t s)
  unfold closeServiceLines
  exact .ite (fun _ => h) fun _ => h.trans (closeDopant_moves _ _)

theorem leave_moves (t : TubeId) (s : State) : Moves s (leave t s) := by
  have h : Moves s (closeServiceLines t (stopServiceRamp t (stopJog t s))) :=
    .after (closeServiceLines_moves _ _) (.after (stopServiceRamp_moves _ _) (stopJog_moves _ _))
  unfold leave
  dsimp only
  generalize closeServiceLines t (stopServiceRamp t (stopJog t s)) = q at h
  have h2 : Moves q (if (s.tube t).fault.causes.overTemp then overTempGrant t q else lowerShare t q) :=
    .ite (fun _ => overTempGrant_moves _ _) fun _ => lowerShare_moves _ _
  exact .after (settle_moves _) (.after (onTube_view fun _ => rfl) (h.trans h2))

theorem jog_keeps (t : TubeId) (target : Nat) (s : State) : Keeps s (jog t target s) := by
  have h : Moves s ((s.onLoader t fun l =>
      { l with travel := some (travelCopy (s.tube t).record), target := some target }).onService t
      fun v => { v with jog := some target }) :=
    .after (onTube_moves (service_keeps (f := fun v => { v with jog := some target }) id))
      (onLoader_view (fun _ => rfl) fun _ => rfl)
  unfold jog
  dsimp only
  generalize (s.onLoader t fun l =>
    { l with travel := some (travelCopy (s.tube t).record), target := some target }).onService t _ = q at h
  split
  · refine h.toKeeps.trans (.ite (fun _ => ?_) fun _ => (sendMove_moves _ _ _ _ _).toKeeps)
    exact .after (arrive_moves _ _).toKeeps (.ite (fun _ => (send_moves _ _).toKeeps) fun _ => .refl q)
  · refine h.toKeeps.trans (.ite (fun _ => (sendMove_moves _ _ _ _ _).toKeeps) fun _ => ?_)
    exact .after (sendMove_moves _ _ _ _ _).toKeeps (.of_eq rfl rfl rfl rfl rfl rfl)

theorem serviceJog_holds (t : TubeId) (target : Nat) : Holds (serviceJog t target) := by
  intro s
  unfold serviceJog
  refine inService_keeps ?_
  split
  · exact .refl s
  · split
    · exact keeps_ok (jog_keeps t target s)
    · exact .refl s

theorem servicePurge_moves {t : TubeId} {flow : Nat} {s : State}
    (h : headerAllocation s - (s.tube t).lines.purge.commanded + flow ≤ s.gas.capacity) :
    Moves s (servicePurge t flow s) := by
  have hle : (s.tube t).lines.purge.commanded ≤ headerAllocation s := by
    simp only [headerAllocation]; cases t <;> omega
  have h1 : Moves s (commandLine t .purge flow s) := commandPurge_moves (by omega)
  unfold servicePurge
  exact .after (settle_moves _) (h1.trans (.ite (fun _ => dueHeader_moves _) fun _ => .refl _))

theorem serviceValve_holds (t : TubeId) (line : LineId) (flow : Nat) : Holds (serviceValve t line flow) := by
  intro s
  unfold serviceValve
  refine inService_keeps ?_
  split
  · exact .refl s
  · split
    · exact .refl s
    · exact ok_keeps (.after (onTube_moves (service_keeps (f := fun v => { v with carrier := decide (0 < flow) }) id))
        (commandLine_moves (by simp) (by simp)))
    · exact ok_keeps (.after (onTube_moves (service_keeps (f := fun v => { v with oxy := decide (0 < flow) }) id))
        (commandLine_moves (by simp) (by simp)))
    · split
      · exact ok_keeps (servicePurge_moves ‹_›)
      · exact .refl s

theorem beginServiceRamp_moves {t : TubeId} {rate : Nat} {zones : List (ZoneId × Nat)} {s : State}
    (k : zonesInRange zones) : Moves s (beginServiceRamp t rate zones s) := by
  unfold beginServiceRamp
  refine .ite (fun h => ?_) fun _ => ?_
  · refine .after (onTube_moves ((loadZones_keeps _ rate k).trans ?_)) (writeStepShare_moves h)
    exact service_keeps (f := fun v => { v with ramp := .running }) fun _ => trivial
  · exact .after (onTube_moves (service_keeps (f := fun v => { v with ramp := .waiting rate zones }) fun _ => k))
      (placeClaim_moves (by simp))

theorem serviceSetpoint_holds (t : TubeId) (rate : Nat) (es : List (Nat × Nat)) : Holds (serviceSetpoint t rate es) := by
  intro s
  unfold serviceSetpoint
  refine inService_keeps ?_
  split
  · exact .refl s
  · rename_i zones hz
    split
    · exact .refl s
    · split
      · exact .refl s
      · exact ok_keeps (.after (settle_moves _) (.after (beginServiceRamp_moves (rangedZones_inRange hz))
          (stopServiceRamp_moves _ _)))

end Sys2Proof.Machine
end

