-- ==== Sys2Proof/Laws/Effects.lean ====
section
/-! SUPPORT. What each shared operation does, said once: the tube it leaves, and the parts of the state it leaves as they were. -/

namespace Sys2Proof.Machine

/-! ### What an operation about one tube leaves alone -/

/-- The other tubes, what no event of the part changes, and the filters are as they were. -/
theorem elsewhereKept.refl (t : TubeId) (s : State) : elsewhereKept t s s := ⟨fun _ _ => rfl, rfl, rfl, rfl⟩

theorem elsewhereKept.trans {t : TubeId} {s q r : State} (h : elsewhereKept t s q) (k : elsewhereKept t q r) :
    elsewhereKept t s r :=
  ⟨fun j hj => (k.1 j hj).trans (h.1 j hj), k.2.1.trans h.2.1, k.2.2.1.trans h.2.2.1, k.2.2.2.trans h.2.2.2⟩

theorem elsewhereKept.of_moves {t : TubeId} {s q : State} (h : Moves s q) (k : ∀ j, j ≠ t → q.tube j = s.tube j) :
    elsewhereKept t s q := ⟨k, h.fixed, h.curtail, h.exhaust⟩

theorem elsewhereKept.of_stays {t : TubeId} {s q : State} (h : Stays s q) (k : ∀ j, j ≠ t → q.tube j = s.tube j) :
    elsewhereKept t s q := ⟨k, h.fixed, h.curtail, h.exhaust⟩

theorem onTube_elsewhere {s : State} {t : TubeId} {f : Tube → Tube} (h : (f (s.tube t)).fixed = (s.tube t).fixed) :
    elsewhereKept t s (s.onTube t f) :=
  .of_stays (onTube_stays h) fun _ hj => tube_onTube_of_ne s t f hj

theorem onDue_elsewhere (t : TubeId) (s : State) (f : Due → Due) : elsewhereKept t s (s.onDue f) :=
  ⟨fun _ _ => rfl, rfl, rfl, rfl⟩

theorem send_elsewhere (t : TubeId) (s : State) (m : Sent) : elsewhereKept t s (s.send m) :=
  ⟨fun _ _ => rfl, rfl, rfl, rfl⟩

/-! ### Ceilings and the grant record (R65, R70) -/

section Recompose
variable (t : TubeId) (s : State)

@[simp] theorem recompose_arbiter : (recompose t s).arbiter = s.arbiter := by obtain ⟨o, h⟩ := recompose_eq t s; rw [h]; rfl
@[simp] theorem recompose_gas : (recompose t s).gas = s.gas := by obtain ⟨o, h⟩ := recompose_eq t s; rw [h]; rfl
@[simp] theorem recompose_links : (recompose t s).links = s.links := by obtain ⟨o, h⟩ := recompose_eq t s; rw [h]; rfl
@[simp] theorem recompose_rights : (recompose t s).rights = s.rights := by obtain ⟨o, h⟩ := recompose_eq t s; rw [h]; rfl
@[simp] theorem recompose_seconds : (recompose t s).seconds = s.seconds := by obtain ⟨o, h⟩ := recompose_eq t s; rw [h]; rfl
@[simp] theorem recompose_due : (recompose t s).due = s.due := by obtain ⟨o, h⟩ := recompose_eq t s; rw [h]; rfl
@[simp] theorem recompose_cal0 : (recompose t s).cal0 = s.cal0 := by obtain ⟨o, h⟩ := recompose_eq t s; rw [h]; rfl
@[simp] theorem recompose_mode : (recompose t s).mode = s.mode := by obtain ⟨o, h⟩ := recompose_eq t s; rw [h]; rfl
@[simp] theorem recompose_link (l : LinkId) : (recompose t s).link l = s.link l := by simp [State.link]

end Recompose

/-- A zone whose ceiling is composed again keeps everything else. -/
theorem recomposed_zone (s : State) (t : TubeId) (u : Tube) (z : ZoneId) :
    (u.recomposed s t).zones.get z = (u.zones.get z).withCeiling (composedCeiling s t z) := by
  simp [Tube.recomposed]

/-- The state in which a grant record has been replaced, before the ceilings follow it. -/
def withShares (t : TubeId) (step surcharge : PerZone Nat) (s : State) : State :=
  s.onTube t fun u => { u with grant := { u.grant with step := step, surcharge := surcharge } }

section WriteGrant
variable (t : TubeId) (step surcharge : PerZone Nat) (s : State)

/-- A write of the shares: the record, and the ceilings composed from it. -/
theorem writeGrant_tube_same :
    (writeGrant t step surcharge s).tube t =
      ({ s.tube t with grant := { (s.tube t).grant with step := step, surcharge := surcharge } } : Tube).recomposed
        (withShares t step surcharge s) t := by
  rw [writeGrant_tube]
  unfold granted
  rw [recompose_tube, tube_onTube_same]; rfl

@[simp] theorem writeGrant_gas : (writeGrant t step surcharge s).gas = s.gas := by
  rw [writeGrant_eq]; unfold granted; split <;> simp

@[simp] theorem writeGrant_links : (writeGrant t step surcharge s).links = s.links := by
  rw [writeGrant_eq]; unfold granted; split <;> simp [dueShedWhileShedding, dueClaims, State.onDue]

@[simp] theorem writeGrant_rights : (writeGrant t step surcharge s).rights = s.rights := by
  rw [writeGrant_eq]; unfold granted; split <;> simp [dueShedWhileShedding, dueClaims, State.onDue]

@[simp] theorem writeGrant_seconds : (writeGrant t step surcharge s).seconds = s.seconds := by
  rw [writeGrant_eq]; unfold granted; split <;> simp

@[simp] theorem writeGrant_cal0 : (writeGrant t step surcharge s).cal0 = s.cal0 := by
  rw [writeGrant_eq]; unfold granted; split <;> simp [dueShedWhileShedding, dueClaims, State.onDue]

end WriteGrant
theorem loweredShare_get (s : State) (t : TubeId) (z : ZoneId) :
    (loweredShare s t).get z = min ((s.tube t).grant.step.get z)
      (holdShare ((calInForce s t).hold.get z) ((s.tube t).record.zmax.get z) ((s.tube t).zones.get z).reportedSetpoint) := by
  simp [loweredShare, holdShares]

/-! ### Attention (R182) -/

theorem raise_has (f : TubeFlags) (k q : TubeKind) : (f.raise k).has q = (f.has q || q == k) := by
  cases k <;> cases q <;> simp [TubeFlags.raise, TubeFlags.has]

/-- Raising a kind for a tube sets its flag on every link that hears of the tube, and no other. -/
theorem raiseTube_raisedAll (k : TubeKind) (t : TubeId) (s : State) : raisedAll [k] t s (raiseTube k t s) := by
  refine ⟨fun l j q => ?_, fun l => ?_⟩
  · simp only [State.flag, raiseTube, link_onLinks, State.hears, State.rightsOn]
    by_cases h : ((s.rights.get l).get t).queue = true ∨ ((s.rights.get l).get t).control = true
    · have h' : (((s.rights.get l).get t).queue || ((s.rights.get l).get t).control) = true := by simpa using h
      by_cases hj : j = t
      · subst hj; simp [h', raise_has, Bool.beq_eq_decide_eq]
      · simp [h', hj, PerTube.get_set_of_ne _ hj]
    · have h' : (((s.rights.get l).get t).queue || ((s.rights.get l).get t).control) = false := by simpa using h
      simp [h']
  · simp only [raiseTube, link_onLinks]
    constructor <;> split <;> rfl

theorem raisedAll.nil {t : TubeId} {s q : State} (h : q.links = s.links) : raisedAll [] t s q := by
  simp [raisedAll, State.flag, State.link, h]

theorem raisedAll.trans {a b : List TubeKind} {t : TubeId} {s q r : State} (h : raisedAll a t s q) (k : raisedAll b t q r)
    (hr : q.rights = s.rights) : raisedAll (a ++ b) t s r := by
  refine ⟨fun l j x => ?_, fun l => ⟨(k.2 l).1.trans (h.2 l).1, (k.2 l).2.trans (h.2 l).2⟩⟩
  rw [k.1, h.1]
  have : q.hears l t = s.hears l t := by simp [State.hears, State.rightsOn, hr]
  rw [this]
  cases s.flag l j x <;> cases (j == t) <;> cases ha : a.contains x <;> cases hb : b.contains x <;>
    cases s.hears l t <;> simp_all

theorem raisedAll.congr {a : List TubeKind} {t : TubeId} {s q s' q' : State} (h : raisedAll a t s q) (hs : s'.links = s.links)
    (hr : s'.rights = s.rights) (hq : q'.links = q.links) : raisedAll a t s' q' := by
  simpa [raisedAll, State.flag, State.link, State.hears, State.rightsOn, hs, hr, hq] using h

/-! ### Gas lines (R95, R98, R103) -/

/-- A tube with its PURGE line closed, if it was open. -/
def Tube.purgeClosed (u : Tube) : Tube :=
  if u.lines.purge.isOpen then { u with lines := { u.lines with purge := u.lines.purge.command 0 } } else u

/-- A tube with its DOPANT line closed, if it was open. -/
def Tube.dopantClosed (u : Tube) : Tube :=
  if u.lines.dopant.isOpen then
    { u with lines := { u.lines with dopant := u.lines.dopant.command 0 }, owed := true, credit := 0, remainder := 0 }
  else u

theorem isOpen_command_zero (l : Line) : (l.command 0).isOpen = false := rfl

theorem commanded_of_closed {l : Line} (h : l.isOpen = false) : l.commanded = 0 := by
  simp [Line.isOpen] at h; exact h

theorem purgeClosed_commanded (u : Tube) : u.purgeClosed.lines.purge.commanded = 0 := by
  unfold Tube.purgeClosed; split
  · rfl
  · rename_i h; exact commanded_of_closed (by simpa using h)

theorem dopantClosed_commanded (u : Tube) : u.dopantClosed.lines.dopant.commanded = 0 := by
  unfold Tube.dopantClosed; split
  · rfl
  · rename_i h; exact commanded_of_closed (by simpa using h)

section Lines
variable (t : TubeId) (s : State)

@[simp] theorem commandLine_arbiter (l : LineId) (flow : Nat) : (commandLine t l flow s).arbiter = s.arbiter := rfl
@[simp] theorem commandLine_gas (l : LineId) (flow : Nat) : (commandLine t l flow s).gas = s.gas := rfl
@[simp] theorem commandLine_links (l : LineId) (flow : Nat) : (commandLine t l flow s).links = s.links := rfl
@[simp] theorem commandLine_rights (l : LineId) (flow : Nat) : (commandLine t l flow s).rights = s.rights := rfl
@[simp] theorem commandLine_seconds (l : LineId) (flow : Nat) : (commandLine t l flow s).seconds = s.seconds := rfl
@[simp] theorem commandLine_due (l : LineId) (flow : Nat) : (commandLine t l flow s).due = s.due := rfl
@[simp] theorem commandLine_cal0 (l : LineId) (flow : Nat) : (commandLine t l flow s).cal0 = s.cal0 := rfl

theorem commandLine_elsewhere (l : LineId) (flow : Nat) : elsewhereKept t s (commandLine t l flow s) :=
  .of_stays (commandLine_stays t l flow s) fun _ hj => tube_onTube_of_ne s t (fun u =>
    { u with lines := u.lines.set l ((u.lines.get l).command flow) }) hj

theorem closePurge_tube : (closePurge t s).tube t = (s.tube t).purgeClosed := by
  unfold closePurge Tube.purgeClosed
  split
  · rw [tube_dueHeader, commandLine_tube]; rfl
  · rfl

@[simp] theorem closePurge_arbiter : (closePurge t s).arbiter = s.arbiter := by unfold closePurge; split <;> rfl
@[simp] theorem closePurge_gas : (closePurge t s).gas = s.gas := by unfold closePurge; split <;> rfl
@[simp] theorem closePurge_links : (closePurge t s).links = s.links := by unfold closePurge; split <;> rfl
@[simp] theorem closePurge_rights : (closePurge t s).rights = s.rights := by unfold closePurge; split <;> rfl
@[simp] theorem closePurge_seconds : (closePurge t s).seconds = s.seconds := by unfold closePurge; split <;> rfl
@[simp] theorem closePurge_cal0 : (closePurge t s).cal0 = s.cal0 := by unfold closePurge; split <;> rfl

theorem closePurge_elsewhere : elsewhereKept t s (closePurge t s) := by
  unfold closePurge
  split
  · exact commandLine_elsewhere t s .purge 0
  · exact .refl t s

theorem closeDopant_tube : (closeDopant t s).tube t = (s.tube t).dopantClosed := by
  unfold closeDopant Tube.dopantClosed
  split
  · rw [tube_dueScrubber, tube_onTube_same, commandLine_tube]; rfl
  · rfl

@[simp] theorem closeDopant_arbiter : (closeDopant t s).arbiter = s.arbiter := by unfold closeDopant; split <;> rfl
@[simp] theorem closeDopant_gas : (closeDopant t s).gas = s.gas := by unfold closeDopant; split <;> rfl
@[simp] theorem closeDopant_links : (closeDopant t s).links = s.links := by unfold closeDopant; split <;> rfl
@[simp] theorem closeDopant_rights : (closeDopant t s).rights = s.rights := by unfold closeDopant; split <;> rfl
@[simp] theorem closeDopant_seconds : (closeDopant t s).seconds = s.seconds := by unfold closeDopant; split <;> rfl
@[simp] theorem closeDopant_cal0 : (closeDopant t s).cal0 = s.cal0 := by unfold closeDopant; split <;> rfl

theorem closeDopant_elsewhere : elsewhereKept t s (closeDopant t s) := by
  unfold closeDopant
  split
  · exact ((commandLine_elsewhere t s .dopant 0).trans (onTube_elsewhere rfl)).trans (onDue_elsewhere t _ _)
  · exact .refl t s

end Lines

/-! ### The claims a tube has waiting (R77, R100, R105) -/

section Remove
variable (t : TubeId) (s : State)

@[simp] theorem removeClaim_tube (u : TubeId) : (removeClaim t s).tube u = s.tube u := by unfold removeClaim; split <;> rfl
@[simp] theorem removeClaim_gas : (removeClaim t s).gas = s.gas := by unfold removeClaim; split <;> rfl
@[simp] theorem removeClaim_links : (removeClaim t s).links = s.links := by unfold removeClaim; split <;> rfl
@[simp] theorem removeClaim_rights : (removeClaim t s).rights = s.rights := by unfold removeClaim; split <;> rfl
@[simp] theorem removeClaim_seconds : (removeClaim t s).seconds = s.seconds := by unfold removeClaim; split <;> rfl
@[simp] theorem removeClaim_cal0 : (removeClaim t s).cal0 = s.cal0 := by unfold removeClaim; split <;> rfl

theorem removeClaim_arbiter : (removeClaim t s).arbiter =
    { s.arbiter with claims := s.arbiter.claims.filter fun c => c.tube != t } := by
  unfold removeClaim
  split
  · rfl
  · rename_i h
    have : s.arbiter.claims.filter (fun c => c.tube != t) = s.arbiter.claims := by
      rw [List.filter_eq_self]; intro c hc; simp at h; simpa using h c hc
    rw [this]

theorem removeClaim_elsewhere : elsewhereKept t s (removeClaim t s) := .of_moves (removeClaim_moves t s) fun _ _ => by simp

@[simp] theorem removeHeaderClaim_tube (u : TubeId) : (removeHeaderClaim t s).tube u = s.tube u := by
  unfold removeHeaderClaim; split <;> rfl
@[simp] theorem removeHeaderClaim_arbiter : (removeHeaderClaim t s).arbiter = s.arbiter := by
  unfold removeHeaderClaim; split <;> rfl
@[simp] theorem removeHeaderClaim_links : (removeHeaderClaim t s).links = s.links := by unfold removeHeaderClaim; split <;> rfl
@[simp] theorem removeHeaderClaim_rights : (removeHeaderClaim t s).rights = s.rights := by unfold removeHeaderClaim; split <;> rfl
@[simp] theorem removeHeaderClaim_seconds : (removeHeaderClaim t s).seconds = s.seconds := by
  unfold removeHeaderClaim; split <;> rfl
@[simp] theorem removeHeaderClaim_cal0 : (removeHeaderClaim t s).cal0 = s.cal0 := by unfold removeHeaderClaim; split <;> rfl

theorem removeHeaderClaim_gas : (removeHeaderClaim t s).gas =
    { s.gas with header := s.gas.header.filter fun c => c.tube != t } := by
  unfold removeHeaderClaim
  split
  · rfl
  · rename_i h
    have : s.gas.header.filter (fun c => c.tube != t) = s.gas.header := by
      rw [List.filter_eq_self]; intro c hc; simp at h; simpa using h c hc
    rw [this]

@[simp] theorem removeScrubberClaim_tube (u : TubeId) : (removeScrubberClaim t s).tube u = s.tube u := by
  unfold removeScrubberClaim; split <;> rfl
@[simp] theorem removeScrubberClaim_arbiter : (removeScrubberClaim t s).arbiter = s.arbiter := by
  unfold removeScrubberClaim; split <;> rfl
@[simp] theorem removeScrubberClaim_links : (removeScrubberClaim t s).links = s.links := by
  unfold removeScrubberClaim; split <;> rfl
@[simp] theorem removeScrubberClaim_rights : (removeScrubberClaim t s).rights = s.rights := by
  unfold removeScrubberClaim; split <;> rfl
@[simp] theorem removeScrubberClaim_seconds : (removeScrubberClaim t s).seconds = s.seconds := by
  unfold removeScrubberClaim; split <;> rfl
@[simp] theorem removeScrubberClaim_cal0 : (removeScrubberClaim t s).cal0 = s.cal0 := by
  unfold removeScrubberClaim; split <;> rfl

theorem removeScrubberClaim_gas : (removeScrubberClaim t s).gas =
    { s.gas with scrubber := s.gas.scrubber.filter fun c => c.tube != t } := by
  unfold removeScrubberClaim
  split
  · rfl
  · rename_i h
    have : s.gas.scrubber.filter (fun c => c.tube != t) = s.gas.scrubber := by
      rw [List.filter_eq_self]; intro c hc; simp at h; simpa using h c hc
    rw [this]

@[simp] theorem removeClaims_tube (u : TubeId) : (removeClaims t s).tube u = s.tube u := by simp [removeClaims]
@[simp] theorem removeClaims_links : (removeClaims t s).links = s.links := by simp [removeClaims]
@[simp] theorem removeClaims_rights : (removeClaims t s).rights = s.rights := by simp [removeClaims]
@[simp] theorem removeClaims_seconds : (removeClaims t s).seconds = s.seconds := by simp [removeClaims]
@[simp] theorem removeClaims_cal0 : (removeClaims t s).cal0 = s.cal0 := by simp [removeClaims]

theorem removeClaims_gas : (removeClaims t s).gas =
    { s.gas with
      header := s.gas.header.filter fun c => c.tube != t
      scrubber := s.gas.scrubber.filter fun c => c.tube != t } := by
  simp [removeClaims, removeScrubberClaim_gas, removeHeaderClaim_gas]

theorem removeClaims_arbiter : (removeClaims t s).arbiter =
    { s.arbiter with claims := s.arbiter.claims.filter fun c => c.tube != t } := by
  simp [removeClaims, removeClaim_arbiter]

theorem removeClaims_stays : Stays s (removeClaims t s) := by
  have h : ∀ q, Stays q (removeHeaderClaim t q) := fun q => by unfold removeHeaderClaim; split <;> exact ⟨rfl, rfl, rfl⟩
  have k : ∀ q, Stays q (removeScrubberClaim t q) := fun q => by unfold removeScrubberClaim; split <;> exact ⟨rfl, rfl, rfl⟩
  exact (removeClaim_moves t s).toStays.trans ((h _).trans (k _))

theorem removeClaims_elsewhere : elsewhereKept t s (removeClaims t s) := .of_stays (removeClaims_stays t s) fun _ _ => by simp

end Remove

/-! ### The loader (R116, R125, R126) -/

section Loaders
variable (t : TubeId) (s : State)

theorem stopLoader_tube : (stopLoader t s).tube t = { s.tube t with loader := (s.tube t).loader.clearMotion } := by
  unfold stopLoader; split <;> simp [State.onLoader]

@[simp] theorem stopLoader_arbiter : (stopLoader t s).arbiter = s.arbiter := by unfold stopLoader; split <;> rfl
@[simp] theorem stopLoader_gas : (stopLoader t s).gas = s.gas := by unfold stopLoader; split <;> rfl
@[simp] theorem stopLoader_links : (stopLoader t s).links = s.links := by unfold stopLoader; split <;> rfl
@[simp] theorem stopLoader_rights : (stopLoader t s).rights = s.rights := by unfold stopLoader; split <;> rfl
@[simp] theorem stopLoader_seconds : (stopLoader t s).seconds = s.seconds := by unfold stopLoader; split <;> rfl
@[simp] theorem stopLoader_cal0 : (stopLoader t s).cal0 = s.cal0 := by unfold stopLoader; split <;> rfl
@[simp] theorem stopLoader_due : (stopLoader t s).due = s.due := by unfold stopLoader; split <;> rfl

theorem stopLoader_elsewhere : elsewhereKept t s (stopLoader t s) := by
  unfold stopLoader
  split
  · exact (send_elsewhere t s (.stop t)).trans (onTube_elsewhere rfl)
  · exact onTube_elsewhere rfl

end Loaders

/-! ### The end of a step (R18) -/

section Shares
variable (t : TubeId) (step : PerZone Nat) (s : State)

/-- A write of a step share leaves everything of the tube but its grant record and its zones' ceilings. -/
theorem writeStepShare_tube : ∃ zs : PerZone Zone, (writeStepShare t step s).tube t =
      { s.tube t with grant := { (s.tube t).grant with step := step }, zones := zs } ∧
    ∀ z, ∃ c, zs.get z = ((s.tube t).zones.get z).withCeiling c := by
  have h := writeGrant_tube_same t step (s.tube t).grant.surcharge s
  refine ⟨((writeStepShare t step s).tube t).zones, ?_, fun z => ⟨composedCeiling (withShares t step
    (s.tube t).grant.surcharge s) t z, ?_⟩⟩ <;> unfold writeStepShare <;> rw [h]
  · rfl
  · exact recomposed_zone ..

@[simp] theorem writeStepShare_arbiter : (writeStepShare t step s).arbiter = s.arbiter := writeGrant_arbiter ..
@[simp] theorem writeStepShare_gas : (writeStepShare t step s).gas = s.gas := writeGrant_gas ..
@[simp] theorem writeStepShare_links : (writeStepShare t step s).links = s.links := writeGrant_links ..
@[simp] theorem writeStepShare_rights : (writeStepShare t step s).rights = s.rights := writeGrant_rights ..
@[simp] theorem writeStepShare_seconds : (writeStepShare t step s).seconds = s.seconds := writeGrant_seconds ..
@[simp] theorem writeStepShare_cal0 : (writeStepShare t step s).cal0 = s.cal0 := writeGrant_cal0 ..

end Shares

theorem writeGrant_elsewhere (t : TubeId) (step surcharge : PerZone Nat) (s : State) :
    elsewhereKept t s (writeGrant t step surcharge s) := by
  have key : elsewhereKept t s (granted t step surcharge s) := by
    unfold granted
    generalize h : s.onTube t (fun u => { u with grant := { u.grant with step := step, surcharge := surcharge } }) = s1
    have h1 : elsewhereKept t s s1 := by rw [← h]; exact onTube_elsewhere rfl
    exact h1.trans (.of_moves (recompose_moves t s1) fun j hj => recompose_tube_of_ne hj s1)
  rw [writeGrant_eq]
  split
  · exact (key.trans (onDue_elsewhere t _ _)).trans (onDue_elsewhere t _ _)
  · exact key

theorem writeStepShare_elsewhere (t : TubeId) (step : PerZone Nat) (s : State) :
    elsewhereKept t s (writeStepShare t step s) := writeGrant_elsewhere ..

theorem lowerShare_elsewhere (t : TubeId) (s : State) : elsewhereKept t s (lowerShare t s) := writeStepShare_elsewhere ..

@[simp] theorem lowerShare_arbiter (t : TubeId) (s : State) : (lowerShare t s).arbiter = s.arbiter := writeStepShare_arbiter ..
@[simp] theorem lowerShare_gas (t : TubeId) (s : State) : (lowerShare t s).gas = s.gas := writeStepShare_gas ..
@[simp] theorem lowerShare_links (t : TubeId) (s : State) : (lowerShare t s).links = s.links := writeStepShare_links ..
@[simp] theorem lowerShare_rights (t : TubeId) (s : State) : (lowerShare t s).rights = s.rights := writeStepShare_rights ..
@[simp] theorem lowerShare_seconds (t : TubeId) (s : State) : (lowerShare t s).seconds = s.seconds := writeStepShare_seconds ..
@[simp] theorem lowerShare_cal0 (t : TubeId) (s : State) : (lowerShare t s).cal0 = s.cal0 := writeStepShare_cal0 ..

/-- The records of an end alone change by their pushing. -/
theorem pushEnd_eq (u : Tube) (now : Stamp) (c : CurrentStep) (e : StepEnd) :
    u.pushEnd now c e = { u with ring := (u.pushEnd now c e).ring, overwrites := (u.pushEnd now c e).overwrites } := by
  unfold Tube.pushEnd; split <;> rfl

/-- The records pushed depend on the ring, the figures of the holdback, the fault set and the state alone. -/
theorem pushEnd_congr {u v : Tube} {now : Stamp} {c : CurrentStep} {e : StepEnd} (h1 : u.ring = v.ring)
    (h2 : u.overwrites = v.overwrites) (h3 : u.holdback.seconds = v.holdback.seconds)
    (h4 : u.holdback.maxLag = v.holdback.maxLag) (h5 : u.fault.causes = v.fault.causes) (h6 : u.effective = v.effective) :
    (u.pushEnd now c e).ring = (v.pushEnd now c e).ring ∧ (u.pushEnd now c e).overwrites = (v.pushEnd now c e).overwrites := by
  unfold Tube.pushEnd
  split <;> simp [Tube.push, autoRecord, unpulledRecord, mainRecord, StepEnd.faults, admissionWait, h1, h2, h3, h4, h5, h6]

/-- What the record of a step's end holds is what `mainRecord` puts into it (R27). -/
theorem recordHolds_iff {now : Stamp} {u : Tube} {c : CurrentStep} {e : StepEnd} {r : CompletionRecord} :
    recordHolds now u c e r ↔ r = mainRecord now u c e := by
  constructor
  · obtain ⟨id, kind, outcome, failCause, faults, start, run, wait, hs, ml, notes⟩ := r
    rintro ⟨h1, h2, h3, h4, h5, h6, h7, h8, h9, h10⟩
    have hw : wait = admissionWait now u c := by
      unfold admissionWait; cases hc : c.wait with
      | none => exact h7 hc
      | some w => exact h6 w hc
    have hh : hs = (if c.step.body.hasHoldback then u.holdback.seconds else 0) ∧
        ml = if c.step.body.hasHoldback then u.holdback.maxLag else 0 := by
      cases hb : c.step.body <;> simp_all [StepBody.kind, StepBody.hasHoldback]
    have he : outcome = e.outcome ∧ failCause = e.failCause ∧ faults = e.faults u := by
      cases e <;> simp_all [StepEnd.outcome, StepEnd.failCause, StepEnd.faults]
    simp_all [mainRecord]
  · rintro rfl
    refine ⟨rfl, rfl, ?_, rfl, rfl, ?_, ?_, ?_, ?_, rfl⟩
    · cases e <;> simp [mainRecord, StepEnd.outcome, StepEnd.failCause, StepEnd.faults]
    · intro w h; simp [mainRecord, admissionWait, h]
    · intro h; simp [mainRecord, admissionWait, h]
    · intro h; cases hb : c.step.body <;> simp_all [mainRecord, StepBody.kind, StepBody.hasHoldback]
    · intro h k; cases hb : c.step.body <;> simp_all [mainRecord, StepBody.kind, StepBody.hasHoldback]

/-- A record joins a ring as `push` has it join (R26). -/
theorem recordJoined_iff {r : CompletionRecord} {u v : Tube} :
    recordJoined r u v ↔ v.ring = (u.push r).ring ∧ v.overwrites = (u.push r).overwrites := by
  simp only [recordJoined, Tube.push, pushRing, show Config.ringCapacity = 8 from rfl,
    show Config.maxOverwrites = 255 from rfl]
  by_cases h : 8 ≤ u.ring.length
  · simp [h, Nat.not_lt.mpr h]
  · simp [h, Nat.lt_of_not_le h]

/-- The records of a step's end are those that `pushEnd` pushes (R17, R18, R26). -/
theorem recordsPushed_iff {now : Stamp} {u v : Tube} {c : CurrentStep} {e : StepEnd} :
    recordsPushed now u c e v ↔
      v.ring = (u.pushEnd now c e).ring ∧ v.overwrites = (u.pushEnd now c e).overwrites := by
  simp only [recordsPushed, recordHolds_iff, exists_eq_left, recordJoined_iff, Tube.pushEnd, CurrentStep.autoPending, bne_iff_ne]
  by_cases h : c.auto = .none
  · simp [h]
  · simp only [h, false_implies, true_and, ne_eq, not_false_eq_true, true_implies, if_true]
    constructor
    · rintro ⟨w, hw, hv⟩
      simp only [Tube.push, hw.1, hw.2] at hv ⊢
      exact hv
    · intro hv
      exact ⟨u.push (mainRecord now u c e).ofAutoPurge, ⟨rfl, rfl⟩, hv⟩

section Ending
variable (t : TubeId) (e : StepEnd) (s : State)

/-- The state of a step's end before its record is pushed: holdback ended, and the share lowered where the end lowers it. -/
def endLowered : State :=
  let s1 := s.onTube t fun u => { u with holdback := { u.holdback with asserted := false, counter := none } }
  if e.lowers then lowerShare t s1 else s1

/-- The kinds an end raises (R18). -/
def StepEnd.raises (e : StepEnd) (quiet : Bool) : List TubeKind :=
  match e with
  | .done => if quiet then [] else [.stepDone]
  | .aborted => if quiet then [] else [.stepDone]
  | .failed _ => if quiet then [.halted] else [.stepDone, .halted]
  | _ => []

theorem endLowered_tube : ∃ (g : PerZone Nat) (zs : PerZone Zone), (endLowered t e s).tube t =
      { s.tube t with
        holdback := { (s.tube t).holdback with asserted := false, counter := none }
        grant := { (s.tube t).grant with step := g }
        zones := zs } ∧
    g = (if e.lowers then loweredShare s t else (s.tube t).grant.step) ∧
    ∀ z, zs.get z = (s.tube t).zones.get z ∨ ∃ c, zs.get z = ((s.tube t).zones.get z).withCeiling c := by
  unfold endLowered
  dsimp only
  split
  · obtain ⟨zs, h, k⟩ := writeStepShare_tube t (loweredShare (s.onTube t fun u =>
      { u with holdback := { u.holdback with asserted := false, counter := none } }) t)
      (s.onTube t fun u => { u with holdback := { u.holdback with asserted := false, counter := none } })
    refine ⟨loweredShare s t, zs, ?_, by simp [*], fun z => .inr ?_⟩
    · unfold lowerShare
      rw [h, tube_onTube_same]
      have : loweredShare (s.onTube t fun u =>
        { u with holdback := { u.holdback with asserted := false, counter := none } }) t = loweredShare s t := by
        cases t <;> rfl
      rw [this]
    · simpa using k z
  · exact ⟨(s.tube t).grant.step, (s.tube t).zones, by simp, by simp [*], fun z => .inl rfl⟩

@[simp] theorem endLowered_arbiter : (endLowered t e s).arbiter = s.arbiter := by unfold endLowered; dsimp only; split <;> simp
@[simp] theorem endLowered_gas : (endLowered t e s).gas = s.gas := by unfold endLowered; dsimp only; split <;> simp
@[simp] theorem endLowered_links : (endLowered t e s).links = s.links := by unfold endLowered; dsimp only; split <;> simp
@[simp] theorem endLowered_rights : (endLowered t e s).rights = s.rights := by unfold endLowered; dsimp only; split <;> simp
@[simp] theorem endLowered_seconds : (endLowered t e s).seconds = s.seconds := by unfold endLowered; dsimp only; split <;> simp
@[simp] theorem endLowered_cal0 : (endLowered t e s).cal0 = s.cal0 := by unfold endLowered; dsimp only; split <;> simp

theorem endLowered_elsewhere : elsewhereKept t s (endLowered t e s) := by
  unfold endLowered
  dsimp only
  split
  · exact (onTube_elsewhere rfl).trans (lowerShare_elsewhere ..)
  · exact onTube_elsewhere rfl

theorem endStep_eq {c : CurrentStep} (h : (s.tube t).current = some c) : endStep t e s =
    (endAttention t c.step.quiet e ((endLowered t e s).onTube t fun u => u.pushEnd s.seconds c e)).onTube t fun u =>
      u.leave e := by
  unfold endStep; rw [h]; rfl

theorem endAttention_tube (q : Bool) (u : TubeId) : (endAttention t q e s).tube u = s.tube u := by
  cases e <;> cases q <;> rfl

theorem endAttention_raisedAll (q : Bool) : raisedAll (e.raises q) t s (endAttention t q e s) := by
  cases e <;> cases q <;> simp only [endAttention, raiseStepDone, StepEnd.raises, if_true, if_false, Bool.false_eq_true] <;> first
    | exact .nil rfl
    | exact raiseTube_raisedAll _ _ _
    | exact (raiseTube_raisedAll .stepDone t s).trans (raiseTube_raisedAll .halted t _) rfl

theorem dropRamp_kept (z : Zone) : z.dropRamp.s = z.s ∧ z.dropRamp.ramp = none ∧ z.dropRamp.ceiling = z.ceiling ∧
    z.dropRamp.pv = z.pv ∧ z.dropRamp.isOpen = z.isOpen := by
  unfold Zone.dropRamp
  split
  · simp
  · simp [*]

/-- Discarding a zone's ramp state sets its F to 0 if it had any (R35), and changes nothing else. -/
theorem dropRamp_eq (z : Zone) : z.dropRamp = { z with ramp := none, f := if z.ramp = none then z.f else 0 } := by
  obtain ⟨s, f, _ | r⟩ := z <;> rfl

/-- A zone whose ceiling is composed again and whose ramp state is discarded stands otherwise, its F 0 if it had ramp state. -/
theorem dropRamp_stands {z w : Zone} (h : w = z ∨ ∃ c, w = z.withCeiling c) :
    zoneStands z w.dropRamp ∧ w.dropRamp.f = if z.ramp = none then z.f else 0 := by
  rw [dropRamp_eq]
  rcases h with rfl | ⟨c, rfl⟩ <;> exact ⟨rfl, rfl⟩

/-- The zones an end leaves have their ramp state discarded. -/
theorem leave_zone (u : Tube) (e : StepEnd) (z : ZoneId) : (u.leave e).zones.get z = (u.zones.get z).dropRamp := by
  cases e <;> simp [Tube.leave, Tube.dropRamps]
  split <;> simp

/-- What the end of a step leaves of its tube and of the state (R18). -/
theorem endStep_effect {c : CurrentStep} (h : (s.tube t).current = some c) :
    stepEnded t c e s (endStep t e s) ∧ elsewhereKept t s (endStep t e s) ∧ setpointsKept t s (endStep t e s) ∧
    (e.lowers = true → shareLowered t s (endStep t e s)) ∧
    (e.lowers = false → ((endStep t e s).tube t).grant = (s.tube t).grant) ∧
    ((endStep t e s).tube t).grant.surcharge = (s.tube t).grant.surcharge ∧
    raisedAll (e.raises c.step.quiet) t s (endStep t e s) ∧
    ((endStep t e s).tube t).lines = (s.tube t).lines ∧ ((endStep t e s).tube t).fault = (s.tube t).fault ∧
    ((endStep t e s).tube t).loader = { (s.tube t).loader with keptRecovery := 0, hotSpeed := none } ∧
    ((endStep t e s).tube t).owed = (s.tube t).owed ∧ ((endStep t e s).tube t).credit = (s.tube t).credit ∧
    ((endStep t e s).tube t).remainder = (s.tube t).remainder ∧ ((endStep t e s).tube t).pointer = (s.tube t).pointer ∧
    ((endStep t e s).tube t).service = (s.tube t).service ∧
    (endStep t e s).arbiter = s.arbiter ∧ (endStep t e s).gas = s.gas := by
  obtain ⟨g, zs, h1, h2, h3⟩ := endLowered_tube t e s
  have hs : ∀ z, (zs.get z).s = ((s.tube t).zones.get z).s := by
    intro z
    rcases h3 z with k | ⟨x, k⟩ <;> rw [k]; rfl
  have ht : (endStep t e s).tube t = (((endLowered t e s).tube t).pushEnd s.seconds c e).leave e := by
    rw [endStep_eq t e s h, tube_onTube_same, endAttention_tube, tube_onTube_same]
  have hr := @pushEnd_congr ((endLowered t e s).tube t) (s.tube t) s.seconds c e (by rw [h1]) (by rw [h1]) (by rw [h1])
    (by rw [h1]) (by rw [h1]) (by rw [h1]; rfl)
  have hlink : (endStep t e s).links =
      (endAttention t c.step.quiet e ((endLowered t e s).onTube t fun u => u.pushEnd s.seconds c e)).links := by
    rw [endStep_eq t e s h]; rfl
  rw [pushEnd_eq, hr.1, hr.2, h1] at ht
  refine ⟨⟨?_, ?_, ?_, ?_, ?_, recordsPushed_iff.mpr ⟨?_, ?_⟩, ?_, ?_, ?_, fun z => ?_⟩, ?_, ?_, ?_, ?_, ?_, ?_, ?_, ?_, ?_, ?_, ?_, ?_, ?_,
    ?_, ?_, ?_⟩
  · rw [ht]; cases e <;> simp [Tube.leave]; split <;> rfl
  · rw [ht]; cases e <;> simp [Tube.leave]; split <;> rfl
  · rw [ht]; cases e <;> simp [Tube.leave]; split <;> rfl
  · rw [ht]; cases e <;> simp [Tube.leave]; split <;> rfl
  · intro z; rw [ht]; cases e <;> simp [Tube.leave, Tube.dropRamps, dropRamp_kept]; split <;> simp [dropRamp_kept]
  · rw [ht]; cases e <;> simp [Tube.leave, Tube.dropRamps]; split <;> rfl
  · rw [ht]; cases e <;> simp [Tube.leave, Tube.dropRamps]; split <;> rfl
  · rw [ht]; cases e <;> simp [Tube.leave, Tube.dropRamps]; split <;> rfl
  · rw [ht]; unfold tubeStands; cases e <;> simp [Tube.leave, Tube.dropRamps]; split <;> rfl
  · rw [ht]; cases e <;> simp [Tube.leave, Tube.dropRamps]; split <;> rfl
  · rw [ht, leave_zone]; exact dropRamp_stands (h3 z)
  · rw [endStep_eq t e s h]
    refine ((endLowered_elsewhere t e s).trans (onTube_elsewhere
      (f := fun u => u.pushEnd s.seconds c e) (pushEnd_keeps s.seconds _ c e).fixed)).trans ?_
    refine (elsewhereKept.of_moves (endAttention_moves t c.step.quiet e _) fun j _ => endAttention_tube ..).trans ?_
    exact onTube_elsewhere (f := fun u => u.leave e) (leave_keeps _ e).fixed
  · intro z; rw [ht]; cases e <;> simp [Tube.leave, Tube.dropRamps, dropRamp_kept, hs]; split <;> simp [dropRamp_kept, hs]
  · intro he z
    rw [if_pos he] at h2
    rw [← loweredShare_get, ← h2, ht]; cases e <;> simp [Tube.leave, Tube.dropRamps]; split <;> rfl
  · intro he
    rw [if_neg (by simp [he])] at h2
    rw [ht, h2]; cases e <;> simp [Tube.leave, Tube.dropRamps]; split <;> rfl
  · rw [ht]; cases e <;> simp [Tube.leave, Tube.dropRamps]; split <;> rfl
  · refine (endAttention_raisedAll t e ((endLowered t e s).onTube t fun u => u.pushEnd s.seconds c e) c.step.quiet).congr
      ?_ ?_ hlink <;> simp
  · rw [ht]; cases e <;> simp [Tube.leave, Tube.dropRamps]; split <;> rfl
  · rw [ht]; cases e <;> simp [Tube.leave, Tube.dropRamps]; split <;> rfl
  · rw [ht]; cases e <;> simp [Tube.leave, Tube.dropRamps]; split <;> rfl
  · rw [ht]; cases e <;> simp [Tube.leave, Tube.dropRamps]; split <;> rfl
  · rw [ht]; cases e <;> simp [Tube.leave, Tube.dropRamps]; split <;> rfl
  · rw [ht]; cases e <;> simp [Tube.leave, Tube.dropRamps]; split <;> rfl
  · rw [ht]; cases e <;> simp [Tube.leave, Tube.dropRamps]; split <;> rfl
  · rw [ht]; cases e <;> simp [Tube.leave, Tube.dropRamps]; split <;> rfl
  · rw [endStep_eq t e s h]
    cases e <;> cases c.step.quiet <;> simp [endAttention, raiseStepDone]
  · rw [endStep_eq t e s h]
    cases e <;> cases c.step.quiet <;> simp [endAttention, raiseStepDone]

/-- The state and the halted flag an end leaves, and what it leaves outside the tube (R18). -/
theorem endStep_leaves {c : CurrentStep} (h : (s.tube t).current = some c) :
    (e = .done → ((endStep t e s).tube t).state = .idle) ∧
    (e = .aborted → ((endStep t e s).tube t).state = if (s.tube t).isSuspended then (s.tube t).state else .idle) ∧
    (e = .aborted → (s.tube t).isSuspended = true → ((endStep t e s).tube t).remembered = some .idle) ∧
    (∀ x, e = .failed x → ((endStep t e s).tube t).state = .idle ∧ ((endStep t e s).tube t).halted = true) ∧
    (e = .done ∨ e = .aborted → ((endStep t e s).tube t).halted = (s.tube t).halted) ∧
    (e.lowers = false → ∀ z, (((endStep t e s).tube t).zones.get z).ceiling = ((s.tube t).zones.get z).ceiling) ∧
    (endStep t e s).rights = s.rights ∧ (endStep t e s).seconds = s.seconds ∧ (endStep t e s).cal0 = s.cal0 := by
  obtain ⟨g, zs, h1, h2, -⟩ := endLowered_tube t e s
  have ht : (endStep t e s).tube t = (((endLowered t e s).tube t).pushEnd s.seconds c e).leave e := by
    rw [endStep_eq t e s h, tube_onTube_same, endAttention_tube, tube_onTube_same]
  rw [pushEnd_eq, h1] at ht
  refine ⟨?_, ?_, ?_, ?_, ?_, ?_, ?_, ?_, ?_⟩
  · rintro rfl; rw [ht]; rfl
  · rintro rfl; rw [ht]
    cases hq : (s.tube t).isSuspended <;> simp [Tube.leave, Tube.isSuspended] at hq ⊢ <;> simp [hq, Tube.dropRamps]
  · rintro rfl hq; rw [ht]; simp [Tube.leave, Tube.isSuspended] at hq ⊢; simp [hq]
  · rintro x rfl; rw [ht]; exact ⟨rfl, rfl⟩
  · rintro (rfl | rfl)
    · rw [ht]; rfl
    · rw [ht]
      simp only [Tube.leave]
      split <;> rfl
  · intro he z
    have k : endLowered t e s = s.onTube t fun u => { u with holdback := { u.holdback with asserted := false, counter := none } } := by
      unfold endLowered; simp [he]
    have hz : zs = (s.tube t).zones := by
      have := congrArg Tube.zones h1
      rw [k] at this; simpa using this.symm
    rw [ht, hz]
    cases e <;> simp [StepEnd.lowers] at he <;> simp [Tube.leave, Tube.dropRamps, dropRamp_kept]
  all_goals
    rw [endStep_eq t e s h]
    cases e <;> cases c.step.quiet <;> simp [endAttention, raiseStepDone, raiseTube, State.onLinks, State.onTube]

end Ending

/-! ### The stop of a tube's work, and the entry into FAULT-HOLD (R20, R143, R144) -/

/-- A held surcharge is left alone, begins its recovery, or is released. -/
theorem resolveHeld_cases (t : TubeId) (s : State) : resolveHeld t s = s ∨ resolveHeld t s = releaseSurcharge t s ∨
    resolveHeld t s = s.onLoader t fun l =>
      { l with recovery := .running, recoveryCounter := some (loadCounter l.keptRecovery) } := by
  unfold resolveHeld
  dsimp only
  by_cases h : (s.tube t).loader.recovery = .held
  · rw [if_pos h]
    generalize ((match (s.tube t).loader.position with
      | some p => decide ((s.tube t).record.mouth < p)
      | none => false) && (s.tube t).loader.keptRecovery != 0) = b
    cases b
    · exact .inr (.inl rfl)
    · exact .inr (.inr rfl)
  · rw [if_neg h]; exact .inl rfl

/-- A surcharge released: the loader's recovery, the surcharge share and the ceilings alone change. -/
theorem releaseSurcharge_tube (t : TubeId) (s : State) : ∃ zs : PerZone Zone, (releaseSurcharge t s).tube t =
      { s.tube t with
        loader := { (s.tube t).loader with recovery := .none, recoveryCounter := none }
        grant := { (s.tube t).grant with surcharge := .zero }
        zones := zs } ∧ ∀ z, ∃ c, zs.get z = ((s.tube t).zones.get z).withCeiling c := by
  have h := writeGrant_tube_same t (s.tube t).grant.step .zero
    (s.onLoader t fun l => { l with recovery := .none, recoveryCounter := none })
  refine ⟨((releaseSurcharge t s).tube t).zones, ?_, fun z => ⟨composedCeiling (withShares t (s.tube t).grant.step .zero
    (s.onLoader t fun l => { l with recovery := .none, recoveryCounter := none })) t z, ?_⟩⟩ <;>
    unfold releaseSurcharge <;> rw [h]
  · simp [Tube.recomposed, State.onLoader]
  · rw [recomposed_zone]; simp [State.onLoader]

/-- A held surcharge resolved: the loader's recovery, the surcharge share and the ceilings alone change. -/
theorem resolveHeld_tube (t : TubeId) (s : State) : ∃ (r : Recovery) (k : Option DwellCounter) (g : PerZone Nat)
    (zs : PerZone Zone), (resolveHeld t s).tube t =
      { s.tube t with
        loader := { (s.tube t).loader with recovery := r, recoveryCounter := k }
        grant := { (s.tube t).grant with surcharge := g }
        zones := zs } ∧ ∀ z, (zs.get z).s = ((s.tube t).zones.get z).s ∧ (zs.get z).ramp = ((s.tube t).zones.get z).ramp := by
  rcases resolveHeld_cases t s with h | h | h <;> rw [h]
  · exact ⟨(s.tube t).loader.recovery, (s.tube t).loader.recoveryCounter, (s.tube t).grant.surcharge, (s.tube t).zones, rfl,
      fun _ => ⟨rfl, rfl⟩⟩
  · obtain ⟨zs, h1, h2⟩ := releaseSurcharge_tube t s
    exact ⟨.none, none, .zero, zs, h1, fun z => by obtain ⟨c, k⟩ := h2 z; rw [k]; exact ⟨rfl, rfl⟩⟩
  · exact ⟨.running, some (loadCounter (s.tube t).loader.keptRecovery), (s.tube t).grant.surcharge, (s.tube t).zones,
      by simp [State.onLoader], fun _ => ⟨rfl, rfl⟩⟩

section ResolveHeld
variable (t : TubeId) (s : State)

theorem releaseSurcharge_rest : (releaseSurcharge t s).arbiter = s.arbiter ∧ (releaseSurcharge t s).gas = s.gas ∧
    (releaseSurcharge t s).links = s.links ∧ (releaseSurcharge t s).rights = s.rights ∧
    (releaseSurcharge t s).seconds = s.seconds ∧ (releaseSurcharge t s).cal0 = s.cal0 := by
  unfold releaseSurcharge
  refine ⟨writeGrant_arbiter .., ?_, ?_, ?_, ?_, ?_⟩ <;> simp [State.onLoader]

theorem resolveHeld_rest : (resolveHeld t s).arbiter = s.arbiter ∧ (resolveHeld t s).gas = s.gas ∧
    (resolveHeld t s).links = s.links ∧ (resolveHeld t s).rights = s.rights ∧ (resolveHeld t s).seconds = s.seconds ∧
    (resolveHeld t s).cal0 = s.cal0 := by
  rcases resolveHeld_cases t s with h | h | h <;> rw [h]
  · exact ⟨rfl, rfl, rfl, rfl, rfl, rfl⟩
  · exact releaseSurcharge_rest t s
  · exact ⟨rfl, rfl, rfl, rfl, rfl, rfl⟩

theorem onLoader_elsewhere (f : Loader → Loader) : elsewhereKept t s (s.onLoader t f) := onTube_elsewhere rfl

theorem releaseSurcharge_elsewhere : elsewhereKept t s (releaseSurcharge t s) :=
  (onLoader_elsewhere t s _).trans (writeGrant_elsewhere ..)

theorem resolveHeld_elsewhere : elsewhereKept t s (resolveHeld t s) := by
  rcases resolveHeld_cases t s with h | h | h <;> rw [h]
  · exact .refl ..
  · exact releaseSurcharge_elsewhere t s
  · exact onLoader_elsewhere ..

/-- A grant set to 0: the shares, the recovery and the ceilings, which are 0 too while OVER-TEMP is in the set. -/
theorem zeroGrant_tube : ∃ zs : PerZone Zone, (zeroGrant t s).tube t =
      { s.tube t with
        loader := { (s.tube t).loader with recovery := .none, recoveryCounter := none }
        grant := { (s.tube t).grant with step := .zero, surcharge := .zero }
        zones := zs } ∧
    ∀ z, ∃ c, zs.get z = ((s.tube t).zones.get z).withCeiling c ∧ ((s.tube t).fault.causes.overTemp = true → c.1 = 0) := by
  have h := writeGrant_tube_same t .zero .zero (s.onLoader t fun l => { l with recovery := .none, recoveryCounter := none })
  refine ⟨((zeroGrant t s).tube t).zones, ?_, fun z => ⟨composedCeiling (withShares t .zero .zero
    (s.onLoader t fun l => { l with recovery := .none, recoveryCounter := none })) t z, ?_, fun ho => ?_⟩⟩
  · unfold zeroGrant; rw [h]; simp [Tube.recomposed, State.onLoader]
  · unfold zeroGrant; rw [h, recomposed_zone]; simp [State.onLoader]
  · simp [composedCeiling, withShares, State.onLoader, ho]

theorem zeroGrant_rest : (zeroGrant t s).arbiter = s.arbiter ∧ (zeroGrant t s).gas = s.gas ∧
    (zeroGrant t s).links = s.links ∧ (zeroGrant t s).rights = s.rights ∧
    (zeroGrant t s).seconds = s.seconds ∧ (zeroGrant t s).cal0 = s.cal0 := by
  unfold zeroGrant
  refine ⟨writeGrant_arbiter .., ?_, ?_, ?_, ?_, ?_⟩ <;> simp [State.onLoader]

theorem zeroGrant_elsewhere : elsewhereKept t s (zeroGrant t s) :=
  (onLoader_elsewhere t s _).trans (writeGrant_elsewhere ..)

end ResolveHeld

/-- What the stop of a tube's work leaves of its tube and of the state (R20, R144). -/
theorem stopWork_effect (t : TubeId) (s : State) : ∃ (l : Loader) (g : PerZone Nat) (zs : PerZone Zone),
    (stopWork t s).tube t =
      { (if (s.tube t).effective = .purging then (s.tube t).purgeClosed else s.tube t) with
        loader := l
        grant := { (s.tube t).grant with surcharge := g }
        zones := zs } ∧
    (∀ z, (zs.get z).s = ((s.tube t).zones.get z).s ∧ (zs.get z).ramp = ((s.tube t).zones.get z).ramp) ∧
    ((s.tube t).effective = .moving → l.state = .stopped ∧ l.target = none) ∧
    ((s.tube t).effective ≠ .moving → l = (s.tube t).loader ∧ g = (s.tube t).grant.surcharge) ∧
    ((s.tube t).effective = .admitting → (∀ d ∈ (stopWork t s).arbiter.claims, d.tube ≠ t) ∧
      (∀ d ∈ (stopWork t s).gas.header, d.tube ≠ t) ∧ ∀ d ∈ (stopWork t s).gas.scrubber, d.tube ≠ t) ∧
    ((s.tube t).effective = .ramping → ∀ d ∈ (stopWork t s).arbiter.claims, d.tube ≠ t) ∧
    (stopWork t s).links = s.links ∧ (stopWork t s).rights = s.rights ∧ (stopWork t s).seconds = s.seconds ∧
    (stopWork t s).cal0 = s.cal0 ∧ elsewhereKept t s (stopWork t s) := by
  unfold stopWork
  split
  · rename_i h
    refine ⟨(s.tube t).loader, (s.tube t).grant.surcharge, (s.tube t).zones, ?_⟩
    simp [h, removeClaims_arbiter, removeClaims_gas, removeClaims_elsewhere]
  · rename_i h
    refine ⟨(s.tube t).loader, (s.tube t).grant.surcharge, (s.tube t).zones, ?_⟩
    simp [h, removeClaim_arbiter, removeClaim_elsewhere]
  · rename_i h
    refine ⟨(s.tube t).loader, (s.tube t).grant.surcharge, (s.tube t).zones, ?_⟩
    simp only [h, closePurge_tube, closePurge_elsewhere]
    refine ⟨?_, ?_⟩
    · unfold Tube.purgeClosed; split <;> simp
    · simp
  · rename_i h
    obtain ⟨r, k, g, zs, h1, h2⟩ := resolveHeld_tube t (stopLoader t s)
    obtain ⟨e1, e2, e3, e4, e5, e6⟩ := resolveHeld_rest t (stopLoader t s)
    rw [stopLoader_tube] at h1 h2
    refine ⟨{ (s.tube t).loader.clearMotion with recovery := r, recoveryCounter := k }, g, zs, ?_, h2, ?_⟩
    · rw [h1]; simp [h]
    · simp [h, e1, e2, e3, e4, e5, e6, Loader.clearMotion]
      exact (stopLoader_elsewhere t s).trans (resolveHeld_elsewhere ..)
  · rename_i h1 h2 h3 h4
    refine ⟨(s.tube t).loader, (s.tube t).grant.surcharge, (s.tube t).zones, ?_⟩
    exact ⟨by rw [if_neg h3], fun _ => ⟨rfl, rfl⟩, fun h => (h4 h).elim, fun _ => ⟨rfl, rfl⟩, fun h => (h1 h).elim,
      fun h => (h2 h).elim, rfl, rfl, rfl, rfl, .refl t s⟩

/-! ### Other operations about one tube -/

theorem raiseTube_elsewhere (k : TubeKind) (t j : TubeId) (s : State) : elsewhereKept t s (raiseTube k j s) :=
  .of_moves (raiseTube_moves k j s) fun _ _ => rfl

theorem onFault_elsewhere (t : TubeId) (s : State) (f : FaultMonitor → FaultMonitor) : elsewhereKept t s (s.onFault t f) :=
  onTube_elsewhere rfl

/-- The state as an entry into FAULT-HOLD has it before the grant is lowered or cut (R143, stages 1 to 3). -/
def faultStopped (t : TubeId) (c : FaultCause) (s : State) : State :=
  closePurge t (closeDopant t (stopWork t ((joinCause t c s).onFault t fun f => { f with entry := some s.seconds })))

/-- The state as an entry into FAULT-HOLD has it before the step ends (R143, stage 4). -/
def faultCut (t : TubeId) (c : FaultCause) (s : State) : State :=
  if ((faultStopped t c s).tube t).fault.causes.overTemp then overTempGrant t (faultStopped t c s)
  else lowerShare t (faultStopped t c s)

theorem enterFaultHold_eq (t : TubeId) (c : FaultCause) (s : State) : enterFaultHold t c s =
    raiseTube .fault t ((endStep t .faulted (faultCut t c s)).onTube t fun u =>
      { u with state := .faultHold, halted := true, remembered := none, shedPaused := false }) := rfl

theorem purgeClosed_rest (u : Tube) : ∃ p : Line, u.purgeClosed = { u with lines := { u.lines with purge := p } } ∧
    p.commanded = 0 := by
  unfold Tube.purgeClosed
  split
  · exact ⟨_, rfl, rfl⟩
  · rename_i h; exact ⟨u.lines.purge, rfl, commanded_of_closed (by simpa using h)⟩

theorem dopantClosed_rest (u : Tube) : ∃ p : Line, u.dopantClosed = { u with
      lines := { u.lines with dopant := p }
      owed := u.owed || u.lines.dopant.isOpen
      credit := if u.lines.dopant.isOpen then 0 else u.credit
      remainder := if u.lines.dopant.isOpen then 0 else u.remainder } ∧ p.commanded = 0 := by
  unfold Tube.dopantClosed
  split
  · rename_i h; exact ⟨u.lines.dopant.command 0, by simp [h], rfl⟩
  · rename_i h; exact ⟨u.lines.dopant, by simp [h], commanded_of_closed (by simpa using h)⟩

/-- What stages 1 to 3 of an entry leave of the tube and of the state. -/
theorem faultStopped_effect (t : TubeId) (c : FaultCause) (s : State) :
    ∃ (l : Loader) (g : PerZone Nat) (zs : PerZone Zone) (p d : Line), (faultStopped t c s).tube t =
      { s.tube t with
        fault := { (s.tube t).fault with causes := (s.tube t).fault.causes.insert c, entry := some s.seconds }
        loader := l
        grant := { (s.tube t).grant with surcharge := g }
        zones := zs
        lines := { (s.tube t).lines with purge := p, dopant := d }
        owed := (s.tube t).owed || (s.tube t).lines.dopant.isOpen
        credit := if (s.tube t).lines.dopant.isOpen then 0 else (s.tube t).credit
        remainder := if (s.tube t).lines.dopant.isOpen then 0 else (s.tube t).remainder } ∧
    p.commanded = 0 ∧ d.commanded = 0 ∧
    (∀ z, (zs.get z).s = ((s.tube t).zones.get z).s ∧ (zs.get z).ramp = ((s.tube t).zones.get z).ramp) ∧
    ((s.tube t).effective = .moving → l.state = .stopped ∧ l.target = none) ∧
    ((s.tube t).effective ≠ .moving → l = (s.tube t).loader ∧ g = (s.tube t).grant.surcharge) ∧
    ((s.tube t).effective = .admitting → (∀ d ∈ (faultStopped t c s).arbiter.claims, d.tube ≠ t) ∧
      (∀ d ∈ (faultStopped t c s).gas.header, d.tube ≠ t) ∧ ∀ d ∈ (faultStopped t c s).gas.scrubber, d.tube ≠ t) ∧
    ((s.tube t).effective = .ramping → ∀ d ∈ (faultStopped t c s).arbiter.claims, d.tube ≠ t) ∧
    (faultStopped t c s).links = s.links ∧ (faultStopped t c s).rights = s.rights ∧
    (faultStopped t c s).seconds = s.seconds ∧ (faultStopped t c s).cal0 = s.cal0 ∧
    elsewhereKept t s (faultStopped t c s) := by
  generalize hs0 : (joinCause t c s).onFault t (fun f => { f with entry := some s.seconds }) = s0
  have ht0 : s0.tube t = { s.tube t with
      fault := { (s.tube t).fault with causes := (s.tube t).fault.causes.insert c, entry := some s.seconds } } := by
    rw [← hs0]; simp [joinCause, State.onFault]
  have he0 : elsewhereKept t s s0 := by
    rw [← hs0]; exact (onFault_elsewhere t s _).trans (onFault_elsewhere t _ _)
  have hr0 : s0.links = s.links ∧ s0.rights = s.rights ∧ s0.seconds = s.seconds ∧ s0.cal0 = s.cal0 := by
    rw [← hs0]; exact ⟨rfl, rfl, rfl, rfl⟩
  have heff : (s0.tube t).effective = (s.tube t).effective := by rw [ht0]; rfl
  have hz0 : (s0.tube t).zones = (s.tube t).zones := by rw [ht0]
  have hl0 : (s0.tube t).loader = (s.tube t).loader := by rw [ht0]
  have hg0 : (s0.tube t).grant = (s.tube t).grant := by rw [ht0]
  obtain ⟨l, g, zs, h1, h2, h3, h3', h4, h5, h6, h7, h8, h9, h10⟩ := stopWork_effect t s0
  rw [heff] at h1 h3 h3' h4 h5
  have hfs : faultStopped t c s = closePurge t (closeDopant t (stopWork t s0)) := by rw [faultStopped, hs0]
  -- the tube after the work stopped, with its lines alone left open to the two closings
  obtain ⟨p0, hp0⟩ : ∃ p0 : Line, (stopWork t s0).tube t = { s0.tube t with
      loader := l
      grant := { (s0.tube t).grant with surcharge := g }
      zones := zs
      lines := { (s0.tube t).lines with purge := p0 } } := by
    rw [h1]
    split
    · obtain ⟨p, hp, -⟩ := purgeClosed_rest (s0.tube t)
      rw [hp]; exact ⟨p, rfl⟩
    · exact ⟨(s0.tube t).lines.purge, rfl⟩
  obtain ⟨d, hd, hd0⟩ := dopantClosed_rest ((stopWork t s0).tube t)
  obtain ⟨p, hp, hpz⟩ := purgeClosed_rest (((stopWork t s0).tube t).dopantClosed)
  refine ⟨l, g, zs, p, d, ?_, hpz, hd0, ?_, h3, by rw [← hl0, ← hg0]; exact h3', ?_, ?_, ?_, ?_, ?_, ?_, ?_⟩
  · rw [hfs, closePurge_tube, closeDopant_tube, hp, hd, hp0, ht0]
  · intro z; rw [← hz0]; exact h2 z
  · rw [hfs]; simpa using h4
  · rw [hfs]; simpa using h5
  · rw [hfs]; simp [h6, hr0]
  · rw [hfs]; simp [h7, hr0]
  · rw [hfs]; simp [h8, hr0]
  · rw [hfs]; simp [h9, hr0]
  · rw [hfs]; exact ((he0.trans h10).trans (closeDopant_elsewhere ..)).trans (closePurge_elsewhere ..)

end Sys2Proof.Machine
end

