-- ==== Sys2Proof/Laws/Sends.lean ====
section
/-! SUPPORT. What the compositions of a tube's ceilings send on the zone drive link (R66, R67, R146). -/

namespace Sys2Proof.Machine

variable (t : TubeId)

theorem recomposeZone_outbox (s : State) (z : ZoneId) : (recomposeZone t s z).outbox = s.outbox ++
    if (composedCeiling s t z).1 < ((s.tube t).zones.get z).ceiling then [.ceiling t z (composedCeiling s t z).1] else [] := by
  unfold recomposeZone
  split <;> simp [*, State.onZone]

theorem outbox_recomposeZones {m : Sent} (zs : List ZoneId) {s : State} (h : m ∈ s.outbox) :
    m ∈ (zs.foldl (recomposeZone t) s).outbox := by
  induction zs generalizing s with
  | nil => exact h
  | cons y ys ih => exact ih (by rw [recomposeZone_outbox]; exact List.mem_append_left _ h)

theorem recomposeZones_send {zs : List ZoneId} (hd : zs.Nodup) {z : ZoneId} (hz : z ∈ zs) {s : State}
    (h : (composedCeiling s t z).1 < ((s.tube t).zones.get z).ceiling) :
    .ceiling t z (composedCeiling s t z).1 ∈ (zs.foldl (recomposeZone t) s).outbox := by
  induction zs generalizing s with
  | nil => cases hz
  | cons y ys ih =>
    obtain ⟨hy, hd⟩ := List.nodup_cons.mp hd
    by_cases e : z = y
    · subst e
      exact outbox_recomposeZones t ys (by rw [recomposeZone_outbox, if_pos h]; simp)
    · have hc := composedCeiling_recomposeZone (t := t) (s := s) e
      have hk : (((recomposeZone t s y).tube t).zones.get z).ceiling = ((s.tube t).zones.get z).ceiling := by
        rw [recomposeZone_tube]; simp [PerZone.get_set_of_ne _ e]
      rw [← hc]
      exact ih hd ((List.mem_cons.mp hz).resolve_left e) (by rw [hc, hk]; exact h)

/-- A ceiling that falls is sent within the event (R67). -/
theorem recompose_sends {s : State} {z : ZoneId} (h : (composedCeiling s t z).1 < ((s.tube t).zones.get z).ceiling) :
    .ceiling t z (composedCeiling s t z).1 ∈ (recompose t s).outbox :=
  recomposeZones_send t (by decide) (by cases z <;> decide) h

theorem writeGrant_outbox (step surcharge : PerZone Nat) (s : State) :
    (writeGrant t step surcharge s).outbox = (recompose t (withShares t step surcharge s)).outbox := by
  unfold writeGrant withShares
  dsimp only
  split <;> simp [dueShedWhileShedding, dueClaims, State.onDue]

/-- A run of ceilings sent as they stand: the zones' sent ceilings and the messages alone change. -/
theorem sendCeilings_effect (zs : List ZoneId) (s : State) :
    (∀ j, j ≠ t → (zs.foldl (sendCeiling t) s).tube j = s.tube j) ∧
    (∃ w : PerZone Zone, (zs.foldl (sendCeiling t) s).tube t = { s.tube t with zones := w } ∧
      ∀ z, w.get z = (if z ∈ zs then { (s.tube t).zones.get z with sentCeiling := ((s.tube t).zones.get z).ceiling }
        else (s.tube t).zones.get z)) ∧
    (zs.foldl (sendCeiling t) s).outbox =
      s.outbox ++ zs.map fun z => Sent.ceiling t z ((s.tube t).zones.get z).ceiling := by
  induction zs generalizing s with
  | nil => exact ⟨fun _ _ => rfl, ⟨(s.tube t).zones, rfl, fun z => by simp⟩, by simp⟩
  | cons y ys ih =>
    obtain ⟨h1, ⟨w, h2, h3⟩, h4⟩ := ih (sendCeiling t s y)
    have ht : (sendCeiling t s y).tube t = { s.tube t with
        zones := (s.tube t).zones.set y { (s.tube t).zones.get y with sentCeiling := ((s.tube t).zones.get y).ceiling } } := by
      simp [sendCeiling, State.onZone]
    have hc : ∀ z, (((sendCeiling t s y).tube t).zones.get z).ceiling = ((s.tube t).zones.get z).ceiling := by
      intro z; rw [ht]
      by_cases e : z = y
      · subst e; simp
      · simp [PerZone.get_set_of_ne _ e]
    refine ⟨fun j hj => ?_, ⟨w, ?_, fun z => ?_⟩, ?_⟩
    · rw [List.foldl_cons, h1 j hj]
      simp [sendCeiling, State.onZone, tube_onTube_of_ne _ _ _ hj]
    · rw [List.foldl_cons, h2, ht]
    · rw [h3, ht]
      by_cases e : z = y
      · subst e; simp
      · simp [PerZone.get_set_of_ne _ e, e]
    · rw [List.foldl_cons, h4]
      simp only [hc]
      simp [sendCeiling, State.onZone]

/-- What the grant write for OVER-TEMP does (R71, R146): the tube's shares are 0 with its recovery gone, no other tube changes, and
with OVER-TEMP in the set every ceiling is 0 and was sent so. -/
theorem overTempGrant_effect (s : State) : ∃ zs : PerZone Zone, (overTempGrant t s).tube t =
      { s.tube t with
        loader := { (s.tube t).loader with recovery := .none, recoveryCounter := none }
        grant := { (s.tube t).grant with step := .zero, surcharge := .zero }
        zones := zs } ∧
    (∀ z, (zs.get z).s = ((s.tube t).zones.get z).s ∧ (zs.get z).ramp = ((s.tube t).zones.get z).ramp) ∧
    (∀ j, j ≠ t → (overTempGrant t s).tube j = s.tube j) ∧
    ((s.tube t).fault.causes.overTemp = true → ceilingsCut t (overTempGrant t s)) := by
  obtain ⟨w0, h0, hw⟩ := zeroGrant_tube t s
  generalize hl : (ZoneId.all.filter fun z => ((s.tube t).zones.get z).ceiling == 0) = l
  have ho : overTempGrant t s = l.foldl (sendCeiling t) (zeroGrant t s) := by rw [← hl]; rfl
  obtain ⟨h1, ⟨w, h2, h3⟩, h4⟩ := sendCeilings_effect t l (zeroGrant t s)
  have hz : ∀ z, ((zeroGrant t s).tube t).zones.get z = w0.get z := fun z => by rw [h0]
  refine ⟨w, ?_, fun z => ?_, fun j hj => ?_, fun hot z => ?_⟩
  · rw [ho, h2, h0]
  · obtain ⟨c, k, -⟩ := hw z
    rw [h3, hz, k]; split <;> exact ⟨rfl, rfl⟩
  · rw [ho, h1 j hj]; exact (zeroGrant_elsewhere t s).1 j hj
  · obtain ⟨c, k, hc⟩ := hw z
    have hc := hc hot
    have hwz : (w0.get z).ceiling = 0 := by rw [k]; exact hc
    have hmem : z ∈ l ↔ ((s.tube t).zones.get z).ceiling = 0 := by
      rw [← hl, List.mem_filter]; cases z <;> simp [ZoneId.all]
    have hcz : ((overTempGrant t s).tube t).zones.get z =
        if z ∈ l then { w0.get z with sentCeiling := (w0.get z).ceiling } else w0.get z := by
      rw [ho, h2]; simp only [h3, hz]
    have hcl : (((overTempGrant t s).tube t).zones.get z).ceiling = 0 := by rw [hcz]; split <;> exact hwz
    refine ⟨hcl, ?_, ?_⟩
    · rw [hcz]
      by_cases hm : z ∈ l
      · rw [if_pos hm]; exact hwz
      · rw [if_neg hm, k]
        have : 0 < ((s.tube t).zones.get z).ceiling := Nat.pos_of_ne_zero fun e => hm (hmem.mpr e)
        simp [Zone.withCeiling, hc, this]
    · rw [ho, h4]
      by_cases hm : z ∈ l
      · exact List.mem_append_right _ (List.mem_map.mpr ⟨z, hm, by rw [hz, hwz]⟩)
      · refine List.mem_append_left _ ?_
        have hp : 0 < ((s.tube t).zones.get z).ceiling := Nat.pos_of_ne_zero fun e => hm (hmem.mpr e)
        have hs : (zeroGrant t s).outbox = (recompose t (withShares t .zero .zero
            (s.onLoader t fun l => { l with recovery := .none, recoveryCounter := none }))).outbox := writeGrant_outbox ..
        have hcc : (composedCeiling (withShares t .zero .zero
            (s.onLoader t fun l => { l with recovery := .none, recoveryCounter := none })) t z).1 = 0 := by
          simp [composedCeiling, withShares, State.onLoader, hot]
        rw [hs, ← hcc]
        exact recompose_sends t (by rw [hcc]; simpa [withShares, State.onLoader] using hp)

/-- The grant write for OVER-TEMP leaves of every zone all but its ceiling. -/
theorem overTempGrant_zones (s : State) (z : ZoneId) :
    zoneKept ((s.tube t).zones.get z) (((overTempGrant t s).tube t).zones.get z) := by
  obtain ⟨w0, h0, hw⟩ := zeroGrant_tube t s
  obtain ⟨-, ⟨w, h2, h3⟩, -⟩ := sendCeilings_effect t
    (ZoneId.all.filter fun z => ((s.tube t).zones.get z).ceiling == 0) (zeroGrant t s)
  obtain ⟨c, k, -⟩ := hw z
  have ho : (overTempGrant t s).tube t = { (zeroGrant t s).tube t with zones := w } := h2
  rw [ho]
  dsimp only
  rw [h3, h0]
  dsimp only
  rw [k]
  split <;> rfl

end Sys2Proof.Machine
end

