-- ==== Sys2Proof/Laws/Ceilings.lean ====
section
/-! SUPPORT. That the ceilings of a tube stand as R65 and R68 compose them after each operation that composes them again, with those it
lowers sent (R66, R67), and what an entry into FAULT-HOLD leaves of its tube. -/

namespace Sys2Proof.Machine

/-! ### Composed ceilings (R65, R66, R68) -/

section Composed
variable {t : TubeId} {s q : State} {z : ZoneId}

/-- A zone's ceiling is composed exactly where it and its term are what `composedCeiling` gives. -/
theorem ceilingComposed_iff : ceilingComposed s t z ↔
    ((s.tube t).zones.get z).ceiling = (composedCeiling s t z).1 ∧ ((s.tube t).zones.get z).term = (composedCeiling s t z).2 := by
  unfold ceilingComposed ceilingStands composedCeiling
  dsimp only
  cases ho : (s.tube t).fault.causes.overTemp <;> by_cases hs : (s.tube t).state = .off <;> simp [hs]
  generalize (s.tube t).grant.step.get z + (s.tube t).grant.surcharge.get z = share
  generalize (s.tube t).record.zmax.get z = zmax
  generalize holdShare ((calInForce s t).hold.get z) zmax ((s.tube t).zones.get z).reportedSetpoint = hold
  cases ((s.tube t).zones.get z).isOpen <;> by_cases hm : zmax < share
  all_goals by_cases h1 : hold < share <;> by_cases h2 : hold < zmax <;>
    simp [hm, h1, h2, not_le.mpr, le_of_not_gt, le_of_lt]

/-- A composed ceiling stays composed while nothing it is composed from changes. -/
theorem ceilingComposed.congr (h : ceilingComposed s t z) (hc : (calInForce q t).hold.get z = (calInForce s t).hold.get z)
    (hg : (q.tube t).grant.step = (s.tube t).grant.step ∧ (q.tube t).grant.surcharge = (s.tube t).grant.surcharge)
    (hr : (q.tube t).record = (s.tube t).record)
    (hf : (q.tube t).fault.causes.overTemp = (s.tube t).fault.causes.overTemp)
    (hs : (q.tube t).state = .off ↔ (s.tube t).state = .off)
    (hz : ((q.tube t).zones.get z).s = ((s.tube t).zones.get z).s ∧ ((q.tube t).zones.get z).isOpen = ((s.tube t).zones.get z).isOpen ∧
      ((q.tube t).zones.get z).ceiling = ((s.tube t).zones.get z).ceiling ∧
      ((q.tube t).zones.get z).term = ((s.tube t).zones.get z).term) : ceilingComposed q t z := by
  obtain ⟨z1, z2, z3, z4⟩ := hz
  unfold ceilingComposed ceilingStands Zone.reportedSetpoint at *
  dsimp only at *
  rwa [hc, hg.1, hg.2, hr, hf, z1, z2, z3, z4, ne_eq, hs]

theorem recompose_composed : ceilingComposed (recompose t s) t z := by
  have hz : ((recompose t s).tube t).zones.get z = ((s.tube t).zones.get z).withCeiling (composedCeiling s t z) := by
    rw [recompose_tube, recomposed_zone]
  have hc : composedCeiling (recompose t s) t z = composedCeiling s t z := by
    refine composedCeiling_congr (recompose_cal0 t s) ⟨_, recompose_tube t s, ?_, ?_⟩ <;> simp [Zone.withCeiling]
  exact ceilingComposed_iff.mpr (by rw [hz, hc]; exact ⟨rfl, rfl⟩)

theorem recompose_lowers : loweredSent t s (recompose t s) := by
  intro z h
  have hz : ((recompose t s).tube t).zones.get z = ((s.tube t).zones.get z).withCeiling (composedCeiling s t z) := by
    rw [recompose_tube, recomposed_zone]
  rw [hz] at h ⊢
  exact ⟨if_pos h, recompose_sends t h⟩

theorem loweredSent.congr (h : loweredSent t s q) {p r : State}
    (hp : ∀ z, ((p.tube t).zones.get z).ceiling = ((s.tube t).zones.get z).ceiling)
    (hq : ∀ z, ((r.tube t).zones.get z).ceiling = ((q.tube t).zones.get z).ceiling ∧
      ((r.tube t).zones.get z).sentCeiling = ((q.tube t).zones.get z).sentCeiling)
    (ho : ∀ m ∈ q.outbox, m ∈ r.outbox) : loweredSent t p r := by
  intro z k
  rw [hp, (hq z).1] at k
  obtain ⟨a, b⟩ := h z k
  rw [(hq z).1, (hq z).2]
  exact ⟨a, ho _ b⟩

/-- A write of a tube's shares composes its ceilings again, and sends those that fall (R66, R67). -/
theorem writeGrant_follows (step surcharge : PerZone Nat) : ceilingsFollow t s (writeGrant t step surcharge s) := by
  have hw : ∀ u, (writeGrant t step surcharge s).tube u = (recompose t (withShares t step surcharge s)).tube u :=
    fun u => writeGrant_tube t step surcharge s u
  have hc : (writeGrant t step surcharge s).cal0 = (recompose t (withShares t step surcharge s)).cal0 := by
    rw [writeGrant_cal0, recompose_cal0]; rfl
  refine ⟨fun z => (recompose_composed (t := t) (s := withShares t step surcharge s)).congr ?_ ?_ ?_ ?_ ?_ ?_, ?_⟩
  · have h : calInForce (writeGrant t step surcharge s) t = calInForce (recompose t (withShares t step surcharge s)) t := by
      unfold calInForce calSetOf; rw [hw, hc]
    rw [h]
  all_goals first
    | rw [hw]; exact ⟨rfl, rfl⟩
    | rw [hw]; exact ⟨rfl, rfl, rfl, rfl⟩
    | rw [hw]
    | skip
  exact (recompose_lowers (t := t) (s := withShares t step surcharge s)).congr (fun z => by simp [withShares])
    (fun z => by rw [hw]; exact ⟨rfl, rfl⟩) (fun m hm => by rw [writeGrant_outbox]; exact hm)

/-- The step-end lowering composes the ceilings again (R18, R66). -/
theorem lowerShare_follows : ceilingsFollow t s (lowerShare t s) := writeGrant_follows ..

/-- The release of a surcharge composes the ceilings again (R64, R66). -/
theorem releaseSurcharge_follows : ceilingsFollow t s (releaseSurcharge t s) := by
  obtain ⟨h1, h2⟩ := writeGrant_follows (t := t)
    (s := s.onLoader t fun l => { l with recovery := .none, recoveryCounter := none }) (s.tube t).grant.step .zero
  exact ⟨h1, h2.congr (fun z => by simp [State.onLoader]) (fun _ => ⟨rfl, rfl⟩) fun _ => id⟩

end Composed

/-! ### The end of a step (R18) -/

/-- What the tube left by an end has of what its ceilings are composed from, and its ceilings. -/
theorem leave_ceilings (u : Tube) (now : Stamp) (c : CurrentStep) (e : StepEnd) (z : ZoneId) :
    let v := (u.pushEnd now c e).leave e
    v.grant = u.grant ∧ v.record = u.record ∧ v.fault = u.fault ∧ v.pointer = u.pointer ∧
      (v.cal1 = u.cal1 ∧ v.cal2 = u.cal2 ∧ v.cal3 = u.cal3) ∧ v.zones.get z = (u.zones.get z).dropRamp := by
  dsimp only
  rw [pushEnd_eq, leave_zone]
  refine ⟨?_, ?_, ?_, ?_, ?_, rfl⟩ <;> cases e <;> simp [Tube.leave, Tube.dropRamps] <;> split <;> simp

theorem endAttention_outbox (t : TubeId) (b : Bool) (e : StepEnd) (s : State) : (endAttention t b e s).outbox = s.outbox := by
  cases e <;> cases b <;> rfl

theorem outbox_onTube (s : State) (t : TubeId) (f : Tube → Tube) : (s.onTube t f).outbox = s.outbox := rfl

/-- An end that lowers the share composes the ceilings again, and sends those that fall (R18, R66, R67). -/
theorem endStep_follows {t : TubeId} {e : StepEnd} {s : State} {c : CurrentStep} (h : (s.tube t).current = some c)
    (he : e.lowers = true) (hs : (s.tube t).state ≠ .off) : ceilingsFollow t s (endStep t e s) := by
  obtain ⟨g, zs, h1, -, -⟩ := endLowered_tube t e s
  have ht : (endStep t e s).tube t = (((endLowered t e s).tube t).pushEnd s.seconds c e).leave e := by
    rw [endStep_eq t e s h, tube_onTube_same, endAttention_tube, tube_onTube_same]
  have hl : (endLowered t e s) = lowerShare t (s.onTube t fun u =>
      { u with holdback := { u.holdback with asserted := false, counter := none } }) := by
    unfold endLowered; simp [he]
  have hstate : ((endLowered t e s).tube t).state ≠ .off := by simpa only [h1] using hs
  have hcal : (endStep t e s).cal0 = (endLowered t e s).cal0 := by
    rw [(endStep_leaves t e s h).2.2.2.2.2.2.2.2, endLowered_cal0]
  have hout : (endStep t e s).outbox = (endLowered t e s).outbox := by
    rw [endStep_eq t e s h, outbox_onTube, endAttention_outbox, outbox_onTube]
  have hleft : ((endStep t e s).tube t).state ≠ .off := by
    rw [ht, pushEnd_eq]
    cases e <;> simp [StepEnd.lowers] at he <;> simp [Tube.leave]
    split <;> simp [Tube.dropRamps, hstate]
  obtain ⟨f1, f2⟩ := lowerShare_follows (t := t) (s := s.onTube t fun u =>
      { u with holdback := { u.holdback with asserted := false, counter := none } })
  rw [← hl] at f1 f2
  have hv := leave_ceilings ((endLowered t e s).tube t) s.seconds c e
  rw [← ht] at hv
  have hz (z : ZoneId) := dropRamp_eq (((endLowered t e s).tube t).zones.get z)
  refine ⟨fun z => (f1 z).congr ?_ ?_ ?_ ?_ ?_ ?_, f2.congr ?_ ?_ ?_⟩
  · obtain ⟨-, -, -, k1, ⟨k2, k3, k4⟩, -⟩ := hv z
    unfold calInForce calSetOf; rw [k1, k2, k3, k4, hcal]
  · rw [(hv z).1]; exact ⟨rfl, rfl⟩
  · exact (hv z).2.1
  · rw [(hv z).2.2.1]
  · exact ⟨fun k => absurd k hleft, fun k => absurd k hstate⟩
  · rw [(hv z).2.2.2.2.2, hz]; exact ⟨rfl, rfl, rfl, rfl⟩
  · intro z; simp
  · intro z; rw [(hv z).2.2.2.2.2, hz]; exact ⟨rfl, rfl⟩
  · intro m hm; rw [hout]; exact hm

/-! ### What stands of a tube -/

theorem zoneKept.stands {z w : Zone} (h : zoneKept z w) : zoneStands z w := by
  unfold zoneKept zoneStands at *; rw [h]

theorem zoneStands.trans {x y z : Zone} (h : zoneStands x y) (k : zoneStands y z) : zoneStands x z := by
  unfold zoneStands at *; rw [k, h]

theorem withCeiling_kept (z : Zone) (c : Nat × CeilingTerm) : zoneKept z (z.withCeiling c) := rfl

theorem tubeStands.trans {u v w : Tube} (h : tubeStands u v) (k : tubeStands v w) : tubeStands u w := by
  unfold tubeStands at *; rw [k, h]

theorem motionStands.trans {u v w : Tube} (h : motionStands u v) (k : motionStands v w) : motionStands u w := by
  unfold motionStands at *; rw [k, h]

theorem motionOver.then {u v w : Tube} (h : motionOver u v) (k : motionStands v w) : motionOver u w := by
  unfold motionOver motionStands at *; rw [k, h]

/-- A line that is shut stays as it is at a second closing. -/
theorem shut_shut (l : Line) : l.shut.shut = l.shut := by
  unfold Line.shut; split <;> simp [*]

theorem isOpen_iff (l : Line) : l.isOpen = true ↔ l.commanded ≠ 0 := by simp [Line.isOpen, Nat.pos_iff_ne_zero]

theorem purgeClosed_shut (u : Tube) : u.purgeClosed = { u with lines := { u.lines with purge := u.lines.purge.shut } } := by
  unfold Tube.purgeClosed Line.shut
  by_cases h : u.lines.purge.commanded = 0
  · simp [h, isOpen_iff]
  · rw [if_pos ((isOpen_iff _).mpr h), if_neg h]; rfl

theorem dopantClosed_shut (u : Tube) : u.dopantClosed = { u with
      lines := { u.lines with dopant := u.lines.dopant.shut }
      owed := u.owed || u.lines.dopant.isOpen
      credit := if u.lines.dopant.isOpen then 0 else u.credit
      remainder := if u.lines.dopant.isOpen then 0 else u.remainder } := by
  unfold Tube.dopantClosed Line.shut
  by_cases h : u.lines.dopant.commanded = 0
  · have k : u.lines.dopant.isOpen = false := by simp [Line.isOpen, h]
    simp [h, k]
  · have k := (isOpen_iff _).mpr h
    rw [if_pos k, if_neg h]; simp [k, Line.command]

/-- What the stop of a tube's work leaves of its tube beside the loader of a motion and PURGE (R20, R144). -/
theorem stopWork_stands (t : TubeId) (s : State) :
    let u := s.tube t
    let v := (stopWork t s).tube t
    v = { u with
      loader := v.loader
      grant := { u.grant with surcharge := v.grant.surcharge }
      zones := v.zones
      lines := { u.lines with purge := v.lines.purge } } ∧
    (∀ z, zoneStands (u.zones.get z) (v.zones.get z)) ∧
    (u.effective = .purging → v.lines.purge = u.lines.purge.shut) ∧
    (u.effective ≠ .purging → v.lines.purge = u.lines.purge) ∧
    (u.effective = .moving → motionOver u v) ∧ (u.effective ≠ .moving → v.loader = u.loader) := by
  dsimp only
  unfold stopWork
  split
  · rename_i h
    simp [h, zoneStands]
  · rename_i h
    simp [h, zoneStands]
  · rename_i h
    rw [closePurge_tube, purgeClosed_shut]
    simp [h, zoneStands]
  · rename_i h
    have hm : motionOver (s.tube t) ((stopLoader t s).tube t) := by rw [stopLoader_tube]; rfl
    have hz : ((stopLoader t s).tube t).zones = (s.tube t).zones := by rw [stopLoader_tube]
    have he : (stopLoader t s).tube t = { s.tube t with loader := ((stopLoader t s).tube t).loader } := by
      rw [stopLoader_tube]
    rcases resolveHeld_cases t (stopLoader t s) with k | k | k <;> rw [k]
    · rw [he]; simp [h, zoneStands]
      rw [he] at hm; exact hm
    · obtain ⟨zs, k1, k2⟩ := releaseSurcharge_tube t (stopLoader t s)
      rw [k1, he]
      refine ⟨rfl, fun z => ?_, fun h' => absurd (h.symm.trans h') nofun, fun _ => rfl, fun _ => ?_, fun h' => absurd h h'⟩
      · obtain ⟨c, e⟩ := k2 z
        dsimp only
        rw [e, hz]; exact (withCeiling_kept ..).stands
      · rw [he] at hm; exact hm.then rfl
    · simp only [State.onLoader, tube_onTube_same]
      rw [he]
      refine ⟨rfl, fun z => rfl, fun h' => absurd (h.symm.trans h') nofun, fun _ => rfl, fun _ => ?_, fun h' => absurd h h'⟩
      rw [he] at hm; exact hm.then rfl
  · rename_i h1 h2 h3 h4
    exact ⟨rfl, fun _ => rfl, fun h => absurd h h3, fun _ => rfl, fun h => absurd h h4, fun _ => rfl⟩

/-- What an entry into FAULT-HOLD leaves of its tube (R143 to R146). -/
theorem enterFaultHold_stands (t : TubeId) (c : FaultCause) (s : State) :
    faultStands t c s (enterFaultHold t c s) ∧
      ∀ z, zoneStands ((s.tube t).zones.get z) (((enterFaultHold t c s).tube t).zones.get z) := by
  -- after stages 1 and 2
  have h1 : let v := (faultStopped t c s).tube t
      tubeStands (s.tube t) v ∧ v.fault = { (s.tube t).fault with causes := v.fault.causes, entry := v.fault.entry } ∧
      (∀ z, zoneStands ((s.tube t).zones.get z) (v.zones.get z)) ∧
      dopantShut (fun l => { l with purge := l.purge.shut }) (s.tube t) v ∧
      ((s.tube t).effective = .moving → motionOver (s.tube t) v) ∧ ((s.tube t).effective ≠ .moving → v.loader = (s.tube t).loader) := by
    obtain ⟨k1, k2, k3, k3', k4, k5⟩ := stopWork_stands t ((joinCause t c s).onFault t fun f => { f with entry := some s.seconds })
    have e : (((joinCause t c s).onFault t fun f => { f with entry := some s.seconds })).tube t =
        { s.tube t with fault := { (s.tube t).fault with causes := (s.tube t).fault.causes.insert c, entry := some s.seconds } } := by
      simp [joinCause, State.onFault]
    have he : ((((joinCause t c s).onFault t fun f => { f with entry := some s.seconds })).tube t).effective =
        (s.tube t).effective := by rw [e]; rfl
    rw [he] at k3 k3' k4 k5
    unfold faultStopped
    rw [closePurge_tube, closeDopant_tube, purgeClosed_shut, dopantClosed_shut]
    generalize (stopWork t ((joinCause t c s).onFault t fun f => { f with entry := some s.seconds })).tube t = v at *
    rw [e] at k1 k2 k3 k3' k4 k5
    have hp : v.lines.purge.shut = (s.tube t).lines.purge.shut := by
      by_cases q : (s.tube t).effective = .purging
      · rw [k3 q, shut_shut]
      · rw [k3' q]
    have hl : v.lines = { (s.tube t).lines with purge := v.lines.purge } := by rw [k1]
    have ha : v.owed = (s.tube t).owed ∧ v.credit = (s.tube t).credit ∧ v.remainder = (s.tube t).remainder := by
      rw [k1]; exact ⟨rfl, rfl, rfl⟩
    refine ⟨by unfold tubeStands; rw [k1], by rw [k1], k2, ⟨?_, fun h => ?_, fun h => ?_⟩, k4, k5⟩
    · dsimp only; rw [hp, hl]
    · have : v.lines.dopant.isOpen = false := by rw [hl]; simp [Line.isOpen, h]
      simp [accountStands, this, ha]
    · have : v.lines.dopant.isOpen = true := by rw [hl]; simp [Line.isOpen, h]
      simp [this]
  -- after stage 3
  have h2 : let u := (faultStopped t c s).tube t
      let v := (faultCut t c s).tube t
      tubeStands u v ∧ v.fault = u.fault ∧ (∀ z, zoneStands (u.zones.get z) (v.zones.get z)) ∧ v.lines = u.lines ∧ accountStands u v ∧
        motionStands u v := by
    unfold faultCut
    split
    · obtain ⟨zs, k1, -⟩ := overTempGrant_effect t (faultStopped t c s)
      have k2 := overTempGrant_zones t (faultStopped t c s)
      rw [k1] at k2 ⊢
      exact ⟨rfl, rfl, fun z => (k2 z).stands, rfl, ⟨rfl, rfl, rfl⟩, rfl⟩
    · obtain ⟨zs, k1, k2⟩ := writeStepShare_tube t (loweredShare (faultStopped t c s) t) (faultStopped t c s)
      unfold lowerShare
      rw [k1]
      exact ⟨rfl, rfl, fun z => by obtain ⟨x, e⟩ := k2 z; dsimp only; rw [e]; exact (withCeiling_kept ..).stands, rfl,
        ⟨rfl, rfl, rfl⟩, rfl⟩
  -- after stage 4
  have h3 : let u := (faultCut t c s).tube t
      let v := (endStep t .faulted (faultCut t c s)).tube t
      tubeStands u v ∧ v.fault = u.fault ∧ (∀ z, zoneStands (u.zones.get z) (v.zones.get z)) ∧ v.lines = u.lines ∧ accountStands u v ∧
        motionStands u v := by
    cases hc : ((faultCut t c s).tube t).current with
    | none =>
      have : endStep t .faulted (faultCut t c s) = faultCut t c s := by unfold endStep; rw [hc]
      rw [this]
      exact ⟨rfl, rfl, fun _ => rfl, rfl, ⟨rfl, rfl, rfl⟩, rfl⟩
    | some k =>
      obtain ⟨⟨-, -, -, -, -, -, -, a1, af, a2⟩, -, -, -, -, -, -, b1, -, b2, b3, b4, b5, -⟩ :=
        endStep_effect t .faulted (faultCut t c s) hc
      exact ⟨a1, af, fun z => (a2 z).1, b1, ⟨b3, b4, b5⟩, by unfold motionStands; rw [b2]⟩
  have h4 : (enterFaultHold t c s).tube t =
      { (endStep t .faulted (faultCut t c s)).tube t with
        state := .faultHold, halted := true, remembered := none, shedPaused := false } := by
    rw [enterFaultHold_eq, tube_raiseTube]; exact tube_onTube_same ..
  have h5 : let u := (endStep t .faulted (faultCut t c s)).tube t
      let v := (enterFaultHold t c s).tube t
      tubeStands u v ∧ v.fault = u.fault ∧ v.zones = u.zones ∧ v.lines = u.lines ∧ accountStands u v ∧ v.loader = u.loader := by
    rw [h4]; exact ⟨rfl, rfl, rfl, rfl, ⟨rfl, rfl, rfl⟩, rfl⟩
  obtain ⟨a1, af, a2, ⟨a3, a4, a5⟩, a6, a7⟩ := h1
  obtain ⟨b1, bf, b2, b3, b4, b5⟩ := h2
  obtain ⟨c1, cf, c2, c3, c4, c5⟩ := h3
  obtain ⟨d1, df, d2, d3, d4, d5⟩ := h5
  have hacc : accountStands ((faultStopped t c s).tube t) ((enterFaultHold t c s).tube t) :=
    ⟨d4.1.trans (c4.1.trans b4.1), d4.2.1.trans (c4.2.1.trans b4.2.1), d4.2.2.trans (c4.2.2.trans b4.2.2)⟩
  have hm : motionStands ((faultStopped t c s).tube t) ((enterFaultHold t c s).tube t) :=
    (b5.trans c5).trans (by unfold motionStands; rw [d5])
  refine ⟨⟨((a1.trans b1).trans c1).trans d1, ?_, ⟨?_, fun h => ?_, fun h => ?_⟩, fun h => (a6 h).then hm, fun h => ?_⟩, fun z => ?_⟩
  · unfold conditionsStand
    rw [df, cf, bf, af]
    exact ⟨fun _ => rfl, fun _ => rfl, fun _ => rfl⟩
  · rw [d3, c3, b3, a3]
  · obtain ⟨x, y, z⟩ := a4 h
    exact ⟨hacc.1.trans x, hacc.2.1.trans y, hacc.2.2.trans z⟩
  · obtain ⟨x, y, z⟩ := a5 h
    exact ⟨hacc.1.trans x, hacc.2.1.trans y, hacc.2.2.trans z⟩
  · unfold motionStands at hm ⊢; rw [hm, a7 h]
  · rw [d2]; exact ((a2 z).trans (b2 z)).trans (c2 z)

end Sys2Proof.Machine
end

