-- ==== Sys2Proof/Laws/Figures.lean ====
section
/-! SUPPORT. The figures the statements give for what an update moves, lands and tests, and for a step record's ranges, are those the
model computes. -/

namespace Sys2Proof.Machine

/-! ### Updates -/

theorem advances_iff {u : Tube} : u.advances = true ↔ u.rampMoves := by
  unfold Tube.advances Tube.rampMoves
  cases h : u.state <;> simp

theorem lands_iff {zone : Zone} : zone.lands = true ↔ zone.landsNext := by
  unfold Zone.lands Zone.landsNext
  cases h : zone.ramp <;> simp [remainingDistance, absDiff, zoneStep]
  exact fun _ => decide_eq_true_iff

theorem toList_all {α : Type} {p : PerZone α} {f : α → Bool} : p.toList.all f = true ↔ ∀ z, f (p.get z) = true := by
  constructor
  · intro h z; simp [PerZone.toList] at h; cases z <;> simp [PerZone.get, h]
  · intro h
    simp only [PerZone.toList, List.all_cons, List.all_nil, Bool.and_true, Bool.and_eq_true]
    exact ⟨h .z0, h .z1, h .z2, h .z3, h .z4⟩

theorem toList_any {α : Type} {p : PerZone α} {f : α → Bool} : p.toList.any f = true ↔ ∃ z, f (p.get z) = true := by
  constructor
  · intro h; simp [PerZone.toList] at h
    rcases h with h | h | h | h | h
    · exact ⟨.z0, h⟩
    · exact ⟨.z1, h⟩
    · exact ⟨.z2, h⟩
    · exact ⟨.z3, h⟩
    · exact ⟨.z4, h⟩
  · rintro ⟨z, h⟩; cases z <;> simp_all [PerZone.toList, PerZone.get]

/-- A zone's advance leaves it landed, if it is listed, where it had landed or lands by it. -/
theorem advance_landed_iff {zone : Zone} : (match zone.advance.ramp with
      | some r => r.landed
      | none => true) = true ↔ ∀ r, zone.ramp = some r → r.landed = true ∨ zone.landsNext := by
  cases h : zone.ramp with
  | none => simp [Zone.advance, h]
  | some r =>
    cases hl : r.landed
    · have hn : zone.landsNext ↔ remainingDistance r zone ≤ zoneStep r zone := by
        simp [Zone.landsNext, h, hl, remainingDistance, absDiff, zoneStep]
      have ha : zone.advance.ramp = if remainingDistance r zone ≤ zoneStep r zone then some { r with landed := true } else some r := by
        unfold Zone.advance
        simp only [h, hl, Bool.false_eq_true, if_false]
        split <;> simp
      rw [ha, hn]
      by_cases hd : remainingDistance r zone ≤ zoneStep r zone <;> simp [hd, hl]
    · simp [Zone.advance, h, hl]

/-- An update lands the last listed zone where the tube's ramp moves and its next advance finishes it (R35). -/
theorem landsLast_iff {u : Tube} : u.landsLast = true ↔ u.rampMoves ∧ u.rampFinishes := by
  unfold Tube.landsLast
  rw [Bool.and_eq_true, Bool.and_eq_true, advances_iff, and_assoc, toList_any]
  refine and_congr_right fun hm => and_congr (exists_congr fun z => lands_iff) ?_
  have hz : u.moveSetpoints.zones = u.zones.map fun _ z => z.advance := by
    unfold Tube.moveSetpoints; rw [if_pos (advances_iff.mpr hm)]
  unfold Tube.allLanded
  rw [toList_all]
  refine forall_congr' fun z => ?_
  rw [hz]
  simp only [PerZone.get_map]
  exact advance_landed_iff

/-- OVER-TEMP arises at an update where R48 has it arise. -/
theorem overTempArises_iff {u : Tube} : u.overTempArises = true ↔ u.overTempDue := by
  unfold Tube.overTempArises Tube.overTempDue Tube.overTempFound
  rw [Bool.and_eq_true, Bool.and_eq_true, and_assoc, toList_any]
  refine and_congr (by simp) (and_congr (by simp) (exists_congr fun z => ?_))
  simp only [Tube.testExcess, PerZone.get_map]
  generalize u.zones.get z = zone
  unfold Zone.testExcess Zone.isHot
  simp only [Config.maxReading]
  cases ho : zone.isOpen <;> by_cases hb : zone.reportedSetpoint + u.record.overTempBand < zone.pv <;>
    simp [hb]; omega

/-! ### Step records -/

theorem optionWithin_iff {low high : Nat} {o : Option Nat} : optionWithin low high o = true ↔ optionIn low high o := by
  cases o <;> simp [optionWithin, within, optionIn]

theorem zoneEntries_some {es : List (Nat × Nat)} :
    (∃ zs, zoneEntries es = some zs) ↔ ∀ e ∈ es, e.1 ≤ 4 := by
  induction es with
  | nil => simp [zoneEntries]
  | cons e es ih =>
    have hz : (∃ z, ZoneId.ofNat? e.1 = some z) ↔ e.1 ≤ 4 := by
      obtain ⟨n, x⟩ := e
      rcases n with _ | _ | _ | _ | _ | n <;> simp [ZoneId.ofNat?]
    rw [List.forall_mem_cons, ← ih, ← hz]
    obtain ⟨n, x⟩ := e
    rw [zoneEntries]
    cases h : ZoneId.ofNat? n <;> simp [Option.map_eq_some_iff]

/-- The range check passes the records within the ranges of R1 and R3, and no others. -/
theorem rangedStep_iff {v : TubeRecord} {raw : RawStep} : (∃ r, rangedStep v raw = some r) ↔ raw.ranged v := by
  obtain ⟨tube, id, level, cal, quiet, body⟩ := raw
  have hc : (∃ c, rangedCal cal = some c) ↔ optionIn 0 3 cal := by
    rcases cal with _ | n
    · simp [rangedCal, optionIn]
    · by_cases h : n < 4 <;> simp [rangedCal, optionIn, h] <;> omega
  have hb : (∃ b, rangedBody v body = some b) ↔ body.ranged v := by
    cases body with
    | ramp rate band zones =>
      simp only [rangedBody, RawBody.ranged, rangedZones]
      have : (zones.all fun e => within 2000 12500 e.2) = true ↔ ∀ e ∈ zones, 2000 ≤ e.2 ∧ e.2 ≤ 12500 := by
        simp [within]
      by_cases h1 : (within 1 300 rate && optionWithin 1 500 band) = true
      · have h1' := h1
        rw [Bool.and_eq_true, optionWithin_iff] at h1'
        simp only [within, Bool.and_eq_true, decide_eq_true_eq] at h1'
        by_cases h2 : (zones.all fun e => within 2000 12500 e.2) = true
        · have h2' := this.mp h2
          simp only [h1, h2, if_true]
          rw [show (∃ b, Option.map (fun zs => StepBody.ramp rate band zs) (zoneEntries zones) = some b) ↔
            ∃ zs, zoneEntries zones = some zs from by simp [Option.map_eq_some_iff], zoneEntries_some]
          exact ⟨fun h => ⟨h1'.1.1, h1'.1.2, h1'.2, fun e he => ⟨h e he, h2' e he⟩⟩, fun h e he => (h.2.2.2 e he).1⟩
        · simp only [h1, h2, if_true, Bool.false_eq_true, if_false, Option.map_none, reduceCtorEq, exists_false, false_iff]
          exact fun h => h2 (this.mpr fun e he => (h.2.2.2 e he).2)
      · simp only [h1, Bool.false_eq_true, if_false, reduceCtorEq, exists_false, false_iff]
        rintro ⟨a, b, c, -⟩
        exact h1 (by rw [Bool.and_eq_true, optionWithin_iff]; exact ⟨by simp [within, a, b], c⟩)
    | gasSet es => simp [rangedBody, RawBody.ranged]
    | mark => simp [rangedBody, RawBody.ranged]
    | soak d b =>
      simp [rangedBody, RawBody.ranged, optionWithin_iff, within, Config.maxDuration, and_assoc]
      exact fun _ _ => decide_eq_true_iff
    | purge f d =>
      simp [rangedBody, RawBody.ranged, within, Config.maxDuration, and_assoc]
      exact fun _ _ _ => decide_eq_true_iff
    | pushIn t h => simp [rangedBody, RawBody.ranged, optionWithin_iff]
    | pullOut t h => simp [rangedBody, RawBody.ranged, optionWithin_iff]
  simp only [RawStep.ranged, ← hc, ← hb, rangedStep]
  by_cases h : 7 < level
  · simp [h, Nat.not_le.mpr h]
  · simp only [h, if_false, Nat.le_of_not_lt h, true_and]
    cases rangedCal cal <;> cases rangedBody v body <;> simp

end Sys2Proof.Machine
end

