-- ==== Sys2Proof/Laws/Motion.lean ====
section
/-! SUPPORT. What stopping a push short, beginning a motion, and evaluating holdback can do, in the terms of the statements. -/

namespace Sys2Proof.Machine

/-! ### A surcharge in HELD -/

theorem resolveHeld_resolved (t : TubeId) (s : State) : heldResolved t s (resolveHeld t s) := by
  obtain ⟨zs, h⟩ := releaseSurcharge_tube t s
  unfold heldResolved resolveHeld
  dsimp only
  split
  next hr =>
    cases hp : (s.tube t).loader.position with
    | none => simp [hr, h]
    | some p =>
      by_cases hm : (s.tube t).record.mouth < p <;> by_cases hk : (s.tube t).loader.keptRecovery = 0 <;>
        simp [hr, hm, hk, h, State.onLoader]
  next hr => simp [hr]

/-! ### Segments and motions -/

theorem le_hottest (u : Tube) (n : Nat) : n ≤ hottest u ↔ ∃ z, n ≤ (u.zones.get z).reportedSetpoint := by
  have h : hottest u = max (u.zones.get .z0).reportedSetpoint (max (u.zones.get .z1).reportedSetpoint
    (max (u.zones.get .z2).reportedSetpoint (max (u.zones.get .z3).reportedSetpoint (u.zones.get .z4).reportedSetpoint))) := rfl
  rw [h]
  constructor
  · intro k
    by_contra hn
    have g (z : ZoneId) : (u.zones.get z).reportedSetpoint < n := not_le.mp fun hz => hn ⟨z, hz⟩
    have := g .z0; have := g .z1; have := g .z2; have := g .z3; have := g .z4
    omega
  · rintro ⟨z, hz⟩
    cases z <;> omega

theorem segmentIsHot_iff (position : Option Nat) (e mouth : Nat) :
    segmentIsHot position e mouth = true ↔ hotSegment mouth position e := by
  cases position <;> simp [segmentIsHot, hotSegment, or_comm]

/-- The speed a segment takes: the cold speed, the hot speed, or the hot cap where it cuts that (R121). -/
theorem segmentSpeed_eq (u : Tube) (travel : TravelCopy) (e : Nat) :
    let hot := u.loader.hotSpeed.getD travel.coldSpeed
    let v := segmentSpeed u travel (segmentIsHot u.loader.position e travel.mouth)
    (v.2 = true ↔ hotCapCuts u travel hot e) ∧
      (¬hotSegment travel.mouth u.loader.position e → v.1 = travel.coldSpeed) ∧
      (hotSegment travel.mouth u.loader.position e → ¬hotCapCuts u travel hot e → v.1 = hot) ∧
      (hotCapCuts u travel hot e → v.1 = travel.hotCap) := by
  have hi := segmentIsHot_iff u.loader.position e travel.mouth
  unfold hotCapCuts
  rw [← hi, ← le_hottest]
  unfold segmentSpeed
  cases segmentIsHot u.loader.position e travel.mouth with
  | false => simp
  | true => by_cases h : travel.hotThreshold ≤ hottest u ∧ travel.hotCap < u.loader.hotSpeed.getD travel.coldSpeed <;> simp [h]

theorem sendMove_tube (t : TubeId) (inward : Bool) (e v : Nat) (s : State) : (sendMove t inward e v s).tube t =
    { s.tube t with
      loader :=
        { (s.tube t).loader with
          state := if inward then .movingIn else .movingOut
          segmentEnd := some e
          speed := some v
          stallCount := (s.tube t).loader.travel.map TravelCopy.stallTime
          stallRef := (s.tube t).loader.position
          stallFresh := true } } := by
  simp [sendMove, State.onLoader, Loader.loadStall]

theorem sendMove_sends (t : TubeId) (inward : Bool) (e v : Nat) (s : State) :
    (sendMove t inward e v s).outbox.getLast? = some (.move t e v) := by
  simp [sendMove, State.send]

theorem beginSegment_begun (t : TubeId) (k : CurrentStep) (travel : TravelCopy) (inward : Bool) (e : Nat) (s : State)
    (hk : (s.tube t).current = some k) (ht : (s.tube t).loader.travel = some travel) :
    segmentBegun t k travel ((s.tube t).loader.hotSpeed.getD travel.coldSpeed) inward e s (beginSegment t inward e travel s) := by
  obtain ⟨h1, h2⟩ := segmentSpeed_eq (s.tube t) travel e
  unfold segmentBegun beginSegment
  dsimp only
  by_cases hc : hotCapCuts (s.tube t) travel ((s.tube t).loader.hotSpeed.getD travel.coldSpeed) e
  · rw [if_pos (h1.2 hc), sendMove_tube, sendMove_sends]
    simp only [State.onCurrent, tube_onTube_same, hk, ht]
    refine ⟨?_, ?_, ?_, ?_, ?_, ?_, ⟨_, rfl, rfl, h2⟩, fun h => absurd hc h, fun _ => rfl⟩ <;> simp
  · rw [if_neg (fun h => hc (h1.1 h)), sendMove_tube, sendMove_sends]
    simp only [hk, ht]
    refine ⟨?_, ?_, ?_, ?_, ?_, ?_, ⟨_, rfl, rfl, h2⟩, ?_, fun h => absurd h hc⟩ <;> simp

theorem segmentBegun.congr {t : TubeId} {k : CurrentStep} {travel : TravelCopy} {hot e : Nat} {inward : Bool} {p s q : State}
    (h : segmentBegun t k travel hot inward e s q) (hp : (p.tube t).loader.position = (s.tube t).loader.position)
    (hz : (p.tube t).zones = (s.tube t).zones) : segmentBegun t k travel hot inward e p q := by
  unfold segmentBegun hotCapCuts at *
  dsimp only at *
  rwa [hp, hz]

theorem beginSegment_kept (t : TubeId) (inward : Bool) (e : Nat) (travel : TravelCopy) (s : State) :
    ((beginSegment t inward e travel s).tube t).state = (s.tube t).state ∧
      ((beginSegment t inward e travel s).tube t).loader.target = (s.tube t).loader.target ∧
      motionAlone (s.tube t) ((beginSegment t inward e travel s).tube t) := by
  unfold beginSegment motionAlone zoneKept
  dsimp only
  split <;> rw [sendMove_tube] <;> simp [State.onCurrent]

/-- A motion from anywhere but its target begins its first segment (R120). -/
theorem moveTowards_begun (t : TubeId) (k : CurrentStep) (travel : TravelCopy) (target : Nat) (s : State)
    (hk : (s.tube t).current = some k) (ht : (s.tube t).loader.travel = some travel) (hs : (s.tube t).state = .moving)
    (hg : (s.tube t).loader.target = some target) (hp : (s.tube t).loader.position ≠ some target) :
    motionBegun t k travel ((s.tube t).loader.hotSpeed.getD travel.coldSpeed) target s (moveTowards t target s) := by
  unfold moveTowards
  simp only [ht, if_neg hp]
  cases h : (s.tube t).loader.position with
  | none =>
    dsimp only [firstSegmentEnd]
    by_cases hm : travel.mouth ≤ target
    · rw [if_pos hm]
      obtain ⟨h1, h2, h3⟩ := beginSegment_kept t true (if travel.mouth < target then travel.mouth else target) travel s
      refine ⟨h1.trans hs, h2.trans hg, h3, fun p hp => by simp [h] at hp, fun _ => ?_⟩
      rw [if_pos hm]
      exact beginSegment_begun _ _ _ _ _ _ hk ht
    · rw [if_neg hm]
      obtain ⟨h1, h2, h3⟩ := beginSegment_kept t (Config.freeDirection s.freeIndex)
        (if travel.mouth < target then travel.mouth else target) travel { s with freeIndex := s.freeIndex + 1 }
      refine ⟨h1.trans hs, h2.trans hg, h3, fun p hp => by simp [h] at hp, fun _ => ?_⟩
      rw [if_neg hm]
      exact (beginSegment_begun t k travel _ _ { s with freeIndex := s.freeIndex + 1 } hk ht).congr rfl rfl
  | some p =>
    dsimp only [firstSegmentEnd]
    have hne : p ≠ target := fun e => hp (by rw [h, e])
    obtain ⟨h1, h2, h3⟩ := beginSegment_kept t (isInward p
      (if (p < travel.mouth ∧ travel.mouth < target) ∨ (travel.mouth < p ∧ target < travel.mouth) then travel.mouth else target))
      (if (p < travel.mouth ∧ travel.mouth < target) ∨ (travel.mouth < p ∧ target < travel.mouth) then travel.mouth else target)
      travel s
    refine ⟨h1.trans hs, h2.trans hg, h3, fun p' hp' => ?_, fun hn => by simp [h] at hn⟩
    obtain rfl : p = p' := by simpa [h] using hp'
    have hi : isInward p (if (p < travel.mouth ∧ travel.mouth < target) ∨ (travel.mouth < p ∧ target < travel.mouth)
        then travel.mouth else target) = decide (p < target) := by
      unfold isInward
      split
      all_goals (simp; try omega)
    rw [hi]
    exact beginSegment_begun _ _ _ _ _ _ hk ht

/-! ### Holdback -/

theorem lag_eq (z : Zone) : z.lag = if z.isOpen then none else some (lagOf z) := by
  unfold Zone.lag lagOf absDiff
  split
  · rfl
  · cases z.ramp with
    | none => rfl
    | some r => cases h : r.direction <;> simp [h]

theorem foldl_max_spec (l : List Nat) (a : Nat) :
    a ≤ l.foldl max a ∧ (∀ x ∈ l, x ≤ l.foldl max a) ∧ (l.foldl max a = a ∨ l.foldl max a ∈ l) := by
  induction l generalizing a with
  | nil => simp
  | cons x l ih =>
    obtain ⟨h1, h2, h3⟩ := ih (max a x)
    simp only [List.foldl_cons, List.mem_cons, forall_eq_or_imp]
    refine ⟨by omega, ⟨by omega, h2⟩, ?_⟩
    rcases h3 with h | h
    · omega
    · exact .inr (.inr h)

/-- The largest lag of a tube: no zone that is not open has a greater one, and it is 0 or one of theirs (R39). -/
theorem maxLag_spec (u : Tube) :
    (∀ z, (u.zones.get z).isOpen = false → lagOf (u.zones.get z) ≤ u.maxLag) ∧
      (u.maxLag = 0 ∨ ∃ z, (u.zones.get z).isOpen = false ∧ u.maxLag = lagOf (u.zones.get z)) := by
  have hm (x : Nat) : x ∈ u.lags ↔ ∃ z, (u.zones.get z).isOpen = false ∧ x = lagOf (u.zones.get z) := by
    unfold Tube.lags
    simp only [List.mem_filterMap, lag_eq]
    constructor
    · rintro ⟨z, hz, h⟩
      obtain ⟨y, rfl⟩ : ∃ y, z = u.zones.get y := by
        simp only [PerZone.toList, List.mem_cons, List.not_mem_nil, or_false] at hz
        rcases hz with rfl | rfl | rfl | rfl | rfl
        exacts [⟨.z0, rfl⟩, ⟨.z1, rfl⟩, ⟨.z2, rfl⟩, ⟨.z3, rfl⟩, ⟨.z4, rfl⟩]
      refine ⟨y, ?_⟩
      cases ho : (u.zones.get y).isOpen <;> simp [ho] at h ⊢
      exact h.symm
    · rintro ⟨z, ho, rfl⟩
      exact ⟨u.zones.get z, by cases z <;> simp [PerZone.toList, PerZone.get], by simp [ho]⟩
  obtain ⟨-, h2, h3⟩ := foldl_max_spec u.lags 0
  exact ⟨fun z hz => h2 _ ((hm _).2 ⟨z, hz, rfl⟩), h3.imp id fun h => (hm _).1 h⟩

end Sys2Proof.Machine
end

