-- ==== Sys2Proof/Laws/Walk.lean ====
section
/-! SUPPORT. What the walk of the Claim List, its pacing tests, an evaluation of a gas list and the choice of the tube to shed come
to, in the terms the statements use. -/

namespace Sys2Proof.Machine

variable {s : State}

/-! ### The walk of the Claim List -/

/-- The sum of the other three tubes' grant totals (R79). -/
theorem othersSum_eq (s : State) (t : TubeId) :
    othersSum s t = ((TubeId.all.filter fun j => j ≠ t).map fun j => (s.tube j).grantTotal).sum := by
  cases t <;> simp [othersSum, grantSum, TubeId.all] <;> omega

/-- A claim fits by the model's test where it fits by R79. -/
theorem fits_iff {c : Claim} : fits s c = true ↔ claimFits s c := by
  simp only [fits, claimFits, othersSum_eq, newTotal, limitInForce, decide_eq_true_eq]
  cases c.kind <;> simp

theorem staggerPasses_iff : staggerPasses s = true ↔ staggerOpen s := by
  simp only [staggerPasses, staggerOpen, nthNewest, elapsed, List.getLast?_eq_head?_reverse, List.head?_eq_getElem?,
    Nat.sub_self]
  cases h : s.arbiter.history.reverse[0]? <;> simp [-BitVec.toNat_sub]
  exact decide_eq_true_iff

theorem windowPasses_iff : windowPasses s = true ↔ windowOpen s := by
  simp only [windowPasses, windowOpen, elapsed]
  exact decide_eq_true_iff

/-- A walk past claims goes on behind them. -/
theorem walk_past {ahead : List Claim} (h : ∀ d ∈ ahead, walkPasses s d) (cs : List Claim) :
    walk s (ahead ++ cs) =
      ⟨ahead.map (walkedPast s) ++ (walk s cs).before, (walk s cs).candidate, (walk s cs).behind⟩ := by
  induction ahead with
  | nil => rfl
  | cons d ds ih =>
    obtain ⟨hd, hds⟩ := List.forall_mem_cons.mp h
    simp only [List.cons_append, walk, ih hds, Walk.pass, Tube.isSuspended, beq_iff_eq, List.map_cons]
    by_cases hm : s.arbiter.mask ≤ d.level
    · simp [hm, walkedPast]
    by_cases hs : (s.tube d.tube).state = .suspended
    · simp [hm, hs, walkedPast]
    · rcases hd with hd | ⟨hd, hb⟩
      · exact absurd ⟨Nat.lt_of_not_le hm, hs⟩ hd
      · simp [hm, hs, walkedPast, mt fits_iff.mp hd, hb]

/-- A walk ends at an eligible claim that fits. -/
theorem walk_candidate {c : Claim} (h : eligible s c) (hf : claimFits s c) (cs : List Claim) :
    walk s (c :: cs) = ⟨[], some c, cs.map Claim.unreached⟩ := by
  simp only [walk, Tube.isSuspended, beq_iff_eq, if_neg (Nat.not_le.mpr h.1), if_neg h.2, if_pos (fits_iff.mpr hf)]
  rfl

/-- A walk ends at an eligible claim that does not fit and has been passed three times. -/
theorem walk_blocked {c : Claim} (h : eligible s c) (hf : ¬claimFits s c) (hb : 3 ≤ c.bypass) (cs : List Claim) :
    walk s (c :: cs) = ⟨[{ c with treatment := .blocking }], none, cs.map Claim.unreached⟩ := by
  simp only [walk, Tube.isSuspended, beq_iff_eq, if_neg (Nat.not_le.mpr h.1), if_neg h.2, if_neg (mt fits_iff.mp hf),
    if_neg (Nat.not_lt.mpr hb)]
  rfl

/-- The claims ahead of a grant, with the bypass counts of the eligible ones raised (R82). -/
theorem bypassed_walkedPast (ahead : List Claim) :
    bypassed (ahead.map (walkedPast s)) = ahead.map (overtaken s) := by
  simp only [bypassed, List.map_map, List.map_inj_left, Function.comp_apply, overtaken, eligible]
  intro d _
  by_cases hm : s.arbiter.mask ≤ d.level
  · simp [walkedPast, hm, Nat.not_lt.mpr hm]
  · by_cases hs : (s.tube d.tube).state = .suspended <;> simp [walkedPast, hm, hs, Nat.lt_of_not_le hm]

/-- With no claim waiting an evaluation does nothing but be taken (R78). -/
theorem evaluateClaims_empty (h : s.arbiter.claims = []) : evaluateClaims s = s.onDue fun d => { d with claims := false } := by
  simp only [evaluateClaims, State.onDue, h]; rfl

/-- With a claim waiting an evaluation walks the list (R79). -/
theorem evaluateClaims_waiting (h : s.arbiter.claims ≠ []) :
    evaluateClaims s = evaluateWaiting (s.onDue fun d => { d with claims := false }) := by
  unfold evaluateClaims
  exact if_neg (by simpa [State.onDue] using h)

/-! ### The gas lists -/

/-- An evaluation of the header FIFO takes the claim that R105 gives. -/
theorem splitHeader_taken {ahead : List HeaderClaim} {c : HeaderClaim} {behind : List HeaderClaim}
    (h : headerTakes s ahead c behind) :
    splitHeader s s.gas.header = (ahead.map HeaderClaim.passed, some (c, behind)) := by
  obtain ⟨h, ha, hc⟩ := h
  rw [h]; clear h
  induction ahead with
  | nil => simp [splitHeader, Tube.isSuspended, hc]
  | cons d ds ih =>
    obtain ⟨hd, hds⟩ := List.forall_mem_cons.mp ha
    simp [splitHeader, Tube.isSuspended, hd, ih hds, HeaderClaim.passed]

theorem splitHeader_none (h : ∀ d ∈ s.gas.header, (s.tube d.tube).state = .suspended) :
    splitHeader s s.gas.header = (s.gas.header.map HeaderClaim.passed, none) := by
  revert h
  generalize s.gas.header = cs
  intro h
  induction cs with
  | nil => rfl
  | cons d ds ih =>
    obtain ⟨hd, hds⟩ := List.forall_mem_cons.mp h
    simp [splitHeader, Tube.isSuspended, hd, ih hds, HeaderClaim.passed]

/-- An evaluation of the scrubber FIFO takes the claim that R100 gives. -/
theorem splitScrubber_taken {ahead : List ScrubberClaim} {c : ScrubberClaim} {behind : List ScrubberClaim}
    (h : scrubberTakes s ahead c behind) :
    splitScrubber s s.gas.scrubber = (ahead.map ScrubberClaim.passed, some (c, behind)) := by
  obtain ⟨h, ha, hc⟩ := h
  rw [h]; clear h
  induction ahead with
  | nil => simp [splitScrubber, Tube.isSuspended, hc]
  | cons d ds ih =>
    obtain ⟨hd, hds⟩ := List.forall_mem_cons.mp ha
    simp [splitScrubber, Tube.isSuspended, hd, ih hds, ScrubberClaim.passed]

theorem splitScrubber_none (h : ∀ d ∈ s.gas.scrubber, (s.tube d.tube).state = .suspended) :
    splitScrubber s s.gas.scrubber = (s.gas.scrubber.map ScrubberClaim.passed, none) := by
  revert h
  generalize s.gas.scrubber = cs
  intro h
  induction cs with
  | nil => rfl
  | cons d ds ih =>
    obtain ⟨hd, hds⟩ := List.forall_mem_cons.mp h
    simp [splitScrubber, Tube.isSuspended, hd, ih hds, ScrubberClaim.passed]

/-! ### Shedding -/

theorem loweredShare_floor (s : State) (t : TubeId) : loweredShare s t = shedFloor s t := by
  simp only [loweredShare, shedFloor, holdShares, PerZone.of, PerZone.mk.injEq]
  exact ⟨rfl, rfl, rfl, rfl, rfl⟩

theorem isShedCandidate_iff {t : TubeId} : isShedCandidate s t = true ↔ shedCandidate s t := by
  simp [isShedCandidate, shedCandidate, loweredShare_floor, and_assoc]

theorem shedsBefore_iff {a b : TubeId} : shedsBefore s a b = true ↔ shedGoesFirst s a b := by
  simp only [shedsBefore, shedGoesFirst, grantPlace, Bool.or_eq_true, decide_eq_true_eq, Bool.and_eq_true, beq_iff_eq]
  refine or_congr_right (and_congr_right fun _ => decide_eq_true_iff.trans ?_)
  cases (s.tube a).grant.mark <;> cases (s.tube b).grant.mark <;> simp

end Sys2Proof.Machine
end

