-- ==== Sys2Proof/WellFormed.lean ====
section
/-! DEFINITION. The well-formed commands: those whose operands say what their row says. -/

namespace Sys2Proof

/-- Whether no item stands twice. -/
def noneTwice {α : Type} [DecidableEq α] : List α → Bool
  | [] => true
  | x :: xs => !xs.contains x && noneTwice xs

/-- Whether a request's body fits a frame (R169). -/
def bodyFits (body : List Byte) : Bool := decide (body.length ≤ Config.maxBody)

/-- A command is well formed: a request's body fits a frame, a frame of an unknown kind has a kind byte outside the table of R173, a
rejected frame fails the check its row names, a frame start is not yet a whole frame, and the events of a clock row stand once
each. The operands of the other rows take every value their links carry. -/
def Instr.wellFormed : Instr → Bool
  | .powerOn _ => true
  | .appendStep _ _ b => bodyFits b
  | .withdrawStep _ _ b => bodyFits b
  | .flushQueue _ _ b => bodyFits b
  | .resumeQueue _ _ b => bodyFits b
  | .abortStep _ _ b => bodyFits b
  | .suspendTube _ _ b => bodyFits b
  | .resumeTube _ _ b => bodyFits b
  | .extendStep _ _ b => bodyFits b
  | .clearFault _ _ b => bodyFits b
  | .readTube _ _ b => bodyFits b
  | .readQueue _ _ b => bodyFits b
  | .readCompletions _ _ b => bodyFits b
  | .readGas _ _ b => bodyFits b
  | .readEnvelope _ _ b => bodyFits b
  | .readClaims _ _ b => bodyFits b
  | .readStack _ _ b => bodyFits b
  | .readAttention _ _ b => bodyFits b
  | .armAttention _ _ b => bodyFits b
  | .setMask _ _ b => bodyFits b
  | .setLimits _ _ b => bodyFits b
  | .writeCal _ _ b => bodyFits b
  | .writeTube _ _ b => bodyFits b
  | .writeRights _ _ b => bodyFits b
  | .promoteClaim _ _ b => bodyFits b
  | .openStack _ _ b => bodyFits b
  | .closeStack _ _ b => bodyFits b
  | .stackReset _ _ b => bodyFits b
  | .clearStop _ _ b => bodyFits b
  | .enterService _ _ b => bodyFits b
  | .leaveService _ _ b => bodyFits b
  | .serviceJog _ _ b => bodyFits b
  | .serviceValve _ _ b => bodyFits b
  | .serviceSetpoint _ _ b => bodyFits b
  | .unknownKind _ kind _ b => bodyFits b && !Machine.requestKinds.contains kind
  | .crcMismatch _ bytes => Machine.completesFrame bytes && !Machine.crcMatches bytes
  | .frameLengthReject _ length => decide (Config.maxBody < length.toNat)
  | .collectGapTimeout _ => true
  | .answerSent _ => true
  | .eStopAssert => true
  | .eStopRelease => true
  | .secondsBoundary _ _ order later => noneTwice order && noneTwice later
  | .curtailAsserted => true
  | .curtailReleased => true
  | .exhaustLost => true
  | .exhaustRestored => true
  | .soakCounterExpiry _ => true
  | .purgeCounterExpiry _ => true
  | .recoveryCounterExpiry _ => true
  | .holdbackCounterExpiry _ => true
  | .admissionWaitExpiry _ => true
  | .pacingTimeReached => true
  | .motionStall _ => true
  | .flowLow _ _ => true
  | .zoneUpdate order later => noneTwice order && noneTwice later
  | .overTempArises _ => true
  | .rampComplete _ => true
  | .serviceRampComplete _ => true
  | .zoneReading _ _ _ _ => true
  | .zoneReadingMissed _ _ => true
  | .flowReport _ _ _ => true
  | .positionReport _ _ => true
  | .loaderArrival _ _ => true
  | .serviceJogArrival _ _ => true
  | .autoPurgeEnd _ => true
  | .stepStart _ => true
  | .claimGrant => true
  | .headerClaimGrant => true
  | .scrubberClaimGrant => true
  | .frameStart _ more => Machine.isPartialFrame (Machine.startByte :: more)

end Sys2Proof
end

