-- ==== Sys2Proof/Tests/Slice0.lean ====
section
/-! SUPPORT. Tests: the well-formedness smoke test, figures and event tables of the spec's worked examples, and for each statement
with hypotheses a state and operands that meet them. -/

namespace Sys2Proof.Machine.Slice0

-- The tests are evaluated one after another, so that few wait at once for the declarations before them.
set_option Elab.async false

/-! ### Small states -/

/-- The calibration set of the worked examples of Chapter 3, with Pb 1200 and tr 900. -/
def cal : CalSet := ⟨⟨60, 55, 55, 55, 60⟩, ⟨40, 35, 35, 35, 40⟩, 1200, 900, true⟩

/-- The record of the worked example of section 6.4, with the account of section 5.5. -/
def record : TubeRecord :=
  { zmax := ⟨2000, 2000, 2000, 2000, 2000⟩, base := 100, mouth := 900, limit := 2400, coldSpeed := 600, hotCap := 150,
    hotThreshold := 8000, stallTime := 10, cdown := 40, band := 50, holdbackLimit := 120, overTempBand := 200,
    admissionLimit := 600, purgeVolume := 1500, autoFlow := 200 }

/-- A zone at a setpoint, its reading there too. -/
def zoneAt (x : Nat) : Zone := { Zone.reset with s := 64 * x, pv := x, isOpen := false, reported := true }

/-- Five zones at one setpoint. -/
def zonesAt (x : Nat) : PerZone Zone := ⟨zoneAt x, zoneAt x, zoneAt x, zoneAt x, zoneAt x⟩

/-- A tube that is IDLE at 8000 with its hold shares there as its grant, its boat at the base. -/
def idleTube : Tube :=
  { Tube.reset with
    state := .idle
    record := record
    recordValid := true
    zones := zonesAt 8000
    grant := ⟨⟨465, 427, 427, 427, 465⟩, .zero, none⟩
    owed := false
    loader := { Loader.reset with position := some 100 }
    fault := { FaultMonitor.reset with tcOpen := false } }

/-- A stack in RUN with four such tubes at second 1000. -/
def ready : State :=
  { State.reset with
    mode := .run
    seconds := 1000
    tubes := ⟨idleTube, idleTube, idleTube, idleTube⟩
    cal0 := cal
    exhaust := ⟨true, 0⟩
    exhaustInput := true
    arbiter := { Arbiter.reset with limitE := 12000, limitEc := 8000, mask := 8 }
    gas := ⟨600, 2, [], []⟩ }

/-- The stack with its tube T0 changed. -/
def withT0 (f : Tube → Tube) : State := ready.onTube .t0 f

/-- A step record of a kind, at level 3. -/
def stepOf (body : StepBody) : StepRecord := ⟨7, 3, none, false, {}, body⟩

/-- A current step of a kind, begun at second 900, which waits for a grant. -/
def currentOf (body : StepBody) : CurrentStep := ⟨stepOf body, 900, none, 50, .none⟩

/-- T0 in a state with a current step. -/
def working (state : TubeState) (body : StepBody) : State := withT0 fun u => { u with state := state, current := some (currentOf body) }

/-- A RAMP of all five zones to 10000 at rate 100. -/
def rampAll : StepBody := .ramp 100 none [(.z0, 10000), (.z1, 10000), (.z2, 10000), (.z3, 10000), (.z4, 10000)]

/-- A counter at its last second. -/
def last : DwellCounter := ⟨1, 0, false, false⟩

/-- A claim of T0 in the Claim List. -/
def claim (kind : ClaimKind) (values : PerZone Nat) (amount : Nat) (counter : Option DwellCounter) : Claim :=
  ⟨.t0, kind, 3, values, amount, 900, 0, 0, counter, .notReached⟩

/-- The state an outcome answers, or the reset state. -/
def after (r : Result) : State :=
  match r with
  | .next t => t
  | .fault _ => .reset
  | .refused _ => .reset

/-- The code a link's answer carries. -/
def codeOn (l : LinkId) (s : State) : Option AnswerCode := (s.link l).answer.map Answer.code

/-! ### Well-formedness: each check refuses an ill-formed command -/

theorem test_body_too_long : (Instr.readTube .c 0 (List.replicate 241 0)).wellFormed = false := by decide +kernel

theorem test_body_longest : (Instr.readTube .c 0 (List.replicate 240 0)).wellFormed = true := by decide +kernel

theorem test_known_kind_is_not_unknown : (Instr.unknownKind .c 0x11 0 []).wellFormed = false := by decide +kernel

theorem test_unknown_kind_too_long : (Instr.unknownKind .c 0x10 0 (List.replicate 241 0)).wellFormed = false := by decide +kernel

theorem test_crc_mismatch_incomplete : (Instr.crcMismatch .c [0, 0x41, 0]).wellFormed = false := by decide +kernel

theorem test_crc_mismatch_matches : (Instr.crcMismatch .c (requestFrame 0x41 0 []).tail).wellFormed = false := by
  decide +kernel

theorem test_length_not_rejected : (Instr.frameLengthReject .c 240).wellFormed = false := by decide +kernel

theorem test_boundary_order_twice : (Instr.secondsBoundary false true [.pacing, .pacing] []).wellFormed = false := by decide +kernel

theorem test_boundary_later_twice : (Instr.secondsBoundary false true [] [.gas .t0, .gas .t0]).wellFormed = false := by
  decide +kernel

theorem test_update_order_twice : (Instr.zoneUpdate [.tube .t0, .tube .t0] []).wellFormed = false := by decide +kernel

theorem test_update_later_twice : (Instr.zoneUpdate [] [.missed .t0 .z0, .missed .t0 .z0]).wellFormed = false := by
  decide +kernel

theorem test_frame_start_whole : (Instr.frameStart .c (requestFrame 0x41 0 []).tail).wellFormed = false := by decide +kernel

/-! ### No word spells a command -/

theorem test_no_word_spells : decodeTableWord 32 0x11 = none ∧ State.reset.withFetchWord 32 0x11 = State.reset := ⟨rfl, rfl⟩

/-! ### The figures of the worked examples -/

/-- Section 3.2, rounding near the ambient reference. -/
theorem test_rounding :
    (holdDemand 55 250, holdDemand 55 251, holdDemand 55 260, holdDemand 55 270) = (0, 1, 1, 2) ∧
      (rampDemand 35 1, rampDemand 1 1, rampDemand 0 300) = (4, 1, 0) := by decide +kernel

/-- Section 3.2, all five zones ramping up. -/
theorem test_demand_all_zones :
    rampStepDemand ready .t0 100 [(.z0, 10000), (.z1, 10000), (.z2, 10000), (.z3, 10000), (.z4, 10000)] =
      ⟨985, 887, 887, 887, 985⟩ := by decide +kernel

/-- Section 3.2, mixed directions. -/
theorem test_demand_mixed : rampStepDemand ready .t0 100 [(.z0, 9500), (.z4, 7600)] = ⟨955, 427, 427, 427, 441⟩ := by
  decide +kernel

/-- Section 3.2, a fast ramp against its rating. -/
theorem test_demand_at_rating :
    rampStepDemand (withT0 fun u => { u with
      record := { record with zmax := ⟨1500, 1500, 1500, 1500, 1500⟩ }, zones := zonesAt 10000 }) .t0 300 [(.z0, 12000)] =
      ⟨1500, 537, 537, 537, 585⟩ := by decide +kernel

/-- Section 3.3, laid out within headroom, and capped by it. -/
theorem test_surcharge_layout :
    layOut 1200 ⟨100, 200, 300, 500, 600⟩ = ⟨100, 200, 300, 500, 100⟩ ∧
      layOut 1700 ⟨100, 200, 300, 500, 600⟩ = ⟨100, 200, 300, 500, 600⟩ ∧ layOut 500 ⟨0, 0, 0, 0, 500⟩ = ⟨0, 0, 0, 0, 500⟩ := by
  decide +kernel

/-- A zone moving up from 8000 to 8001 at rate 1. -/
def rateOne : Zone := { zoneAt 8000 with ramp := some ⟨8001, .up, 1, false, 8000⟩ }

/-- Section 2.2, rate 1: fifteen updates move four units, and the zone lands at update 240. -/
theorem test_rate_one :
    ((Zone.advance^[15] rateOne).s, (Zone.advance^[15] rateOne).f) = (512004, 0) ∧
      (Zone.advance^[239] rateOne).reportedSetpoint = 8000 ∧ (Zone.advance^[240] rateOne).s = 512064 ∧
      (Zone.advance^[240] rateOne).f = 0 := by decide +kernel

/-- Section 7.4: a soak of 10000 s as loaded, as boundary 21000 leaves it, extended by 5000, and at the reload of boundary 22712. -/
theorem test_long_soak :
    loadCounter 10000 = ⟨1808, 2, false, true⟩ ∧ (tick false)^[100] ⟨908, 2, false, false⟩ = ⟨808, 2, false, false⟩ ∧
      extendCounter 5000 ⟨808, 2, false, false⟩ = ⟨1712, 3, false, false⟩ ∧
      tick false ⟨1, 3, false, false⟩ = ⟨4096, 2, false, false⟩ := by decide +kernel

/-- T0 with its PURGE line open at 200, measured at 190, owed since its account was last 0. -/
def purged : Tube := { idleTube with owed := true, lines := { idleTube.lines with purge := ⟨200, 190, false, 0⟩ } }

/-- Section 5.5: the credit after six, 473 and 474 boundaries. -/
theorem test_purge_credit :
    ((Tube.creditPurge^[6] purged).credit, (Tube.creditPurge^[6] purged).remainder) = (19, 0) ∧
      ((Tube.creditPurge^[473] purged).credit, (Tube.creditPurge^[473] purged).remainder) = (1497, 50) ∧
      (Tube.creditPurge^[474] purged).credit = 1501 ∧ ((Tube.creditPurge^[473] purged).testOwed).owed = true ∧
      ((Tube.creditPurge^[474] purged).testOwed).owed = false := by decide +kernel

/-- The CRC of R170 over the ASCII digits 1 to 9 is 0x29B1, the figure in general use for this generator and start. -/
theorem test_crc : crc [0x31, 0x32, 0x33, 0x34, 0x35, 0x36, 0x37, 0x38, 0x39] = 0x29B1#16 := by decide +kernel

/-! ### Events of the worked examples -/

/-- The queue of T0 of section 11.1: a GAS-SET, a RAMP of all zones and a SOAK. -/
def oxidation : List StepRecord :=
  [⟨1, 3, none, false, {}, .gasSet [(.oxy, 500)]⟩, ⟨2, 3, none, false, {}, rampAll⟩, ⟨3, 3, none, false, {}, .soak 600 none⟩]

/-- The stack of section 11.1, T0 and T1 loaded. -/
def schedule : State :=
  { ready.onTubes fun u => { u with halted := true, queue := oxidation } with
    arbiter := { ready.arbiter with limitE := 16000, limitEc := 10000, history := [⟨800, .t2⟩, ⟨850, .t3⟩] } }

/-- The schedule after RESUME-QUEUE on T0. -/
def resumed0 : State := after (exec (.resumeQueue (.tube .t0) 0 [0]) schedule)

/-- Section 11.2: RESUME-QUEUE works T0's GAS-SET through and grants its RAMP at once. -/
theorem test_resume_queue :
    (resumed0.tube .t0).state = .ramping ∧ (resumed0.tube .t0).grant.step = ⟨985, 887, 887, 887, 985⟩ ∧
      (resumed0.tube .t0).lines.oxy.commanded = 500 ∧ grantSum resumed0 = 11264 ∧
      resumed0.arbiter.history = [⟨800, .t2⟩, ⟨850, .t3⟩, ⟨1000, .t0⟩] ∧ codeOn (.tube .t0) resumed0 = some .ok := by
  decide +kernel

/-- Section 11.2: T1's claim fits but the stagger test fails, and the pacing time is 1005. -/
theorem test_second_claim_waits :
    let s := after (exec (.resumeQueue (.tube .t1) 0 [1]) resumed0)
    (s.tube .t1).state = .admitting ∧ s.arbiter.claims.map Claim.amount = [2420] ∧ s.arbiter.pacing = some 1005 ∧
      grantSum s = 11264 := by decide +kernel

/-- The four-claim walk of section 4.4, at second 1000 with its pacing time reached. -/
def walkStack : State :=
  { ready with
    tubes :=
      ⟨{ idleTube with state := .admitting, current := some (currentOf rampAll) },
        { idleTube with state := .admitting, current := some (currentOf rampAll), grant := ⟨⟨3000, 0, 0, 0, 0⟩, .zero, none⟩ },
        { idleTube with
          state := .admitting, current := some (currentOf (.pushIn none none)), grant := ⟨⟨2500, 0, 0, 0, 0⟩, .zero, none⟩ },
        { idleTube with state := .admitting, current := some (currentOf rampAll), grant := ⟨⟨2000, 0, 0, 0, 0⟩, .zero, none⟩ }⟩
    arbiter :=
      { ready.arbiter with
        mask := 5
        history := [⟨900, .t1⟩, ⟨940, .t2⟩]
        pacing := some 1000
        joins := 4
        claims :=
          [⟨.t2, .surcharge, 1, ⟨500, 0, 0, 0, 0⟩, 500, 995, 3, 0, none, .notReached⟩,
            ⟨.t0, .step, 2, ⟨985, 887, 887, 887, 985⟩, 2420, 980, 1, 0, none, .notReached⟩,
            ⟨.t1, .step, 2, ⟨3600, 0, 0, 0, 0⟩, 600, 985, 2, 0, none, .notReached⟩,
            ⟨.t3, .step, 5, ⟨2400, 0, 0, 0, 0⟩, 400, 970, 0, 0, none, .notReached⟩] }
    boundaryDue := [.pacing] }

/-- Section 4.4, second 1000: T2 is granted, T0 does not fit, T1 waits for the stagger, T3 is masked, and the pacing time is 1005. -/
theorem test_pacing_time :
    let s := after (exec .pacingTimeReached walkStack)
    grantSum s = 10211 ∧ s.arbiter.history.map Raise.stamp = [900, 940, 1000] ∧ s.arbiter.pacing = some 1005 ∧
      s.arbiter.claims.map Claim.treatment = [.noFit, .candidate, .notReached] ∧
      (s.tube .t2).loader.state = .movingIn := by decide +kernel

/-- Section 4.5, second 2000: T0 at 8200 and T1 at 9050 in mid-ramp. -/
def curtailed : State :=
  { ready with
    seconds := 2000
    tubes :=
      ⟨{ idleTube with
          state := .ramping, current := some (currentOf rampAll), grant := ⟨⟨985, 887, 887, 887, 985⟩, .zero, some ⟨1880, 0⟩⟩
          zones := (zonesAt 8200).map fun _ z => { z with ramp := some ⟨10000, .up, 100, false, 8000⟩ } },
        { idleTube with
          state := .ramping, current := some (currentOf (.ramp 60 none [(.z0, 9500)]))
          grant := ⟨⟨795, 482, 482, 482, 525⟩, .zero, some ⟨1950, 1⟩⟩
          zones := { zonesAt 9000 with z0 := { zoneAt 9050 with ramp := some ⟨9500, .up, 60, false, 9000⟩ } } },
        { idleTube with state := .soaking, current := some (currentOf (.soak 600 none)), grant := ⟨⟨3000, 0, 0, 0, 0⟩, .zero, none⟩ },
        { idleTube with
          state := .purging, current := some (currentOf (.purge 300 600)), grant := ⟨⟨1500, 0, 0, 0, 0⟩, .zero, none⟩ }⟩
    curtailInput := true
    curtail := ⟨false, 2⟩
    boundaryDue := [.curtailFilter] }

/-- Section 4.5: the curtail state sheds T1 and then T0, and the SHEDDING flag stays set. -/
theorem test_curtail_sheds :
    let s := after (exec .curtailAsserted curtailed)
    (s.tube .t1).grant.step = ⟨528, 482, 482, 482, 525⟩ ∧ (s.tube .t0).grant.step = ⟨477, 438, 438, 438, 477⟩ ∧
      grantSum s = 9267 ∧ s.arbiter.shedding = true ∧
      (s.arbiter.claims.map fun c => (c.tube, c.amount)) = [(.t1, 267), (.t0, 2363)] := by decide +kernel

/-- T1 of section 6.4 at second 3000, its push about to begin. -/
def push : State :=
  { withT0 fun u => { u with
      record := { record with zmax := ⟨1500, 1500, 1500, 1500, 1500⟩ }
      zones := zonesAt 9000
      grant := ⟨⟨525, 482, 482, 482, 525⟩, .zero, none⟩
      queue := [⟨40, 2, none, false, {}, .pushIn none (some 300)⟩] } with
    seconds := 3000
    cal0 := { cal with surcharge := 800 } }

/-- Section 6.4: the push is granted 800 on Z0 and moves to the mouth at 600. -/
theorem test_push_begins :
    let s := after (exec (.stepStart .t0) push)
    (s.tube .t0).grant.surcharge = ⟨800, 0, 0, 0, 0⟩ ∧ (s.tube .t0).loader.segmentEnd = some 900 ∧
      (s.tube .t0).loader.speed = some 600 ∧ (s.tube .t0).loader.recovery = .held ∧
      ((s.tube .t0).zones.get .z0).ceiling = 1325 := by decide +kernel

/-- Section 6.4, seconds 3080 and 3680: at the mouth the hot cap of 150 applies, and at 2400 the tube is sealed and recovers. -/
theorem test_push_arrives :
    let s := after (exec (.positionReport .t0 900) (after (exec (.stepStart .t0) push)))
    let r := after (exec (.loaderArrival .t0 2400) s)
    (s.tube .t0).loader.speed = some 150 ∧ s.outbox = [.move .t0 2400 150] ∧ (r.tube .t0).loader.isSealed = true ∧
      (r.tube .t0).loader.recoveryCounter.map remaining = some 900 ∧
      (r.tube .t0).ring.map CompletionRecord.notes = [{ speedClamped := true }] ∧ (r.tube .t0).grantTotal = 3296 := by
  decide +kernel

/-! ### The statements' hypotheses are met: receivers, records and what is kept -/

/-- A link C that has collected bytes. -/
def collecting (bytes : List Byte) : State := ready.onLink .c fun k => { k with rx := .collect, buffer := bytes }

theorem witness_lost_while_answering :
    bytesOn (.readStack .c 0 []) = some .c ∧ ((after (exec (.readStack .c 0 []) ready)).link .c).rx = .answer := by decide +kernel

theorem witness_receiver_events :
    ((ready.link .c).rx = .hunt ∧ isPartialFrame [startByte] = true ∧ isPartialFrame [startByte, 0, 0x41, 0, 0] = true) ∧
      (((collecting [startByte]).link .c).rx = .collect ∧ isPartialFrame ([startByte] ++ [startByte]) = true) ∧
      (((collecting [startByte]).link .c).buffer = [startByte] ∧ 240 < (241 : Byte).toNat) ∧
      (completesFrame [0, 0x41, 0, 0, 0] = true ∧ crcMatches [0, 0x41, 0, 0, 0] = false ∧
        takesFrame ((collecting [startByte, 0]).link .c) [startByte, 0, 0x41, 0, 0, 0] = true) ∧
      ((after (exec (.readStack .c 0 []) ready)).link .c).rx = .answer ∧
      ((0x60 : Byte) ∉ requestKinds ∧ Framed ready .c 0x60 0 (List.replicate 240 0)) := by decide +kernel

theorem witness_frames_complete :
    (List.replicate 240 (0 : Byte)).length ≤ 240 ∧ 0 < 245 ∧ 245 < (requestFrame 0x41 0 (List.replicate 240 0)).length := by
  decide +kernel

theorem witness_denied_queue :
    request (.flushQueue (.tube .t0) 0 [1]) = some ⟨.tube .t0, 0x13, 0, [1]⟩ ∧ rightOfKind 0x13 = some Rights.queue ∧
      formPasses 0x13 [1] = true ∧ tubeNamed 0x13 [1] = some (tubeByte .t1) ∧ Framed ready (.tube .t0) 0x13 0 [1] ∧
      (ready.rightsOn (.tube .t0) .t1).queue = false :=
  ⟨rfl, rfl, rfl, rfl, by decide +kernel, by decide +kernel⟩

/-- A length that is wrong, reserved bits and reserved bytes that are not 0, and a tube number above 3. -/
theorem witness_form_and_tube :
    (formPasses 0x13 [] = false ∧ formPasses 0x45 [0x80] = false ∧ formPasses 0x53 (0 :: 1 :: List.replicate 24 0) = false ∧
        formPasses 0x55 [0, 0, 8, 0] = false ∧ formPasses 0x5E [0, 4, 0, 0] = false ∧ formPasses 0x5F [0, 0, 1, 1, 0] = false ∧
        Framed ready .c 0x13 0 []) ∧
      (formPasses 0x13 [4] = true ∧ tubeNamed 0x13 [4] = some 4 ∧ 3 < (4 : Byte).toNat ∧ Framed ready .c 0x13 0 [4]) := by
  decide +kernel

theorem witness_denied_supervise :
    request (.setMask (.tube .t0) 0 [8]) = some ⟨.tube .t0, 0x51, 0, [8]⟩ ∧ (0x51 : Byte).toNat / 16 = 5 ∧
      (0x5F : Byte).toNat / 16 = 5 ∧ LinkId.tube .t0 ≠ .c ∧ Framed ready (.tube .t0) 0x51 0 [8] ∧
      formPasses 0x51 [8] = true ∧ tubeNamed 0x51 [8] = none := by decide +kernel

theorem witness_step_record_sendable :
    record.limit ≤ 3000 ∧ record.coldSpeed ≤ 6000 ∧ (65535 : Nat) ≤ 65535 ∧ 7 ≤ 7 ∧
      (StepBody.soak 1048575 (some 500)).sendable record ∧ (StepBody.pushIn (some 2400) (some 600)).sendable record ∧
      (StepBody.gasSet [(.dopant, 2000)]).sendable record ∧ (StepBody.ramp 300 none [(.z4, 12500)]).sendable record := by
  refine ⟨by decide, by decide, by decide, by decide, ⟨by decide, by decide, ?_⟩, ⟨?_, ?_⟩, ⟨by decide, by decide, by decide⟩,
    by decide, by decide, fun n (h : none = some n) => absurd h nofun, by decide, by decide, by decide⟩
  all_goals (intro n h; cases h; decide)

/-- A stack whose T0 is to start a step. -/
def running : State := { withT0 fun u => { u with queue := oxidation } with pending := [.stepStart .t0] }

theorem zoneAt_inRange : (zoneAt 8000).inRange :=
  ⟨by decide, by decide, by decide, by decide, by decide, fun _ h => absurd h nofun⟩

theorem idleTube_inRange (queue : List StepRecord) (hl : queue.length ≤ 16) (hq : ∀ r ∈ queue, r.body.inRange) :
    { idleTube with queue := queue }.inRange := by
  refine ⟨⟨hl, hq, ?_, Nat.zero_le _, Nat.zero_le _⟩, fun z => ?_, fun l => ?_, trivial, Nat.zero_le _, Nat.zero_le _,
    Nat.zero_le _, ?_⟩
  · exact fun c h => absurd (show none = some c from h) nofun
  · cases z <;> exact zoneAt_inRange
  · cases l <;> exact ⟨Nat.zero_le _, Nat.zero_le _⟩
  · exact fun p h => by cases (show some 100 = some p from h); decide

theorem running_inRange : running.inRange := by
  refine ⟨fun t => ?_, by decide, by decide, by decide, by decide⟩
  cases t
  case t0 =>
    refine idleTube_inRange oxidation (by decide) fun r h => ?_
    simp only [oxidation, List.mem_cons, List.not_mem_nil, or_false] at h
    rcases h with rfl | rfl | rfl
    · exact ⟨by decide, by decide⟩
    · exact fun e he => by revert e; decide
    · trivial
  all_goals exact idleTube_inRange [] (by decide) fun r h => absurd h List.not_mem_nil

theorem witness_kept :
    running.inRange ∧ running.ceilingsHold ∧ running.surchargesAddUp ∧ running.withinEnvelope ∧ running.withinHeader ∧
      running.withinScrubber ∧ running.dopantSealed ∧ running.claimsOrdered ∧ ∃ t, step running = .next t := by
  refine ⟨running_inRange, fun t z => ?_, fun c (h : c ∈ []) => absurd h List.not_mem_nil, .inr (.inr (by decide)), show _ ≤ _ by decide, show _ ≤ _ by decide, fun t => ?_,
    .nil, ?_⟩
  · cases t <;> cases z <;> decide
  · cases t <;> exact ⟨by decide, fun h => by revert h; decide⟩
  · have h : canStart (({ running with pending := [] } : State).tube .t0) = true := by decide
    exact ⟨_, if_pos (e := .next { running with pending := [] }) h⟩

theorem idleTube_coherent : idleTube.coherent :=
  ⟨rfl, ⟨by decide, nofun, by decide, fun _ => rfl, fun _ _ => rfl, fun _ _ z => by cases z <;> rfl, nofun, fun _ _ => rfl⟩,
    List.nodup_nil⟩

theorem ready_coherent : ready.coherent :=
  ⟨fun t => by cases t <;> exact idleTube_coherent, ⟨fun t => by cases t <;> exact ⟨rfl, rfl, rfl⟩, fun _ h => absurd h List.not_mem_nil⟩,
    fun t => by cases t <;> exact ⟨by decide, fun h => absurd rfl h⟩⟩

theorem ready_inRange : ready.inRange := by
  refine ⟨fun t => ?_, by decide, by decide, by decide, by decide⟩
  cases t <;> exact idleTube_inRange [] (by decide) fun r h => absurd h List.not_mem_nil

theorem witness_coherent_and_quiet :
    ({ ready with pending := [.eStopRelease] } : State).inRange ∧ ({ ready with pending := [.eStopRelease] } : State).coherent ∧
      ({ ready with pending := [.eStopRelease] } : State).quiet ∧
      ∃ t, step { ready with pending := [.eStopRelease] } = .next t :=
  ⟨ready_inRange, ready_coherent, by decide +kernel, _, rfl⟩

/-- The tubes of the stack with their ceilings composed: each at its share, ADMITTED. -/
def composedTube : Tube :=
  { idleTube with
    zones := idleTube.zones.map fun z x =>
      { x with ceiling := idleTube.grant.step.get z, term := .admitted, sentCeiling := idleTube.grant.step.get z } }

/-- The stack with its ceilings composed, about to hear that a thermocouple of T0 reads open. -/
def composed : State :=
  { ready with
    tubes := ⟨composedTube, composedTube, composedTube, composedTube⟩, pending := [.zoneReading .t0 .z0 0 true] }

theorem witness_ceilings_composed :
    composed.inRange ∧ composed.coherent ∧ composed.ceilingsComposed ∧ ∃ t, step composed = .next t := by
  refine ⟨⟨fun t => ?_, by decide, by decide, by decide, by decide⟩, ⟨fun t => ?_, ?_, ?_⟩, fun t z => ?_, _, rfl⟩
  · have h := idleTube_inRange [] (by decide) fun r h => absurd h List.not_mem_nil
    have k (z : ZoneId) : (composedTube.zones.get z).inRange := by cases z <;> exact h.2.1 .z0
    cases t <;> exact ⟨h.1, k, h.2.2⟩
  · have h := idleTube_coherent
    have k (z : ZoneId) : (composedTube.zones.get z).ramp = none := by cases z <;> rfl
    have f : composedTube.coherent :=
      ⟨rfl, ⟨by decide, nofun, by decide, fun _ => rfl, fun _ _ => rfl, fun _ _ => k, nofun, fun _ _ => rfl⟩, List.nodup_nil⟩
    cases t <;> exact f
  · exact ⟨fun t => by cases t <;> exact ⟨rfl, rfl, rfl⟩, fun _ h => absurd h List.not_mem_nil⟩
  · exact fun t => by cases t <;> exact ⟨by decide, fun h => absurd rfl h⟩
  · exact ceilingComposed_iff.mpr (by cases t <;> cases z <;> decide +kernel)

/-- The ceiling of T0's Z0 and its term. -/
def ceilingOf (s : State) : Nat × CeilingTerm := (((s.tube .t0).zones.get .z0).ceiling, ((s.tube .t0).zones.get .z0).term)

/-- R46, R66, R68: a zone with a share of 900 and a hold share of 465 is limited to 465 while it is open and returns to 900. -/
theorem test_open_zone_limited :
    let s := withT0 fun u => { u with grant := { u.grant with step := ⟨900, 0, 0, 0, 0⟩ } }
    let opened := after (exec (.zoneReading .t0 .z0 0 true) s)
    ceilingOf opened = (465, .openZone) ∧ ceilingOf (after (exec (.zoneReading .t0 .z0 8000 false) opened)) = (900, .admitted) := by
  decide +kernel

/-! ### Stack modes and settings -/

theorem witness_mode_changes :
    exec .eStopAssert ready = .next (after (exec .eStopAssert ready)) ∧ (after (exec .eStopAssert ready)).mode ≠ ready.mode ∧
      ∀ e, Instr.eStopAssert ≠ .powerOn e := ⟨rfl, by decide +kernel, nofun⟩

/-- A stack that is to be opened: T0 has one zone open and T1 two. -/
def closed : State :=
  { ready with
    mode := .commission
    tubes :=
      ⟨{ idleTube with state := .off, zones := { idleTube.zones with z0 := { zoneAt 8000 with isOpen := true } } },
        { idleTube with
          state := .off, zones := { idleTube.zones with z0 := { zoneAt 8000 with isOpen := true }, z4 := Zone.reset } },
        { idleTube with state := .off }, { idleTube with state := .off }⟩ }

theorem witness_open_stack :
    (Framed ready .c 0x57 0 [] ∧ ready.mode ≠ .commission) ∧
      (Framed State.reset .c 0x57 0 [] ∧ State.reset.mode = .commission ∧ State.reset.cal0.valid = false) ∧
      (Framed closed .c 0x57 0 [] ∧ closed.mode = .commission ∧ closed.cal0.valid = true ∧
        (∀ t, (closed.tube t).recordValid = true) ∧ 0 < closed.arbiter.limitE ∧ 0 < closed.gas.capacity ∧
        closed.due = Due.none ∧ closed.arbiter.claims = [] ∧ closed.gas.header = [] ∧ closed.gas.scrubber = [] ∧
        (∀ t, (closed.tube t).queue = [] ∧ (closed.tube t).current = none ∧ (closed.tube t).fault.causes.isEmpty = true) ∧
        (closed.tube .t0).openCount = 1 ∧ (closed.tube .t1).openCount = 2) :=
  ⟨by decide, by decide, by decide, by decide, by decide, fun t => by cases t <;> decide, by decide, by decide, by decide,
    by decide, by decide, by decide, fun t => by cases t <;> decide, by decide, by decide⟩

/-- The stack with CURTAIL pending on every link. -/
def flagged : State := raiseCurtail ready

theorem witness_close_stack :
    (Framed closed .c 0x58 0 [] ∧ closed.mode ≠ .run) ∧
      (Framed curtailed .c 0x58 0 [] ∧ curtailed.mode = .run ∧ ∃ t, (curtailed.tube t).state ≠ .idle) ∧
      (Framed flagged .c 0x58 0 [] ∧ flagged.mode = .run ∧ (∃ l, (flagged.link l).pendingAny = true) ∧
        ∀ t, (flagged.tube t).state = .idle ∧ (flagged.tube t).queue = [] ∧ (flagged.tube t).lines.dopant.isOpen = false) ∧
      (Framed ready .c 0x58 0 [] ∧ ready.mode = .run ∧ (∀ l, (ready.link l).pendingAny = false) ∧
        ∀ t, (ready.tube t).state = .idle ∧ (ready.tube t).queue = [] ∧ (ready.tube t).lines.dopant.isOpen = false) :=
  ⟨by decide, ⟨by decide, by decide, .t0, by decide⟩, ⟨by decide, by decide, ⟨.c, by decide⟩, fun t => by cases t <;> decide⟩,
    by decide, by decide, fun l => by rcases l with (_ | _ | _ | _) | _ <;> decide, fun t => by cases t <;> decide⟩

/-- The stack stopped by E-STOP. -/
def stopped : State := after (exec .eStopAssert ready)

theorem witness_stops :
    Framed ready .c 0x59 0 [] ∧ stopped.mode = .stopped ∧ ready.mode ≠ .stopped ∧ Framed ready .c 0x5A 0 [] ∧
      ((working .soaking (.soak 600 none)).tube .t0).current = some (currentOf (.soak 600 none)) ∧
      (Framed stopped .c 0x5A 0 [] ∧ stopped.eStop = true) ∧
      ((after (exec .eStopRelease stopped)).mode = .stopped ∧ (after (exec .eStopRelease stopped)).eStop = false) := by
  decide +kernel

/-! ### The requests of the sequencer -/

/-- A SOAK. -/
def soak : StepBody := .soak 600 none

/-- The bytes of a tube record. -/
def recordBytes (r : TubeRecord) : List Byte :=
  r.zmax.toList.flatMap enc2 ++
    [r.base, r.mouth, r.limit, r.coldSpeed, r.hotCap, r.hotThreshold].flatMap enc2 ++ enc1 r.stallTime ++
    [r.cdown, r.band, r.holdbackLimit, r.overTempBand, r.admissionLimit, r.purgeVolume, r.autoFlow].flatMap enc2

theorem witness_refused_off_and_service :
    request (.suspendTube .c 0 [0]) = some ⟨.c, 0x22, 0, [0]⟩ ∧ rightOfKind 0x22 = some Rights.control ∧
      (0x22 : Byte).toNat / 16 ≠ 3 ∧ formPasses 0x22 [0] = true ∧ tubeNamed 0x22 [0] = some (tubeByte .t0) ∧
      (Framed closed .c 0x22 0 [0] ∧ (closed.rightsOn .c .t0).control = true ∧ (closed.tube .t0).state = .off) ∧
      Framed (withT0 fun u => { u with state := .service }) .c 0x22 0 [0] :=
  ⟨rfl, rfl, by decide, rfl, rfl, by decide, by decide⟩

theorem witness_service_refused :
    request (.serviceJog .c 0 [0, 1, 2]) = some ⟨.c, 0x5D, 0, [0, 1, 2]⟩ ∧ 0x5C ≤ (0x5D : Byte).toNat ∧
      formPasses 0x5D [0, 1, 2] = true ∧ tubeNamed 0x5D [0, 1, 2] = some (tubeByte .t0) ∧
      (Framed closed .c 0x5D 0 [0, 1, 2] ∧ closed.mode ≠ .run) ∧
      (Framed ready .c 0x5D 0 [0, 1, 2] ∧ ready.mode = .run ∧ (ready.tube .t0).state ≠ .service) ∧
      request (.enterService .c 0 [0]) = some ⟨.c, 0x5B, 0, [0]⟩ ∧ 0x5B ≤ (0x5B : Byte).toNat ∧
      formPasses 0x5B [0] = true ∧ tubeNamed 0x5B [0] = some (tubeByte .t0) :=
  ⟨rfl, by decide, rfl, rfl, by decide, by decide, rfl, by decide, rfl, rfl⟩

theorem witness_refused_by_state :
    (Framed (working .faultHold soak) (.tube .t0) 0x14 0 [tubeByte .t0] ∧ (ready.rightsOn (.tube .t0) .t0).queue = true ∧
        ((working .faultHold soak).tube .t0).state = .faultHold) ∧
      (Framed (working .faultHold soak) .c 0x22 0 [tubeByte .t0] ∧ (ready.rightsOn .c .t0).control = true) ∧
      (Framed ready .c 0x23 0 [tubeByte .t0] ∧ (ready.tube .t0).takesSteps ∧ (ready.tube .t0).state ≠ .suspended) ∧
      (Framed ready .c 0x25 0 [tubeByte .t0] ∧ (ready.tube .t0).state ≠ .faultHold) ∧
      (Framed (working .soaking soak) .c 0x5B 0 [tubeByte .t0] ∧ (working .soaking soak).mode = .run ∧
        ((working .soaking soak).tube .t0).state = .soaking) ∧
      ((takeFields recordSizes (recordBytes record)).bind recordOf = some record ∧
        Framed (working .soaking soak) .c 0x54 0 (tubeByte .t0 :: recordBytes record)) := by decide +kernel

/-- A SOAK at level 0 with id 9, sent to T0. -/
def sentSoak : List Byte := encStep .t0 ⟨9, 0, none, false, {}, .soak 1048575 none⟩

/-- The SOAK as its bytes give it. -/
def rawSoak : RawStep := ⟨0, 9, 0, none, false, .soak 1048575 none⟩

theorem witness_append_step :
    (Framed ready (.tube .t0) 0x11 0 sentSoak ∧ parseStep sentSoak = some rawSoak ∧ rawSoak.tube = tubeByte .t0 ∧
        (ready.rightsOn (.tube .t0) .t0).queue = true ∧ (ready.tube .t0).takesSteps) ∧
      ((withT0 fun u => { u with queue := List.replicate 16 (stepOf .mark) }).tube .t0).queue.length = 16 ∧
      ((withT0 fun u => { u with queue := List.replicate 15 (stepOf .mark) }).tube .t0).queue.length < 16 ∧
      (∃ r ∈ ((withT0 fun u => { u with queue := [⟨9, 3, none, false, {}, .mark⟩] }).tube .t0).queue, r.id = 9) := by
  decide +kernel

theorem witness_append_ranges :
    rawSoak.ranged (ready.tube .t0).record ∧ rawSoak.gives ⟨9, 0, none, false, {}, .soak 1048575 none⟩ ∧
      ¬({ rawSoak with level := 8 } : RawStep).ranged (ready.tube .t0).record ∧
      ¬({ rawSoak with body := .soak 1048576 none } : RawStep).ranged (ready.tube .t0).record ∧
      ¬({ rawSoak with body := .ramp 300 none [(5, 12500)] } : RawStep).ranged (ready.tube .t0).record ∧
      ({ rawSoak with body := .ramp 300 (some 500) [(4, 12500)], calSet := some 3 } : RawStep).ranged (ready.tube .t0).record ∧
      ¬({ rawSoak with body := .pushIn (some 2401) none } : RawStep).ranged (ready.tube .t0).record :=
  ⟨rangedStep_iff.mp ⟨_, rfl⟩, ⟨rfl, rfl, rfl, rfl, rfl, rfl⟩, fun h => absurd h.1 (by decide),
    fun h => absurd h.2.2.2.1 (by decide), fun h => absurd (h.2.2.2.2.2 (5, 12500) (.head _)).1 (by decide),
    rangedStep_iff.mp ⟨_, rfl⟩, fun h => absurd (h.2.2.1 2401 rfl).2 (by decide)⟩

theorem witness_append_malformed : Framed ready .c 0x11 0 [0, 0, 9, 8, 0, 0, 0] ∧ parseStep [0, 0, 9, 8, 0, 0, 0] = none := by
  decide +kernel

/-- An unknown id is neither queued nor current. -/
theorem witness_unknown : ¬((withT0 fun u => { u with queue := List.replicate 16 (stepOf .mark) }).tube .t0).knows 9 := by
  rintro (⟨r, hr, h⟩ | ⟨c, hc, _⟩)
  · rw [List.eq_of_mem_replicate hr] at h
    exact absurd h (by decide)
  · exact absurd (show none = some c from hc) nofun

/-- Section 10.3 and R181: T0's master appends at level 0 and the record is queued at its floor of 2, clamped. -/
theorem test_append_raises_level :
    let s := after (exec (.appendStep (.tube .t0) 0 sentSoak) (withT0 fun u => { u with halted := true }))
    (s.tube .t0).queue.map (fun r => (r.level, r.notes.levelClamped)) = [(2, true)] ∧
      ((s.link (.tube .t0)).answer.map Answer.body) = some [1] := by decide +kernel

/-- T0 SOAKING with one step more in its queue, of id 8. -/
def soaking : State := (working .soaking soak).onTube .t0 fun u => { u with queue := [⟨8, 3, none, false, {}, .mark⟩] }

theorem witness_queue_requests :
    (soaking.rightsOn (.tube .t0) .t0).queue = true ∧ (soaking.tube .t0).takesSteps ∧
      Framed soaking (.tube .t0) 0x12 0 [tubeByte .t0, 0, 7] ∧ (soaking.tube .t0).current = some (currentOf soak) ∧
      (currentOf soak).step.id = num2 0 7 ∧ (currentOf soak).step.id ≠ num2 0 8 ∧
      (∃ r ∈ (soaking.tube .t0).queue, r.id = num2 0 8) ∧ Framed soaking (.tube .t0) 0x13 0 [tubeByte .t0] ∧
      Framed soaking (.tube .t0) 0x14 0 [tubeByte .t0] ∧ (soaking.tube .t0).state ≠ .faultHold := by decide +kernel

theorem witness_queue_requests_unknown : ¬(ready.tube .t0).knows (num2 0 9) := by
  rintro (⟨r, hr, h⟩ | ⟨c, hc, _⟩)
  · exact absurd hr List.not_mem_nil
  · exact absurd (show none = some c from hc) nofun

theorem witness_abort :
    (soaking.rightsOn .c .t0).control = true ∧ (soaking.tube .t0).takesSteps ∧
      Framed soaking .c 0x21 0 [tubeByte .t0, 0, 7] ∧ (soaking.tube .t0).current = some (currentOf soak) ∧
      (currentOf soak).step.id = num2 0 7 ∧ (currentOf soak).step.id ≠ num2 0 8 ∧
      (∃ r ∈ (soaking.tube .t0).queue, r.id = num2 0 8) ∧
      ((working .suspended soak).tube .t0).takesSteps ∧
      ((working .admitting soak).tube .t0).effective = .admitting ∧
      ((working .ramping rampAll).tube .t0).effective = .ramping ∧
      ((working .purging (.purge 200 9)).tube .t0).effective = .purging ∧
      ((working .moving (.pullOut none none)).tube .t0).effective = .moving := by decide +kernel

theorem witness_suspend :
    (ready.rightsOn .c .t0).control = true ∧ Framed ready .c 0x22 0 [tubeByte .t0] ∧ (ready.tube .t0).takesSteps ∧
      (ready.tube .t0).state ≠ .faultHold ∧ (ready.tube .t0).state ≠ .suspended ∧ (ready.tube .t0).state ≠ .moving ∧
      ((working .suspended soak).tube .t0).state = .suspended ∧
      ((working .moving (.pullOut none none)).tube .t0).state = .moving := by decide +kernel

/-- T0 SUSPENDED with a state remembered. -/
def heldIn (x : TubeState) (c : CurrentStep) (f : Tube → Tube) : State :=
  withT0 fun u => f { u with state := .suspended, remembered := some x, current := some c }

theorem witness_resume :
    let scrub : State :=
      { heldIn .admitting (currentOf (.gasSet [(.dopant, 100)])) id with
        gas := { ready.gas with scrubber := [⟨.t0, 900, .suspended⟩] } }
    let auto : CurrentStep := { currentOf (.pullOut none none) with auto := .running }
    (Framed scrub .c 0x23 0 [tubeByte .t0] ∧ (scrub.rightsOn .c .t0).control = true ∧
        (scrub.tube .t0).state = .suspended ∧ (scrub.tube .t0).remembered = some .admitting ∧
        ∃ d ∈ scrub.gas.scrubber, d.tube = .t0) ∧
      ({ scrub with exhaust := ⟨false, 0⟩ } : State).exhaust.asserted = false ∧ scrub.exhaust.asserted = true ∧
      ((heldIn .idle auto id).tube .t0).remembered = some .idle ∧
      ((heldIn .ramping (currentOf rampAll) id).tube .t0).shedPaused = false ∧
      ready.arbiter.shedding = false ∧
      ({ heldIn .ramping (currentOf rampAll) id with
        arbiter := { ready.arbiter with shedding := true } } : State).arbiter.shedding = true ∧
      ((heldIn .purging auto fun u => { u with owed := true }).tube .t0).owed = true ∧
      (((heldIn .purging auto id).tube .t0).remembered = some .purging ∧
        ((heldIn .purging auto id).tube .t0).current = some auto ∧ auto.auto = .running ∧
        ((heldIn .purging auto id).tube .t0).owed = false) ∧
      (let u := (heldIn .moving (currentOf (.pullOut none none)) fun u =>
        { u with loader := { u.loader with position := some 901, target := some 100, travel := some (travelCopy record) } }).tube .t0
       u.loader.target = some 100 ∧ u.loader.travel = some (travelCopy record) ∧
        u.current = some (currentOf (.pullOut none none)) ∧ u.loader.position ≠ some 100) ∧
      (let u := (heldIn .moving (currentOf (.pullOut none none)) fun u =>
        { u with loader := { u.loader with position := some 100, target := some 100, travel := some (travelCopy record) } }).tube .t0
       u.loader.target = some 100 ∧ u.loader.position = some 100) := by decide +kernel

theorem witness_extend :
    (ready.rightsOn .c .t0).control = true ∧ (soaking.tube .t0).takesSteps ∧
      Framed soaking .c 0x24 0 [tubeByte .t0, 0, 7, 0x00, 0x10, 0, 0] ∧ num4 0x00 0x10 0 0 = 1048576 ∧
      num4 0x00 0x0F 0xFF 0xFF = 1048575 ∧ (currentOf soak).step.id = num2 0 7 ∧
      (currentOf soak).step.body.kind = .soak ∧ (∃ r ∈ (soaking.tube .t0).queue, r.id = num2 0 8) ∧
      (currentOf soak).step.id ≠ num2 0 8 ∧ (soaking.tube .t0).stepCounter = none ∧
      (currentOf soak).step.body.duration? = some 600 ∧ 600 + 1047975 ≤ 1048575 ∧ 1048575 < 600 + 1047976 ∧
      ((working .ramping rampAll).tube .t0).current = some (currentOf rampAll) ∧ rampAll.kind ≠ .soak ∧
      rampAll.kind ≠ .purge ∧
      ((soaking.onTube .t0 fun u => { u with stepCounter := some last }).tube .t0).stepCounter = some last ∧
      remaining last + 1048574 ≤ 1048575 ∧ 1048575 < remaining last + 1048575 := by decide +kernel

/-- Section 7.4: an extension by 5000 of a soak with 9000 s left. -/
theorem test_extend :
    let s := after (exec (.extendStep .c 0 [0, 0, 7, 0, 0, 0x13, 0x88])
      (soaking.onTube .t0 fun u => { u with stepCounter := some ⟨808, 2, false, false⟩ }))
    (s.tube .t0).stepCounter = some ⟨1712, 3, false, false⟩ := by decide +kernel

/-- T0 in FAULT-HOLD with a cause in its set. -/
def faulted (causes : CauseSet) (f : FaultMonitor → FaultMonitor) : State :=
  withT0 fun u => { u with state := .faultHold, halted := true, fault := f { u.fault with causes := causes, entry := some 900 } }

theorem witness_clear_fault :
    let holding (f : FaultMonitor) :=
      (f.causes.tcOpen && f.tcOpen) || (f.causes.overTemp && f.overTemp) || (f.causes.exhaustLost && f.exhaustLost)
    (ready.rightsOn .c .t0).control = true ∧
      (let s := faulted { overTemp := true } fun f => { f with overTemp := true }
       Framed s .c 0x25 0 [tubeByte .t0] ∧ (s.tube .t0).state = .faultHold ∧ holding (s.tube .t0).fault = true) ∧
      (let f := ((faulted { overTemp := true } id).tube .t0).fault
       holding f = false ∧ f.causes.overTemp = true) ∧
      (let f := ((faulted { motionStall := true } id).tube .t0).fault
       holding f = false ∧ f.causes.overTemp = false) := by decide +kernel

/-! ### The requests that read, and attention -/

theorem witness_reads :
    (ready.rightsOn .c .t0).observe = true ∧ Framed ready .c 0x31 0 [tubeByte .t0] ∧ Framed ready .c 0x32 0 [tubeByte .t0, 15] ∧
      (15 : Byte).toNat ≤ 15 ∧ 15 < (16 : Byte).toNat ∧ Framed ready .c 0x33 0 [tubeByte .t0] ∧
      Framed ready .c 0x34 0 [tubeByte .t0] ∧ Framed ready .c 0x41 0 [] ∧ Framed ready .c 0x42 0 [] ∧
      Framed ready .c 0x43 0 [] := by decide +kernel

theorem witness_answers_laid_out : ([stepOf soak] : List StepRecord)[0]? = some (stepOf soak) ∧
    packRecords .t0 13 [stepOf soak] = [] := by decide +kernel

/-- R177: of T0 in a SOAK at level 3 with its boat at 100, the state, the step, Z1's setpoint and reading, and the position. -/
theorem test_read_tube :
    let body := tubeStatus ((working .soaking soak).tube .t0)
    body.length = 139 ∧ body.take 11 = [4, 0, 4, 0, 0, 1, 0, 7, 2, 3, 0] ∧ (body.drop 22).take 2 = [0x1F, 0x40] ∧
      (body.drop 30).take 3 = [0x1F, 0x40, 0] ∧ (body.drop 97).take 4 = [0, 1, 0, 100] := by decide +kernel

/-- R176: a completion record fills 23 bytes behind the count and the overwrite count. -/
theorem test_read_completions :
    completionsBody { idleTube with
        ring := [⟨7, .soak, .failed, .admitTimeout, {}, 900, 100, 100, 3, 60, { levelClamped := true, auto := true }⟩]
        overwrites := 255 } =
      [1, 255, 0, 7, 2, 3, 6, 0, 0, 0, 3, 132, 0, 0, 0, 100, 0, 0, 0, 100, 0, 3, 0, 60, 17] := by decide +kernel

theorem witness_attention :
    Framed flagged .c 0x44 0 [] ∧ (ready.link .c).pendingAny = false ∧ Framed flagged .c 0x45 0 [0x80] ∧
      (0x80 : Byte).getLsbD 7 = true ∧ (0x7F : Byte).getLsbD 7 = false ∧ (flagged.link .c).curtailFlag = true ∧
      (∃ k t, (0x02 : Byte).getLsbD (TubeKind.index k) = true ∧ (raiseTube .halted .t3 ready).flag .c t k = true) :=
  ⟨by decide, by decide, by decide, by decide, by decide, by decide, .halted, .t3, by decide, by decide⟩

/-- R184: HALTED of T3 is bit 16 of the 24-bit number, and CURTAIL bit 1 of the first byte. -/
theorem test_read_attention :
    ((after (exec (.readAttention .c 0 []) (raiseTube .halted .t3 flagged))).link .c).answer.map Answer.body = some [2, 1, 0, 0] := by
  decide +kernel

/-! ### The SUPERVISE requests -/

/-- T0 ADMITTING on a STEP claim that does not fit the mask. -/
def admitting : State :=
  { working .admitting rampAll with
    arbiter := { ready.arbiter with mask := 0, claims := [claim .step ⟨985, 887, 887, 887, 985⟩ 2420 (some last)] } }

theorem witness_mask_and_promote :
    Framed ready .c 0x51 0 [9] ∧ 8 < (9 : Byte).toNat ∧ (8 : Byte).toNat ≤ 8 ∧ Framed ready .c 0x56 0 [tubeByte .t0, 8] ∧
      7 < (8 : Byte).toNat ∧ (7 : Byte).toNat ≤ 7 ∧ claimOf ready .t0 = none ∧
      claimOf admitting .t0 = some (claim .step ⟨985, 887, 887, 887, 985⟩ 2420 (some last)) := by decide +kernel

theorem witness_promote_ordered : admitting.claimsOrdered := List.pairwise_singleton _ _

/-- A SET-LIMITS body. -/
def limitBytes (e ec ts tw nw q k : Nat) : List Byte := enc2 e ++ enc2 ec ++ enc1 ts ++ enc2 tw ++ enc1 nw ++ enc2 q ++ enc1 k

theorem witness_limits :
    (Framed curtailed .c 0x52 0 (limitBytes 30000 30000 60 600 4 5000 4) ∧
        takeFields [2, 2, 1, 2, 1, 2, 1] (limitBytes 30000 30000 60 600 4 5000 4) = some [30000, 30000, 60, 600, 4, 5000, 4] ∧
        headerAllocation ready ≤ 5000 ∧ slotsInUse ready ≤ 4) ∧
      takeFields [2, 2, 1, 2, 1, 2, 1] (limitBytes 30000 30001 60 600 4 5000 4) = some [30000, 30001, 60, 600, 4, 5000, 4] ∧
      0 < headerAllocation (withT0 fun u => { u with lines := purged.lines }) := by decide +kernel

theorem witness_records_written :
    (Framed ready .c 0x53 0 (BitVec.ofNat 8 0 :: 0 :: List.replicate 24 0) ∧
        Framed ready .c 0x53 0 (BitVec.ofNat 8 3 :: tubeByte .t0 :: List.replicate 24 0) ∧
        Framed ready .c 0x53 0 (BitVec.ofNat 8 3 :: tubeByte .t0 :: 1 :: 145 :: List.replicate 22 0)) ∧
      (3 < (4 : Byte).toNat ∧ (List.replicate 24 (0 : Byte)).length = 24 ∧
        Framed ready .c 0x53 0 (4 :: tubeByte .t0 :: List.replicate 24 0)) ∧
      (ready.tube .t0).state = .idle ∧ Framed ready .c 0x54 0 (tubeByte .t0 :: recordBytes record) ∧
        Framed ready .c 0x54 0 (tubeByte .t0 :: recordBytes { record with mouth := 2400 }) ∧
        (closed.tube .t0).state = .off ∧ closed.mode = .commission := by decide +kernel

theorem witness_cal_given :
    CalSet.givenBy (List.replicate 24 0) ⟨.zero, .zero, 0, 0, true⟩ ∧ CalSet.sound ⟨.zero, .zero, 0, 0, true⟩ ∧
      CalSet.givenBy (1 :: 145 :: List.replicate 22 0) ⟨⟨401, 0, 0, 0, 0⟩, .zero, 0, 0, true⟩ ∧
      ¬CalSet.sound ⟨⟨401, 0, 0, 0, 0⟩, .zero, 0, 0, true⟩ :=
  ⟨⟨rfl, fun z => by cases z <;> exact ⟨⟨by decide, by decide⟩, by decide, by decide⟩, ⟨by decide, by decide⟩, ⟨by decide, by decide⟩,
      rfl⟩,
    ⟨fun z => by cases z <;> decide, by decide, by decide⟩,
    ⟨rfl, fun z => by cases z <;> exact ⟨⟨by decide, by decide⟩, by decide, by decide⟩, ⟨by decide, by decide⟩, ⟨by decide, by decide⟩,
      rfl⟩,
    fun h => absurd (h.1 .z0).1 (by decide)⟩

theorem recordBytes_give (m : Nat) (h : m = 900 ∨ m = 2400) :
    ({ record with mouth := m } : TubeRecord).givenBy (recordBytes { record with mouth := m }) := by
  rcases h with rfl | rfl <;>
    exact ⟨rfl, fun z => by cases z <;> exact ⟨by decide, by decide⟩, ⟨by decide, by decide⟩, ⟨by decide, by decide⟩,
      ⟨by decide, by decide⟩, ⟨by decide, by decide⟩, ⟨by decide, by decide⟩, ⟨by decide, by decide⟩, ⟨by decide, by decide⟩,
      ⟨by decide, by decide⟩, ⟨by decide, by decide⟩, ⟨by decide, by decide⟩, ⟨by decide, by decide⟩, ⟨by decide, by decide⟩,
      ⟨by decide, by decide⟩, ⟨by decide, by decide⟩⟩

theorem witness_record_given :
    record.givenBy (recordBytes record) ∧ record.sound ∧
      ({ record with mouth := 2400 } : TubeRecord).givenBy (recordBytes { record with mouth := 2400 }) ∧
      ¬({ record with mouth := 2400 } : TubeRecord).sound :=
  ⟨recordBytes_give 900 (.inl rfl), ⟨fun z => by cases z <;> decide, by decide⟩, recordBytes_give 2400 (.inr rfl),
    fun h => absurd h.2.2.1 (by decide)⟩

theorem witness_rights_written :
    Framed ready .c 0x55 0 [4, tubeByte .t0, 7, 7] ∧ 8 ≤ (8 : Byte).toNat ∧ (7 : Byte).toNat < 8 ∧ 4 < (5 : Byte).toNat ∧
      7 < (8 : Byte).toNat ∧ LinkId.ofNat? (4 : Byte).toNat = some .c ∧ (7 : Byte).toNat ≤ 7 := by decide +kernel

/-! ### Service -/

/-- T0 in SERVICE. -/
def serviced (f : Tube → Tube) : State := withT0 fun u => f { u with state := .service }

theorem witness_service :
    (ready.mode = .run ∧ Framed ready .c 0x5B 0 [tubeByte .t0] ∧ (ready.tube .t0).state = .idle ∧
        ((faulted { motionStall := true } id).tube .t0).state = .faultHold) ∧
      (Framed (serviced id) .c 0x5C 0 [tubeByte .t0] ∧ ((serviced id).tube .t0).state = .service ∧
        (serviced id).mode = .run) ∧
      ((serviced fun u => { u with service := { u.service with jog := some 500 } }).tube .t0).service.jog ≠ none ∧
      ((serviced fun u => { u with service := { u.service with ramp := .running } }).tube .t0).service.ramp = .running ∧
      ((serviced fun u => { u with service := { u.service with ramp := .waiting 1 [] } }).tube .t0).service.ramp =
        .waiting 1 [] ∧
      (let s := serviced fun u => { u with fault := { u.fault with causes := { overTemp := true } } }
       (s.tube .t0).fault.causes.overTemp = true ∧ (s.tube .t0).lines.dopant.commanded = 0) ∧
      ((serviced id).tube .t0).service.jog = none ∧ ((serviced id).tube .t0).fault.causes.isEmpty = true := by decide +kernel

theorem witness_jog :
    Framed (serviced id) .c 0x5D 0 [tubeByte .t0, 9, 96] ∧ num2 9 96 = record.limit ∧ num2 0 100 = record.base ∧
      num2 0 99 < record.base ∧ record.limit < num2 9 97 ∧ ((serviced id).tube .t0).loader.position = some (num2 0 100) ∧
      ((serviced id).tube .t0).loader.position ≠ some (num2 9 96) ∧
      ((serviced id).tube .t0).lines.dopant.isOpen = false ∧
      ((serviced fun u => { u with loader := Loader.reset }).tube .t0).loader.position = none ∧
      ((serviced fun u => { u with lines := { u.lines with dopant := ⟨100, 100, false, 0⟩ } }).tube .t0).lines.dopant.isOpen =
        true := by decide +kernel

theorem witness_valve_and_setpoint :
    (LineId.ofNat? (0 : Byte).toNat = some .purge ∧ LineId.ofNat? (1 : Byte).toNat = some .carrier ∧
        LineId.ofNat? (2 : Byte).toNat = some .oxy ∧ LineId.ofNat? (3 : Byte).toNat = some .dopant ∧
        Framed (serviced id) .c 0x5E 0 [tubeByte .t0, 0, 7, 208] ∧ num2 7 208 = 2000 ∧ 2000 < num2 7 209 ∧
        (serviced id).gas.capacity = num2 2 88 ∧ headerAllocation (serviced id) = 0) ∧
      (countedEntries 5 1 [0, 0x20, 0x08] = some [(0, 8200)] ∧
        Framed (serviced id) .c 0x5F 0 (tubeByte .t0 :: 1 :: 44 :: 1 :: [0, 0x20, 0x08]) ∧
        rangedZones [(0, 8200)] = some [(.z0, 8200)] ∧ num2 1 44 = 300 ∧ 300 < num2 1 45 ∧ num2 0 0 < 1 ∧
        rangedZones [(5, 8200)] = none ∧
        ((serviced id).tube .t0).stepTotal < (rampStepDemand (serviced id) .t0 300 [(.z0, 8200)]).sum ∧
        (rampStepDemand (serviced id) .t0 300 [(.z0, 7900)]).sum ≤ ((serviced id).tube .t0).stepTotal) := by decide +kernel

/-! ### The seconds boundary -/

theorem witness_boundary :
    ready.boundaryDue = [] ∧ BoundaryItem.pacing ∈ boundaryItems ∧ BoundaryItem.gas .t0 ∈ boundaryItems ∧
      BoundaryItem.counter .t3 .admission ∈ boundaryItems := by decide +kernel

/-- A boundary has left events of T0 to be taken. -/
def left (items : List BoundaryItem) (s : State) : State := { s with boundaryDue := items }

/-- T0 in a state with a current step and a step counter at its last second. -/
def ending (state : TubeState) (body : StepBody) : State :=
  left [.counter .t0 .step] ((working state body).onTube .t0 fun u => { u with stepCounter := some last })

theorem witness_step_counter :
    (BoundaryItem.counter .t0 .step ∈ (ending .soaking soak).boundaryDue ∧
        ((ending .soaking soak).tube .t0).stepCounter = some last ∧ last.fresh = false ∧ last.count ≤ 1 ∧ last.reloads = 0 ∧
        ((ending .soaking soak).tube .t0).state ≠ .suspended ∧
        ((ending .soaking soak).tube .t0).current = some (currentOf soak) ∧ (currentOf soak).step.body.kind = .soak ∧
        ((ending .soaking soak).tube .t0).holdback.asserted = false ∧ ((ending .soaking soak).tube .t0).state ≠ .off) ∧
      (((ending .purging (.purge 200 9)).tube .t0).current = some (currentOf (.purge 200 9)) ∧
        (currentOf (.purge 200 9)).step.body.kind = .purge ∧
        ((ending .purging (.purge 200 9)).tube .t0).state ≠ .suspended ∧
        ((ending .purging (.purge 200 9)).tube .t0).state ≠ .off) := by decide +kernel

theorem witness_waits :
    (let s := left [.counter .t0 .recovery] (withT0 fun u =>
        { u with loader := { u.loader with recovery := .running, recoveryCounter := some last } })
     BoundaryItem.counter .t0 .recovery ∈ s.boundaryDue ∧ (s.tube .t0).loader.recoveryCounter = some last) ∧
      (let s := left [.counter .t0 .holdback] ((working .soaking soak).onTube .t0 fun u =>
        { u with holdback := ⟨true, some last, 3, 60⟩ })
       BoundaryItem.counter .t0 .holdback ∈ s.boundaryDue ∧ (s.tube .t0).holdback.counter = some last ∧ (s.tube .t0).works ∧
        (s.tube .t0).state ≠ .suspended ∧ (s.tube .t0).effective ≠ .moving ∧ (s.tube .t0).lines.dopant.commanded = 0) ∧
      (let s := left [.counter .t0 .admission] admitting
       BoundaryItem.counter .t0 .admission ∈ s.boundaryDue ∧
        claimOf s .t0 = some (claim .step ⟨985, 887, 887, 887, 985⟩ 2420 (some last)) ∧
        (claim .step ⟨985, 887, 887, 887, 985⟩ 2420 (some last)).counter = some last ∧ (s.tube .t0).state ≠ .suspended ∧
        (s.tube .t0).current = some (currentOf rampAll) ∧ (s.tube .t0).state ≠ .off) := by decide +kernel

theorem witness_inputs :
    (BoundaryItem.curtailFilter ∈ curtailed.boundaryDue ∧ curtailed.curtailInput = true ∧ curtailed.curtail = ⟨false, 2⟩) ∧
      (let s : State := { left [.curtailFilter] ready with curtail := ⟨true, 2⟩ }
       BoundaryItem.curtailFilter ∈ s.boundaryDue ∧ s.curtailInput = false ∧ s.curtail = ⟨true, 2⟩) ∧
      (let s : State := { left [.exhaustFilter] ready with exhaust := ⟨true, 2⟩, exhaustInput := false }
       BoundaryItem.exhaustFilter ∈ s.boundaryDue ∧ s.exhaustInput = false ∧ s.exhaust = ⟨true, 2⟩) ∧
      (let s : State := { left [.exhaustFilter] ready with exhaust := ⟨false, 2⟩ }
       BoundaryItem.exhaustFilter ∈ s.boundaryDue ∧ s.exhaustInput = true ∧ s.exhaust = ⟨false, 2⟩) := by decide +kernel

/-- T0's claim alone, due to be evaluated. -/
def granting (body : StepBody) (kind : ClaimKind) (amount : Nat) : State :=
  { working .admitting body with
    arbiter := { ready.arbiter with claims := [claim kind ⟨amount, 0, 0, 0, 0⟩ amount none] }
    due := { Due.none with claims := true } }

theorem granting_reaches (body : StepBody) (kind : ClaimKind) (amount : Nat) :
    walkReaches (granting body kind amount) [] (claim kind ⟨amount, 0, 0, 0, 0⟩ amount none) [] :=
  ⟨rfl, nofun, show 3 < 8 by decide, show TubeState.admitting ≠ .suspended by decide⟩

theorem granting_paced (body : StepBody) (kind : ClaimKind) (amount : Nat) :
    staggerOpen (granting body kind amount) ∧ windowOpen (granting body kind amount) :=
  ⟨nofun, show 0 < 2 by decide⟩

/-- T0 in SERVICE with its ramp waiting on a claim. -/
def serviceWaits : State :=
  (granting rampAll .service 2500).onTube .t0 fun u =>
    { u with state := .service, current := none, service := { u.service with ramp := .waiting 10 [(.z0, 9000)] } }

/-- A SERVICE-SETPOINT of T0 at rate 300 that takes Z0 to a target. -/
def rampTo (target : Nat) : List Byte := tubeByte .t0 :: 1 :: 44 :: 1 :: enc1 0 ++ enc2 target

theorem witness_ramp_replaced :
    (let s := serviceWaits
     s.mode = .run ∧ (s.tube .t0).state = .service ∧ (s.tube .t0).fault.causes.overTemp = false ∧
      Framed s .c 0x5F 0 (rampTo 7900) ∧ (s.tube .t0).service.ramp = .waiting 10 [(.z0, 9000)] ∧
      (∃ d ∈ s.arbiter.claims, d.tube = .t0) ∧
      (rampStepDemand s .t0 300 [(.z0, 7900)]).sum ≤ (s.tube .t0).stepTotal ∧
      (s.tube .t0).stepTotal < (rampStepDemand s .t0 300 [(.z0, 8200)]).sum) ∧
    let s := serviced fun u => { u with service := { u.service with ramp := .running } }
    (s.tube .t0).service.ramp = .running ∧ (∀ d ∈ s.arbiter.claims, d.tube ≠ .t0) ∧
      (rampStepDemand s .t0 300 [(.z0, 7900)]).sum ≤ (s.tube .t0).stepTotal ∧
      (s.tube .t0).stepTotal < (rampStepDemand s .t0 300 [(.z0, 8200)]).sum := by decide +kernel

/-- R166: a SERVICE-SETPOINT that fits replaces a waiting ramp and removes its claim; one that does not, with every claim masked, leaves
its own claim in that one's place. -/
theorem test_ramp_replaced :
    let masked : State := { serviceWaits with arbiter := { serviceWaits.arbiter with mask := 0 } }
    (after (exec (.serviceSetpoint .c 0 (rampTo 7900)) serviceWaits)).arbiter.claims = [] ∧
      (after (exec (.serviceSetpoint .c 0 (rampTo 8200)) masked)).arbiter.claims.map Claim.created = [1000] := by
  decide +kernel

/-- R83, R66, R68: the grant of a claim that takes Z0 to 2500, above its rating of 2000, composes its ceiling again. -/
theorem test_grant_composes_ceiling : ceilingOf (after (exec .claimGrant (granting rampAll .step 2500))) = (2000, .zmax) := by
  decide +kernel

theorem witness_claim_granted :
    (BoundaryItem.pacing ∈ walkStack.boundaryDue ∧ walkStack.arbiter.pacing = some walkStack.seconds) ∧
      (let s := granting rampAll .step 2500
       BoundaryItem.pacing ∉ s.boundaryDue ∧ s.due.claims = true ∧ s.arbiter.shedding = false ∧
        claimFits s (claim .step ⟨2500, 0, 0, 0, 0⟩ 2500 none) ∧ (s.tube .t0).current = some (currentOf rampAll)) ∧
      (claimFits (granting soak .step 2500) (claim .step ⟨2500, 0, 0, 0, 0⟩ 2500 none) ∧
        claimFits (granting (.pushIn none none) .surcharge 500) (claim .surcharge ⟨500, 0, 0, 0, 0⟩ 500 none) ∧
        claimFits (granting (.pushIn (some 100) none) .surcharge 500) (claim .surcharge ⟨500, 0, 0, 0, 0⟩ 500 none) ∧
        (granting (.pushIn (some 100) none) .surcharge 500 |>.tube .t0).loader.position =
          some ((StepBody.pushIn (some 100) none).target record) ∧
        claimFits (granting rampAll .resume 2500) (claim .resume ⟨2500, 0, 0, 0, 0⟩ 2500 none)) ∧
      (walkReaches serviceWaits [] (claim .service ⟨2500, 0, 0, 0, 0⟩ 2500 none) [] ∧
        claimFits serviceWaits (claim .service ⟨2500, 0, 0, 0, 0⟩ 2500 none) ∧
        (serviceWaits.tube .t0).service.ramp = .waiting 10 [(.z0, 9000)]) :=
  ⟨by decide, ⟨by decide, by decide, by decide, fits_iff.mp (by decide +kernel), by decide⟩,
    ⟨fits_iff.mp (by decide +kernel), fits_iff.mp (by decide +kernel), fits_iff.mp (by decide +kernel), by decide,
      fits_iff.mp (by decide +kernel)⟩,
    ⟨rfl, nofun, by decide, by decide⟩, fits_iff.mp (by decide +kernel), by decide⟩

/-- T0's claim, which does not fit. -/
def tooGreat (bypass : Nat) : Claim := ⟨.t0, .step, 1, ⟨985, 887, 887, 887, 985⟩, 2420, 980, 1, bypass, none, .notReached⟩

/-- T1's claim, T1 being SUSPENDED. -/
def suspendedClaim : Claim := ⟨.t1, .step, 2, ⟨3100, 0, 0, 0, 0⟩, 100, 985, 2, 0, none, .notReached⟩

/-- T3's claim, of a level that is not below M. -/
def maskedClaim : Claim := ⟨.t3, .step, 5, ⟨2400, 0, 0, 0, 0⟩, 400, 970, 0, 0, none, .notReached⟩

/-- T2's claim, which fits. -/
def fitting : Claim := ⟨.t2, .surcharge, 1, ⟨500, 0, 0, 0, 0⟩, 500, 995, 3, 0, none, .notReached⟩

/-- The four tubes of section 4.4 with these claims waiting, T1 SUSPENDED. -/
def walking (claims : List Claim) : State :=
  { (walkStack.onTube .t1 fun u => { u with state := .suspended, remembered := some .admitting }) with
    boundaryDue := []
    arbiter := { walkStack.arbiter with pacing := none, claims := claims } }

theorem walking_passes_none : ∀ d ∈ [tooGreat 2, suspendedClaim, maskedClaim], walkPasses (walking []) d := by
  intro d h
  simp only [List.mem_cons, List.not_mem_nil, or_false] at h
  rcases h with rfl | rfl | rfl
  · exact .inr ⟨mt fits_iff.mpr (by decide +kernel), by decide⟩
  · exact .inl fun h => h.2 (by decide)
  · exact .inl fun h => absurd h.1 (by decide)

theorem walking_passes (claims : List Claim) :
    ∀ d ∈ [tooGreat 2, suspendedClaim, maskedClaim], walkPasses (walking claims) d := walking_passes_none

/-- A claim that fits behind a claim that does not, one of a SUSPENDED tube and one that M masks. -/
def passing : State := walking [tooGreat 2, suspendedClaim, maskedClaim, fitting]

theorem witness_walk_past_claims :
    walkReaches passing [tooGreat 2, suspendedClaim, maskedClaim] fitting [] ∧ claimFits passing fitting ∧
      passing.arbiter.shedding = false ∧ staggerOpen passing ∧ windowOpen passing :=
  ⟨⟨rfl, walking_passes _, by decide, by decide⟩, fits_iff.mp (by decide +kernel), rfl,
    staggerPasses_iff.mp (by decide +kernel), windowPasses_iff.mp (by decide +kernel)⟩

theorem witness_walk_without_grant :
    ((walking []).quiet ∧ (walking []).arbiter.claims = []) ∧
    ((walking [tooGreat 2, suspendedClaim, maskedClaim]).quiet ∧
        (walking [tooGreat 2, suspendedClaim, maskedClaim]).arbiter.claims ≠ [] ∧
        ∀ d ∈ (walking [tooGreat 2, suspendedClaim, maskedClaim]).arbiter.claims,
          walkPasses (walking [tooGreat 2, suspendedClaim, maskedClaim]) d) ∧
      (let s := walking [maskedClaim, tooGreat 3, fitting]
       s.quiet ∧ walkReaches s [maskedClaim] (tooGreat 3) [fitting] ∧ ¬claimFits s (tooGreat 3) ∧ 3 ≤ (tooGreat 3).bypass) ∧
      (let s : State := { passing with arbiter := { passing.arbiter with shedding := true } }
       s.quiet ∧ walkReaches s [tooGreat 2, suspendedClaim, maskedClaim] fitting [] ∧ claimFits s fitting ∧
        s.arbiter.shedding = true) ∧
      (let s : State := { passing with arbiter := { passing.arbiter with history := [⟨900, .t1⟩, ⟨996, .t2⟩] } }
       s.quiet ∧ walkReaches s [tooGreat 2, suspendedClaim, maskedClaim] fitting [] ∧ claimFits s fitting ∧
        s.arbiter.shedding = false ∧ ¬staggerOpen s ∧
        s.arbiter.history.reverse = ⟨996, .t2⟩ :: [⟨900, .t1⟩] ∧ 0 < s.arbiter.windowCount) :=
  ⟨⟨by decide +kernel, rfl⟩, ⟨by decide +kernel, List.cons_ne_nil _ _, walking_passes _⟩,
    ⟨by decide +kernel, ⟨rfl, fun d h => walking_passes _ d (by simp_all), by decide, by decide⟩,
      mt fits_iff.mpr (by decide +kernel), by decide⟩,
    ⟨by decide +kernel, ⟨rfl, walking_passes [], by decide, by decide⟩, fits_iff.mp (by decide +kernel), rfl⟩,
    by decide +kernel, ⟨rfl, walking_passes [], by decide, by decide⟩, fits_iff.mp (by decide +kernel), rfl,
    mt staggerPasses_iff.mpr (by decide +kernel), rfl, by decide⟩

/-- R78: the pacing time is reached with no claim waiting, and the evaluation does nothing. -/
theorem test_empty_list :
    (after (exec .pacingTimeReached { walking [] with
      boundaryDue := [.pacing], arbiter := { (walking []).arbiter with pacing := some 1000 } })).arbiter.pacing = some 1000 := by
  decide +kernel

/-- R79, R82: the grant of T2 raises the bypass count of T0's claim alone, to 3, and the next walk ends there. -/
theorem test_walk_past :
    let s := after (exec .claimGrant { passing with due := { Due.none with claims := true } })
    s.arbiter.claims.map (fun c => (c.tube, c.bypass, c.treatment)) =
        [(.t0, 3, .blocking), (.t1, 0, .notReached), (.t3, 0, .notReached)] ∧ grantSum s = 10211 := by decide +kernel

/-- T0's loader moving with one second of its stall count left. -/
def stalling (state : TubeState) (f : Tube → Tube) : State :=
  left [.stall .t0] ((working state (.pullOut none none)).onTube .t0 fun u =>
    f { u with loader := { u.loader with state := .movingOut, stallCount := some 1, stallRef := some 100 } })

/-- T0 with a line at its ninth low boundary. -/
def lowLine (line : LineId) : State :=
  left [.gas .t0] (withT0 fun u => { u with lines := u.lines.set line ⟨400, 199, false, 9⟩ })

theorem witness_plant_events :
    (let s := stalling .moving id
     s.quiet ∧ BoundaryItem.stall .t0 ∈ s.boundaryDue ∧ (s.tube .t0).loader.isMoving = true ∧
      (s.tube .t0).loader.stallFresh = false ∧ (s.tube .t0).loader.stallCount = some 1 ∧ (s.tube .t0).state = .moving) ∧
      (let s := stalling .service fun u => { u with current := none, service := { u.service with jog := some 90 } }
       s.quiet ∧ BoundaryItem.stall .t0 ∈ s.boundaryDue ∧ (s.tube .t0).state = .service ∧
        (s.tube .t0).fault.causes.motionStall = false ∧ (s.tube .t0).service.jog ≠ none) ∧
      (let s := lowLine .purge
       s.quiet ∧ BoundaryItem.gas .t0 ∈ s.boundaryDue ∧ autoPurgeOver (s.tube .t0).creditPurge.testOwed = false ∧
        ((s.tube .t0).lines.get .purge).lowReached = true ∧ (s.tube .t0).works) ∧
      (let s := lowLine .oxy
       s.quiet ∧ autoPurgeOver (s.tube .t0).creditPurge.testOwed = false ∧ ((s.tube .t0).lines.get .oxy).lowReached = true ∧
        (s.tube .t0).lines.purge.lowReached = false ∧ (s.tube .t0).lines.dopant.lowReached = false) ∧
      (let s := (stalling .service fun u => { u with current := none, service := { u.service with jog := some 90 } }).onTube .t0
        fun u => { u with fault := { u.fault with causes := { motionStall := true } } }
       s.quiet ∧ (s.tube .t0).state = .service ∧ (s.tube .t0).fault.causes.motionStall = true ∧ (s.tube .t0).service.jog ≠ none) ∧
      (let s := (lowLine .dopant).onTube .t0 fun u => { u with state := .service }
       s.quiet ∧ autoPurgeOver (s.tube .t0).creditPurge.testOwed = false ∧ ((s.tube .t0).lines.get .dopant).lowReached = true ∧
        ¬(s.tube .t0).works) ∧
      (let c : CurrentStep := { currentOf (.pullOut none none) with auto := .running }
       let s := left [.gas .t0] (withT0 fun u =>
        { u with state := .purging, current := some c, owed := true, lines := purged.lines, credit := 1496, remainder := 50 })
       s.quiet ∧ (s.tube .t0).state = .purging ∧ (s.tube .t0).current = some c ∧ c.auto = .running ∧
        (s.tube .t0).recordValid = true ∧ (s.tube .t0).record.purgeVolume ≤ (s.tube .t0).creditPurge.credit) := by
  decide +kernel

/-! ### The zone update and the readings -/

/-- An update has left events to be taken. -/
def leftUpdate (items : List UpdateItem) (s : State) : State := { s with updateDue := items }

/-- T0 moving its zones up, Z0 within one update of its target and the others landed. -/
def landing (state : TubeState) : State :=
  leftUpdate [.tube .t0] ((working state rampAll).onTube .t0 fun u =>
    { u with
      service := { u.service with ramp := .running }
      zones := { (zonesAt 10000).map fun _ z => { z with ramp := some ⟨10000, .up, 100, true, 8000⟩ } with
        z0 := { zoneAt 10000 with s := 639980, ramp := some ⟨10000, .up, 100, false, 8000⟩ } } })

/-- T0 moving its zones up, none near its target. -/
def climbing : State :=
  (working .ramping rampAll).onTube .t0 fun u =>
    { u with zones := u.zones.map fun _ z => { z with ramp := some ⟨10000, .up, 100, false, 8000⟩ } }

theorem witness_update : ready.updateDue = [] ∧ UpdateItem.tube .t0 ∈ updateItems ready ∧
    (let u := (updateEvaluate .t0 (dropUpdate (beginUpdate (openEvent ready)) (.tube .t0))).tube .t0
     ¬u.rampMoves) ∧
    (let u := (updateEvaluate .t0 (dropUpdate (beginUpdate (openEvent climbing)) (.tube .t0))).tube .t0
     u.rampMoves ∧ ¬(u.rampMoves ∧ u.rampFinishes)) ∧
    (let s := ready.onTube .t0 fun u => { u with zones := ⟨{ zoneAt 8000 with reported := false, missed := 2 },
        { zoneAt 8000 with reported := false, isOpen := true, missed := 4 }, zoneAt 8000, zoneAt 8000, zoneAt 8000⟩ }
     (((s.tube .t0).zones.get .z0).reported = false ∧ ((s.tube .t0).zones.get .z0).missed < 3) ∧
      ((s.tube .t0).zones.get .z1).reported = false ∧ ((s.tube .t0).zones.get .z1).missed = 4 ∧
        ((s.tube .t0).zones.get .z1).isOpen = true) :=
  ⟨by decide, by decide +kernel, by decide +kernel,
    ⟨by decide +kernel, fun h => absurd (landsLast_iff.mpr h) (by decide +kernel)⟩, by decide +kernel⟩

theorem witness_update_events :
    (let s := leftUpdate [.tube .t0] ((working .soaking soak).onTube .t0 fun u =>
        { u with zones := { u.zones with z0 := { zoneAt 8000 with pv := 13000 } } })
     UpdateItem.tube .t0 ∈ s.updateDue ∧ (s.tube .t0).works ∧ (s.tube .t0).overTempDue) ∧
      (let s := leftUpdate [.tube .t0] (serviced fun u =>
        { u with zones := { u.zones with z0 := { zoneAt 8000 with pv := 8201, excess := 19 } } })
       ¬(s.tube .t0).works ∧ (s.tube .t0).overTempDue) ∧
      (let u := (landing .ramping).tube .t0
       ¬u.overTempDue ∧ u.rampFinishes ∧ u.state = .ramping ∧ u.shedPaused = false ∧ u.current = some (currentOf rampAll) ∧
        ∀ z, (u.zones.get z).isOpen = false → lagOf (u.zones.get z) ≤ (currentOf rampAll).band) ∧
      (let u := (landing .service).tube .t0
       ¬u.overTempDue ∧ u.rampFinishes ∧ u.state = .service ∧ u.service.ramp = .running) :=
  ⟨⟨by decide, by decide, overTempArises_iff.mp (by decide +kernel)⟩, ⟨by decide, overTempArises_iff.mp (by decide +kernel)⟩,
    ⟨fun h => absurd (overTempArises_iff.mpr h) (by decide +kernel), (landsLast_iff.mp (by decide +kernel)).2, by decide, by decide,
      by decide, fun z => by cases z <;> decide +kernel⟩,
    fun h => absurd (overTempArises_iff.mpr h) (by decide +kernel), (landsLast_iff.mp (by decide +kernel)).2, by decide, by decide⟩

/-- T0 with some of its zones open. -/
def openZones (o : PerZone Bool) : State :=
  withT0 fun u => { u with zones := u.zones.map fun z x => { x with isOpen := o.get z, missed := 3 } }

/-- How many zones of T0 other than Z0 are open. -/
def othersOpen (s : State) : Nat := (ZoneId.all.filter fun y => y != .z0 && ((s.tube .t0).zones.get y).isOpen).length

theorem witness_readings :
    (((ready.tube .t0).zones.get .z0).isOpen = false ∧ othersOpen ready ≠ 1) ∧
      (let s := openZones ⟨true, true, false, false, false⟩
       ((s.tube .t0).zones.get .z0).isOpen = true ∧ othersOpen s = 1) ∧
      (let s := leftUpdate [.missed .t0 .z0] (openZones ⟨false, true, false, false, false⟩)
       ((s.tube .t0).zones.get .z0).isOpen = false ∧ othersOpen s = 1 ∧ (s.tube .t0).works ∧
        UpdateItem.missed .t0 .z0 ∈ s.updateDue ∧ ((s.tube .t0).zones.get .z0).missed = 3) ∧
      othersOpen (openZones ⟨true, true, true, false, false⟩) ≠ 1 ∧
      (let s := leftUpdate [.missed .t0 .z0] ((openZones ⟨false, true, false, false, false⟩).onTube .t0 fun u =>
        { u with state := .service })
       ((s.tube .t0).zones.get .z0).isOpen = false ∧ othersOpen s = 1 ∧ ¬(s.tube .t0).works ∧
        UpdateItem.missed .t0 .z0 ∈ s.updateDue ∧ ((s.tube .t0).zones.get .z0).missed = 3) := by decide +kernel

/-! ### The field links -/

/-- T0 sealed at the inner limit, its DOPANT line open. -/
def doped : State :=
  withT0 fun u =>
    { u with
      loader := { u.loader with position := some 2400, isSealed := true }
      lines := { u.lines with dopant := ⟨100, 100, false, 0⟩ } }

theorem witness_exhaust_lost_open :
    let s : State := { left [.exhaustFilter] doped with exhaust := ⟨true, 2⟩, exhaustInput := false }
    .exhaustFilter ∈ s.boundaryDue ∧ s.exhaustInput = false ∧ s.exhaust = ⟨true, 2⟩ ∧ 0 < (s.tube .t0).lines.dopant.commanded ∧
      (s.tube .t1).lines.dopant.commanded = 0 := by decide +kernel

/-- T0 sealed with DOPANT open, a service jog taking its boat out to 1000. -/
def jogOut : State :=
  doped.onTube .t0 fun u =>
    { u with
      state := .service
      service := { u.service with jog := some 1000 }
      loader := { u.loader with state := .movingOut, target := some 1000, segmentEnd := some 1000 } }

theorem witness_field_reports :
    (ready.tube .t0).loader.state = .stopped ∧
      (let l := ((stalling .moving fun u => { u with loader := { u.loader with target := some 50, segmentEnd := some 50 } }).tube
        .t0).loader
       l.state = .movingOut ∧ l.reaches (min 51 3000) = false ∧ l.endsSegment (min 51 3000) = false ∧ l.stallRef ≠ some 51 ∧
        l.reaches 100 = false ∧ l.endsSegment 100 = false ∧ l.stallRef = some 100) ∧
      (let l := (withT0 fun u => { u with loader := { u.loader with position := some 2400, isSealed := true } }).tube .t0
       l.loader.state = .stopped ∧ l.loader.isSealed = true ∧ (2399 : Nat) ≠ l.record.limit) ∧
      ((doped.tube .t0).loader.isSealed = true ∧ (doped.tube .t0).loader.reaches 2399 = false ∧
        0 < (doped.tube .t0).lines.dopant.commanded) := by decide +kernel

/-- T0 pushing towards 2400. -/
def pushing (kept : Nat) : State :=
  (working .moving (.pushIn none none)).onTube .t0 fun u =>
    { u with
      loader := { u.loader with
        state := .movingIn, target := some 2400, segmentEnd := some 2400, recovery := .held, keptRecovery := kept } }

theorem witness_motions_arrive :
    (let s := pushing 900
     (s.tube .t0).loader.target = some 2400 ∧ (s.tube .t0).loader.state = .movingIn ∧ 2400 ≤ min 2400 3000 ∧
      (s.tube .t0).state = .moving ∧ (s.tube .t0).current = some (currentOf (.pushIn none none)) ∧
      (currentOf (.pushIn none none)).step.body.kind = .pushIn ∧ (s.tube .t0).loader.recovery = .held ∧
      (s.tube .t0).loader.keptRecovery ≠ 0) ∧
      ((pushing 0).tube .t0).loader.keptRecovery = 0 ∧
      (let s := stalling .moving fun u => { u with loader := { u.loader with target := some 50 } }
       (s.tube .t0).loader.target = some 50 ∧ (s.tube .t0).loader.state = .movingOut ∧ min 50 3000 ≤ 50 ∧
        (s.tube .t0).current = some (currentOf (.pullOut none none)) ∧
        (currentOf (.pullOut none none)).step.body.kind ≠ .pushIn) ∧
      (let s := stalling .service fun u => { u with loader := { u.loader with target := some 50 } }
       (s.tube .t0).loader.target = some 50 ∧ (s.tube .t0).state = .service) ∧
      (let u := jogOut.tube .t0
       u.loader.target = some 1000 ∧ u.loader.state = .movingOut ∧ min 990 3000 ≤ 1000 ∧ u.state = .service ∧
        u.loader.isSealed = true ∧ min 990 3000 ≠ u.record.limit ∧ 0 < u.lines.dopant.commanded) ∧
      (min 2400 3000 = ((pushing 900).tube .t0).record.limit ∧ ((pushing 900).tube .t0).recordValid = true ∧
        ((pushing 900).tube .t0).lines.dopant.commanded = 0) := by decide +kernel

/-- R118, R102: an arrival that leaves the inner limit loses the seal and closes DOPANT, and the tube is owed; CARRIER stands. -/
theorem test_arrival_loses_seal :
    let v := (after (exec (.serviceJogArrival .t0 990) jogOut)).tube .t0
    v.lines.dopant.commanded = 0 ∧ v.owed = true ∧ v.lines.carrier = (jogOut.tube .t0).lines.carrier := by decide +kernel

/-! ### Starts, grants and faults -/

/-- T0 about to start a step. -/
def starting (h : StepRecord) (f : Tube → Tube) : State := withT0 fun u => f { u with queue := [h] }

theorem witness_step_starts :
    (let s := starting (stepOf rampAll) id
     (s.tube .t0).state = .idle ∧ (s.tube .t0).halted = false ∧ (s.tube .t0).queue = [stepOf rampAll] ∧
      (stepOf rampAll).calSet = none ∧ (s.tube .t0).stepTotal < (rampStepDemand s .t0 100
        [(.z0, 10000), (.z1, 10000), (.z2, 10000), (.z3, 10000), (.z4, 10000)]).sum ∧
      (rampStepDemand s .t0 100 [(.z4, 7600)]).sum ≤ (s.tube .t0).stepTotal) ∧
      (calSetOf ready .t0 0).valid = true ∧ (calSetOf ready .t0 1).valid = false ∧
      ((holdShares ready .t0).sum ≤ (ready.tube .t0).stepTotal ∧
        ((withT0 fun u => { u with grant := ⟨.zero, .zero, none⟩ }).tube .t0).stepTotal <
          (holdShares (withT0 fun u => { u with grant := ⟨.zero, .zero, none⟩ }) .t0).sum) ∧
      ((StepBody.pushIn (some 2401) none).isMotion = true ∧ record.limit < (StepBody.pushIn (some 2401) none).target record ∧
        (StepBody.pushIn (some 99) none).target record < record.base ∧
        0 < admittedSurcharge ready .t0 ∧
        (StepBody.pushIn (some 2400) (some 600)).hotSpeed = some record.coldSpeed ∧
        (StepBody.pushIn (some 2400) (some 601)).hotSpeed = some (record.coldSpeed + 1) ∧
        ({ stepOf (.pushIn none none) with calSet := some 0 } : StepRecord).calSet = some 0) ∧
      ((ready.tube .t0).lines.dopant.commanded = 0 ∧ (ready.tube .t0).loader.isSealed = false ∧
        ready.exhaust.asserted = true) ∧
      (let u := (withT0 fun u => { u with lines := { u.lines with dopant := ⟨100, 100, false, 0⟩ } }).tube .t0
       0 < u.lines.dopant.commanded ∧ ((.dopant : LineId), 0) ∈ [((.dopant : LineId), 0), (.oxy, 100)] ∧
        ([((.dopant : LineId), 0), (.oxy, 100)].map Prod.fst).Nodup) := by decide +kernel

theorem witness_dopant_opens :
    (∃ flow : Nat, 0 < flow ∧ ((.dopant : LineId), flow) ∈ [((.dopant : LineId), 100)]) ∧
      ¬∃ flow : Nat, 0 < flow ∧ ((.dopant : LineId), flow) ∈ [((.dopant : LineId), 0), (.oxy, 100)] :=
  ⟨⟨100, by decide, by decide⟩, by rintro ⟨flow, h, k⟩; simp at k; omega⟩

/-- T0's header claim, due to be evaluated. -/
def headerDue (body : StepBody) (purpose : Purpose) (f : Tube → Tube) : State :=
  { (working .admitting body).onTube .t0 f with
    gas := { ready.gas with header := [⟨.t0, purpose, 600, 900, .notReached⟩] }
    due := { Due.none with header := true } }

/-- T1 SUSPENDED, its header and scrubber claims ahead of T0's. -/
def behindSuspended (f : Tube → Tube) : State :=
  { (ready.onTube .t1 fun u => { u with state := .suspended, remembered := some .admitting }).onTube .t0 fun u =>
      f { u with state := .admitting } with
    gas :=
      ⟨600, 2, [⟨.t1, .step, 100, 880, .notReached⟩, ⟨.t0, .step, 600, 900, .notReached⟩],
        [⟨.t1, 880, .notReached⟩, ⟨.t0, 900, .notReached⟩]⟩ }

theorem witness_gas_claims_passed :
    headerTakes (behindSuspended id) [⟨.t1, .step, 100, 880, .notReached⟩] ⟨.t0, .step, 600, 900, .notReached⟩ [] ∧
      scrubberTakes (behindSuspended id) [⟨.t1, 880, .notReached⟩] ⟨.t0, 900, .notReached⟩ [] ∧
      (behindSuspended id).quiet ∧ headerAllocation (behindSuspended id) + 600 ≤ (behindSuspended id).gas.capacity ∧
      (let s := behindSuspended fun u => { u with lines := { u.lines with purge := ⟨1, 1, false, 0⟩ } }
       s.quiet ∧ headerTakes s [⟨.t1, .step, 100, 880, .notReached⟩] ⟨.t0, .step, 600, 900, .notReached⟩ [] ∧
        s.gas.capacity < headerAllocation s + 600) ∧
      (let s : State := { behindSuspended fun u => { u with loader := { u.loader with position := some 2400, isSealed := true } }
        with exhaust := ⟨false, 0⟩ }
       s.quiet ∧ scrubberTakes s [⟨.t1, 880, .notReached⟩] ⟨.t0, 900, .notReached⟩ [] ∧
        (s.tube .t0).loader.isSealed = true ∧ s.exhaust.asserted = false) ∧
      (let s : State := { behindSuspended id with
        gas := ⟨600, 2, [⟨.t1, .step, 100, 880, .notReached⟩], [⟨.t1, 880, .notReached⟩]⟩ }
       s.quiet ∧ (∀ d ∈ s.gas.header, (s.tube d.tube).state = .suspended) ∧
        ∀ d ∈ s.gas.scrubber, (s.tube d.tube).state = .suspended) :=
  ⟨⟨rfl, by decide, by decide⟩, ⟨rfl, by decide, by decide⟩, by decide +kernel, by decide,
    ⟨by decide +kernel, ⟨rfl, by decide, by decide⟩, by decide⟩,
    ⟨by decide +kernel, ⟨rfl, by decide, by decide⟩, by decide, by decide⟩, by decide +kernel, by decide, by decide⟩

theorem witness_gas_claims :
    (let s := headerDue (.purge 600 9) .step id
     s.gas.header = [⟨.t0, .step, 600, 900, .notReached⟩] ∧ (s.tube .t0).state ≠ .suspended ∧ s.due.header = true ∧
      headerAllocation s + 600 ≤ s.gas.capacity ∧ (s.tube .t0).current = some (currentOf (.purge 600 9))) ∧
      (let s := headerDue (.pullOut none none) .auto fun u => { u with owed := true }
       (s.tube .t0).owed = true ∧ (s.tube .t0).current = some (currentOf (.pullOut none none))) ∧
      ((headerDue (.pullOut none none) .auto id).tube .t0).owed = false ∧
      (let s : State := { (working .admitting (.gasSet [(.dopant, 100)])).onTube .t0 fun u =>
          { u with loader := { u.loader with position := some 2400, isSealed := true } } with
        gas := { ready.gas with scrubber := [⟨.t0, 900, .notReached⟩] }, due := { Due.none with scrubber := true } }
       s.gas.scrubber = [⟨.t0, 900, .notReached⟩] ∧ (s.tube .t0).state ≠ .suspended ∧ s.due.scrubber = true ∧
        (s.tube .t0).loader.isSealed = true ∧ slotsInUse s < s.gas.slots ∧ s.exhaust.asserted = true ∧
        (s.tube .t0).current = some (currentOf (.gasSet [(.dopant, 100)])) ∧
        ([((.dopant : LineId), 100)].map Prod.fst).Nodup) := by decide +kernel

theorem witness_faults_arise :
    (closed.tube .t0).state = .off ∧ (ready.tube .t0).works ∧
      ((ready.tube .t0).effective ≠ .moving ∧ (ready.tube .t0).lines.dopant.commanded = 0) ∧
      ((pushing 900).tube .t0).effective = .moving ∧ 0 < (doped.tube .t0).lines.dopant.commanded ∧
      (let s := serviced fun u => { u with service := { u.service with jog := some 500 } }
       (s.tube .t0).state = .service ∧ (s.tube .t0).fault.causes.has .overTemp = false ∧ (s.tube .t0).service.jog ≠ none) ∧
      (let s := faulted { motionStall := true } id
       (s.tube .t0).state = .faultHold ∧ (s.tube .t0).fault.causes.has .motionStall = true ∧
        (s.tube .t0).fault.causes.has .overTemp = false) ∧
      ((serviced fun u => { u with fault := { u.fault with causes := { overTemp := true } } }).tube .t0).fault.causes.has .overTemp =
        true ∧
      (((serviced id).tube .t0).state = .service ∧ ((serviced id).tube .t0).fault.causes.has .overTemp = false) := by
  decide +kernel

/-- R143, R146: an entry with OVER-TEMP sends every ceiling as 0, Z0's, which falls, and those that were 0 already. -/
theorem test_over_temp_sends_ceilings :
    let s := enterFaultHold .t0 .overTemp (withT0 fun u => { u with zones := { u.zones with z0 := { u.zones.z0 with ceiling := 465 } } })
    s.outbox.filter (fun m => ZoneId.all.any fun z => m == .ceiling .t0 z 0) = ZoneId.all.map (fun z => Sent.ceiling .t0 z 0) ∧
      (s.tube .t0).grantTotal = 0 := by decide +kernel

/-- R150, R66: cleared of OVER-TEMP, T0 has its ceilings composed again from its grant. -/
theorem test_clear_over_temp :
    let u := (after (exec (.clearFault .c 0 [0]) (faulted { overTemp := true } id))).tube .t0
    (u.zones.z0.ceiling, u.zones.z1.ceiling, u.state, u.halted) = (465, 427, .idle, true) := by decide +kernel

/-! ### The arithmetic -/

theorem witness_zone_step :
    rateOne.ramp = some ⟨8001, .up, 1, false, 8000⟩ ∧ (Zone.advance^[239] rateOne).ramp = rateOne.ramp ∧ rateOne.f ≤ 14 ∧
      (let z : Zone := { zoneAt 9000 with ramp := some ⟨10000, .up, 300, false, 9000⟩ }
       (Zone.advance^[240] z).ramp = z.ramp ∧ (z.f + 4 * 300) / 15 < 64 * 10000 - z.s) ∧
      (let z : Zone := { zoneAt 8000 with ramp := some ⟨7000, .down, 40, false, 8000⟩ }
       64 * 7000 < z.s) ∧
      (let z : Zone := { zoneAt 10000 with s := 639920, ramp := some ⟨10000, .up, 300, false, 9000⟩ }
       (64 * 10000 - z.s) + (z.s - 64 * 10000) ≤ (z.f + 4 * 300) / 15) := by decide +kernel

theorem witness_figures :
    (250 : Nat) ≤ 250 ∧ 250 < 251 ∧ (400 : Nat) ≤ 400 ∧ (12500 : Nat) ≤ 12500 ∧ ZoneId.toNat .z0 < ZoneId.toNat .z1 ∧
      0 < (layOut 1200 ⟨100, 200, 300, 500, 600⟩).get .z4 ∧ 1 ≤ 8192 ∧ loadCounter 8192 = ⟨4096, 1, false, true⟩ ∧
      ([((.z0 : ZoneId), 9500), (.z4, 7600)].map Prod.fst).Nodup ∧ ((.z0 : ZoneId), 9500) ∈ [((.z0 : ZoneId), 9500), (.z4, 7600)] ∧
      ((ready.tube .t0).zones.get .z0).reportedSetpoint < 9500 ∧ 7600 ≤ ((ready.tube .t0).zones.get .z4).reportedSetpoint ∧
      ((curtailed.tube .t0).zones.get .z0).ramp = some ⟨10000, .up, 100, false, 8000⟩ ∧
      ((curtailed.tube .t1).zones.get .z1).ramp = none := by
  decide +kernel

/-- Section 4.5: T1, of the later grant, goes before T0, and both are shed. -/
theorem witness_shed :
    let s : State := { curtailed with curtail := ⟨true, 0⟩ }
    limitInForce s < grantSum s ∧ shedCandidate s .t0 ∧ shedCandidate s .t1 ∧ shedGoesFirst s .t1 .t0 ∧
      ((shedPass s).tube .t0).shedPaused ≠ (s.tube .t0).shedPaused ∧
      ((shedPass s).tube .t1).shedPaused ≠ (s.tube .t1).shedPaused :=
  ⟨by decide +kernel, isShedCandidate_iff.mp (by decide +kernel), isShedCandidate_iff.mp (by decide +kernel),
    shedsBefore_iff.mp (by decide +kernel), by decide +kernel, by decide +kernel⟩

/-! ### Surcharges, motions, boundaries at which nothing ends, holdback, and what an event makes due -/

/-- T0 pushing with a surcharge held, its boat at a position. -/
def pushingAt (position : Option Nat) (kept : Nat) : State :=
  (pushing kept).onTube .t0 fun u => { u with loader := { u.loader with position := position, travel := some (travelCopy record) } }

theorem witness_held :
    ((pushingAt (some 901) 900).tube .t0).effective = .moving ∧ ((pushingAt (some 901) 900).tube .t0).loader.recovery = .held ∧
      (∃ p, ((pushingAt (some 901) 900).tube .t0).loader.position = some p ∧
        ((pushingAt (some 901) 900).tube .t0).record.mouth < p) ∧
      ((pushingAt (some 901) 900).tube .t0).loader.keptRecovery ≠ 0 ∧
      ((pushingAt (some 900) 900).tube .t0).loader.position = some record.mouth ∧
      ((pushingAt (some 901) 0).tube .t0).loader.keptRecovery = 0 ∧
      ((working .moving (.pullOut none none)).tube .t0).loader.recovery ≠ .held :=
  ⟨by decide +kernel, by decide +kernel, ⟨901, by decide +kernel, by decide +kernel⟩, by decide +kernel, by decide +kernel,
    by decide +kernel, by decide +kernel⟩

theorem witness_second_segment :
    let s := (pushingAt (some 100) 900).onTube .t0 fun u => { u with loader := { u.loader with segmentEnd := some 900 } }
    let l := (s.tube .t0).loader
    l.reaches (min 900 3000) = false ∧ l.segmentEnd = some 900 ∧ l.target = some 2400 ∧ l.travel = some (travelCopy record) ∧
      (s.tube .t0).current = some (currentOf (.pushIn none none)) ∧ l.state = .movingIn ∧ 900 ≤ min 900 3000 ∧
      min 900 3000 < 2400 := by decide +kernel

theorem witness_motion_starts :
    (let s := starting (stepOf (.pushIn none none)) id
     let s : State := { s with cal0 := { cal with surcharge := 0 } }
     (record.base ≤ (StepBody.pushIn none none).target record ∧ (StepBody.pushIn none none).target record ≤ record.limit ∧
        (StepBody.pushIn none none).hotSpeed = none ∧ (s.tube .t0).lines.dopant.commanded = 0) ∧ admittedSurcharge s .t0 = 0 ∧
      (s.tube .t0).loader.position ≠ some ((StepBody.pushIn none none).target (s.tube .t0).record) ∧
      (s.tube .t0).loader.position = some ((StepBody.pushIn (some 100) none).target (s.tube .t0).record)) ∧
      (let s := starting (stepOf (.pullOut none none)) id
       (record.base ≤ (StepBody.pullOut (some 101) none).target record ∧
        (StepBody.pullOut (some 101) none).target record ≤ record.limit) ∧ (s.tube .t0).owed = false ∧
        ((starting (stepOf (.pullOut none none)) fun u => { u with owed := true }).tube .t0).owed = true ∧
        (s.tube .t0).loader.position ≠ some ((StepBody.pullOut (some 101) none).target (s.tube .t0).record)) := by decide +kernel

/-- R120: a position of none counts as below the mouth, so a jog from it to a target at the mouth is MOVING-IN. -/
theorem test_jog_from_none_to_mouth :
    (((after (exec (.serviceJog .c 0 [0, 3, 132]) (serviced fun u =>
      { u with loader := { u.loader with position := none } }))).tube .t0).loader.state, num2 3 132) = (.movingIn, record.mouth) := by
  decide +kernel

/-- R80, with a raise more than 2^31 seconds old: the newest raise's stamp plus ts is later than the second newest's plus Tw. -/
theorem test_pacing_time_old_raise :
    pacingTime { ready with
      seconds := 3000000001
      arbiter := { ready.arbiter with
        history := [⟨10, .t0⟩, ⟨3000000000, .t1⟩], stagger := 5, window := 60, windowCount := 2 } } = some 3000000005 := by
  decide +kernel

theorem bounded (s : State) (h : s.arbiter.claims.length ≤ 4) (hh : s.gas.header.length ≤ 4) (hs : s.gas.scrubber.length ≤ 4)
    (hq : (s.tubes.t0.queue.length ≤ 16 ∧ s.tubes.t1.queue.length ≤ 16) ∧ s.tubes.t2.queue.length ≤ 16 ∧
      s.tubes.t3.queue.length ≤ 16) : s.listsBounded :=
  ⟨fun t => by cases t; exacts [hq.1.1, hq.1.2, hq.2.1, hq.2.2], h, hh, hs⟩

theorem witness_grant_at_pacing_time :
    walkStack.quiet ∧ walkStack.listsBounded ∧ BoundaryItem.pacing ∈ walkStack.boundaryDue ∧
      walkStack.arbiter.pacing = some walkStack.seconds ∧
      walkReaches walkStack [] fitting walkStack.arbiter.claims.tail ∧ claimFits walkStack fitting ∧
      walkStack.arbiter.shedding = false ∧ staggerOpen walkStack ∧ windowOpen walkStack ∧
      (walkStack.tube .t2).loader.position ≠ some ((StepBody.pushIn none none).target (walkStack.tube .t2).record) :=
  ⟨by decide +kernel, bounded _ (by decide) (by decide) (by decide) (by decide), by decide +kernel, by decide +kernel,
    ⟨rfl, nofun, by decide, by decide⟩, fits_iff.mp (by decide +kernel), by decide, staggerPasses_iff.mp (by decide +kernel),
    windowPasses_iff.mp (by decide +kernel), by decide +kernel⟩

/-- T0 waiting for a slot while it is not sealed. -/
def unsealed : State :=
  { working .admitting (.gasSet [(.dopant, 100)]) with
    gas := { ready.gas with scrubber := [⟨.t0, 900, .notReached⟩] }, due := { Due.none with scrubber := true } }

theorem none_may_start (s : State) (h : isSettled { s with due := Due.none } = true) (t : TubeId) : ¬(s.tube t).mayStart := by
  simp [isSettled, startable, Due.none, TubeId.all, canStart, State.tube] at h
  rintro ⟨h1, h2, h3⟩
  cases t <;> simp_all [State.tube]

theorem witness_unsealed_claim :
    unsealed.listsBounded ∧ (∀ t, ¬(unsealed.tube t).mayStart) ∧ unsealed.due.scrubber = true ∧
      unsealed.gas.scrubber = [⟨.t0, 900, .notReached⟩] ∧ (unsealed.tube .t0).state ≠ .suspended ∧
      (unsealed.tube .t0).loader.isSealed = false ∧
      (unsealed.tube .t0).current = some (currentOf (.gasSet [(.dopant, 100)])) :=
  ⟨bounded _ (by decide) (by decide) (by decide) (by decide), none_may_start _ (by decide +kernel), by decide, by decide,
    by decide, by decide, by decide⟩

/-- The exhaust is lost while T0 waits for a slot and T1 is SUSPENDED in its wait. -/
def exhaustGoing : State :=
  { (left [.exhaustFilter] unsealed).onTube .t1 fun u =>
      { u with state := .suspended, remembered := some .admitting, current := some (currentOf (.gasSet [(.dopant, 100)])) } with
    exhaust := ⟨true, 2⟩
    exhaustInput := false
    due := Due.none
    gas := { ready.gas with scrubber := [⟨.t0, 900, .notReached⟩, ⟨.t1, 910, .suspended⟩] } }

/-- R101: T0's GAS-SET ends FAILED with EXHAUST, and T1's claim stays. -/
theorem test_exhaust_fails_claims :
    let s := after (exec .exhaustLost exhaustGoing)
    (s.tube .t0).ring.map CompletionRecord.failCause = [.exhaust] ∧ (s.tube .t0).halted = true ∧
      s.gas.scrubber.map ScrubberClaim.tube = [.t1] ∧ (s.tube .t1).current.isSome = true := by decide +kernel

theorem witness_settle :
    ready.quiet ∧
      (let s := starting (stepOf .mark) id
       s.listsBounded ∧ (s.tube .t0).mayStart ∧ ∀ j : TubeId, j.toNat < TubeId.toNat .t0 → ¬(s.tube j).mayStart) ∧
      (unsealed.due.scrubber = true ∧ slotsInUse unsealed < unsealed.gas.slots ∧ unsealed.exhaust.asserted = true) ∧
      (let s := headerDue (.purge 600 9) .step id
       (∀ t, ¬(s.tube t).mayStart) ∧ s.due.scrubber = false ∧ s.due.header = true ∧
        headerAllocation s + 600 ≤ s.gas.capacity) ∧
      (let s : State := { ready with due := { Due.none with shed := true } }
       (∀ t, ¬(s.tube t).mayStart) ∧ s.due.header = false ∧ s.due.shed = true) ∧
      (let s := granting rampAll .step 2500
       s.listsBounded ∧ (∀ t, ¬(s.tube t).mayStart) ∧ s.due.shed = false ∧ s.due.claims = true ∧
        BoundaryItem.pacing ∉ s.boundaryDue ∧ claimFits s (claim .step ⟨2500, 0, 0, 0, 0⟩ 2500 none)) :=
  ⟨by decide +kernel,
    ⟨bounded _ (by decide) (by decide) (by decide) (by decide), by decide +kernel, fun j h => absurd h (Nat.not_lt_zero _)⟩,
    by decide +kernel,
    ⟨none_may_start _ (by decide +kernel), by decide, by decide, by decide +kernel⟩,
    ⟨none_may_start _ (by decide +kernel), by decide, by decide⟩,
    ⟨bounded _ (by decide) (by decide) (by decide) (by decide), none_may_start _ (by decide +kernel), by decide, by decide,
      by decide, fits_iff.mp (by decide +kernel)⟩⟩

/-- T0 in a SOAK held back, with its PURGE line open and low for eight boundaries, and its loader's recovery counter running. -/
def heldBack : State :=
  (working .soaking soak).onTube .t0 fun u =>
    { u with
      stepCounter := some ⟨1, 2, false, false⟩
      holdback := ⟨true, some ⟨1, 0, false, false⟩, 7, 60⟩
      lines := { u.lines with purge := ⟨200, 90, false, 8⟩, oxy := ⟨100, 10, false, 9⟩ }
      loader := { u.loader with recovery := .running, recoveryCounter := some ⟨2, 0, false, false⟩ } }

theorem witness_uneventful :
    let s := heldBack.onTube .t0 fun u => { u with holdback := { u.holdback with counter := some ⟨2, 0, false, false⟩ } }
    s.boundaryDue = [] ∧ s.quiet ∧
      (∀ t, (s.tube t).secondUneventful ∧ counterLasts ((s.tube t).state = .suspended) (admissionCounter s t)) ∧
      s.curtail.asserted = false ∧ s.exhaust.asserted = true ∧ s.arbiter.pacing ≠ some (s.seconds + 1) := by
  refine ⟨by decide, by decide +kernel, fun t => ?_, by decide, by decide, by decide⟩
  cases t
  case t0 =>
    exact ⟨⟨fun k h => by cases h; exact .inr (.inr (by decide)), fun k h => by cases h; exact .inr (.inl (by decide)),
      fun k h => by cases h; exact .inr (.inl (by decide)), fun h => absurd h (by decide),
      fun l h1 h2 => by cases l <;> revert h1 h2 <;> decide, fun h => absurd rfl h⟩, nofun⟩
  all_goals
    exact ⟨⟨nofun, nofun, nofun, fun h => absurd h (by decide), fun l h1 h2 => by cases l <;> revert h1 h2 <;> decide, fun h => absurd rfl h⟩,
      nofun⟩

/-- R134, R135 and R107: a boundary leaves the step counter of a SOAK paused under holdback, and credits 90 of 60ths. -/
theorem test_boundary_held_back :
    let u := (after (exec (.secondsBoundary false true [] [.counter .t0 .holdback]) heldBack)).tube .t0
    u.stepCounter = some ⟨1, 2, true, false⟩ ∧ u.holdback.seconds = 8 ∧ (u.credit, u.remainder) = (1, 30) ∧
      u.lines.purge.lowCount = 9 ∧ u.lines.oxy.flowLow = true ∧ u.state = .soaking := by decide +kernel

/-- T0 SOAKING with Z0 reading 60 below its setpoint, against a band of 50. -/
def lagging : State := (working .soaking soak).onTube .t0 fun u => { u with zones := { u.zones with z0 := { zoneAt 8000 with pv := 7940 } } }

/-- T0 RAMPING with Z0 within one update of its target, and Z4 lagging by 60. -/
def held : State :=
  { landing .ramping with updateDue := [] }.onTube .t0 fun u => { u with zones := { u.zones with z4 := { u.zones.z4 with pv := 9940 } } }

theorem witness_holdback :
    lagging.updateDue = [] ∧ (lagging.tube .t0).state = .soaking ∧ (lagging.tube .t0).current = some (currentOf soak) ∧
      (∀ z, ¬(((lagging.tube .t0).zones.get z).isOpen = false ∧ 13000 ≤ ((lagging.tube .t0).zones.get z).pv) ∧
        (((lagging.tube .t0).zones.get z).aboveBand record.overTempBand → ((lagging.tube .t0).zones.get z).excess < 19)) ∧
      (¬(lagging.tube .t0).rampFinishes ∧ (held.tube .t0).rampFinishes ∧ (held.tube .t0).state = .ramping ∧
        ∃ c z, (held.tube .t0).current = some c ∧ ((held.tube .t0).zones.get z).isOpen = false ∧
          c.band < lagOf ((held.tube .t0).zones.get z)) ∧
      50 < lagOf ((lagging.tube .t0).zones.get .z0) ∧ (lagging.tube .t0).holdback.asserted = false ∧
      (lagging.tube .t0).record.holdbackLimit ≠ 0 ∧ (ready.tube .t0).state ≠ .soaking ∧ (closed.tube .t0).state = .off :=
  ⟨by decide, by decide, by decide, fun z => by cases z <;> decide,
    ⟨fun ⟨⟨z, r, h, _⟩, _⟩ => (by cases z <;> cases h), (landsLast_iff.mp (by decide +kernel)).2, by decide,
      _, .z4, rfl, by decide, by decide +kernel⟩, by decide, by decide, by decide, by decide, by decide⟩

/-- R40, R42: the update asserts holdback and loads the counter with the limit of 120. -/
theorem test_holdback_asserted :
    let h := ((after (exec (.zoneUpdate [] []) lagging)).tube .t0).holdback
    h.asserted = true ∧ h.counter = some (loadCounter 120) ∧ h.maxLag = 60 ∧ h.seconds = 0 := by decide +kernel

end Sys2Proof.Machine.Slice0
end

section
/-! PROOF. The step arithmetic of an advancing zone (R33): the three forms of an advance, one advance as a move towards the
target, and any number of advances that do not land, by induction on their number. -/

namespace Sys2Proof.Machine

variable {zone : Zone} {r : ZoneRamp}

/-! ### The three forms of an advance (R33, R34) -/

theorem advance_of_landed (hr : zone.ramp = some r) (hl : r.landed = true) : zone.advance = zone := by
  simp [Zone.advance, hr, hl]

theorem advance_of_reaches (hr : zone.ramp = some r) (hl : r.landed = false)
    (hd : remainingDistance r zone ≤ zoneStep r zone) :
    zone.advance = { zone with s := 64 * r.target, f := 0, ramp := some { r with landed := true } } := by
  simp [Zone.advance, hr, hl, hd]

theorem advance_of_short (hr : zone.ramp = some r) (hl : r.landed = false)
    (hd : zoneStep r zone < remainingDistance r zone) :
    zone.advance =
      { zone with
        s := if zone.s < 64 * r.target then zone.s + zoneStep r zone else zone.s - zoneStep r zone
        f := (zone.f + 4 * r.rate) % 15 } := by
  simp [Zone.advance, hr, hl, hd.not_ge]

/-- A zone still on its ramp after an advance was on it before, and was further from its target than its step: a landed flag is
never taken back. -/
theorem short_of_advance_ramp (hl : r.landed = false) (h : zone.advance.ramp = some r) :
    zone.ramp = some r ∧ zoneStep r zone < remainingDistance r zone := by
  cases hq : zone.ramp with
  | none => simp [Zone.advance, hq] at h
  | some q =>
    cases hql : q.landed with
    | true =>
      rw [advance_of_landed hq hql, hq, Option.some.injEq] at h
      simp [← h, hql] at hl
    | false =>
      rcases le_or_gt (remainingDistance q zone) (zoneStep q zone) with hd | hd
      · rw [advance_of_reaches hq hql hd, Option.some.injEq] at h
        simp [← h] at hl
      · rw [advance_of_short hq hql hd] at h
        obtain rfl : q = r := Option.some.inj (hq.symm.trans h)
        exact ⟨rfl, hd⟩

/-! ### The step itself -/

/-- An accumulator below 15 adds at most one to the quotient, and none where the rate leaves no remainder. -/
theorem zoneStep_of_accumulator (hf : zone.f ≤ 14) :
    (zoneStep r zone = 4 * r.rate / 15 ∨ zoneStep r zone = 4 * r.rate / 15 + 1) ∧
      (r.rate % 15 = 0 → 15 * zoneStep r zone = 4 * r.rate) := by
  unfold zoneStep
  omega

/-- The quotient and the remainder of the sum lose nothing of it. -/
theorem fifteen_zoneStep_add_mod : 15 * zoneStep r zone + (zone.f + 4 * r.rate) % 15 = zone.f + 4 * r.rate :=
  Nat.div_add_mod _ 15

/-! ### Any number of advances -/

/-- What `n` advances make of a listed zone that does not land: it lies between where it began and its target, and what it has
moved, in fifteenths, together with its accumulator is what the rate has given and the accumulator it began with. -/
structure Travelled (r : ZoneRamp) (n : Nat) (start zone : Zone) : Prop where
  between : (start.s ≤ zone.s ∧ zone.s ≤ 64 * r.target) ∨ (64 * r.target ≤ zone.s ∧ zone.s ≤ start.s)
  account : 15 * absDiff zone.s start.s + zone.f = 4 * r.rate * n + start.f

theorem Travelled.zero (r : ZoneRamp) (start : Zone) : Travelled r 0 start start :=
  ⟨by omega, by simp [absDiff]⟩

/-- One more advance that does not land moves the zone away from where it began by the step, and no further than its target. -/
theorem Travelled.advance {n : Nat} {start : Zone} (h : Travelled r n start zone) (hr : zone.ramp = some r)
    (hl : r.landed = false) (hd : zoneStep r zone < remainingDistance r zone) : Travelled r (n + 1) start zone.advance := by
  obtain ⟨between, account⟩ := h
  have quotient := fifteen_zoneStep_add_mod (r := r) (zone := zone)
  rw [advance_of_short hr hl hd]
  unfold remainingDistance absDiff at hd
  unfold absDiff at account
  rcases Nat.lt_or_ge zone.s (64 * r.target) with up | down
  · constructor <;> simp only [if_pos up, absDiff, Nat.mul_succ] <;> omega
  · constructor <;> simp only [if_neg down.not_gt, absDiff, Nat.mul_succ] <;> omega

theorem travelled_iterate_advance (hl : r.landed = false) (n : Nat)
    (h : (Zone.advance^[n] zone).ramp = some r) : Travelled r n zone (Zone.advance^[n] zone) := by
  induction n with
  | zero => exact .zero r zone
  | succ n ih =>
    rw [Function.iterate_succ_apply'] at h ⊢
    obtain ⟨hn, hd⟩ := short_of_advance_ramp hl h
    exact (ih hn).advance hn hl hd

/-- An advance along the ramp leaves an accumulator below 15 (R33), and so does any number of them. -/
theorem accumulator_iterate_advance (hl : r.landed = false) (hf : zone.f ≤ 14) (n : Nat)
    (h : (Zone.advance^[n] zone).ramp = some r) : (Zone.advance^[n] zone).f ≤ 14 := by
  cases n with
  | zero => exact hf
  | succ n =>
    rw [Function.iterate_succ_apply'] at h ⊢
    obtain ⟨hn, hd⟩ := short_of_advance_ramp hl h
    rw [advance_of_short hn hl hd]
    exact Nat.le_of_lt_succ (Nat.mod_lt _ (by decide))

/-- One minute: 240 advances give 960 times the rate, a whole number of fifteenths, so the accumulator comes back. -/
theorem minute_of_advances (hl : r.landed = false) (hf : zone.f ≤ 14)
    (h : (Zone.advance^[240] zone).ramp = some r) :
    absDiff (Zone.advance^[240] zone).s zone.s = 64 * r.rate ∧ (Zone.advance^[240] zone).f = zone.f := by
  have account := (travelled_iterate_advance hl 240 h).account
  have hf' := accumulator_iterate_advance hl hf 240 h
  omega

/-- Settles O57: one advance by its forms, any number of them by induction. -/
theorem zoneStepArithmetic : Obligations.ZoneStepArithmetic := by
  unfold Obligations.ZoneStepArithmetic
  intro zone r hr hl sum target distance
  refine ⟨fun short => ?_, zoneStep_of_accumulator, fun reaches => ?_, fun n h => ?_, fun h hf => ?_⟩
  · rw [advance_of_short hr hl short]
    exact ⟨fun up => if_pos up, fun down => if_neg down.not_gt, rfl, rfl, Nat.le_of_lt_succ (Nat.mod_lt _ (by decide))⟩
  · rw [advance_of_reaches hr hl reaches]
    exact ⟨rfl, rfl, rfl⟩
  · exact (travelled_iterate_advance hl n (h.trans hr)).account
  · exact minute_of_advances hl hf (h.trans hr)

end Sys2Proof.Machine
end

section
/-! PROOF. The request layer: what a request answers once its frame is taken, and the checks of R172 on a tube byte and a link
that pass. -/

namespace Sys2Proof.Machine

/-- A request whose frame is taken answers with what its handler makes of the state as the event begins (R170, R171). -/
theorem takeRequest_of_framed {s : State} {l : LinkId} {kind tag : Byte} {body : List Byte} (framed : Framed s l kind tag body)
    (h : State → State × Reply) :
    takeRequest kind l tag body h s =
      .next ((h (openEvent s)).1.answered l kind tag (h (openEvent s)).2.code (h (openEvent s)).2.body) := by
  obtain ⟨short, taken⟩ := framed
  simp [takeRequest, short, taken, State.answered]

/-- A request whose handler refuses changes nothing but the answer. -/
theorem takeRequest_refuse {s : State} {l : LinkId} {kind tag : Byte} {body : List Byte} {h : State → State × Reply}
    {code : AnswerCode} (framed : Framed s l kind tag body) (refused : h (openEvent s) = refuse code (openEvent s)) :
    takeRequest kind l tag body h s = .next ((openEvent s).answered l kind tag code []) := by
  rw [takeRequest_of_framed framed, refused]; rfl

/-- A request whose handler is done answers OK with the handler's body. -/
theorem takeRequest_okWith {s q : State} {l : LinkId} {kind tag : Byte} {body answer : List Byte} {h : State → State × Reply}
    (framed : Framed s l kind tag body) (done : h (openEvent s) = okWith answer q) :
    takeRequest kind l tag body h s = .next (q.answered l kind tag .ok answer) := by
  rw [takeRequest_of_framed framed, done]; rfl

/-- The byte that names a tube passes check 3 of R172 with that tube. -/
@[simp] theorem withTube_tubeByte (t : TubeId) (s : State) (k : TubeId → State × Reply) : withTube (tubeByte t) s k = k t := by
  cases t <;> rfl

/-- Link C passes check 4 of R172 for a SUPERVISE request. -/
@[simp] theorem supervise_c (s : State) (k : State × Reply) : supervise .c s k = k := if_pos rfl

@[simp] theorem link_openEvent (s : State) (l : LinkId) : (openEvent s).link l = s.link l := rfl

end Sys2Proof.Machine
end

section
/-! PROOF. WRITE-RIGHTS (R180): its refusals, and the one entry of the rights table it replaces. -/

namespace Sys2Proof.Machine

variable {s : State} {t : TubeId} {n r f : Byte}

/-! ### The rights table -/

/-- The state with one entry of the rights table replaced. -/
def State.withRights (s : State) (k : LinkId) (t : TubeId) (entry : Rights) : State :=
  { s with rights := s.rights.set k ((s.rights.get k).set t entry) }

@[simp] theorem rightsOn_withRights_same (s : State) (k : LinkId) (t : TubeId) (entry : Rights) :
    (s.withRights k t entry).rightsOn k t = entry := by
  simp [State.withRights, State.rightsOn]

theorem rightsOn_withRights_of_ne {k l : LinkId} {t j : TubeId} (h : l ≠ k ∨ j ≠ t) (entry : Rights) :
    (s.withRights k t entry).rightsOn l j = s.rightsOn l j := by
  by_cases hl : l = k
  · subst hl
    simp [State.withRights, State.rightsOn, PerTube.get_set_of_ne _ (h.resolve_left (not_not_intro rfl))]
  · simp [State.withRights, State.rightsOn, PerLink.get_set_of_ne _ hl]

/-! ### The request -/

theorem exec_writeRights (l : LinkId) (tag : Byte) (body : List Byte) (s : State) :
    exec (.writeRights l tag body) s = takeRequest 0x55 l tag body (writeRightsRequest l body) s := rfl

theorem linkOfNat_eq_none {n : Nat} (h : 4 < n) : LinkId.ofNat? n = none := by
  obtain ⟨m, rfl⟩ := Nat.exists_eq_add_of_le' h
  rfl

theorem writeRights_range {n : Nat} {entry : Rights} (h : 4 < n ∨ 7 < entry.floor) :
    writeRights n t entry s = refuse .range s := by
  unfold writeRights
  split
  · rfl
  · next k hk =>
    have floor : 7 < entry.floor := h.resolve_left fun hn => by simp [linkOfNat_eq_none hn] at hk
    exact if_pos floor

theorem writeRights_ok {n : Nat} {k : LinkId} {entry : Rights} (link : LinkId.ofNat? n = some k) (floor : entry.floor ≤ 7) :
    writeRights n t entry s = ok (s.withRights k t entry) := by
  simp [writeRights, link, floor.not_gt, State.withRights]

theorem writeRightsRequest_reserved {l : LinkId} (h : 8 ≤ r.toNat) :
    writeRightsRequest l [n, tubeByte t, r, f] s = refuse .format s := if_pos h

theorem writeRightsRequest_wellFormed (h : r.toNat < 8) :
    writeRightsRequest .c [n, tubeByte t, r, f] s = writeRights n.toNat t (rightsOf r f.toNat) s := by
  simp [writeRightsRequest, h.not_ge]

/-- Settles O36: the refusals in their order, and the entry replaced. -/
theorem rightsWritten : Obligations.RightsWritten := by
  unfold Obligations.RightsWritten
  intro s t tag n r f framed
  rw [exec_writeRights]
  refine ⟨fun reserved => takeRequest_refuse framed (writeRightsRequest_reserved reserved), fun form range => ?_,
    fun k form link floor => ?_⟩
  · exact takeRequest_refuse framed ((writeRightsRequest_wellFormed form).trans (writeRights_range range))
  · exact ⟨(openEvent s).withRights k t (rightsOf r f.toNat),
      takeRequest_okWith framed ((writeRightsRequest_wellFormed form).trans (writeRights_ok link floor)), rfl,
      rightsOn_withRights_same .., fun l j h => rightsOn_withRights_of_ne h _⟩

end Sys2Proof.Machine
end

section
/-! PROOF. The attention line and ARM-ATTENTION (R183): the line by the flags and enables it stands for, and the enables of a
mask. -/

namespace Sys2Proof.Machine

variable {link : Link}

/-! ### The attention line -/

theorem pendingKind_iff {k : TubeKind} : link.pendingKind k = true ↔ ∃ t, (link.flags.get t).has k = true := by
  simp only [Link.pendingKind, Bool.or_eq_true]
  constructor
  · rintro (((h | h) | h) | h)
    exacts [⟨.t0, h⟩, ⟨.t1, h⟩, ⟨.t2, h⟩, ⟨.t3, h⟩]
  · rintro ⟨t, h⟩
    cases t
    exacts [.inl (.inl (.inl h)), .inl (.inl (.inr h)), .inl (.inr h), .inr h]

/-- The attention line is asserted by a pending tube kind, MODE or CURTAIL whose enable is set. -/
theorem attentionLine_iff :
    link.attentionLine = true ↔ (∃ k, link.enables.has k = true ∧ link.pendingKind k = true) ∨
      (link.enables.mode = true ∧ link.modeFlag = true) ∨ (link.enables.curtail = true ∧ link.curtailFlag = true) := by
  have kinds : (∃ k, link.enables.has k = true ∧ link.pendingKind k = true) ↔
      (link.enables.stepDone = true ∧ link.pendingKind .stepDone = true) ∨
      (link.enables.halted = true ∧ link.pendingKind .halted = true) ∨
      (link.enables.fault = true ∧ link.pendingKind .fault = true) ∨
      (link.enables.granted = true ∧ link.pendingKind .granted = true) ∨
      (link.enables.shed = true ∧ link.pendingKind .shed = true) := by
    constructor
    · rintro ⟨k, h⟩
      cases k
      exacts [.inl h, .inr (.inl h), .inr (.inr (.inl h)), .inr (.inr (.inr (.inl h))), .inr (.inr (.inr (.inr h)))]
    · rintro (h | h | h | h | h)
      exacts [⟨.stepDone, h⟩, ⟨.halted, h⟩, ⟨.fault, h⟩, ⟨.granted, h⟩, ⟨.shed, h⟩]
  rw [kinds]
  simp only [Link.attentionLine, Bool.or_eq_true, Bool.and_eq_true, or_assoc]

/-- The attention line by the flags of the four tubes. -/
theorem attentionLine_iff_flag {s : State} {l : LinkId} :
    (s.link l).attentionLine = true ↔ (∃ k t, (s.link l).enables.has k = true ∧ s.flag l t k = true) ∨
      ((s.link l).enables.mode = true ∧ (s.link l).modeFlag = true) ∨
      ((s.link l).enables.curtail = true ∧ (s.link l).curtailFlag = true) := by
  simp only [attentionLine_iff, pendingKind_iff, State.flag, exists_and_left]

/-! ### The enables of a mask -/

@[simp] theorem arm_has (e : Enables) (mask : Byte) (k : TubeKind) :
    (e.arm mask).has k = (e.has k || mask.getLsbD k.index) := by
  cases k <;> rfl

theorem arm_zero (e : Enables) : e.arm 0 = e := by
  simp [Enables.arm]

/-- The link with the enables of a mask set. -/
def Link.armed (link : Link) (mask : Byte) : Link := { link with enables := link.enables.arm mask }

theorem armed_zero (link : Link) : link.armed 0 = link := by
  rw [Link.armed, arm_zero]

/-- A flag pending of a kind that is armed asserts the line. -/
theorem armed_attentionLine {mask : Byte} {k : TubeKind} {t : TubeId} (armed : mask.getLsbD k.index = true)
    (pending : (link.flags.get t).has k = true) : (link.armed mask).attentionLine = true :=
  attentionLine_iff.mpr (.inl ⟨k, by simp [Link.armed, armed], pendingKind_iff.mpr ⟨t, pending⟩⟩)

/-! ### The request -/

theorem exec_armAttention (l : LinkId) (tag : Byte) (body : List Byte) (s : State) :
    exec (.armAttention l tag body) s = takeRequest 0x45 l tag body (armRequest l body) s := rfl

theorem armRequest_reserved {s : State} {l : LinkId} {mask : Byte} (h : mask.getLsbD 7 = true) :
    armRequest l [mask] s = refuse .format s := if_pos h

theorem armRequest_ok {s : State} {l : LinkId} {mask : Byte} (h : mask.getLsbD 7 = false) :
    armRequest l [mask] s = ok (s.onLink l fun k => k.armed mask) := if_neg (Bool.eq_false_iff.mp h)

/-- Arming one link changes no flag. -/
theorem flagsKept_armed (s : State) (l : LinkId) (mask : Byte) :
    flagsKept s ((openEvent s).onLink l fun k => k.armed mask) := by
  intro m
  by_cases h : m = l
  · subst h; rw [link_onLink_same]; exact ⟨rfl, rfl, rfl⟩
  · rw [link_onLink_of_ne _ h]; exact ⟨rfl, rfl, rfl⟩

/-- Settles O32: the line by its flags and enables, and the two answers of ARM-ATTENTION. -/
theorem attentionArmed : Obligations.AttentionArmed := by
  unfold Obligations.AttentionArmed
  refine ⟨fun s l => attentionLine_iff_flag, fun s l tag mask framed => ?_⟩
  rw [exec_armAttention]
  refine ⟨fun reserved => takeRequest_refuse framed (armRequest_reserved reserved), fun clear => ?_⟩
  have same := link_onLink_same (openEvent s) l fun k => k.armed mask
  refine ⟨(openEvent s).onLink l fun k => k.armed mask, takeRequest_okWith framed (armRequest_ok clear), rfl,
    fun m h => link_onLink_of_ne _ h _, flagsKept_armed s l mask, ?_⟩
  rw [same, link_openEvent]
  refine ⟨rfl, arm_has _ _, rfl, rfl, fun ⟨k, t, armed, pending⟩ => armed_attentionLine armed pending, ?_⟩
  rintro rfl
  exact armed_zero _

end Sys2Proof.Machine
end

section
/-! PROOF. READ-ATTENTION (R184): the flags of a link packed into its three bytes, kind by kind, and the link as the read
leaves it. -/

namespace Sys2Proof.Machine

variable {link : Link}

/-! ### The flags as a number -/

theorem TubeFlags.toNat_lt (f : TubeFlags) : f.toNat < 2 ^ 5 := by
  obtain ⟨a, b, c, d, e⟩ := f
  revert a b c d e; decide

theorem TubeFlags.testBit_toNat (f : TubeFlags) (k : TubeKind) : f.toNat.testBit k.index = f.has k := by
  obtain ⟨a, b, c, d, e⟩ := f
  revert a b c d e; cases k <;> decide

theorem TubeKind.index_lt (k : TubeKind) : k.index < 5 := by cases k <;> decide

/-- The flags of the four tubes as one number, five bits for each (R184). -/
def flagNumber (v : PerTube TubeFlags) : Nat :=
  2 ^ 5 * (2 ^ 5 * (2 ^ 5 * v.t3.toNat + v.t2.toNat) + v.t1.toNat) + v.t0.toNat

theorem flagNumber_lt (v : PerTube TubeFlags) : flagNumber v < 2 ^ 20 := by
  have h0 := v.t0.toNat_lt; have h1 := v.t1.toNat_lt; have h2 := v.t2.toNat_lt; have h3 := v.t3.toNat_lt
  unfold flagNumber
  omega

/-- Below a number stand the five flags of one more tube. -/
theorem testBit_flags_low (m : Nat) (f : TubeFlags) (k : TubeKind) : (2 ^ 5 * m + f.toNat).testBit k.index = f.has k := by
  rw [Nat.testBit_two_pow_mul_add m f.toNat_lt, if_pos k.index_lt, f.testBit_toNat]

/-- Above the five flags of a tube stand the bits of the number. -/
theorem testBit_flags_high (m : Nat) (f : TubeFlags) (i : Nat) : (2 ^ 5 * m + f.toNat).testBit (5 + i) = m.testBit i := by
  rw [Nat.testBit_two_pow_mul_add m f.toNat_lt, if_neg (by omega), Nat.add_sub_cancel_left]

/-- The kinds of tube j stand in bits 5j to 5j + 4 (R184): the flags of the tubes below it are passed, five bits each. -/
theorem testBit_flagNumber (v : PerTube TubeFlags) (t : TubeId) (k : TubeKind) :
    (flagNumber v).testBit (5 * t.toNat + k.index) = (v.get t).has k := by
  unfold flagNumber
  cases t with
  | t0 =>
    rw [show 5 * TubeId.t0.toNat + k.index = k.index from Nat.zero_add _]
    exact testBit_flags_low ..
  | t1 =>
    rw [show 5 * TubeId.t1.toNat + k.index = 5 + k.index from rfl, testBit_flags_high]
    exact testBit_flags_low ..
  | t2 =>
    rw [show 5 * TubeId.t2.toNat + k.index = 5 + (5 + k.index) from Nat.add_assoc 5 5 _, testBit_flags_high, testBit_flags_high]
    exact testBit_flags_low ..
  | t3 =>
    rw [show 5 * TubeId.t3.toNat + k.index = 5 + (5 + (5 + k.index)) by simp only [TubeId.toNat]; omega, testBit_flags_high,
      testBit_flags_high, testBit_flags_high]
    exact v.t3.testBit_toNat k

/-! ### The four bytes -/

theorem encFlags_eq (link : Link) : encFlags link =
    [BitVec.ofNat 8 (flagBit link.modeFlag 0 + flagBit link.curtailFlag 1), BitVec.ofNat 8 (flagNumber link.flags / 65536),
      BitVec.ofNat 8 (flagNumber link.flags / 256), BitVec.ofNat 8 (flagNumber link.flags)] := by
  have h : link.flags.t0.toNat + 32 * link.flags.t1.toNat + 1024 * link.flags.t2.toNat + 32768 * link.flags.t3.toNat =
      flagNumber link.flags := by unfold flagNumber; omega
  simp only [encFlags, h]; rfl

/-- Three bytes, most significant first, give back the number they were taken from. -/
theorem threeBytes {n : Nat} (h : n < 2 ^ 24) :
    65536 * (BitVec.ofNat 8 (n / 65536)).toNat + 256 * (BitVec.ofNat 8 (n / 256)).toNat + (BitVec.ofNat 8 n).toNat = n := by
  simp only [BitVec.toNat_ofNat]
  omega

/-- The first byte holds MODE and CURTAIL in its bits 0 and 1 and nothing else. -/
theorem stackFlags_byte (m c : Bool) :
    (BitVec.ofNat 8 (flagBit m 0 + flagBit c 1)).getLsbD 0 = m ∧ (BitVec.ofNat 8 (flagBit m 0 + flagBit c 1)).getLsbD 1 = c ∧
      (BitVec.ofNat 8 (flagBit m 0 + flagBit c 1)).toNat < 4 := by
  cases m <;> cases c <;> decide

/-! ### The link after the read -/

@[simp] theorem noFlags_has (t : TubeId) (k : TubeKind) : (noFlags.get t).has k = false := by
  cases t <;> cases k <;> rfl

@[simp] theorem readAttention_enables (link : Link) (k : TubeKind) :
    link.readAttention.enables.has k = (link.enables.has k && !link.pendingKind k) := by
  cases k <;> rfl

@[simp] theorem readAttention_pendingKind (link : Link) (k : TubeKind) : link.readAttention.pendingKind k = false := by
  cases k <;> rfl

/-- The read releases the line, since no flag remains pending. -/
theorem readAttention_attentionLine (link : Link) : link.readAttention.attentionLine = false := by
  rw [Bool.eq_false_iff, Ne, attentionLine_iff]
  rintro (⟨k, -, pending⟩ | ⟨-, pending⟩ | ⟨-, pending⟩)
  · simp at pending
  · cases pending
  · cases pending

theorem TubeFlags.eq_none_of_any {f : TubeFlags} (h : f.any = false) : f = {} := by
  simp only [TubeFlags.any, Bool.or_eq_false_iff] at h
  obtain ⟨⟨⟨⟨h0, h1⟩, h2⟩, h3⟩, h4⟩ := h
  cases f
  simp_all

/-- With no flag pending on a link, every flag of its four tubes is clear, and so are MODE and CURTAIL. -/
theorem flags_of_not_pending (h : link.pendingAny = false) :
    link.flags = noFlags ∧ link.modeFlag = false ∧ link.curtailFlag = false := by
  simp only [Link.pendingAny, Bool.or_eq_false_iff] at h
  obtain ⟨⟨⟨⟨⟨t0, t1⟩, t2⟩, t3⟩, mode⟩, curtail⟩ := h
  refine ⟨PerTube.ext_get fun t => ?_, mode, curtail⟩
  cases t
  exacts [TubeFlags.eq_none_of_any t0, TubeFlags.eq_none_of_any t1, TubeFlags.eq_none_of_any t2, TubeFlags.eq_none_of_any t3]

/-- A read with no pending flag changes nothing. -/
theorem readAttention_of_not_pending (h : link.pendingAny = false) : link.readAttention = link := by
  obtain ⟨rx, buffer, answer, flags, mode, curtail, enables⟩ := link
  obtain ⟨rfl, rfl, rfl⟩ : flags = noFlags ∧ mode = false ∧ curtail = false := flags_of_not_pending h
  have kinds (k : TubeKind) : Link.pendingKind ⟨rx, buffer, answer, noFlags, false, false, enables⟩ k = false := by
    cases k <;> rfl
  simp [Link.readAttention, kinds]

theorem encFlags_of_not_pending (h : link.pendingAny = false) : encFlags link = [0, 0, 0, 0] := by
  obtain ⟨flags, mode, curtail⟩ := flags_of_not_pending h
  simp only [encFlags, flags, mode, curtail]
  rfl

/-! ### The request -/

theorem exec_readAttention (l : LinkId) (tag : Byte) (body : List Byte) (s : State) :
    exec (.readAttention l tag body) s = takeRequest 0x44 l tag body
      (openRequest body fun s => okWith (encFlags (s.link l)) (s.onLink l Link.readAttention)) s := rfl

/-- Settles O31: the four bytes by the number they spell, and the link by its flags, enables and line after the read. -/
theorem attentionRead : Obligations.AttentionRead := by
  unfold Obligations.AttentionRead
  intro s l tag framed
  have small := flagNumber_lt (s.link l).flags
  obtain ⟨mode, curtail, reserved⟩ := stackFlags_byte (s.link l).modeFlag (s.link l).curtailFlag
  have answered := takeRequest_okWith (h := openRequest [] fun s => okWith (encFlags (s.link l)) (s.onLink l Link.readAttention))
    framed rfl
  rw [link_openEvent, encFlags_eq] at answered
  have same := link_onLink_same (openEvent s) l Link.readAttention
  refine ⟨_, _, _, _, (openEvent s).onLink l Link.readAttention, (exec_readAttention ..).trans answered, rfl,
    fun m h => link_onLink_of_ne _ h _, mode, curtail, reserved, ?_, ?_⟩
  · rw [threeBytes (by omega)]
    exact ⟨small, fun t k => testBit_flagNumber _ t k⟩
  · unfold State.flag
    rw [same, link_openEvent]
    refine ⟨noFlags_has, rfl, rfl, readAttention_enables _, rfl, rfl, rfl, readAttention_attentionLine _, fun none => ?_⟩
    have zeros := (encFlags_eq _).symm.trans (encFlags_of_not_pending none)
    simp only [List.cons.injEq, and_true] at zeros
    obtain ⟨a, b, c, d⟩ := zeros
    exact ⟨a, b, c, d, readAttention_of_not_pending none⟩

end Sys2Proof.Machine
end
